-- ==== Sys2Proof/Word.lean ====
section
/-! DEFINITION. The words of the ColibriNANO spectrum core and their plainest arithmetic (spec 00 R7-R9, 30 R140). -/

namespace Sys2Proof

/-- A byte lane of the host bus (20 R82). -/
abbrev Byte := BitVec 8

/-- A 32-bit word: a register, a command word, bus data (20 R81). -/
abbrev Word := BitVec 32

/-- A binary32 value, held as its 32-bit pattern (00 R9). -/
abbrev F32 := BitVec 32

/-- One complex sample, 64 bits: `re` in bits 31..0 and `im` in bits 63..32 (30 R140). -/
structure Sample where
  re : F32
  im : F32
deriving DecidableEq, Repr

/-- The 64-bit pattern of a sample (30 R140). -/
def Sample.bits (x : Sample) : BitVec 64 := x.im ++ x.re

/-- `ispow2 n` holds iff `n = 2^k` for some `k ≥ 0` (00 R7): so of 1, and not of 0. -/
def ispow2 (n : Nat) : Bool := n == 2 ^ n.log2

/-- `roundup n`, for `n ≥ 1`, is the least power of two that is at least `n` (00 R7).
`roundup 0` is not defined by the spec, and no rule applies it: every size request of 0 fails first. -/
def roundup (n : Nat) : Nat := if n ≤ 1 then 1 else 2 ^ ((n - 1).log2 + 1)

end Sys2Proof
end

