-- ==== Sys2Proof/Config.lean ====
section
/-! DEFINITION. The instance parameters (spec 00 R6) and the values the spec leaves open. -/

namespace Sys2Proof

/-- The RAMs of the block (20 R80). The ROM `TW` is no RAM: it is a constant function (10 R35). -/
inductive MemId
  | rbmem
  | blk
  | win
  | snap
deriving DecidableEq, Repr

/-- The parameters an instance of the hardware is built with (00 R6). They stand in State and no transition
changes them, so that a statement about every state is one about every instance. -/
structure Params where
  /-- `LOG2_NMAX` -/
  log2Nmax : Nat
  /-- `N_RESET` -/
  nReset : Nat
  /-- `CW` -/
  cw : Nat
  /-- `SYNC_STAGES` -/
  syncStages : Nat
  /-- `F_CLK` in Hz -/
  fClk : Nat
  /-- `TICK_PERIOD_RESET` in `clk` cycles -/
  tickPeriodReset : Nat
deriving DecidableEq, Repr

/-- `NMAX = 2^LOG2_NMAX` (00 R6). -/
def Params.nmax (P : Params) : Nat := 2 ^ P.log2Nmax

/-- The legal values of the parameters, the table of 00 R6. -/
abbrev Params.legal (P : Params) : Prop :=
  P.log2Nmax ≤ 16 ∧ ispow2 P.nReset = true ∧ P.nReset ≤ P.nmax ∧ P.log2Nmax + 2 ≤ P.cw ∧ P.cw ≤ 32 ∧
    2 ≤ P.syncStages ∧ 0 < P.fClk ∧ 1 ≤ P.tickPeriodReset ∧ P.tickPeriodReset ≤ 2 ^ 32 - 1

/-- FREE VALUE. The platform's core-clock frequency less one: 00 R6 gives `F_CLK` as "OPEN (platform)" and greater
than 0, so it is this constant plus one (log 1). -/
opaque Config.fClkPred : Nat

/-- FREE VALUE. What a byte that nothing has written since the latest reset reads as: an arbitrary value, one per
location and power-on (93 U1, 10 R46; log 3). The first argument is State's `epoch`. -/
opaque Config.unwritten : Nat → MemId → Nat → Byte

/-- FREE VALUE, never consulted for a binary32 input (log 9): which end of its enclosure a logarithm rounds to, where the two
ends round apart. -/
opaque Config.lnUpper : F32 → Bool

/-- FREE VALUE, never consulted for a legal size (log 9): which end of its enclosure the window coefficient of a size and an
index rounds to, where the two ends round apart. -/
opaque Config.wcoefUpper : Nat → Nat → Bool

/-- The default `TICK_PERIOD_RESET`: `round(0.050 × F_CLK)` clamped to `1 .. 2^32 - 1` (00 R6).
DESIGN CHOICE (log 1): a half is rounded up. -/
def defaultTickPeriod (fClk : Nat) : Nat := max 1 (min ((fClk + 10) / 20) (2 ^ 32 - 1))

/-- The default instance: the last column of the table of 00 R6. -/
def Config.default : Params where
  log2Nmax := 12
  nReset := 4096
  cw := 16
  syncStages := 2
  fClk := Config.fClkPred + 1
  tickPeriodReset := defaultTickPeriod (Config.fClkPred + 1)

end Sys2Proof
end

