-- ==== Sys2Proof/Syntax.lean ====
section
/-! DEFINITION. The transactions of the block: one constructor per row of spec/opcode_table.json (30 R120, R123, R139),
and the signal records of its ports (30 R139). -/

namespace Sys2Proof

/-- A transaction with the block (30 R120). A command's operand is not in its word: it is the value latched from `ARG`
into `CUR.arg` (30 R124), so a command carries none. -/
inductive Instr
  /-- `RB_RESIZE` (40 R152) -/
  | rbResize
  /-- `RB_READALL` (40 R154) -/
  | rbReadall
  /-- `RB_READY` (40 R156) -/
  | rbReady
  /-- `FFT_SETSIZE` (41 R201) -/
  | fftSetsize
  /-- `FFT_PROCESS` (41 R202): `.FWD` for `fwd = true`, `.INV` for `fwd = false` -/
  | fftProcess (fwd : Bool)
  /-- `WIN_SETSIZE` (42 R241) -/
  | winSetsize
  /-- `WIN_PROCESS` (42 R246) -/
  | winProcess
  /-- `ENG_SETSIZE` (43 R271) -/
  | engSetsize
  /-- `OPEN` (43 R272) -/
  | openEng
  /-- `CLOSE` (43 R273) -/
  | closeEng
  /-- `IS_OPEN` (43 R274) -/
  | isOpen
  /-- `TICK_ONCE` (43 R275) -/
  | tickOnce
  /-- `SHIFT` (43 R276) -/
  | shift
  /-- `LOGPOW` (43 R277) -/
  | logpow
  /-- `BUS_READ addr` (20 R85) -/
  | busRead (addr : Nat)
  /-- `BUS_WRITE addr, v` with its byte strobes (20 R86) -/
  | busWrite (addr : Nat) (v : Word) (wstrb : BitVec 4)
  /-- `PUT re, im` (40 R160) -/
  | put (re im : F32)
  /-- `OVLSET b` (43 R320) -/
  | ovlset (b : Bool)
deriving DecidableEq, Repr

/-- The host bus port for one access (30 R139). -/
structure BusSignals where
  valid : Bool
  write : Bool
  addr : BitVec 21
  wdata : Word
  wstrb : BitVec 4
deriving DecidableEq, Repr

/-- The sample channel of the producer port at one `wr_clk` edge (30 R139). -/
structure SampleSignals where
  valid : Bool
  re : F32
  im : F32
deriving DecidableEq, Repr

/-- The overload channel of the producer port at one `wr_clk` edge (30 R139). -/
structure OverloadSignals where
  valid : Bool
  value : Bool
deriving DecidableEq, Repr

/-- What a transaction looks like where it enters the block: a command word in `CMD`, or signals at a port. -/
inductive Encoded
  | command (w : Word)
  | bus (b : BusSignals)
  | sample (p : SampleSignals)
  | overload (o : OverloadSignals)
deriving DecidableEq, Repr

end Sys2Proof
end

