-- ==== Sys2Proof/WellFormed.lean ====
section
/-! DEFINITION. Which transactions have an encoding. A command takes no immediate (30 R122) and the other operands have
their port's width, so the one check is that a bus address fits `bus_addr[20:0]` (20 R80, 30 R139). A misaligned address
or a partial strobe is well formed: the block sees it and rejects it (20 R83). -/

namespace Sys2Proof

/-- The size of the host bus space in bytes (20 R80). -/
def busSpace : Nat := 2 ^ 21

/-- The transaction has an encoding. -/
def Instr.wf : Instr → Bool
  | .rbResize => true
  | .rbReadall => true
  | .rbReady => true
  | .fftSetsize => true
  | .fftProcess _ => true
  | .winSetsize => true
  | .winProcess => true
  | .engSetsize => true
  | .openEng => true
  | .closeEng => true
  | .isOpen => true
  | .tickOnce => true
  | .shift => true
  | .logpow => true
  | .busRead addr => decide (addr < busSpace)
  | .busWrite addr _ _ => decide (addr < busSpace)
  | .put _ _ => true
  | .ovlset _ => true

end Sys2Proof
end

