-- ==== Sys2Proof/Decode.lean ====
section
/-! DEFINITION. Decoding of command words (30 R122, R123) and of port signals (30 R139), the encoder written from the same
tables, and the host's numbering of a table word. -/

namespace Sys2Proof

/-- Why an encoding stands for no transaction. The three word reasons are the three lines of 30 R123's `decode`; on all of
them the block answers `ILLEGAL_CMD`. -/
inductive DecodeError
  /-- bits 31..9 are not all 0 -/
  | reservedBits
  /-- bits 7..0 are no opcode of the map -/
  | unknownOpcode
  /-- bit 8 is 1 on an opcode other than `FFT_PROCESS` -/
  | strayFlag
  /-- fewer than four bytes -/
  | truncated
  /-- the port's valid signal is 0, so no transaction is offered -/
  | notOffered
deriving DecidableEq, Repr

/-- `OP`, bits 7..0 of a command word (30 R122). -/
def opField (w : Word) : BitVec 8 := w.extractLsb' 0 8

/-- `F`, bit 8 of a command word (30 R122). -/
def fField (w : Word) : Bool := w.getLsbD 8

/-- The reserved bits 31..9 of a command word (30 R122). -/
def reservedField (w : Word) : BitVec 23 := w.extractLsb' 9 23

/-- A row of the opcode map: the command an opcode selects, given the bit `F` (30 R123). -/
structure OpRow where
  op : BitVec 8
  cmd : Bool → Instr

/-- The opcode map of 30 R123, in its order. -/
def opTable : List OpRow :=
  [⟨0x10, fun _ => .rbResize⟩, ⟨0x11, fun _ => .rbReadall⟩, ⟨0x12, fun _ => .rbReady⟩,
   ⟨0x20, fun _ => .fftSetsize⟩, ⟨0x21, .fftProcess⟩,
   ⟨0x30, fun _ => .winSetsize⟩, ⟨0x31, fun _ => .winProcess⟩,
   ⟨0x40, fun _ => .engSetsize⟩, ⟨0x41, fun _ => .openEng⟩, ⟨0x42, fun _ => .closeEng⟩, ⟨0x43, fun _ => .isOpen⟩,
   ⟨0x44, fun _ => .tickOnce⟩, ⟨0x45, fun _ => .shift⟩, ⟨0x46, fun _ => .logpow⟩]

/-- `decode(CUR)` of 30 R123: the checks in its order, then the row's command. -/
def decodeWord (w : Word) : Except DecodeError Instr :=
  if reservedField w ≠ 0 then .error .reservedBits
  else
    match opTable.find? (fun r => r.op == opField w) with
    | none => .error .unknownOpcode
    | some r => if fField w = true ∧ opField w ≠ 0x21 then .error .strayFlag else .ok (r.cmd (fField w))

/-- The word of four bytes, lowest address first (20 R82). -/
def wordOfBytes (b0 b1 b2 b3 : Byte) : Word := b3 ++ b2 ++ b1 ++ b0

/-- The four bytes of a word, lowest address first (20 R82). -/
def bytesOfWord (w : Word) : List Byte :=
  [w.extractLsb' 0 8, w.extractLsb' 8 8, w.extractLsb' 16 8, w.extractLsb' 24 8]

/-- Decoding of a command from bytes laid out as the bus lays them out; the rest of the bytes is given back (30 R144: every
command is one 32-bit word). -/
def decodeBytes : List Byte → Except DecodeError (Instr × List Byte)
  | b0 :: b1 :: b2 :: b3 :: rest => (decodeWord (wordOfBytes b0 b1 b2 b3)).map (fun i => (i, rest))
  | _ => .error .truncated

/-- The host access a bus port shows (30 R139). -/
def decodeBus (b : BusSignals) : Except DecodeError Instr :=
  if b.valid then
    .ok (if b.write then .busWrite b.addr.toNat b.wdata b.wstrb else .busRead b.addr.toNat)
  else .error .notOffered

/-- The sample beat the producer port offers (30 R139). -/
def decodeSample (p : SampleSignals) : Except DecodeError Instr :=
  if p.valid then .ok (.put p.re p.im) else .error .notOffered

/-- The overload update the producer port offers (30 R139). -/
def decodeOverload (o : OverloadSignals) : Except DecodeError Instr :=
  if o.valid then .ok (.ovlset o.value) else .error .notOffered

/-- Decoding of a transaction wherever it enters the block. -/
def decode : Encoded → Except DecodeError Instr
  | .command w => decodeWord w
  | .bus b => decodeBus b
  | .sample p => decodeSample p
  | .overload o => decodeOverload o

/-- The command word of an opcode and a flag, `OP | (F << 8)` (30 R143). -/
def commandWord (op : BitVec 8) (f : Bool) : Word := (0 : BitVec 23) ++ BitVec.ofBool f ++ op

/-- The encoding of a transaction (30 R122, R123, R139). The data signals a bus read does not use are 0. -/
def encode : Instr → Encoded
  | .rbResize => .command (commandWord 0x10 false)
  | .rbReadall => .command (commandWord 0x11 false)
  | .rbReady => .command (commandWord 0x12 false)
  | .fftSetsize => .command (commandWord 0x20 false)
  | .fftProcess fwd => .command (commandWord 0x21 fwd)
  | .winSetsize => .command (commandWord 0x30 false)
  | .winProcess => .command (commandWord 0x31 false)
  | .engSetsize => .command (commandWord 0x40 false)
  | .openEng => .command (commandWord 0x41 false)
  | .closeEng => .command (commandWord 0x42 false)
  | .isOpen => .command (commandWord 0x43 false)
  | .tickOnce => .command (commandWord 0x44 false)
  | .shift => .command (commandWord 0x45 false)
  | .logpow => .command (commandWord 0x46 false)
  | .busRead addr => .bus ⟨true, false, BitVec.ofNat 21 addr, 0, 0⟩
  | .busWrite addr v wstrb => .bus ⟨true, true, BitVec.ofNat 21 addr, v, wstrb⟩
  | .put re im => .sample ⟨true, re, im⟩
  | .ovlset b => .overload ⟨true, b⟩

/-- The instruction the decoder reads from a table word of `nbits` bits: the bits above `nbits` are 0, the word is laid out in
bytes as the bus lays it out, and an instruction that needs bits above 31 does not exist (30 R144). -/
def decodeTableWord (nbits w : Nat) : Option Instr :=
  let v := w % 2 ^ nbits
  if v < 2 ^ 32 then
    match decodeBytes (bytesOfWord (BitVec.ofNat 32 v)) with
    | .ok (i, _) => some i
    | .error _ => none
  else none

end Sys2Proof
end

