-- ==== Sys2Proof/Machine/State.lean ====
section
/-! DEFINITION. The state of the block (spec file 10), why a step can stop, and the state right after reset (10 R45). -/

namespace Sys2Proof.Machine

/-- A RAM of the block: the bytes written since the latest reset, as (byte address, byte) pairs. An address it does not
list reads as a free value (93 U1), so the one condition of its canonical form is `Memory.wf` (log 3). -/
abbrev Memory := List Host.Cell

/-- The canonical form of a RAM: addresses strictly rising. -/
abbrev Memory.wf (m : Memory) : Prop := m.Pairwise (fun a b => a.1 < b.1)

/-- `TICK_STAGE` (10 R38). `END` is not one: it is a label of 43 R313. -/
inductive TickStage
  | idle
  | drain
  | window
  | fft
  | shift
  | lock
  | log (i : Nat)
  | publish
deriving DecidableEq, Repr

/-- `LOCK_OWNER` (10 R39). -/
inductive LockOwner
  | none
  | host
  | engine
deriving DecidableEq, Repr

/-- The reason codes of 30 R127 that exist; 7 to 15 are never produced (93 U4). -/
inductive Reason
  | ok
  | configZero
  | configRange
  | sizeMismatch
  | notReady
  | wrongState
  | illegalCmd
deriving DecidableEq, Repr

/-- How far the command in `CUR` has come. The MODEL's own (log 5): 20 R92 makes five commands take several transitions,
and this says which of them is next. -/
inductive CmdPhase
  /-- the command has performed no transition yet -/
  | start
  /-- `WIN_SETSIZE`, `ENG_SETSIZE`: the request is accepted, and `WIN[i]` of size `c` is computed next, or with `i = c` the
  sizes are set (42 R241, 43 R271) -/
  | winFill (c i : Nat)
  /-- `LOGPOW`: the lock is held and `SNAP[i]` is computed next (43 R277) -/
  | logFill (i : Nat)
  /-- `TICK_ONCE`: `wait until TICK_STAGE = IDLE` (43 R275) -/
  | tickWait
  /-- `CLOSE`: `wait until TICK_STAGE = IDLE` (43 R273) -/
  | closeWait
deriving DecidableEq, Repr

/-- Whose turn it is: one entry of the schedule (00 R11: "Each agent may be scheduled at any step in which it has an
enabled transition"; log 2). A turn whose agent has no enabled transition changes nothing. -/
inductive Turn
  /-- the host port completes the access it is offered (20 R85, R86) -/
  | host
  /-- the producer's sample beat as one transaction (40 R160) -/
  | beat
  /-- the producer's overload update (43 R320) -/
  | overload
  /-- the command path performs a transition of the command in `CUR` (43 R270) -/
  | command
  /-- the tick path performs a stage (43 R305-R313) -/
  | tick
  /-- the initialisation performs a transition (70 R381) -/
  | init
  /-- the core domain asks for the freeze that the pending drain or resize needs (40 R171, R176) -/
  | freeze
  /-- a rising edge of `wr_clk` (40 R170, R171) -/
  | wrEdge
  /-- a rising edge of `clk` (40 R172, 43 R300, R321), together with the host access, the command transition and the tick
  transition that fall on the same edge (60 R345) -/
  | clkEdge (host command tick : Bool)
  /-- the oldest beat under way reaches the core domain, and nothing of the overload channel does (00 R12, 20 R91; log 20) -/
  | beatCross
  /-- the oldest overload change under way reaches the core domain, and no beat does (00 R12, 43 R321, 20 R91; log 20) -/
  | overloadCross
  /-- the platform stops `wr_clk` (70 R394; log 19) -/
  | wrStop
  /-- the platform lets `wr_clk` run again (70 R394; log 19) -/
  | wrStart
  /-- `rst_n` goes low (70 R380, R385) -/
  | rstAssert
  /-- `rst_n` goes high (70 R380) -/
  | rstRelease
deriving DecidableEq, Repr

/-- The state of the block. Cursors and counters of `CW` bits are naturals kept below `2^CW` (`Safety.Inv`), because `CW`
is a parameter of the instance (00 R6). -/
structure State where
  /-- instance parameters (00 R6) -/
  params : Params
  /-- `RBMEM` (10 R32), byte address `8·i` for Sample `i` -/
  rbmem : Memory
  /-- `BLK` (10 R37), byte address `8·i` for Sample `i` -/
  blk : Memory
  /-- `WIN` (10 R36), byte address `4·i` for coefficient `i` -/
  win : Memory
  /-- `SNAP` (10 R39), byte address `4·i` for value `i` -/
  snap : Memory
  /-- the MODEL's own: which power-on content unwritten bytes hold (93 U1; log 3) -/
  epoch : Nat
  /-- `RB_CAP` (10 R32) -/
  rbCap : Nat
  /-- `RB_WCUR` (10 R32) -/
  rbWcur : Nat
  /-- `RB_RCUR` (10 R32) -/
  rbRcur : Nat
  /-- `RB_ACC` (10 R32) -/
  rbAcc : Nat
  /-- `RB_GATE` (10 R32) -/
  rbGate : Bool
  /-- `FFT_N` (10 R34) -/
  fftN : Nat
  /-- `WIN_N` (10 R36) -/
  winN : Nat
  /-- `ENG_N` (10 R38) -/
  engN : Nat
  /-- `OPEN` (10 R38) -/
  opened : Bool
  /-- `CLOSING` (10 R38) -/
  closing : Bool
  /-- `TICK_STAGE` (10 R38) -/
  tickStage : TickStage
  /-- `TICK_BY_CMD` (10 R38) -/
  tickByCmd : Bool
  /-- `TICK_PENDING` (10 R38) -/
  tickPending : Bool
  /-- `TIMER_CNT` (10 R38) -/
  timerCnt : Word
  /-- `TICK_PERIOD` (10 R38) -/
  tickPeriod : Word
  /-- `TICK_COUNT` (10 R38) -/
  tickCount : Word
  /-- `SKIP_STALE`, the field of `CTRL` (10 R38, 30 R129) -/
  skipStale : Bool
  /-- `DRAIN_OK` (10 R38) -/
  drainOk : Bool
  /-- `SNAP_VALID` (10 R39) -/
  snapValid : Bool
  /-- `LOCK_OWNER` (10 R39) -/
  lockOwner : LockOwner
  /-- `OVL_W` (10 R40) -/
  ovlW : Bool
  /-- `OVL_WCNT` (10 R40) -/
  ovlWcnt : Nat
  /-- `OVL_CNT` (10 R40) -/
  ovlCnt : Nat
  /-- `BUSY` (10 R41) -/
  busy : Bool
  /-- `ARG` (10 R41) -/
  arg : Word
  /-- `CUR.word` (30 R121); `CUR.op` and `CUR.f` are fields of it -/
  curWord : Word
  /-- `CUR.arg` (10 R41) -/
  curArg : Word
  /-- `RESULT.REASON` (10 R41) -/
  resReason : Reason
  /-- `RESULT.OPCODE` (10 R41) -/
  resOpcode : BitVec 8
  /-- `RVAL` (10 R41) -/
  rval : Word
  /-- `ERR`: bit 0 `CMD_OVERRUN`, bit 1 `ACCESS` (10 R41, 30 R132) -/
  err : BitVec 2
  /-- `IRQ_STATUS`: bit 0 `SPEC`, bit 1 `OVL` (10 R42, 30 R133) -/
  irqStatus : BitVec 2
  /-- `IRQ_ENABLE`: bit 0 `SPEC`, bit 1 `OVL` (10 R42, 30 R133) -/
  irqEnable : BitVec 2
  /-- `WPTR_W` (10 R44) -/
  wptrW : Nat
  /-- `WPTR_G` (10 R44) -/
  wptrG : Nat
  /-- the synchroniser of `WPTR_G` into `clk`, newest flip-flop first (10 R44) -/
  wsync : List Nat
  /-- `WSYNC_Q` (10 R44) -/
  wsyncQ : Nat
  /-- `OVL_G` (10 R44) -/
  ovlG : Nat
  /-- the synchroniser of `OVL_G` into `clk`, newest flip-flop first (10 R44) -/
  ovlSync : List Nat
  /-- `FREEZE_REQ` (10 R44) -/
  freezeReq : Bool
  /-- the synchroniser of `FREEZE_REQ` into `wr_clk`, newest flip-flop first (10 R44) -/
  reqSync : List Bool
  /-- `FREEZE_ACK` (10 R44) -/
  freezeAck : Bool
  /-- the synchroniser of `FREEZE_ACK` into `clk`, newest flip-flop first (10 R44) -/
  ackSync : List Bool
  /-- `CLR_REQ` (10 R44) -/
  clrReq : Bool
  /-- `FROZEN` (10 R44) -/
  frozen : Bool
  /-- `INIT_BUSY` (10 R44) -/
  initBusy : Bool
  /-- the MODEL's own: progress of the command in `CUR` (log 5) -/
  cmdPhase : CmdPhase
  /-- the MODEL's own: window coefficients the initialisation has written (70 R381; log 5) -/
  initPos : Nat
  /-- the MODEL's own: `clk` edges seen since the synchronised `FREEZE_ACK` rose (40 R171; log 5) -/
  settleCnt : Nat
  /-- the pin `rst_n` (70 R380) -/
  rstN : Bool
  /-- the producer domain is in reset (70 R380) -/
  rstW : Bool
  /-- the core domain is in reset (70 R380) -/
  rstC : Bool
  /-- the platform's `wr_clk` runs (70 R394, R400; log 19) -/
  wrRuns : Bool
  /-- the data last driven on `bus_rdata` (30 R139) -/
  busRdata : Word
  /-- host accesses offered at the bus port, next one first (log 2) -/
  busQ : List BusSignals
  /-- sample beats offered at the producer port, next one first (log 2) -/
  beatQ : List SampleSignals
  /-- overload updates offered at the producer port, next one first (log 2) -/
  ovlQ : List OverloadSignals
  /-- the agents' turns still to come, next one first (log 2) -/
  sched : List Turn
deriving DecidableEq, Repr

/-- Why a step can stop in a fault. The block itself "never traps, halts or stops" (60 R340): both faults stand for runs
outside the specified clock ratio (40 R173, 70 R397, 93 U5). -/
inductive Fault
  /-- Raised by accepting a beat (`PUT`, a `wr_clk` edge) when `2^(CW-1)` or more beats would be accepted and not yet
  counted, unless a resize has suspended the count (40 R176). Safe: the spec does not define the block there (log 7). -/
  | beatRate
  /-- Raised by `OVLSET` or a `wr_clk` edge when `2^(CW-1)` or more overload changes would be between the two domains.
  Safe: the spec does not define the block there (43 R321; log 7). -/
  | overloadRate
deriving DecidableEq, Repr

/-- Why a step can be refused. -/
inductive Refusal
  /-- Raised by `exec` for an instruction that has no meaning yet. Safe: nothing can be proved of it. -/
  | notModelled (mnemonic : String)
deriving DecidableEq, Repr

/-- The state of an instance with parameters `P` right after a reset, with the power-on contents of `epoch`
(10 R45; 70 R380, R381: the initialisation then runs). -/
def State.resetWith (P : Params) (epoch : Nat) : State where
  params := P
  rbmem := []
  blk := []
  win := []
  snap := []
  epoch := epoch
  rbCap := P.nReset
  rbWcur := 0
  rbRcur := 0
  rbAcc := 0
  rbGate := false
  fftN := P.nReset
  winN := P.nReset
  engN := P.nReset
  opened := false
  closing := false
  tickStage := .idle
  tickByCmd := false
  tickPending := false
  timerCnt := 0
  tickPeriod := BitVec.ofNat 32 P.tickPeriodReset
  tickCount := 0
  skipStale := false
  drainOk := false
  snapValid := false
  lockOwner := .none
  ovlW := false
  ovlWcnt := 0
  ovlCnt := 0
  busy := true
  arg := 0
  curWord := 0
  curArg := 0
  resReason := .ok
  resOpcode := 0
  rval := 0
  err := 0
  irqStatus := 0
  irqEnable := 0
  wptrW := 0
  wptrG := 0
  wsync := List.replicate P.syncStages 0
  wsyncQ := 0
  ovlG := 0
  ovlSync := List.replicate P.syncStages 0
  freezeReq := false
  reqSync := List.replicate P.syncStages false
  freezeAck := false
  ackSync := List.replicate P.syncStages false
  clrReq := false
  frozen := false
  initBusy := true
  cmdPhase := .start
  initPos := 0
  settleCnt := 0
  rstN := true
  rstW := false
  rstC := false
  wrRuns := true
  busRdata := 0
  busQ := []
  beatQ := []
  ovlQ := []
  sched := []

/-- The machine right after reset: the default instance (00 R6, 10 R45). -/
def State.reset : State := State.resetWith Config.default 0

end Sys2Proof.Machine
end

