-- ==== Sys2Proof/Machine/Memory.lean ====
section
/-! DEFINITION. The RAMs of the block (spec 20 R80): reading and writing bytes, words and Samples, little-endian (20 R82). -/

namespace Sys2Proof.Machine

/-- The byte a RAM lists at an address, if any. -/
def Memory.get? (m : Memory) (a : Nat) : Option Byte := (m.find? (fun c => c.1 == a)).map (·.2)

/-- The cells of consecutive bytes from an address on. -/
def Memory.cells : Nat → List Byte → Memory
  | _, [] => []
  | a, b :: bs => (a, b) :: Memory.cells (a + 1) bs

/-- Writes consecutive bytes from `a` on: the cells below, the written ones, the cells above. -/
def Memory.write (m : Memory) (a : Nat) (bs : List Byte) : Memory :=
  m.filter (fun c => decide (c.1 < a)) ++ (Memory.cells a bs ++ m.filter (fun c => decide (a + bs.length ≤ c.1)))

/-- The RAM `id` of a state. -/
def State.ram (s : State) : MemId → Memory
  | .rbmem => s.rbmem
  | .blk => s.blk
  | .win => s.win
  | .snap => s.snap

/-- One byte of a RAM: the written one, else the free value of this power-on (93 U1). -/
def State.byteAt (s : State) (id : MemId) (a : Nat) : Byte :=
  ((s.ram id).get? a).getD (Config.unwritten s.epoch id a)

/-- The 32-bit word at a byte address of a RAM (20 R82). -/
def State.wordAt (s : State) (id : MemId) (a : Nat) : Word :=
  wordOfBytes (s.byteAt id a) (s.byteAt id (a + 1)) (s.byteAt id (a + 2)) (s.byteAt id (a + 3))

/-- The Sample at index `i` of a RAM of Samples: `re` at the lower word address, `im` at the higher (20 R82). -/
def State.sampleAt (s : State) (id : MemId) (i : Nat) : Sample := ⟨s.wordAt id (8 * i), s.wordAt id (8 * i + 4)⟩

/-- `RBMEM[i]` (10 R32). -/
def State.rbmemAt (s : State) (i : Nat) : Sample := s.sampleAt .rbmem i

/-- `BLK[i]` (10 R37). -/
def State.blkAt (s : State) (i : Nat) : Sample := s.sampleAt .blk i

/-- `WIN[i]` (10 R36). -/
def State.winAt (s : State) (i : Nat) : F32 := s.wordAt .win (4 * i)

/-- `SNAP[i]` (10 R39). -/
def State.snapAt (s : State) (i : Nat) : F32 := s.wordAt .snap (4 * i)

/-- The eight bytes of a Sample, lowest address first (30 R140, 20 R82). -/
def sampleBytes (x : Sample) : List Byte := bytesOfWord x.re ++ bytesOfWord x.im

/-- `RBMEM[i] <- x`. -/
def State.setRbmem (s : State) (i : Nat) (x : Sample) : State :=
  { s with rbmem := s.rbmem.write (8 * i) (sampleBytes x) }

/-- `BLK[0 .. n-1] <- xs`, for the `n` Samples of `xs`. -/
def State.setBlock (s : State) (xs : List Sample) : State := { s with blk := s.blk.write 0 (xs.flatMap sampleBytes) }

/-- One 32-bit half of a Sample of `BLK`: `BLK[i].re <- v`, or `BLK[i].im <- v` for `im = true` (20 R86). -/
def State.setBlkWord (s : State) (i : Nat) (im : Bool) (v : Word) : State :=
  { s with blk := s.blk.write (8 * i + if im then 4 else 0) (bytesOfWord v) }

/-- `WIN[i] <- v`. -/
def State.setWin (s : State) (i : Nat) (v : F32) : State := { s with win := s.win.write (4 * i) (bytesOfWord v) }

/-- `SNAP[i] <- v`. -/
def State.setSnap (s : State) (i : Nat) (v : F32) : State := { s with snap := s.snap.write (4 * i) (bytesOfWord v) }

/-- `BLK[0 .. n-1]` as a list. -/
def State.block (s : State) (n : Nat) : List Sample := (List.range n).map s.blkAt

end Sys2Proof.Machine
end

