-- ==== Sys2Proof/Machine/Operands.lean ====
section
/-! DEFINITION. The operand forms (spec 30 R122, R124): the latched command word and argument, the checks the spec makes on a
size and on a length (60 R341, R344), and the ring index of a cursor (40 R151). -/

namespace Sys2Proof.Machine

/-- `CUR.op`, the opcode of the latched command (30 R121). -/
def State.curOp (s : State) : BitVec 8 := opField s.curWord

/-- `CUR.f`, the flag of the latched command (30 R121). -/
def State.curF (s : State) : Bool := fField s.curWord

/-- `CUR.arg` as the unsigned number it is used as (30 R122). -/
def State.argNat (s : State) : Nat := s.curArg.toNat

/-- A size request: 0 fails with `CONFIG_ZERO`, one whose `roundup` exceeds `NMAX` with `CONFIG_RANGE`, any other asks for its
`roundup` (40 R152, 60 R341, R344). -/
def sizeRequest (P : Params) (n : Nat) : Except Reason Nat :=
  if n = 0 then .error .configZero
  else if roundup n > P.nmax then .error .configRange
  else .ok (roundup n)

/-- The ring index a cursor designates: `c & (RB_CAP - 1)` (40 R151). -/
def ringIndex (cap c : Nat) : Nat := c &&& (cap - 1)

/-- `(a - b) mod 2^cw` for two counters of `cw` bits (40 R172). -/
def counterDelta (cw a b : Nat) : Nat := (a + 2 ^ cw - b) % 2 ^ cw

/-- `(c + 1) mod 2^cw` (40 R160). -/
def counterNext (cw c : Nat) : Nat := (c + 1) % 2 ^ cw

end Sys2Proof.Machine
end

