-- ==== Sys2Proof/Machine/Flags.lean ====
section
/-! DEFINITION. The status flags of spec 10 R43: what sets, clears and reads each of them. -/

namespace Sys2Proof.Machine

/-- `OVL = OVL_CNT[0]` (10 R40, 43 R322). -/
def State.ovl (s : State) : Bool := s.ovlCnt.testBit 0

/-- The count and the gate after `d` more samples: `RB_ACC <- min(RB_CAP, RB_ACC + d)` and
`RB_GATE <- (RB_ACC = RB_CAP)` (40 R160, R172). -/
def State.accumulate (s : State) (d : Nat) : State :=
  { s with rbAcc := min s.rbCap (s.rbAcc + d), rbGate := decide (min s.rbCap (s.rbAcc + d) = s.rbCap) }

/-- `raise_irq(SPEC)` (60 R351). -/
def State.raiseSpec (s : State) : State := { s with irqStatus := s.irqStatus ||| 1#2 }

/-- `raise_irq(OVL)` (60 R351). -/
def State.raiseOvl (s : State) : State := { s with irqStatus := s.irqStatus ||| 2#2 }

/-- `ERR.CMD_OVERRUN <- 1` (60 R342). -/
def State.setOverrun (s : State) : State := { s with err := s.err ||| 1#2 }

/-- `ERR.ACCESS <- 1` (60 R343). -/
def State.setAccess (s : State) : State := { s with err := s.err ||| 2#2 }

/-- Write-1-to-clear of a two-bit register (60 R353). -/
def clearOnes (r : BitVec 2) (v : Word) : BitVec 2 := r &&& ~~~(v.extractLsb' 0 2)

/-- A domain is in reset (70 R380: "while either domain is in reset"). -/
def State.inReset (s : State) : Bool := s.rstW || s.rstC

/-- The interrupt output (60 R352); 0 while either domain is in reset (70 R380). -/
def State.irq (s : State) : Bool := !s.inReset && (s.irqStatus &&& s.irqEnable != 0#2)

/-- `s_ready`: 0 while the producer is frozen (40 R175) and while a domain is in reset (70 R380). -/
def State.sReady (s : State) : Bool := !s.frozen && !s.inReset

/-- The code a bit reads as. -/
def bitWord (b : Bool) : Word := BitVec.zeroExtend 32 (BitVec.ofBool b)

/-- The code of `LOCK_OWNER` (30 R130, R135). -/
def LockOwner.code : LockOwner → Word
  | .none => 0
  | .host => 1
  | .engine => 2

/-- The reason codes (30 R127). -/
def Reason.code : Reason → Word
  | .ok => 0
  | .configZero => 1
  | .configRange => 2
  | .sizeMismatch => 3
  | .notReady => 4
  | .wrongState => 5
  | .illegalCmd => 6

/-- `STATUS` (30 R130). -/
def State.statusWord (s : State) : Word :=
  bitWord s.busy ||| bitWord s.opened <<< 1 ||| bitWord s.rbGate <<< 2 ||| bitWord s.snapValid <<< 3 |||
    bitWord (decide (s.tickStage ≠ .idle)) <<< 4 ||| bitWord s.ovl <<< 5 ||| bitWord s.closing <<< 6 |||
    bitWord s.initBusy <<< 7 ||| s.lockOwner.code <<< 8

/-- `RESULT` (30 R125). -/
def State.resultWord (s : State) : Word := s.resReason.code ||| BitVec.zeroExtend 32 s.resOpcode <<< 8

/-- `PARAM` (30 R131). -/
def paramWord (P : Params) : Word :=
  BitVec.zeroExtend 32 (BitVec.ofNat 5 P.log2Nmax) ||| BitVec.zeroExtend 32 (BitVec.ofNat 6 P.cw) <<< 8 ||| 1#32 <<< 24

end Sys2Proof.Machine
end

