-- ==== Sys2Proof/Machine/Crossing.lean ====
section
/-! DEFINITION. The crossing between the producer domain and the core domain (spec 40 R170-R176, 43 R320, R321): the gray code,
what each clock edge does to the realisation state of 10 R44, and the same crossing taken as one transition (00 R12). -/

namespace Sys2Proof.Machine

/-- `gray(b) = b ^ (b >> 1)` (40 R174). -/
def gray (b : Nat) : Nat := b ^^^ (b >>> 1)

/-- Bits `k-1 .. 0` of the inverse of the gray code, given the bit above them: `b[i] = b[i+1] ^ g[i]` (40 R174). -/
def grayInverse : Nat → Bool → Nat → Nat
  | 0, _, _ => 0
  | k + 1, above, g => (above ^^ g.testBit k).toNat * 2 ^ k + grayInverse k (above ^^ g.testBit k) g

/-- `gray2bin(g)` of `cw` bits: `b[CW-1] = g[CW-1]`, then downwards (40 R174). -/
def gray2bin (cw g : Nat) : Nat := grayInverse cw false g

/-- A synchroniser after an edge at which `v` stood at its input (10 R44). -/
def shiftIn {α : Type} (v : α) (chain : List α) : List α := (v :: chain).dropLast

/-- The output of a synchroniser: its last flip-flop. -/
def syncOut {α : Type} (d : α) (chain : List α) : α := chain.getLastD d

/-- How many beats are accepted and not yet counted in the core domain (40 R172). -/
def State.beatsInFlight (s : State) : Nat := counterDelta s.params.cw s.wptrW s.wsyncQ

/-- How many overload changes have not reached the core domain (43 R321). -/
def State.changesInFlight (s : State) : Nat := counterDelta s.params.cw s.ovlWcnt s.ovlCnt

/-- The producer domain accepts a beat: `RBMEM[WPTR_W & (RB_CAP - 1)]` is written and the write pointer and its gray code advance
(40 R170); nothing at all for a capacity of 0 (40 R160, R161). Beyond the clock-ratio bound of 40 R173 it is a fault
(log 7). While `CLR_REQ = 1` no beat is counted (40 R176) and the resize discards every one accepted so far (40 R153), so the
bound, which is about the count, does not apply. -/
def acceptBeat (x : Sample) (s : State) : Host.Outcome State Fault Refusal :=
  if s.rbCap = 0 then .next s
  else if s.clrReq = false ∧ 2 ^ (s.params.cw - 1) ≤ s.beatsInFlight + 1 then .fault .beatRate
  else
    let w := counterNext s.params.cw s.wptrW
    .next { s.setRbmem (ringIndex s.rbCap s.wptrW) x with wptrW := w, wptrG := gray w }

/-- The core domain takes the write cursor `w` it sees: the beats since `WSYNC_Q` are counted and linearized (40 R172);
suspended while `CLR_REQ = 1` (40 R176). -/
def takeCursor (w : Nat) (s : State) : State :=
  if s.clrReq then s
  else { s.accumulate (counterDelta s.params.cw w s.wsyncQ) with rbWcur := w, wsyncQ := w }

/-- The sample crossing at a `clk` edge: the decoded synchroniser output is taken (40 R172), then the synchroniser shifts. -/
def crossBeats (s : State) : State :=
  { takeCursor (gray2bin s.params.cw (syncOut 0 s.wsync)) s with wsync := shiftIn s.wptrG s.wsync }

/-- Every beat accepted so far crosses: what `SYNC_STAGES + 1` edges of `crossBeats` come to while no beat is accepted (40 R171, R172;
log 10). -/
def settleBeats (s : State) : State :=
  if s.clrReq then s
  else { takeCursor s.wptrW s with wsync := List.replicate s.params.syncStages s.wptrG }

/-- The overload update of the producer domain (43 R320). Beyond the bound of 40 R173 it is a fault (43 R321; log 7). -/
def overloadUpdate (b : Bool) (s : State) : Host.Outcome State Fault Refusal :=
  if b = s.ovlW then .next s
  else if 2 ^ (s.params.cw - 1) ≤ s.changesInFlight + 1 then .fault .overloadRate
  else
    let c := counterNext s.params.cw s.ovlWcnt
    .next { s with ovlW := b, ovlWcnt := c, ovlG := gray c }

/-- The overload crossing at a `clk` edge (43 R321), then its synchroniser shifts. -/
def crossOverload (s : State) : State :=
  let oc := gray2bin s.params.cw (syncOut 0 s.ovlSync)
  let s' := if oc ≠ s.ovlCnt then { s.raiseOvl with ovlCnt := oc } else s
  { s' with ovlSync := shiftIn s.ovlG s.ovlSync }

/-- A synchroniser once the value after `old` has come through: nothing in it still shows `old`. -/
def passOn (old new : Nat) (chain : List Nat) : List Nat := chain.map fun g => if g = old then new else g

/-- The oldest beat under way reaches the core domain and is linearized there (00 R12, 40 R172); suspended while `CLR_REQ = 1`
(40 R176). The two channels cross independently (20 R91), so this moves the sample channel alone (log 20). -/
def crossOneBeat (s : State) : State :=
  if s.clrReq = true ∨ s.beatsInFlight = 0 then s
  else
    let w := counterNext s.params.cw s.wsyncQ
    { takeCursor w s with wsync := passOn (gray s.wsyncQ) (gray w) s.wsync }

/-- The oldest overload change under way reaches the core domain: `OVL_CNT <- OVL_CNT + 1` and `raise_irq(OVL)`, one transition
(43 R321). It moves the overload channel alone (20 R91; log 20). -/
def crossOneChange (s : State) : State :=
  if s.changesInFlight = 0 then s
  else
    let c := counterNext s.params.cw s.ovlCnt
    { s.raiseOvl with ovlCnt := c, ovlSync := passOn (gray s.ovlCnt) (gray c) s.ovlSync }

/-- Where the freeze handshake of 40 R171 stands, as the core domain sees it. -/
inductive Freeze
  /-- no handshake is under way and `wr_clk` runs: a freeze may be taken as one transition -/
  | idle
  /-- a handshake is under way, or none can begin because `wr_clk` is stopped: the drain or resize waits -/
  | waiting
  /-- the producer is frozen and its cursor has settled: the linearization point -/
  | held
deriving DecidableEq, Repr

/-- Nothing of a handshake is under way: the producer is not frozen, and no request and no acknowledgement is up or still on
its way (40 R171). -/
def State.noHandshake (s : State) : Bool :=
  !(s.freezeReq || s.frozen || s.freezeAck || s.ackSync.any id || s.reqSync.any id)

/-- The state of the handshake (40 R171). A new freeze waits until the acknowledgement of the old one is seen low. With `wr_clk`
stopped no freeze is taken as one transition, since its handshake would never complete (70 R394; log 19). -/
def State.freeze (s : State) : Freeze :=
  if s.freezeReq then (if s.params.syncStages + 1 ≤ s.settleCnt then .held else .waiting)
  else if s.noHandshake && !s.clrReq && s.wrRuns then .idle
  else .waiting

/-- The core domain asks for a freeze: for a resize `CLR_REQ <- 1` one edge before `FREEZE_REQ <- 1` (40 R171, R176). It can ask
while `wr_clk` is stopped, and is then not answered (70 R394). -/
def requestFreeze (clr : Bool) (s : State) : State :=
  if !s.noHandshake then s
  else if clr && !s.clrReq then { s with clrReq := true }
  else { s with freezeReq := true, settleCnt := 0 }

/-- The core domain drops its request after the linearization point (40 R171, R176). -/
def State.releaseFreeze (s : State) : State := { s with freezeReq := false, clrReq := false, settleCnt := 0 }

/-- The producer domain's half of the handshake at a `wr_clk` edge (40 R171; 40 R176: the pointer is cleared on freezing for a resize),
then its synchroniser shifts. -/
def producerHandshake (s : State) : State :=
  let req := syncOut false s.reqSync
  let s' :=
    if req && !s.frozen then
      (if s.clrReq then { s with frozen := true, freezeAck := true, wptrW := 0, wptrG := 0 }
       else { s with frozen := true, freezeAck := true })
    else if !req && s.frozen then { s with frozen := false, freezeAck := false }
    else s
  { s' with reqSync := shiftIn s.freezeReq s.reqSync }

/-- The core domain's half of the handshake at a `clk` edge: edges are counted once the synchronised acknowledgement is 1 (40 R171),
then its synchroniser shifts. -/
def coreHandshake (s : State) : State :=
  { s with
    settleCnt := if s.freezeReq && syncOut false s.ackSync then s.settleCnt + 1 else s.settleCnt
    ackSync := shiftIn s.freezeAck s.ackSync }

end Sys2Proof.Machine
end

