-- ==== Sys2Proof/Machine/Float.lean ====
section
/-! DEFINITION. The binary32 arithmetic of the block (spec 00 R9, 30 R141, 41 R220-R226). A finite pattern is taken to the
integer that is its exact value in units of 2^-149, the result is computed exactly, and rounded once. -/

namespace Sys2Proof.Machine

/-- `QNAN` (00 R9). -/
def qnan : F32 := 0x7FC00000

/-- `+inf` (00 R9). -/
def plusInf : F32 := 0x7F800000

/-- `-inf` (00 R9). -/
def minusInf : F32 := 0xFF800000

/-- The sign bit `p[31]` (30 R141). -/
def F32.sign (x : F32) : Bool := x.getLsbD 31

/-- The biased exponent `p[30:23]` (30 R141). -/
def F32.expo (x : F32) : Nat := (x.extractLsb' 23 8).toNat

/-- The fraction `p[22:0]` (30 R141). -/
def F32.frac (x : F32) : Nat := (x.extractLsb' 0 23).toNat

/-- The pattern is a NaN (30 R141). -/
def F32.isNaN (x : F32) : Bool := F32.expo x == 255 && F32.frac x != 0

/-- The pattern is an infinity (30 R141). -/
def F32.isInf (x : F32) : Bool := F32.expo x == 255 && F32.frac x == 0

/-- The pattern is a zero (30 R141). -/
def F32.isZero (x : F32) : Bool := F32.expo x == 0 && F32.frac x == 0

/-- The significand of a finite pattern, with its hidden bit (30 R141). -/
def F32.signif (x : F32) : Nat := if F32.expo x = 0 then F32.frac x else F32.frac x + 2 ^ 23

/-- The magnitude of a finite pattern in units of 2^-149 (30 R141). -/
def F32.mag (x : F32) : Nat := F32.signif x * 2 ^ (max (F32.expo x) 1 - 1)

/-- The value of a finite pattern in units of 2^-149 (30 R141). -/
def F32.fix (x : F32) : Int := if F32.sign x then -(F32.mag x : Int) else (F32.mag x : Int)

/-- `n / 2^k` rounded to the nearest integer, ties to even. -/
def roundNearestEven (n k : Nat) : Nat :=
  let d := 2 ^ k
  let q := n / d
  let r := n % d
  if d < 2 * r ∨ (2 * r = d ∧ q % 2 = 1) then q + 1 else q

/-- The 31 bits below the sign of `RN(n / 2^q)`, for `q ≥ 149` (00 R9). `u` is the place of the last fraction bit, counted
from 2^-149; a rounding up that carries into the exponent field is the next pattern, and a result too large is the
pattern of an infinity. -/
def roundMag (q n : Nat) : Nat :=
  let u := n.log2 + 126 - q
  min (u * 2 ^ 23 + roundNearestEven n (u + (q - 149))) 0x7F800000

/-- The pattern of a sign and 31 bits. -/
def withSign (neg : Bool) (m : Nat) : F32 := BitVec.ofNat 32 (if neg then 2 ^ 31 + m else m)

/-- `RN(z / 2^q)` for an integer `z ≠ 0` and `q ≥ 149` (00 R9); a `z` of 0 gives `+0`. -/
def roundInt (q : Nat) (z : Int) : F32 := withSign (decide (z < 0)) (roundMag q z.natAbs)

/-- `neg x` flips bit 31 of the pattern (41 R203). -/
def fneg (x : F32) : F32 := x ^^^ 0x80000000

/-- `a ⊕ b` (00 R9): canonical NaN (41 R222), infinities, gradual underflow (41 R223); an exact zero sum is `-0` only for two
zeros of sign minus (41 R225). -/
def fadd (a b : F32) : F32 :=
  if F32.isNaN a || F32.isNaN b then qnan
  else if F32.isInf a then (if F32.isInf b && F32.sign a != F32.sign b then qnan else a)
  else if F32.isInf b then b
  else
    let z := F32.fix a + F32.fix b
    if z = 0 then withSign (F32.sign a && F32.sign b) 0 else roundInt 149 z

/-- `a ⊖ b` (00 R9): the sum with the sign of `b` flipped. -/
def fsub (a b : F32) : F32 := fadd a (fneg b)

/-- `a ⊗ b` (00 R9): the sign is the XOR of the signs (41 R225), an infinity times a zero is `QNAN` (41 R222). -/
def fmul (a b : F32) : F32 :=
  if F32.isNaN a || F32.isNaN b then qnan
  else if F32.isInf a || F32.isInf b then
    (if F32.isZero a || F32.isZero b then qnan else withSign (F32.sign a != F32.sign b) 0x7F800000)
  else withSign (F32.sign a != F32.sign b) (roundMag 298 (F32.mag a * F32.mag b))

/-- Complex addition, componentwise `⊕` (41 R221). -/
def cadd (x y : Sample) : Sample := ⟨fadd x.re y.re, fadd x.im y.im⟩

/-- Complex subtraction, componentwise `⊖` (41 R221). -/
def csub (x y : Sample) : Sample := ⟨fsub x.re y.re, fsub x.im y.im⟩

/-- The complex product: four rounded products, one rounded subtraction, one rounded addition (41 R221). -/
def cmul (x y : Sample) : Sample :=
  ⟨fsub (fmul x.re y.re) (fmul x.im y.im), fadd (fmul x.re y.im) (fmul x.im y.re)⟩

end Sys2Proof.Machine
end

