-- ==== Sys2Proof/Machine/Enclosure.lean ====
section
/-! DEFINITION. The two correctly rounded real functions of the block: the natural logarithm (spec 43 R279) and the window
coefficient (42 R242). Each is computed as an integer interval, in units of 2^-160, that holds the exact real value; where
both ends round to one pattern, that pattern is the rounding of the exact value (log 9). -/

namespace Sys2Proof.Machine

/-- The fraction bits of every enclosure. -/
def encBits : Nat := 160

/-- The rounding of an exact value of the interval `lo .. hi`: where both ends round to one pattern it is that pattern, since
rounding is monotone; where they do not, the exact value rounds to one of the two, and `upper` says to which. -/
def roundEnclosed (lo hi : Int) (upper : Bool) : F32 :=
  if roundInt encBits lo = roundInt encBits hi then roundInt encBits lo
  else if upper then roundInt encBits hi else roundInt encBits lo

/-- The first `k` terms of `2·artanh(a/b) = Σ 2·(a/b)^(2j+1)/(2j+1)` in units of 2^-160, each rounded down. -/
def artanhSum (a b : Nat) : Nat → Nat
  | 0 => 0
  | k + 1 => artanhSum a b k + 2 * 2 ^ encBits * a ^ (2 * k + 1) / ((2 * k + 1) * b ^ (2 * k + 1))

/-- How many terms are taken: for `a/b ≤ 1/3` the rest of the series is below one unit. -/
def artanhTerms : Nat := 51

/-- How far the exact value lies above `artanhSum`, at most: one unit per term and one for the rest. -/
def artanhSlack : Nat := artanhTerms + 1

/-- `ln 2 = 2·artanh(1/3)`, from below. -/
def ln2Low : Nat := artanhSum 1 3 artanhTerms

/-- The enclosure of `ln x` for a finite `x > 0` with significand `m` and exponent: `x = (m / 2^l)·2^e`, `1 ≤ m / 2^l < 2`, and
`ln x = e·ln 2 + 2·artanh((m - 2^l)/(m + 2^l))`. -/
def lnBounds (x : F32) : Int × Int :=
  let m := F32.signif x
  let l := m.log2
  let e : Int := (l : Int) + (max (F32.expo x) 1 : Nat) - 150
  let t := artanhSum (m - 2 ^ l) (m + 2 ^ l) artanhTerms
  if 0 ≤ e then (e * ln2Low + t, e * (ln2Low + artanhSlack) + (t + artanhSlack))
  else (e * (ln2Low + artanhSlack) + t, e * ln2Low + (t + artanhSlack))

/-- `LN(x)`, the table of 43 R279. -/
def ln (x : F32) : F32 :=
  if F32.isNaN x then qnan
  else if F32.isZero x then minusInf
  else if F32.sign x then qnan
  else if F32.isInf x then plusInf
  else if x = 0x3F800000 then 0
  else roundEnclosed (lnBounds x).1 (lnBounds x).2 (Config.lnUpper x)

/-- The first `k` terms of `arctan(1/x) = Σ (-1)^j/((2j+1)·x^(2j+1))` in units of 2^-160, each term's size rounded down. -/
def arctanSum (x : Nat) : Nat → Int
  | 0 => 0
  | k + 1 =>
    let t : Int := (2 ^ encBits / ((2 * k + 1) * x ^ (2 * k + 1)) : Nat)
    if k % 2 = 0 then arctanSum x k + t else arctanSum x k - t

/-- `π` in units of 2^-160, by `π/4 = 4·arctan(1/5) - arctan(1/239)`; within 708 units. -/
def piFix : Int := 4 * (4 * arctanSum 5 40 - arctanSum 239 12)

/-- The first `k` terms of `cos(t / 2^160) = Σ (-1)^j·t^(2j)/(2j)!` in units of 2^-160, each term's size rounded down. -/
def cosSum (t : Nat) : Nat → Int
  | 0 => 0
  | k + 1 =>
    let u : Int := (2 ^ encBits * t ^ (2 * k) / (2 ^ (2 * k * encBits) * (2 * k).factorial) : Nat)
    if k % 2 = 0 then cosSum t k + u else cosSum t k - u

/-- `cos(2π·j/d)` in units of 2^-160, within `cosSlack`; the angle is first brought to `0 .. π` by the period and the evenness
of the cosine. `d = 0` stands for the angle 0 (42 R244). -/
def cosTurn (j d : Nat) : Int :=
  if d = 0 then 2 ^ encBits
  else
    let r := j % d
    cosSum (2 * min r (d - r) * piFix.toNat / d) 45

/-- How far `cosTurn` may lie from the exact value, on either side. -/
def cosSlack : Nat := 1024

/-- The enclosure of `a0 - a1·cos θ + a2·cos 2θ - a3·cos 3θ` at `θ = 2π·i/(n-1)` (42 R242), with the constants of 42 R243 in units
of 10^-5. -/
def wcoefBounds (n i : Nat) : Int × Int :=
  let d := n - 1
  let v := 35875 * 2 ^ encBits - 48829 * cosTurn i d + 14128 * cosTurn (2 * i) d - 1168 * cosTurn (3 * i) d
  let slack : Int := (48829 + 14128 + 1168) * cosSlack
  ((v - slack) / 10 ^ 5, (v + slack) / 10 ^ 5 + 1)

/-- `wcoef(n, i)`: the exact real value rounded once (42 R242). Indices `i` and `n-1-i` have one exact value (42 R245), so
they share the free choice. -/
def wcoef (n i : Nat) : F32 :=
  roundEnclosed (wcoefBounds n i).1 (wcoefBounds n i).2 (Config.wcoefUpper n (min i (n - 1 - i)))

/-- The twiddle ROM: `(TW[k].c, TW[k].s)` as a Sample, the table of 41 R208. An index outside `1 .. 16` has no entry in any
instance and is never read (20 R84, 41 R203); it gives zeros. -/
def twiddle (k : Nat) : Sample :=
  match k with
  | 1 => ⟨0xBF800000, 0x00000000⟩
  | 2 => ⟨0x00000000, 0x3F800000⟩
  | 3 => ⟨0x3F3504F3, 0x3F3504F3⟩
  | 4 => ⟨0x3F6C835E, 0x3EC3EF15⟩
  | 5 => ⟨0x3F7B14BE, 0x3E47C5C2⟩
  | 6 => ⟨0x3F7EC46D, 0x3DC8BD36⟩
  | 7 => ⟨0x3F7FB10F, 0x3D48FB30⟩
  | 8 => ⟨0x3F7FEC43, 0x3CC90AB0⟩
  | 9 => ⟨0x3F7FFB11, 0x3C490E90⟩
  | 10 => ⟨0x3F7FFEC4, 0x3BC90F88⟩
  | 11 => ⟨0x3F7FFFB1, 0x3B490FC6⟩
  | 12 => ⟨0x3F7FFFEC, 0x3AC90FD5⟩
  | 13 => ⟨0x3F7FFFFB, 0x3A490FD9⟩
  | 14 => ⟨0x3F7FFFFF, 0x39C90FDA⟩
  | 15 => ⟨0x3F800000, 0x39490FDB⟩
  | 16 => ⟨0x3F800000, 0x38C90FDB⟩
  | _ => ⟨0, 0⟩

end Sys2Proof.Machine
end

