-- ==== Sys2Proof/Machine/Fft.lean ====
section
/-! DEFINITION. The radix-2 butterfly network, the bit reversal and the rotation (spec 41 R203-R207, 43 R276), as functions of
a block of Samples. The network is written once over any addition, subtraction and product, so that its bits (41 R203) and
its meaning in exact arithmetic (41 R204) are two instances of one text. -/

namespace Sys2Proof.Machine

/-- The operations a butterfly uses. -/
structure Arith (α : Type) where
  add : α → α → α
  sub : α → α → α
  mul : α → α → α
  /-- what the twiddle recurrence starts from, `(+1, +0)` (41 R205) -/
  one : α

/-- The operations of the hardware (41 R221). -/
def f32Arith : Arith Sample where
  add := cadd
  sub := csub
  mul := cmul
  one := ⟨0x3F800000, 0x00000000⟩

variable {α : Type}

/-- `w_0, …, w_{h-1}` of a stage with factor `wm`, from `w_0` on: `w_{j+1} = w_j · wm` (41 R203, R205). -/
def twiddles (A : Arith α) (wm : α) : Nat → α → List α
  | 0, _ => []
  | h + 1, w => w :: twiddles A wm h (A.mul w wm)

/-- One stage of span `h` (41 R203): the pair at positions `p` and `p + h`, with `p mod 2h = j < h`, becomes the sum, and the
difference times `w_j`. The butterflies of a stage act on disjoint pairs, so the stage is a function of the block. -/
def fftStage (A : Arith α) (wm : α) (h : Nat) (xs : List α) : List α :=
  let ws := twiddles A wm h A.one
  (List.range xs.length).map fun p =>
    let j := p % (2 * h)
    if j < h then A.add (xs.getD p A.one) (xs.getD (p + h) A.one)
    else A.mul (A.sub (xs.getD (p - h) A.one) (xs.getD p A.one)) (ws.getD (j - h) A.one)

/-- Stages `1 .. t` of a network of `2^L` points: stage `s` has span `h = 2^L >> s` and the factor `wm k` of ROM entry
`k = L - s + 1` (41 R203). -/
def fftStages (A : Arith α) (wm : Nat → α) (L : Nat) : Nat → List α → List α
  | 0, xs => xs
  | t + 1, xs => fftStage A (wm (L - t)) ((2 ^ L) >>> (t + 1)) (fftStages A wm L t xs)

/-- `rev_L(i)`: the `L` binary digits of `i` in reverse order (41 R206). -/
def bitRev : Nat → Nat → Nat
  | 0, _ => 0
  | L + 1, i => (i % 2) * 2 ^ L + bitRev L (i / 2)

/-- Output position `i` takes the element at position `rev_L(i)` (41 R203, R206). -/
def bitRevPermute (L : Nat) (d : α) (xs : List α) : List α := (List.range (2 ^ L)).map fun i => xs.getD (bitRev L i) d

/-- The `L` stages and the permutation (41 R203). -/
def fftNetwork (A : Arith α) (wm : Nat → α) (L : Nat) (xs : List α) : List α :=
  bitRevPermute L A.one (fftStages A wm L L xs)

/-- The factor of ROM entry `k`: conjugated for the forward direction (41 R203, R205). -/
def romFactor (fwd : Bool) (k : Nat) : Sample :=
  ⟨(twiddle k).re, if fwd then fneg (twiddle k).im else (twiddle k).im⟩

/-- `SC = 2^-L` as a pattern (41 R207). -/
def scaleFactor (L : Nat) : F32 := BitVec.ofNat 32 ((127 - L) * 2 ^ 23)

/-- Both components multiplied by a real (41 R207, 42 R246). -/
def scaleSample (k : F32) (x : Sample) : Sample := ⟨fmul x.re k, fmul x.im k⟩

/-- `FFT_CORE(N, fwd)` of the block `xs` of `N` Samples (41 R203). -/
def fftCore (n : Nat) (fwd : Bool) (xs : List Sample) : List Sample :=
  let ys := fftNetwork f32Arith (romFactor fwd) n.log2 xs
  if fwd then ys.map (scaleSample (scaleFactor n.log2)) else ys

/-- `FFTSHIFT(N)` of the block `xs` of `N` Samples: position `i` takes the element at `(i + N/2) mod N` (43 R276). -/
def fftShift (n : Nat) (xs : List Sample) : List Sample :=
  (List.range n).map fun i => xs.getD ((i + n / 2) % n) ⟨0, 0⟩

/-- `MAGLOG(s) = 5.0 ⊗ LN((s.re ⊗ s.re) ⊕ (s.im ⊗ s.im))` (43 R278). -/
def magLog (x : Sample) : F32 := fmul 0x40A00000 (ln (fadd (fmul x.re x.re) (fmul x.im x.im)))

end Sys2Proof.Machine
end

