-- ==== Sys2Proof/Machine/Ops.lean ====
section
/-! DEFINITION. The operations the commands and the tick stages share: ending a command, failing (the only "exception" the block
raises, spec 00 R10, 60 R340), the drain, the resize, the block operations, the snapshot lock and the end of a tick. -/

namespace Sys2Proof.Machine

/-- Two transitions one after the other; a stop of the first is the stop of both. -/
def andThen (o : Host.Outcome State Fault Refusal) (f : State → Host.Outcome State Fault Refusal) :
    Host.Outcome State Fault Refusal :=
  match o with
  | .next s => f s
  | .fault r => .fault r
  | .refused r => .refused r

/-- `finish(reason, rval)`: ends the command in `CUR` (00 R10). The next command starts at its first transition. -/
def State.finish (s : State) (reason : Reason) (v : Word) : State :=
  { s with resReason := reason, resOpcode := s.curOp, rval := v, busy := false, cmdPhase := .start }

/-- `fail(reason)` is `finish(reason, 0)` with no other state change (00 R10, 60 R340). -/
def State.fail (s : State) (reason : Reason) : State := s.finish reason 0

/-- The gate of 43 R280: a command that may not run while Open fails with `WRONG_STATE` before any operand check
(60 R344). -/
def whileClosed (s : State) (body : State → Host.Outcome State Fault Refusal) : Host.Outcome State Fault Refusal :=
  if s.opened then .next (s.fail .wrongState) else body s

/-- A size command: the request is checked, and `body` gets the effective size (40 R152, 41 R201, 42 R241, 43 R271). -/
def withSize (s : State) (body : Nat → State → Host.Outcome State Fault Refusal) : Host.Outcome State Fault Refusal :=
  whileClosed s fun s =>
    match sizeRequest s.params s.argNat with
    | .error r => .next (s.fail r)
    | .ok c => body c s

/-- A command on a block: its length argument must be the configured size `n` (41 R202, 42 R246, 43 R276, R277). -/
def withLength (n : Nat) (s : State) (body : State → Host.Outcome State Fault Refusal) :
    Host.Outcome State Fault Refusal :=
  whileClosed s fun s => if s.argNat ≠ n then .next (s.fail .sizeMismatch) else body s

/-- Performs an operation that needs the producer frozen (40 R171, R176): as one transition when no handshake is under way and
`wr_clk` runs, at the linearization point of one that is, and otherwise not yet: the agent waits (00 R10), for ever if
`wr_clk` stays stopped (70 R394, 93 U6; logs 8, 19). `body` is the operation; taken as one transition, it is applied after
every accepted beat has crossed (log 10). -/
def withFreeze (s : State) (body : State → State) : Host.Outcome State Fault Refusal :=
  match s.freeze with
  | .idle => .next (body (settleBeats s))
  | .held => .next (body s).releaseFreeze
  | .waiting => .next s

/-- `DRAIN()` (40 R154): `BLK[j] <- RBMEM[idx(RB_RCUR + j)]` for `j < RB_CAP`, the gate and the count cleared, the read cursor
at the write cursor. -/
def drain (s : State) : State :=
  { s.setBlock ((List.range s.rbCap).map fun j => s.rbmemAt (ringIndex s.rbCap (s.rbWcur + j))) with
    rbGate := false, rbAcc := 0, rbRcur := s.rbWcur }

/-- The effects of `RB_RESIZE` on the ring buffer: the capacity set, both cursors, the count and the gate cleared (40 R152), the
producer's pointer, its gray code and their images cleared with them (40 R176). -/
def resizeRing (c : Nat) (s : State) : State :=
  { s with
    rbCap := c, rbWcur := 0, rbRcur := 0, rbAcc := 0, rbGate := false
    wptrW := 0, wptrG := 0, wsync := List.replicate s.params.syncStages 0, wsyncQ := 0 }

/-- The coefficient `WIN[i]` of size `c` is computed: one engine transition per index (42 R241). -/
def fillWindow (c i : Nat) (s : State) : State := s.setWin i (wcoef c i)

/-- A size command that computes `WIN` (42 R241, 43 R271), after its checks: one transition per coefficient, which no host read
shows, because the `WIN` window is rejected while `BUSY = 1` (20 R83), and a last one, `commit`, with every other effect
(20 R92; log 5). -/
def windowStep (c i : Nat) (s : State) (commit : State → Host.Outcome State Fault Refusal) :
    Host.Outcome State Fault Refusal :=
  if i < c then .next { fillWindow c i s with cmdPhase := .winFill c (i + 1) } else commit s

/-- The window product of the first `n` Samples of `BLK`: `BLK[i] <- (BLK[i].re ⊗ WIN[i], BLK[i].im ⊗ WIN[i])` (42 R246, 43 R307). -/
def windowBlock (n : Nat) (s : State) : State :=
  s.setBlock ((List.range n).map fun i => scaleSample (s.winAt i) (s.blkAt i))

/-- `FFT_CORE(n, fwd)` in place (41 R203). -/
def transformBlock (n : Nat) (fwd : Bool) (s : State) : State := s.setBlock (fftCore n fwd (s.block n))

/-- `FFTSHIFT(n)` in place (43 R276, R309). -/
def shiftBlock (n : Nat) (s : State) : State := s.setBlock (fftShift n (s.block n))

/-- `SNAP[i] <- MAGLOG(BLK[i])` (43 R277, R310). -/
def logEntry (i : Nat) (s : State) : State := s.setSnap i (magLog (s.blkAt i))

/-- `END` of a tick (43 R313): a pending tick starts at once, unless the tick was `TICK_ONCE`'s or the engine is Closed or
closing. -/
def tickEnd (s : State) : State :=
  if !s.tickByCmd && s.tickPending && s.opened && !s.closing then { s with tickPending := false, tickStage := .drain }
  else { s with tickStage := .idle }

/-- What follows the `DRAIN` stage: the policy of `SKIP_STALE` for a failed drain (43 R305, R306). -/
def afterDrain (ok : Bool) (s : State) : State :=
  if !ok && s.skipStale then tickEnd { s with drainOk := ok } else { s with drainOk := ok, tickStage := .window }

/-- Stage `PUBLISH` (43 R312). -/
def publish (s : State) : State :=
  tickEnd ({ s with lockOwner := .none, snapValid := true, tickCount := s.tickCount + 1 }).raiseSpec

/-- One stage of the tick path (43 R305-R313). `LOCK` waits while the lock is held (43 R311), `DRAIN` while a handshake is under
way (40 R171); `IDLE` has no transition. -/
def tickStep (s : State) : Host.Outcome State Fault Refusal :=
  match s.tickStage with
  | .idle => .next s
  | .drain =>
    if s.rbCap = s.engN ∧ s.rbGate = true then withFreeze s (fun t => afterDrain true (drain t))
    else .next (afterDrain false s)
  | .window =>
    .next { (if s.winN = s.engN then windowBlock s.engN s else s) with tickStage := .fft }
  | .fft =>
    .next { (if s.fftN = s.engN then transformBlock s.engN true s else s) with tickStage := .shift }
  | .shift => .next { shiftBlock s.engN s with tickStage := .lock }
  | .lock =>
    if s.lockOwner = .none then .next { s with lockOwner := .engine, tickStage := .log 0 } else .next s
  | .log i =>
    .next { logEntry i s with tickStage := if i + 1 < s.engN then .log (i + 1) else .publish }
  | .publish => .next (publish s)

/-- The tick path has an enabled transition: a tick runs, and it does not wait for the lock or for a handshake. -/
def State.tickEnabled (s : State) : Bool :=
  match s.tickStage with
  | .idle => false
  | .drain => !(decide (s.rbCap = s.engN) && s.rbGate && decide (s.freeze = .waiting))
  | .lock => decide (s.lockOwner = .none)
  | .window | .fft | .shift | .log _ | .publish => true

end Sys2Proof.Machine
end

