-- ==== Sys2Proof/Machine/Engine.lean ====
section
/-! DEFINITION. The engine commands (spec file 43): `ENG_SETSIZE`, `OPEN`, `CLOSE`, `IS_OPEN`, `TICK_ONCE`, `SHIFT`, `LOGPOW`. -/

namespace Sys2Proof.Machine

/-- The effects of `ENG_SETSIZE` but for the coefficients (43 R271): the four sizes, the emptied ring and the invalid snapshot. -/
def sizeEngine (c : Nat) (s : State) : State :=
  { resizeRing c { s with engN := c, snapValid := false } with fftN := c, winN := c }

/-- `ENG_SETSIZE` (43 R271): the first transition checks the request, then comes one transition per window coefficient, and a last
one, with the resize's freeze, has every other effect and ends the command (20 R92; log 5). -/
def execEngSetsize (s : State) : Host.Outcome State Fault Refusal :=
  match s.cmdPhase with
  | .winFill c i =>
    windowStep c i s fun s => withFreeze s fun t => (sizeEngine c t).finish .ok (BitVec.ofNat 32 c)
  | .start | .logFill _ | .tickWait | .closeWait => withSize s fun c s => .next { s with cmdPhase := .winFill c 0 }

/-- `OPEN` (43 R272): a no-op that returns 1 while Open. -/
def execOpenEng (s : State) : Host.Outcome State Fault Refusal :=
  .next ((if s.opened then s else { s with opened := true, timerCnt := 0, tickPending := false }).finish .ok
    (bitWord s.opened))

/-- `CLOSE` (43 R273): while Open the first transition stops the timer; then the command waits for the running tick to end, and
a last transition leaves Open. -/
def execCloseEng (s : State) : Host.Outcome State Fault Refusal :=
  match s.cmdPhase with
  | .closeWait =>
    if s.tickStage = .idle then
      .next ({ s with opened := false, closing := false, timerCnt := 0 }.finish .ok 1)
    else .next s
  | .start | .winFill _ _ | .logFill _ | .tickWait =>
    if s.opened then .next { s with closing := true, tickPending := false, cmdPhase := .closeWait }
    else .next (s.finish .ok 0)

/-- `IS_OPEN` (43 R274), in either lifecycle state. -/
def execIsOpen (s : State) : Host.Outcome State Fault Refusal := .next (s.finish .ok (bitWord s.opened))

/-- `TICK_ONCE` (43 R275): the first transition starts the tick; then the command path is the tick path (43 R270) until the tick
has ended, and a last transition returns `DRAIN_OK`. -/
def execTickOnce (s : State) : Host.Outcome State Fault Refusal :=
  match s.cmdPhase with
  | .tickWait =>
    if s.tickStage = .idle then .next ({ s with tickByCmd := false }.finish .ok (bitWord s.drainOk)) else tickStep s
  | .start | .winFill _ _ | .logFill _ | .closeWait =>
    whileClosed s fun s => .next { s with tickByCmd := true, tickStage := .drain, cmdPhase := .tickWait }

/-- `SHIFT` (43 R276). -/
def execShift (s : State) : Host.Outcome State Fault Refusal :=
  withLength s.engN s fun s => .next ((shiftBlock s.engN s).finish .ok 0)

/-- `LOGPOW` (43 R277): the first transition checks the length and takes the lock, or waits for it (43 R311); then comes one
transition per entry, and a last one releases the lock and ends the command. -/
def execLogpow (s : State) : Host.Outcome State Fault Refusal :=
  match s.cmdPhase with
  | .logFill i =>
    if i < s.engN then .next { logEntry i s with cmdPhase := .logFill (i + 1) }
    else .next ({ s with lockOwner := .none, snapValid := true }.finish .ok 0)
  | .start | .winFill _ _ | .tickWait | .closeWait =>
    withLength s.engN s fun s =>
      if s.lockOwner = .none then .next { s with lockOwner := .engine, cmdPhase := .logFill 0 } else .next s

end Sys2Proof.Machine
end

