-- ==== Sys2Proof/Machine/Bus.lean ====
section
/-! DEFINITION. The host address map, the register file and the rejection rule (spec 20 R80-R87, 30 R121, R128-R138). -/

namespace Sys2Proof.Machine

/-- The registers of 30 R128. -/
inductive Reg
  | param
  | ctrl
  | status
  | cmd
  | arg
  | result
  | rval
  | err
  | irqStatus
  | irqEnable
  | tickPeriod
  | engN
  | rbCap
  | fftN
  | winN
  | rbWcur
  | rbRcur
  | rbAcc
  | ovlCount
  | tickCount
  | snaplock
  | timerCnt
deriving DecidableEq, Repr

/-- A mapped location of the bus space (20 R84). -/
inductive Loc
  | reg (r : Reg)
  | snap (i : Nat)
  | win (i : Nat)
  | tw (k : Nat) (sine : Bool)
  | blk (i : Nat) (im : Bool)
deriving DecidableEq, Repr

/-- The register at an offset, if one is listed there (30 R128). -/
def regAt (offset : Nat) : Option Reg :=
  match offset with
  | 0x000 => some .param
  | 0x004 => some .ctrl
  | 0x008 => some .status
  | 0x00C => some .cmd
  | 0x010 => some .arg
  | 0x014 => some .result
  | 0x018 => some .rval
  | 0x01C => some .err
  | 0x020 => some .irqStatus
  | 0x024 => some .irqEnable
  | 0x028 => some .tickPeriod
  | 0x02C => some .engN
  | 0x030 => some .rbCap
  | 0x034 => some .fftN
  | 0x038 => some .winN
  | 0x03C => some .rbWcur
  | 0x040 => some .rbRcur
  | 0x044 => some .rbAcc
  | 0x048 => some .ovlCount
  | 0x04C => some .tickCount
  | 0x050 => some .snaplock
  | 0x054 => some .timerCnt
  | _ => none

/-- The entry of a window of `n` entries of `2^k` bytes that an offset falls in. -/
def entryAt (k n offset : Nat) (f : Nat → Loc) : Option Loc :=
  if offset / 2 ^ k < n then some (f (offset / 2 ^ k)) else none

/-- The location at an aligned address, if it is mapped (20 R84). `TW` starts at entry 1. -/
def locate (P : Params) (addr : Nat) : Option Loc :=
  if addr < 0x001000 then (regAt addr).map .reg
  else if addr < 0x040000 then none
  else if addr < 0x080000 then entryAt 2 P.nmax (addr - 0x040000) .snap
  else if addr < 0x0C0000 then entryAt 2 P.nmax (addr - 0x080000) .win
  else if addr < 0x0C0008 then none
  else if addr < 0x0C0100 then
    entryAt 3 P.log2Nmax (addr - 0x0C0008) fun k => .tw (k + 1) (decide (addr % 8 = 4))
  else if addr < 0x100000 then none
  else if addr < 0x180000 then entryAt 3 P.nmax (addr - 0x100000) fun i => .blk i (decide (addr % 8 = 4))
  else none

/-- The registers a write reaches: those of access RW, WO and W1C (30 R128). -/
def Reg.writable : Reg → Bool
  | .ctrl | .cmd | .arg | .err | .irqStatus | .irqEnable | .tickPeriod | .snaplock => true
  | .param | .status | .result | .rval | .engN | .rbCap | .fftN | .winN | .rbWcur | .rbRcur | .rbAcc | .ovlCount
  | .tickCount | .timerCnt => false

/-- The location a read is accepted at (20 R81, R83): aligned, mapped, not `BLK` while Open or busy, not `WIN` while busy. -/
def readTarget (s : State) (addr : Nat) : Option Loc :=
  if addr % 4 ≠ 0 then none
  else
    match locate s.params addr with
    | some (.blk i im) => if s.opened || s.busy then none else some (.blk i im)
    | some (.win i) => if s.busy then none else some (.win i)
    | some (.reg r) => some (.reg r)
    | some (.snap i) => some (.snap i)
    | some (.tw k sine) => some (.tw k sine)
    | none => none

/-- The location a write is accepted at (20 R81, R83): aligned, all strobes set, mapped, writable, not `BLK` while Open or busy. -/
def writeTarget (s : State) (addr : Nat) (wstrb : BitVec 4) : Option Loc :=
  if addr % 4 ≠ 0 ∨ wstrb ≠ 0b1111#4 then none
  else
    match locate s.params addr with
    | some (.blk i im) => if s.opened || s.busy then none else some (.blk i im)
    | some (.reg r) => if r.writable then some (.reg r) else none
    | some (.win _) | some (.snap _) | some (.tw _ _) => none
    | none => none

/-- What a read of a register returns (30 R121, R128-R136). -/
def State.readReg (s : State) : Reg → Word
  | .param => paramWord s.params
  | .ctrl => bitWord s.skipStale
  | .status => s.statusWord
  | .cmd => 0
  | .arg => s.arg
  | .result => s.resultWord
  | .rval => s.rval
  | .err => BitVec.zeroExtend 32 s.err
  | .irqStatus => BitVec.zeroExtend 32 s.irqStatus
  | .irqEnable => BitVec.zeroExtend 32 s.irqEnable
  | .tickPeriod => s.tickPeriod
  | .engN => BitVec.ofNat 32 s.engN
  | .rbCap => BitVec.ofNat 32 s.rbCap
  | .fftN => BitVec.ofNat 32 s.fftN
  | .winN => BitVec.ofNat 32 s.winN
  | .rbWcur => BitVec.ofNat 32 s.rbWcur
  | .rbRcur => BitVec.ofNat 32 s.rbRcur
  | .rbAcc => BitVec.ofNat 32 s.rbAcc
  | .ovlCount => BitVec.ofNat 32 s.ovlCnt
  | .tickCount => s.tickCount
  | .snaplock => s.lockOwner.code
  | .timerCnt => s.timerCnt

/-- `MemRead(addr, 4)` at a mapped location (20 R84, R85, 30 R138). -/
def State.readLoc (s : State) : Loc → Word
  | .reg r => s.readReg r
  | .snap i => s.snapAt i
  | .win i => s.winAt i
  | .tw k sine => if sine then (twiddle k).im else (twiddle k).re
  | .blk i im => if im then (s.blkAt i).im else (s.blkAt i).re

/-- A write of `CMD`: issues a command, or is an overrun while one is in progress (30 R121, 60 R342). -/
def issueCommand (v : Word) (s : State) : State :=
  if s.busy then s.setOverrun
  else { s with curWord := v, curArg := s.arg, busy := true, cmdPhase := .start }

/-- A write of `SNAPLOCK`: a request for bit 0 = 1, a release for bit 0 = 0 (43 R315). -/
def lockWrite (v : Word) (s : State) : State :=
  if v.getLsbD 0 then (if s.lockOwner = .none then { s with lockOwner := .host } else s)
  else (if s.lockOwner = .host then { s with lockOwner := .none } else s)

/-- The effect of a write on a register (20 R87, 30 R121-R137); a read-only register has none, and no write reaches it. -/
def State.writeReg (s : State) (v : Word) : Reg → State
  | .ctrl => { s with skipStale := v.getLsbD 0 }
  | .cmd => issueCommand v s
  | .arg => { s with arg := v }
  | .err => { s with err := clearOnes s.err v }
  | .irqStatus => { s with irqStatus := clearOnes s.irqStatus v }
  | .irqEnable => { s with irqEnable := v.extractLsb' 0 2 }
  | .tickPeriod => { s with tickPeriod := if v = 0 then 1 else v }
  | .snaplock => lockWrite v s
  | .param | .status | .result | .rval | .engN | .rbCap | .fftN | .winN | .rbWcur | .rbRcur | .rbAcc | .ovlCount
  | .tickCount | .timerCnt => s

/-- `MemWrite(addr, 4, v)` at a mapped location (20 R86); the read-only windows have no effect, and no write reaches them. -/
def State.writeLoc (s : State) (v : Word) : Loc → State
  | .reg r => s.writeReg v r
  | .blk i im => s.setBlkWord i im v
  | .snap _ | .win _ | .tw _ _ => s

end Sys2Proof.Machine
end

