-- ==== Sys2Proof/Machine/HostAccess.lean ====
section
/-! DEFINITION. The host accesses `BUS_READ` and `BUS_WRITE` (spec 20 R83-R87). -/

namespace Sys2Proof.Machine

/-- `BUS_READ addr` (20 R85): the word goes to `bus_rdata`; a rejected read returns 0 and sets `ERR.ACCESS` (20 R83, 60 R343). -/
def execBusRead (addr : Nat) (s : State) : Host.Outcome State Fault Refusal :=
  match readTarget s addr with
  | some l => .next { s with busRdata := s.readLoc l }
  | none => .next { s.setAccess with busRdata := 0 }

/-- `BUS_WRITE addr, v` (20 R86): a rejected write changes nothing but `ERR.ACCESS` (20 R83, 60 R343). -/
def execBusWrite (addr : Nat) (v : Word) (wstrb : BitVec 4) (s : State) : Host.Outcome State Fault Refusal :=
  match writeTarget s addr wstrb with
  | some l => .next (s.writeLoc v l)
  | none => .next s.setAccess

end Sys2Proof.Machine
end

