-- ==== Sys2Proof/Machine/Producer.lean ====
section
/-! DEFINITION. The producer transactions `PUT` (spec 40 R160) and `OVLSET` (43 R320). -/

namespace Sys2Proof.Machine

/-- `PUT re, im` (40 R160) as one transition: the beat is accepted (40 R170) and crosses into the core domain, where it is
linearized (00 R12, 40 R172), after the beats accepted before it. While `s_ready = 0` the beat is held and nothing changes
(40 R175, 10 R44). With no beat in flight and a running handshake, this is the pseudocode of 40 R160 (log 10). -/
def execPut (re im : F32) (s : State) : Host.Outcome State Fault Refusal :=
  if s.sReady = false ∨ s.rbCap = 0 then .next s
  else andThen (acceptBeat ⟨re, im⟩ s) fun t => .next (settleBeats t)

/-- `OVLSET b` (43 R320): the producer-domain half; the change reaches the core domain at a later `clk` edge (43 R321). The channel is
never stalled, and ignored while a domain is in reset (70 R380). -/
def execOvlset (b : Bool) (s : State) : Host.Outcome State Fault Refusal :=
  if s.inReset then .next s else overloadUpdate b s

end Sys2Proof.Machine
end

