-- ==== Sys2Proof/Machine/RingBuffer.lean ====
section
/-! DEFINITION. The ring-buffer commands `RB_RESIZE`, `RB_READALL` and `RB_READY` (spec file 40). -/

namespace Sys2Proof.Machine

/-- `RB_RESIZE` (40 R152, R153). -/
def execRbResize (s : State) : Host.Outcome State Fault Refusal :=
  withSize s fun c s => withFreeze s fun t => (resizeRing c t).finish .ok (BitVec.ofNat 32 c)

/-- `RB_READALL` (40 R154): `SIZE_MISMATCH` before `NOT_READY` (60 R344). -/
def execRbReadall (s : State) : Host.Outcome State Fault Refusal :=
  withLength s.rbCap s fun s =>
    if s.rbGate = false then .next (s.fail .notReady)
    else withFreeze s fun t => (drain t).finish .ok 1

/-- `RB_READY` (40 R156), in either lifecycle state. -/
def execRbReady (s : State) : Host.Outcome State Fault Refusal := .next (s.finish .ok (bitWord s.rbGate))

end Sys2Proof.Machine
end

