-- ==== Sys2Proof/Machine/Transform.lean ====
section
/-! DEFINITION. The transform commands `FFT_SETSIZE` and `FFT_PROCESS` (spec file 41). -/

namespace Sys2Proof.Machine

/-- `FFT_SETSIZE` (41 R201). -/
def execFftSetsize (s : State) : Host.Outcome State Fault Refusal :=
  withSize s fun c s => .next ({ s with fftN := c }.finish .ok (BitVec.ofNat 32 c))

/-- `FFT_PROCESS` (41 R202): `fwd` is the bit `F` of the word. -/
def execFftProcess (fwd : Bool) (s : State) : Host.Outcome State Fault Refusal :=
  withLength s.fftN s fun s => .next ((transformBlock s.fftN fwd s).finish .ok 0)

end Sys2Proof.Machine
end

