-- ==== Sys2Proof/Machine/Window.lean ====
section
/-! DEFINITION. The window commands `WIN_SETSIZE` and `WIN_PROCESS` (spec file 42). -/

namespace Sys2Proof.Machine

/-- `WIN_SETSIZE` (42 R241): the first transition checks the request, then comes one transition per coefficient, and a last one
sets `WIN_N` and ends the command (20 R92; log 5). -/
def execWinSetsize (s : State) : Host.Outcome State Fault Refusal :=
  match s.cmdPhase with
  | .winFill c i => windowStep c i s fun s => .next ({ s with winN := c }.finish .ok (BitVec.ofNat 32 c))
  | .start | .logFill _ | .tickWait | .closeWait => withSize s fun c s => .next { s with cmdPhase := .winFill c 0 }

/-- `WIN_PROCESS` (42 R246). -/
def execWinProcess (s : State) : Host.Outcome State Fault Refusal :=
  withLength s.winN s fun s => .next ((windowBlock s.winN s).finish .ok 0)

end Sys2Proof.Machine
end

