-- ==== Sys2Proof/Machine/Dispatch.lean ====
section
/-! DEFINITION. The meaning of every instruction: one arm per constructor. -/

namespace Sys2Proof.Machine

def exec (i : Instr) (s : State) : Host.Outcome State Fault Refusal :=
  match i with
  | .rbResize => Sys2Proof.Machine.execRbResize s
  | .rbReadall => Sys2Proof.Machine.execRbReadall s
  | .rbReady => Sys2Proof.Machine.execRbReady s
  | .fftSetsize => Sys2Proof.Machine.execFftSetsize s
  | .fftProcess fwd => Sys2Proof.Machine.execFftProcess fwd s
  | .winSetsize => Sys2Proof.Machine.execWinSetsize s
  | .winProcess => Sys2Proof.Machine.execWinProcess s
  | .engSetsize => Sys2Proof.Machine.execEngSetsize s
  | .openEng => Sys2Proof.Machine.execOpenEng s
  | .closeEng => Sys2Proof.Machine.execCloseEng s
  | .isOpen => Sys2Proof.Machine.execIsOpen s
  | .tickOnce => Sys2Proof.Machine.execTickOnce s
  | .shift => Sys2Proof.Machine.execShift s
  | .logpow => Sys2Proof.Machine.execLogpow s
  | .busRead addr => Sys2Proof.Machine.execBusRead addr s
  | .busWrite addr v wstrb => Sys2Proof.Machine.execBusWrite addr v wstrb s
  | .put re im => Sys2Proof.Machine.execPut re im s
  | .ovlset b => Sys2Proof.Machine.execOvlset b s

end Sys2Proof.Machine
end

