-- ==== Sys2Proof/Machine/Turns.lean ====
section
/-! DEFINITION. What each agent does on its turn (spec 00 R11, R12): the host port, the producer port, the two engine paths, the
initialisation, the two clocks and the reset pin. A turn whose agent has no enabled transition changes nothing: the agent
waits (00 R10) and the others are not blocked (log 8). -/

namespace Sys2Proof.Machine

/-- The host port completes the access it is offered (20 R89, 30 R139); `bus_ready = 0` while a domain is in reset (70 R380). -/
def hostTurn (s : State) : Host.Outcome State Fault Refusal :=
  match s.busQ with
  | [] => .next s
  | b :: rest =>
    if s.inReset then .next s
    else
      match decodeBus b with
      | .ok i => exec i { s with busQ := rest }
      | .error _ => .next { s with busQ := rest }

/-- The producer's beat as one transaction (40 R160); a beat is held, not dropped, while `s_ready = 0` (20 R90, 40 R175) or `wr_clk` is
stopped (log 19). -/
def beatTurn (s : State) : Host.Outcome State Fault Refusal :=
  match s.beatQ with
  | [] => .next s
  | p :: rest =>
    if !s.wrRuns then .next s
    else
      match decodeSample p with
      | .ok i => if s.sReady then exec i { s with beatQ := rest } else .next s
      | .error _ => .next { s with beatQ := rest }

/-- The overload channel at a `wr_clk` edge (43 R320): never stalled, and an update offered while a domain is in reset is ignored and
gone (70 R380; log 6). -/
def overloadEdge (s : State) : Host.Outcome State Fault Refusal :=
  match s.ovlQ with
  | [] => .next s
  | o :: rest =>
    match decodeOverload o with
    | .ok i => exec i { s with ovlQ := rest }
    | .error _ => .next { s with ovlQ := rest }

/-- The producer's overload update as one transaction (43 R320); it too needs a running `wr_clk` (log 19). -/
def overloadTurn (s : State) : Host.Outcome State Fault Refusal := if !s.wrRuns then .next s else overloadEdge s

/-- The command path performs a transition of the command in `CUR`; a word that is no command fails with `ILLEGAL_CMD`
(30 R121, R123; 43 R270). -/
def commandTurn (s : State) : Host.Outcome State Fault Refusal :=
  if s.rstC || s.initBusy || !s.busy then .next s
  else
    match decodeWord s.curWord with
    | .ok i => exec i s
    | .error _ => .next (s.fail .illegalCmd)

/-- The tick path performs a stage; while `TICK_ONCE` runs its tick, "the tick path is then the command path" and this path has
no transition of its own (43 R270). -/
def tickTurn (s : State) : Host.Outcome State Fault Refusal := if s.rstC || s.tickByCmd then .next s else tickStep s

/-- The initialisation performs a transition: the next coefficient of size `N_RESET`, or after the last one its end (70 R381). -/
def initTurn (s : State) : Host.Outcome State Fault Refusal :=
  if s.rstC || !s.initBusy then .next s
  else if s.initPos < s.params.nReset then
    .next { fillWindow s.params.nReset s.initPos s with initPos := s.initPos + 1 }
  else .next { s with initBusy := false, busy := false }

/-- Whether the next transition of a command needs a freeze, and whether it is a resize's (40 R171, R176): only once its checks pass,
and for `ENG_SETSIZE` once its coefficients are computed (log 5). -/
def freezeForCommand (s : State) : Instr → Option Bool
  | .rbResize =>
    match sizeRequest s.params s.argNat with
    | .ok _ => some true
    | .error _ => none
  | .rbReadall => if s.argNat = s.rbCap ∧ s.rbGate = true then some false else none
  | .engSetsize =>
    match s.cmdPhase with
    | .winFill c i => if c ≤ i then some true else none
    | .start | .logFill _ | .tickWait | .closeWait => none
  | .rbReady | .fftSetsize | .fftProcess _ | .winSetsize | .winProcess | .openEng | .closeEng | .isOpen | .tickOnce
  | .shift | .logpow | .busRead _ | .busWrite _ _ _ | .put _ _ | .ovlset _ => none

/-- The freeze that the engine's next transition needs, if it needs one: `some true` for a resize, `some false` for a drain. -/
def pendingFreeze (s : State) : Option Bool :=
  if s.tickStage = .drain then (if s.rbCap = s.engN ∧ s.rbGate = true then some false else none)
  else if s.busy && !s.initBusy && !s.opened then
    match decodeWord s.curWord with
    | .ok i => freezeForCommand s i
    | .error _ => none
  else none

/-- The core domain asks for the freeze its next transition needs (40 R171, R176). -/
def freezeTurn (s : State) : Host.Outcome State Fault Refusal :=
  if s.rstC then .next s
  else
    match pendingFreeze s with
    | some clr => .next (requestFreeze clr s)
    | none => .next s

/-- The sample channel at a `wr_clk` edge: a beat offered with `s_ready = 1` is accepted, and crosses at later `clk` edges
(40 R170, R175). -/
def sampleEdge (s : State) : Host.Outcome State Fault Refusal :=
  match s.beatQ with
  | [] => .next s
  | p :: rest =>
    if !p.valid then .next { s with beatQ := rest }
    else if s.sReady then acceptBeat ⟨p.re, p.im⟩ { s with beatQ := rest }
    else .next s

/-- What the producer domain does at a `wr_clk` edge after the two channels: its half of the handshake, or in reset only that it leaves
reset once `rst_n` is high (70 R380). -/
def producerEdge (s : State) : State :=
  if s.rstW then (if s.rstN then { s with rstW := false } else s) else producerHandshake s

/-- A rising edge of `wr_clk`, unless it is stopped (log 19): the two channels of the producer port (30 R139), then the domain's own
work. The channels are sampled in reset too, where they take no beat and ignore an overload update (70 R380; log 6). -/
def wrEdgeTurn (s : State) : Host.Outcome State Fault Refusal :=
  if !s.wrRuns then .next s
  else andThen (andThen (sampleEdge s) overloadEdge) fun t => .next (producerEdge t)

/-- The tick timer at a `clk` edge (43 R300, R301). `counting` says that the engine was Open and not closing before the edge; it
counts if it still is (log 11). -/
def timerEdge (counting : Bool) (s : State) : State :=
  if counting && s.opened && !s.closing then
    (if s.tickPeriod.toNat ≤ s.timerCnt.toNat + 1 then
      (if s.tickStage = .idle then { s with timerCnt := 0, tickByCmd := false, tickStage := .drain }
       else { s with timerCnt := 0, tickPending := true })
     else { s with timerCnt := s.timerCnt + 1 })
  else s

/-- A rising edge of `clk`, with the transitions that fall on it in the order of 60 R345: beats cross first, a host access comes before
the engine's transitions, an overload change raises its interrupt after a clearing write, a tick ends before the timer
expires. In reset it only lets the domain out of reset once `rst_n` is high (70 R380). -/
def clkEdgeTurn (host command tick : Bool) (s : State) : Host.Outcome State Fault Refusal :=
  if s.rstC then .next (if s.rstN then { s with rstC := false } else s)
  else
    let counting := s.opened && !s.closing
    andThen (if host then hostTurn (crossBeats s) else .next (crossBeats s)) fun s =>
      andThen (if command then (if s.initBusy then initTurn s else commandTurn s) else .next s) fun s =>
        andThen (if tick then tickTurn s else .next s) fun s =>
          .next (coreHandshake (timerEdge counting (crossOverload s)))

/-- One channel's crossing moves on by one; none does while the core domain is in reset (70 R380; log 20). -/
def crossTurn (cross : State → State) (s : State) : Host.Outcome State Fault Refusal := .next (if s.rstC then s else cross s)

/-- `rst_n` goes low: every element takes its reset value at once, in both domains (70 R380, R385). What the outside world offers, the
schedule and whether `wr_clk` runs are no state of the block (logs 6, 19); the unwritten bytes have new contents (93 U1). -/
def rstAssertTurn (s : State) : State :=
  { State.resetWith s.params (s.epoch + 1) with
    rstN := false, rstW := true, rstC := true, wrRuns := s.wrRuns
    busQ := s.busQ, beatQ := s.beatQ, ovlQ := s.ovlQ, sched := s.sched }

/-- What happens on a turn. -/
def takeTurn (t : Turn) (s : State) : Host.Outcome State Fault Refusal :=
  match t with
  | .host => hostTurn s
  | .beat => beatTurn s
  | .overload => overloadTurn s
  | .command => commandTurn s
  | .tick => tickTurn s
  | .init => initTurn s
  | .freeze => freezeTurn s
  | .wrEdge => wrEdgeTurn s
  | .clkEdge host command tick => clkEdgeTurn host command tick s
  | .beatCross => crossTurn crossOneBeat s
  | .overloadCross => crossTurn crossOneChange s
  | .wrStop => .next { s with wrRuns := false }
  | .wrStart => .next { s with wrRuns := true }
  | .rstAssert => .next (rstAssertTurn s)
  | .rstRelease => .next { s with rstN := true }

/-- The block's own pending work, taken when the schedule is empty (log 2): the initialisation, an enabled tick stage, the
command in progress. -/
def ownTurn (s : State) : Option Turn :=
  if s.rstC then none
  else if s.initBusy then some .init
  else if s.tickEnabled && !s.tickByCmd then some .tick
  else if s.busy then some .command
  else none

end Sys2Proof.Machine
end

