-- ==== Sys2Proof/Machine/Step.lean ====
section
/-! DEFINITION. One step: the next turn of the schedule, or the block's own pending work (spec 00 R11; log 2). -/

namespace Sys2Proof.Machine

/-- One step of the machine. -/
def step (s : State) : Host.Outcome State Fault Refusal :=
  match s.sched with
  | t :: rest => takeTurn t { s with sched := rest }
  | [] =>
    match ownTurn s with
    | some t => takeTurn t s
    | none => .next s

/-- `s` with the command word `w` latched in `CUR` as a `CMD` write latches it (30 R121), the initialisation over and the core out of
reset, and the command path next in the schedule: the very next step performs the command's first transition. The block
fetches nothing (10 R31); a command comes from the host (log 12). -/
def State.withFetchWord (s : State) (nbits w : Nat) : State :=
  { s with
    curWord := BitVec.ofNat 32 (w % 2 ^ nbits), curArg := s.arg, busy := true, cmdPhase := .start
    initBusy := false, rstN := true, rstC := false, sched := .command :: s.sched }

end Sys2Proof.Machine
end

