-- ==== Sys2Proof/Machine/Pseudo.lean ====
section
/-! DEFINITION. The pseudo-instructions of the assembler and what they expand to (spec 30 R142, R143). They are what a host does, not
what the block does: the block sees the accesses they consist of. -/

namespace Sys2Proof.Machine

/-- `LD addr` (30 R142). -/
def ld (addr : Nat) : Instr := .busRead addr

/-- `ST addr, v` (30 R142): all strobes set. -/
def st (addr : Nat) (v : Word) : Instr := .busWrite addr v 0b1111#4

/-- The two polling loops of 30 R143. -/
inductive Poll
  /-- `WAITIDLE` -/
  | idle
  /-- the lock request of `GET_SPECTRUM` -/
  | lock
deriving DecidableEq, Repr

/-- The accesses of one round of a loop; the last one is a read (30 R143). -/
def Poll.round : Poll → List Instr
  | .idle => [ld 0x008]
  | .lock => [st 0x050 1, ld 0x050]

/-- Whether the loop goes on, given the word read last (30 R143). -/
def Poll.again : Poll → Word → Bool
  | .idle, v => v.getLsbD 0
  | .lock, v => decide (v.extractLsb' 0 2 ≠ 1#2)

/-- What a host still has to do: one line of an expansion. -/
inductive Action
  /-- a transaction -/
  | access (i : Instr)
  /-- a round of a loop, and its test after it -/
  | poll (p : Poll)
  /-- the test at the end of a round: the loop goes on or ends -/
  | test (p : Poll)
  /-- the reads of `SNAP[0 .. N-1]`, for the `N` that the host has read last; the rule allows any order (30 R143) -/
  | entries
deriving DecidableEq, Repr

/-- The pseudo-instructions of 30 R143. -/
inductive Pseudo
  /-- `<MNEMONIC> [arg]`, given the command word -/
  | command (word : Word) (arg : Option Word)
  /-- `WAITIDLE` -/
  | waitIdle
  /-- `GET_SPECTRUM` -/
  | getSpectrum
  /-- `INGEST s[0..c-1], o` -/
  | ingest (xs : List Sample) (o : Bool)
deriving DecidableEq, Repr

/-- The expansions of 30 R143. -/
def Pseudo.expand : Pseudo → List Action
  | .command word none => [.access (st 0x00C word), .poll .idle]
  | .command word (some arg) => [.access (st 0x010 arg), .access (st 0x00C word), .poll .idle]
  | .waitIdle => [.poll .idle]
  | .getSpectrum => [.poll .lock, .access (ld 0x02C), .entries, .access (st 0x050 0)]
  | .ingest xs o => xs.map (fun x => .access (.put x.re x.im)) ++ [.access (.ovlset o)]

/-- A host at work on the block: what it still has to do, next line first, and the words it has read, newest first. -/
structure HostState where
  block : State
  todo : List Action
  reads : List Word
deriving DecidableEq, Repr

/-- The transaction can be made now: a host access waits while `bus_ready = 0` (70 R380); a beat is offered, and is held at its channel
while `s_ready = 0` (40 R175); an overload update comes after the beats that its `INGEST` has before it (43 R323). -/
def State.takes (s : State) : Instr → Bool
  | .busRead _ | .busWrite _ _ _ => !s.inReset
  | .put _ _ => true
  | .ovlset _ => s.beatQ.isEmpty
  | .rbResize | .rbReadall | .rbReady | .fftSetsize | .fftProcess _ | .winSetsize | .winProcess | .engSetsize | .openEng
  | .closeEng | .isOpen | .tickOnce | .shift | .logpow => false

/-- A host access is performed; the producer's two channels are offered theirs (30 R139). When an offer is accepted and when it crosses
is the block's schedule, and the two channels cross independently (20 R91, 43 R323; log 20). -/
def State.present (s : State) : Instr → Host.Outcome State Fault Refusal
  | .put re im => .next { s with beatQ := s.beatQ ++ [⟨true, re, im⟩] }
  | .ovlset o => .next { s with ovlQ := s.ovlQ ++ [⟨true, o⟩] }
  | .busRead addr => exec (.busRead addr) s
  | .busWrite addr v strobes => exec (.busWrite addr v strobes) s
  | .rbResize | .rbReadall | .rbReady | .fftSetsize | .fftProcess _ | .winSetsize | .winProcess | .engSetsize | .openEng
  | .closeEng | .isOpen | .tickOnce | .shift | .logpow => .next s

/-- The words a host has read after the transaction `i` left the block in `t`. -/
def readsAfter (i : Instr) (t : State) (reads : List Word) : List Word :=
  match i with
  | .busRead _ => t.busRdata :: reads
  | .busWrite _ _ _ | .put _ _ | .ovlset _ | .rbResize | .rbReadall | .rbReady | .fftSetsize | .fftProcess _
  | .winSetsize | .winProcess | .engSetsize | .openEng | .closeEng | .isOpen | .tickOnce | .shift | .logpow => reads

/-- The host's next move: a transaction that its port takes, or nothing while the port does not; the rounds of a loop until its test
ends it; and nothing once all is done. -/
def hostMove (h : HostState) : Host.Outcome HostState Fault Refusal :=
  match h.todo with
  | [] => .next h
  | .access i :: rest =>
    if !h.block.takes i then .next h
    else
      match h.block.present i with
      | .next t => .next ⟨t, rest, readsAfter i t h.reads⟩
      | .fault f => .fault f
      | .refused r => .refused r
  | .poll p :: rest => .next { h with todo := p.round.map .access ++ .test p :: rest }
  | .test p :: rest => .next { h with todo := if p.again (h.reads.headD 0) then .poll p :: rest else rest }
  | .entries :: rest =>
    .next { h with todo := (List.range (h.reads.headD 0).toNat).map (fun i => .access (ld (0x040000 + 4 * i))) ++ rest }

/-- The block's own step beside the host. -/
def blockMove (h : HostState) : Host.Outcome HostState Fault Refusal :=
  match step h.block with
  | .next t => .next { h with block := t }
  | .fault f => .fault f
  | .refused r => .refused r

/-- A host and the block in any interleaving: `true` is a move of the host, `false` a step of the block. A pseudo-instruction is performed
once nothing is left to do and its offers are taken; until then a loop goes on and a held beat waits. -/
def hostRun : List Bool → HostState → Host.Outcome HostState Fault Refusal
  | [], h => .next h
  | mine :: turns, h =>
    match (if mine then hostMove h else blockMove h) with
    | .next h => hostRun turns h
    | .fault f => .fault f
    | .refused r => .refused r

end Sys2Proof.Machine
end

