-- ==== Sys2Proof/Safety.lean ====
section
/-! DEFINITION. What the statements call a good state and a completed run, in the terms of the spec. -/

namespace Sys2Proof.Safety

open Sys2Proof.Machine

/-- The first `n` transitions of the command `i` (20 R92), one `exec` after the other. -/
def execTimes (i : Instr) : Nat → State → Host.Outcome State Fault Refusal
  | 0, s => .next s
  | n + 1, s => andThen (exec i s) (execTimes i n)

/-- The beats `xs` in order, each one a `PUT` (40 R162). -/
def putAll : List Sample → State → Host.Outcome State Fault Refusal
  | [], s => .next s
  | x :: xs, s => andThen (exec (.put x.re x.im) s) (putAll xs)

/-- The beats `xs` accepted in the producer domain, one after the other, with no `clk` edge between them (40 R170). -/
def acceptAll : List Sample → State → Host.Outcome State Fault Refusal
  | [], s => .next s
  | x :: xs, s => andThen (acceptBeat x s) (acceptAll xs)

/-- `n` edges of `clk`, seen by the sample crossing alone (40 R172). -/
def crossTimes : Nat → State → State
  | 0, s => s
  | n + 1, s => crossTimes n (crossBeats s)

/-- `n` edges of `clk`, seen by the overload crossing alone (43 R321). -/
def crossOverloadTimes : Nat → State → State
  | 0, s => s
  | n + 1, s => crossOverloadTimes n (crossOverload s)

/-- `n` steps of the block with an empty schedule: its own pending work. -/
def stepTimes : Nat → State → Host.Outcome State Fault Refusal
  | 0, s => .next s
  | n + 1, s => andThen (step s) (stepTimes n)

/-- The commands: the transactions a `CMD` write issues (30 R123). -/
def isCommand : Instr → Bool
  | .rbResize | .rbReadall | .rbReady | .fftSetsize | .fftProcess _ | .winSetsize | .winProcess | .engSetsize | .openEng
  | .closeEng | .isOpen | .tickOnce | .shift | .logpow => true
  | .busRead _ | .busWrite _ _ _ | .put _ _ | .ovlset _ => false

/-- The commands that may run only while Closed (43 R280). -/
def closedOnly : Instr → Bool
  | .rbResize | .rbReadall | .fftSetsize | .fftProcess _ | .winSetsize | .winProcess | .engSetsize | .tickOnce | .shift
  | .logpow => true
  | .rbReady | .openEng | .closeEng | .isOpen | .busRead _ | .busWrite _ _ _ | .put _ _ | .ovlset _ => false

/-- The commands that set a size (60 R341). -/
def isSizeCommand : Instr → Bool
  | .rbResize | .fftSetsize | .winSetsize | .engSetsize => true
  | .rbReadall | .rbReady | .fftProcess _ | .winProcess | .openEng | .closeEng | .isOpen | .tickOnce | .shift | .logpow
  | .busRead _ | .busWrite _ _ _ | .put _ _ | .ovlset _ => false

/-- The configured size that a command's length argument must equal, for the commands that take one (60 R341). -/
def blockLength (s : State) : Instr → Option Nat
  | .rbReadall => some s.rbCap
  | .fftProcess _ => some s.fftN
  | .winProcess => some s.winN
  | .shift | .logpow => some s.engN
  | .rbResize | .rbReady | .fftSetsize | .winSetsize | .engSetsize | .openEng | .closeEng | .isOpen | .tickOnce
  | .busRead _ | .busWrite _ _ _ | .put _ _ | .ovlset _ => none

/-- `finish(r, v)` written out field by field (00 R10): the command in `CUR` has ended. -/
def ended (s : State) (r : Reason) (v : Word) : State :=
  { s with resReason := r, resOpcode := s.curWord.extractLsb' 0 8, rval := v, busy := false, cmdPhase := .start }

/-- Why a size command that begins can fail, in the order of 60 R344, and that nothing else then changes (60 R340). -/
def SizeFailures (i : Instr) (s : State) : Prop :=
  (s.opened = true → exec i s = .next (ended s .wrongState 0)) ∧
  (s.opened = false → s.curArg.toNat = 0 → exec i s = .next (ended s .configZero 0)) ∧
  (s.opened = false → s.curArg.toNat ≠ 0 → s.params.nmax < roundup s.curArg.toNat →
    exec i s = .next (ended s .configRange 0))

/-- Why a command on a block of the configured size `n` can fail when it begins. -/
def LengthFailures (i : Instr) (n : Nat) (s : State) : Prop :=
  (s.opened = true → exec i s = .next (ended s .wrongState 0)) ∧
  (s.opened = false → s.curArg.toNat ≠ n → exec i s = .next (ended s .sizeMismatch 0))

/-- The request of a size command is accepted, and its effective size is `c`. -/
def SizeAccepted (s : State) (c : Nat) : Prop :=
  s.opened = false ∧ s.curArg.toNat ≠ 0 ∧ c = roundup s.curArg.toNat ∧ c ≤ s.params.nmax

/-- The request of a command on a block is accepted. -/
def LengthAccepted (s : State) (n : Nat) : Prop := s.opened = false ∧ s.curArg.toNat = n

/-- The `SNAP` window of 20 R84. -/
def inSnap (P : Params) (addr : Nat) : Prop := 0x040000 ≤ addr ∧ addr < 0x040000 + 4 * P.nmax

/-- The `WIN` window of 20 R84. -/
def inWin (P : Params) (addr : Nat) : Prop := 0x080000 ≤ addr ∧ addr < 0x080000 + 4 * P.nmax

/-- The `TW` window of 20 R84: entries `1 .. LOG2_NMAX`. -/
def inTw (P : Params) (addr : Nat) : Prop := 0x0C0008 ≤ addr ∧ addr < 0x0C0008 + 8 * P.log2Nmax

/-- The `BLK` window of 20 R84. -/
def inBlk (P : Params) (addr : Nat) : Prop := 0x100000 ≤ addr ∧ addr < 0x100000 + 8 * P.nmax

/-- The offsets 30 R128 lists. -/
def inRegisters (addr : Nat) : Prop := addr ≤ 0x054 ∧ addr % 4 = 0

/-- The registers of access RO (30 R128). -/
def readOnlyRegister (addr : Nat) : Prop :=
  addr ∈ [0x000, 0x008, 0x014, 0x018, 0x02C, 0x030, 0x034, 0x038, 0x03C, 0x040, 0x044, 0x048, 0x04C, 0x054]

/-- The rejections of 20 R83, in its order. -/
def Rejected (s : State) (write : Bool) (addr : Nat) (wstrb : BitVec 4) : Prop :=
  addr % 4 ≠ 0 ∨
  (write = true ∧ wstrb ≠ 0b1111#4) ∨
  ¬ (inRegisters addr ∨ inSnap s.params addr ∨ inWin s.params addr ∨ inTw s.params addr ∨ inBlk s.params addr) ∨
  (write = true ∧ (readOnlyRegister addr ∨ inSnap s.params addr ∨ inWin s.params addr ∨ inTw s.params addr)) ∨
  (inBlk s.params addr ∧ (s.opened = true ∨ s.busy = true)) ∨
  (write = false ∧ inWin s.params addr ∧ s.busy = true)

/-- `t` is where `END` takes the tick path from `s` (43 R313). -/
def AtTickEnd (s t : State) : Prop :=
  if s.tickByCmd = false ∧ s.tickPending = true ∧ s.opened = true ∧ s.closing = false then
    t.tickStage = .drain ∧ t.tickPending = false
  else t.tickStage = .idle ∧ t.tickPending = s.tickPending

/-- No freeze handshake is under way, and the producer runs (40 R171, R175). -/
structure Running (s : State) : Prop where
  ready : s.sReady = true
  idle : s.freeze = .idle

/-- `wr_clk` is stopped, and no acknowledgement of a freeze is up or under way (70 R394). -/
structure ProducerStopped (s : State) : Prop where
  stopped : s.wrRuns = false
  thawed : s.frozen = false
  ack : s.freezeAck = false
  chain : ∀ b ∈ s.ackSync, b = false
  count : s.settleCnt = 0

/-- What the engine does next needs the producer frozen: a tick's drain, `RB_READALL` and `RB_RESIZE` after their checks, `ENG_SETSIZE` once
its coefficients are computed (40 R171, R176, 70 R394). -/
def NeedsFreeze (s : State) : Prop :=
  (s.tickStage = .drain ∧ s.rbCap = s.engN ∧ s.rbGate = true) ∨
  (s.busy = true ∧ s.initBusy = false ∧ s.opened = false ∧
    ((decodeWord s.curWord = .ok .rbReadall ∧ LengthAccepted s s.rbCap ∧ s.rbGate = true) ∨
      (decodeWord s.curWord = .ok .rbResize ∧ ∃ c, SizeAccepted s c) ∨
      (decodeWord s.curWord = .ok .engSetsize ∧ ∃ c i, s.cmdPhase = .winFill c i ∧ c ≤ i)))

/-- No beat is between the two clock domains: the write pointer, its image in the core domain and the write cursor agree, and
the synchroniser holds nothing else (10 R44). -/
structure Settled (s : State) : Prop where
  pointer : s.wptrW = s.rbWcur
  seen : s.wsyncQ = s.rbWcur
  code : s.wptrG = gray s.rbWcur
  chain : s.wsync = List.replicate s.params.syncStages (gray s.rbWcur)
  running : s.clrReq = false

/-- A size whose coefficients are being computed is a power of two within `NMAX` (42 R241, 43 R271). -/
def legalPhase (P : Params) : CmdPhase → Bool
  | .winFill c _ => ispow2 c && decide (c ≤ P.nmax)
  | .start | .logFill _ | .tickWait | .closeWait => true

/-- What every state the block reaches satisfies, unit by unit. -/
structure Inv (s : State) : Prop where
  /-- the instance's parameters are legal (00 R6) -/
  legal : s.params.legal
  /-- `ispow2(RB_CAP)` and `1 ≤ RB_CAP ≤ NMAX` (10 R32, R33) -/
  cap : ispow2 s.rbCap = true ∧ s.rbCap ≤ s.params.nmax
  /-- `FFT_N` (10 R34) -/
  fft : ispow2 s.fftN = true ∧ s.fftN ≤ s.params.nmax
  /-- `WIN_N` (10 R36) -/
  win : ispow2 s.winN = true ∧ s.winN ≤ s.params.nmax
  /-- `ENG_N` (10 R38) -/
  eng : ispow2 s.engN = true ∧ s.engN ≤ s.params.nmax
  /-- `RB_ACC ≤ RB_CAP` (10 R33) -/
  acc : s.rbAcc ≤ s.rbCap
  /-- `RB_GATE = (RB_ACC = RB_CAP)` (10 R33) -/
  gate : s.rbGate = decide (s.rbAcc = s.rbCap)
  /-- the cursors and pointers have `CW` bits (10 R32, R44) -/
  cursors : s.rbWcur < 2 ^ s.params.cw ∧ s.rbRcur < 2 ^ s.params.cw ∧ s.wptrW < 2 ^ s.params.cw ∧
    s.wsyncQ < 2 ^ s.params.cw
  /-- the change counters have `CW` bits (10 R40) -/
  counters : s.ovlWcnt < 2 ^ s.params.cw ∧ s.ovlCnt < 2 ^ s.params.cw
  /-- `WPTR_G = gray(WPTR_W)` and `OVL_G = gray(OVL_WCNT)` (10 R44) -/
  codes : s.wptrG = gray s.wptrW ∧ s.ovlG = gray s.ovlWcnt
  /-- `OVL_W = OVL_WCNT[0]` (43 R322) -/
  parity : s.ovlW = s.ovlWcnt.testBit 0
  /-- each synchroniser has `SYNC_STAGES` flip-flops (00 R6, 10 R44) -/
  chains : s.wsync.length = s.params.syncStages ∧ s.ovlSync.length = s.params.syncStages ∧
    s.reqSync.length = s.params.syncStages ∧ s.ackSync.length = s.params.syncStages
  /-- `TICK_PERIOD ≥ 1` (10 R38) -/
  period : s.tickPeriod ≠ 0
  /-- a size whose coefficients are being computed is a legal one (42 R241, 43 R271) -/
  size : legalPhase s.params s.cmdPhase = true
  /-- the RAMs keep their canonical form -/
  rams : s.rbmem.wf ∧ s.blk.wf ∧ s.win.wf ∧ s.snap.wf

/-- The tick path holds the snapshot lock: the stages between `LOCK` and `PUBLISH` (43 R310, R312). -/
def tickHoldsLock : TickStage → Bool
  | .log _ | .publish => true
  | .idle | .drain | .window | .fft | .shift | .lock => false

/-- The command path holds the snapshot lock: `LOGPOW` between its first and last transition (43 R277). -/
def commandHoldsLock : CmdPhase → Bool
  | .logFill _ => true
  | .start | .winFill _ _ | .tickWait | .closeWait => false

/-- What ties the two engine paths, the lifecycle and the snapshot lock together (43 R270, R273, R275, R300, R310, R313). -/
structure Sequencer (s : State) : Prop where
  /-- a command is between its transitions only while `BUSY = 1` and the initialisation is over -/
  begun : s.cmdPhase ≠ .start → s.busy = true ∧ s.initBusy = false
  /-- during the initialisation the block is busy, Closed and has no tick (70 R381) -/
  initial : s.initBusy = true → s.busy = true ∧ s.opened = false ∧ s.tickStage = .idle
  /-- the coefficient computation belongs to one of the two commands that compute `WIN` -/
  filling : ∀ c i, s.cmdPhase = .winFill c i →
    (decodeWord s.curWord = .ok .winSetsize ∨ decodeWord s.curWord = .ok .engSetsize) ∧ s.opened = false
  /-- `LOGPOW` holds the lock while Closed, with no tick running -/
  logging : ∀ i, s.cmdPhase = .logFill i →
    decodeWord s.curWord = .ok .logpow ∧ s.opened = false ∧ s.tickStage = .idle
  /-- `TICK_ONCE` runs its tick while Closed -/
  ticking : s.cmdPhase = .tickWait → decodeWord s.curWord = .ok .tickOnce ∧ s.opened = false
  /-- `CLOSE` waits while Open -/
  leaving : s.cmdPhase = .closeWait → decodeWord s.curWord = .ok .closeEng ∧ s.opened = true
  /-- `CLOSING` is 1 exactly while `CLOSE` waits (10 R38) -/
  closing : s.closing = decide (s.cmdPhase = .closeWait)
  /-- `TICK_BY_CMD` is 1 exactly while `TICK_ONCE` runs (10 R38) -/
  byCommand : s.tickByCmd = decide (s.cmdPhase = .tickWait)
  /-- a tick runs only while Open or as `TICK_ONCE` (43 R270) -/
  running : s.tickStage ≠ .idle → s.opened = true ∨ s.cmdPhase = .tickWait
  /-- a tick is pending only while Open and not closing (43 R301, R313) -/
  pending : s.tickPending = true → s.opened = true ∧ s.closing = false
  /-- the engine owns the lock exactly while a tick or `LOGPOW` writes the snapshot (43 R277, R310) -/
  lock : s.lockOwner = .engine ↔ tickHoldsLock s.tickStage = true ∨ commandHoldsLock s.cmdPhase = true

end Sys2Proof.Safety
end

