-- ==== Sys2Proof/Certificates/Slice0/Obligations.lean ====
section
/-! DEFINITION. The statements for the provers. Each docstring names the rules of spec/ it comes from. In a statement, `ended s r v` is
the state `finish(r, v)` leaves (00 R10), and an equation `t = { s with … }` says that every other field of the state is
unchanged. -/

section Statements

open Sys2Proof Sys2Proof.Machine Sys2Proof.Safety

/-! ## Encoding -/

/-- Decoding gives every well-formed transaction back from its encoding, and a word or a signal record that decodes is the
encoding of what it decodes to (30 R122, R123, R139). The unused data signals of a bus read are the exception: the encoder
sets them to 0. The unused signals of a read are log 16. -/
def Obligations.DecodeAndEncodeAgree : Prop :=
  (∀ i : Instr, i.wf = true → decode (encode i) = .ok i) ∧
  (∀ (w : Word) (i : Instr), decodeWord w = .ok i → encode i = .command w ∧ isCommand i = true ∧ i.wf = true) ∧
  (∀ (b : BusSignals) (i : Instr), decodeBus b = .ok i → i.wf = true ∧ (b.write = true → encode i = .bus b)) ∧
  (∀ (p : SampleSignals) (i : Instr), decodeSample p = .ok i → encode i = .sample p) ∧
  (∀ (o : OverloadSignals) (i : Instr), decodeOverload o = .ok i → encode i = .overload o)

/-- The opcode map of 30 R123: its rows, the words that are illegal, and what an illegal word does when the command path
performs it. -/
def Obligations.CommandWordMap : Prop :=
  (decodeWord 0x00000010 = .ok .rbResize ∧ decodeWord 0x00000011 = .ok .rbReadall ∧
    decodeWord 0x00000012 = .ok .rbReady ∧ decodeWord 0x00000020 = .ok .fftSetsize ∧
    decodeWord 0x00000121 = .ok (.fftProcess true) ∧ decodeWord 0x00000021 = .ok (.fftProcess false) ∧
    decodeWord 0x00000030 = .ok .winSetsize ∧ decodeWord 0x00000031 = .ok .winProcess ∧
    decodeWord 0x00000040 = .ok .engSetsize ∧ decodeWord 0x00000041 = .ok .openEng ∧
    decodeWord 0x00000042 = .ok .closeEng ∧ decodeWord 0x00000043 = .ok .isOpen ∧
    decodeWord 0x00000044 = .ok .tickOnce ∧ decodeWord 0x00000045 = .ok .shift ∧
    decodeWord 0x00000046 = .ok .logpow) ∧
  (∀ w : Word, (∃ e, decodeWord w = .error e) ↔
    w.extractLsb' 9 23 ≠ 0 ∨
    w.extractLsb' 0 8 ∉ ([0x10, 0x11, 0x12, 0x20, 0x21, 0x30, 0x31, 0x40, 0x41, 0x42, 0x43, 0x44, 0x45, 0x46] :
      List (BitVec 8)) ∨
    (w.getLsbD 8 = true ∧ w.extractLsb' 0 8 ≠ 0x21)) ∧
  (∀ (s : State) (e : DecodeError), s.rstC = false → s.initBusy = false → s.busy = true →
    decodeWord s.curWord = .error e → commandTurn s = .next (ended s .illegalCmd 0))

/-- A few encodings of every family, as words, bytes and signals (30 R122, R123, R139, 20 R82). -/
def Obligations.SpecEncodingsDecode : Prop :=
  decodeTableWord 32 0x10 = some .rbResize ∧ decodeTableWord 32 0x121 = some (.fftProcess true) ∧
  decodeTableWord 32 0x31 = some .winProcess ∧ decodeTableWord 32 0x110 = none ∧ decodeTableWord 32 0x10041 = none ∧
  decodeBytes [0x46, 0x00, 0x00, 0x00, 0xAA] = .ok (.logpow, [0xAA]) ∧
  decode (.bus ⟨true, false, 0x040004, 0, 0⟩) = .ok (.busRead 0x040004) ∧
  decode (.bus ⟨true, true, 0x000010, 4, 0b1111⟩) = .ok (.busWrite 0x000010 4 0b1111) ∧
  decode (.sample ⟨true, 0x3F800000, 0x80000000⟩) = .ok (.put 0x3F800000 0x80000000) ∧
  decode (.overload ⟨true, true⟩) = .ok (.ovlset true)

/-! ## The step -/

/-- When a path of the engine has the turn, a step performs its transition: the command path's is that of the command that the
latched word decodes to (30 R121, 43 R270), the tick path's a stage of the timer's tick (43 R270). With an empty schedule
that is the block's own next work, a tick that can move before the command in progress (log 2). -/
def Obligations.StepRunsLatchedCommand : Prop :=
  (∀ (s : State) (i : Instr), s.rstC = false → s.initBusy = false → s.busy = true → decodeWord s.curWord = .ok i →
    (∀ rest, s.sched = .command :: rest → step s = exec i { s with sched := rest }) ∧
    (s.sched = [] → (s.tickEnabled = false ∨ s.tickByCmd = true) → step s = exec i s)) ∧
  (∀ s : State, s.rstC = false → s.tickByCmd = false →
    (∀ rest, s.sched = .tick :: rest → step s = tickStep { s with sched := rest }) ∧
    (s.sched = [] → s.initBusy = false → s.tickEnabled = true → step s = tickStep s))

/-- When a port has the turn, a step performs the transaction offered there: a host access unless a domain is in reset, a
beat if `s_ready = 1` and otherwise nothing, an overload update always; with `wr_clk` stopped the producer's ports take
nothing (30 R139, 40 R175, 70 R380; logs 2, 19). At an edge of `wr_clk` out of reset the sample channel writes the ring slot
and advances the pointer and its gray code (40 R170), or holds the beat while `s_ready = 0` (40 R175), the overload channel
supplies its value (43 R320), and then the producer's half of the handshake follows: `FROZEN` and `FREEZE_ACK` take the
synchronised request, and a freeze for a resize clears the pointer (40 R171, R176). Within the bound of log 7. -/
def Obligations.StepRunsOfferedTransactions : Prop :=
  (∀ (s : State) (i : Instr) (rest : List Turn),
    (∀ b q, s.sched = .host :: rest → s.busQ = b :: q → decodeBus b = .ok i →
      step s = if s.inReset then .next { s with sched := rest } else exec i { s with sched := rest, busQ := q }) ∧
    (∀ p q, s.sched = .beat :: rest → s.beatQ = p :: q → decodeSample p = .ok i →
      step s =
        if s.wrRuns && s.sReady then exec i { s with sched := rest, beatQ := q } else .next { s with sched := rest }) ∧
    (∀ o q, s.sched = .overload :: rest → s.ovlQ = o :: q → decodeOverload o = .ok i →
      step s = if s.wrRuns then exec i { s with sched := rest, ovlQ := q } else .next { s with sched := rest })) ∧
  (∀ (s : State) (rest : List Turn), s.sched = .wrEdge :: rest → s.wrRuns = true → s.inReset = false →
    s.clrReq = true ∨ s.beatsInFlight + 1 < 2 ^ (s.params.cw - 1) →
    s.changesInFlight + 1 < 2 ^ (s.params.cw - 1) →
    ∃ u, step s = .next (producerHandshake u) ∧
      (∀ p q, s.beatQ = p :: q → p.valid = true → s.sReady = true → s.rbCap ≠ 0 →
        u.beatQ = q ∧ u.wptrW = (s.wptrW + 1) % 2 ^ s.params.cw ∧ u.wptrG = gray ((s.wptrW + 1) % 2 ^ s.params.cw) ∧
        (∀ i, u.rbmemAt i = if i = ringIndex s.rbCap s.wptrW then ⟨p.re, p.im⟩ else s.rbmemAt i) ∧
        (∀ a, a < 8 * ringIndex s.rbCap s.wptrW ∨ 8 * ringIndex s.rbCap s.wptrW + 8 ≤ a →
          u.byteAt .rbmem a = s.byteAt .rbmem a)) ∧
      (∀ p q, s.beatQ = p :: q → p.valid = true → s.sReady = false ∨ s.rbCap = 0 →
        u.beatQ = (if s.sReady then q else p :: q) ∧ u.wptrW = s.wptrW ∧ u.wptrG = s.wptrG ∧ u.rbmem = s.rbmem) ∧
      ((∀ p q, s.beatQ = p :: q → p.valid = false) →
        u.beatQ = s.beatQ.tail ∧ u.wptrW = s.wptrW ∧ u.wptrG = s.wptrG ∧ u.rbmem = s.rbmem) ∧
      (∀ o q, s.ovlQ = o :: q → o.valid = true → o.value ≠ s.ovlW →
        u.ovlW = o.value ∧ u.ovlWcnt = (s.ovlWcnt + 1) % 2 ^ s.params.cw ∧
        u.ovlG = gray ((s.ovlWcnt + 1) % 2 ^ s.params.cw)) ∧
      ((∀ o q, s.ovlQ = o :: q → o.valid = false ∨ o.value = s.ovlW) →
        u.ovlW = s.ovlW ∧ u.ovlWcnt = s.ovlWcnt ∧ u.ovlG = s.ovlG) ∧
      u = { s with
        sched := rest, beatQ := u.beatQ, wptrW := u.wptrW, wptrG := u.wptrG, rbmem := u.rbmem, ovlQ := s.ovlQ.tail
        ovlW := u.ovlW, ovlWcnt := u.ovlWcnt, ovlG := u.ovlG }) ∧
  (∀ (s : State) (rest : List Turn), s.sched = .wrEdge :: rest → s.wrRuns = false →
    step s = .next { s with sched := rest }) ∧
  (∀ s : State,
    let req := s.reqSync.getLastD false
    let clear := req && !s.frozen && s.clrReq
    producerHandshake s = { s with
      frozen := req, freezeAck := if req = s.frozen then s.freezeAck else req
      wptrW := if clear then 0 else s.wptrW, wptrG := if clear then 0 else s.wptrG
      reqSync := (s.freezeReq :: s.reqSync).dropLast })

/-- Two events on one `clk` edge (60 R345): a host access comes before the engine's transition, so a `CMD` write at the edge where
a command finishes is an overrun; an overload change that crosses wins over a clearing write; a tick that ends at a timer
expiry ends first, and the expiry starts the next one; beats that cross count for the gate check of a drain at that edge, of a
tick's and of `RB_READALL`'s. The events of an edge in one turn are log 11, the drain as one transition log 10. -/
def Obligations.SameEdgeOrder : Prop :=
  (∀ (s : State) (v : Word) (q : List BusSignals) (rest : List Turn), s.inReset = false → s.initBusy = false →
    s.busy = true → decodeWord s.curWord = .ok .isOpen → s.sched = .clkEdge true true false :: rest →
    s.busQ = ⟨true, true, 0x00C, v, 0b1111⟩ :: q →
    ∃ t, step s = .next t ∧ t.busy = false ∧ t.curWord = s.curWord ∧ t.rval = bitWord s.opened ∧
      t.err = s.err ||| 1#2) ∧
  (∀ (s : State) (v : Word) (q : List BusSignals) (rest : List Turn), s.inReset = false →
    gray2bin s.params.cw (syncOut 0 s.ovlSync) ≠ s.ovlCnt → s.sched = .clkEdge true false false :: rest →
    s.busQ = ⟨true, true, 0x020, v, 0b1111⟩ :: q →
    ∃ t, step s = .next t ∧ t.irqStatus.getLsbD 1 = true) ∧
  (∀ (s : State) (rest : List Turn), s.rstC = false → s.opened = true → s.closing = false → s.tickByCmd = false →
    s.tickPending = false → s.tickStage = .publish → s.tickPeriod.toNat ≤ s.timerCnt.toNat + 1 →
    s.sched = .clkEdge false false true :: rest →
    ∃ t, step s = .next t ∧ t.tickCount = s.tickCount + 1 ∧ t.tickStage = .drain ∧ t.tickPending = false ∧
      t.timerCnt = 0) ∧
  (∀ (s : State) (rest : List Turn), s.rstC = false → s.freeze = .idle →
    s.rbCap ≤ s.rbAcc + counterDelta s.params.cw (gray2bin s.params.cw (syncOut 0 s.wsync)) s.wsyncQ →
    (s.tickByCmd = false → s.tickStage = .drain → s.rbCap = s.engN → s.sched = .clkEdge false false true :: rest →
      ∃ t, step s = .next t ∧ t.drainOk = true ∧ t.rbGate = false ∧ t.tickStage = .window) ∧
    (s.initBusy = false → s.busy = true → decodeWord s.curWord = .ok .rbReadall → LengthAccepted s s.rbCap →
      s.sched = .clkEdge false true false :: rest →
      ∃ t, step s = .next t ∧ t.busy = false ∧ t.resReason = .ok ∧ t.rval = 1 ∧ t.rbGate = false))

/-- The block never stops inside the clock-ratio bound: no step is refused, and below the bound of 40 R173 every step has a next
state (60 R340). What is counted against the bound, and that beats are not while `CLR_REQ = 1`, is log 7. -/
def Obligations.NeverStopsWithinClockRatio : Prop :=
  (∀ (s : State) (r : Refusal), step s ≠ .refused r) ∧
  (∀ s : State, s.clrReq = true ∨ s.beatsInFlight + 1 < 2 ^ (s.params.cw - 1) →
    s.changesInFlight + 1 < 2 ^ (s.params.cw - 1) →
    ∃ t, step s = .next t)

/-! ## Failures and frames -/

/-- The command gate of 43 R280: while Open every command but four fails with `WRONG_STATE` and changes nothing else; while
Closed, and for those four, no command fails so. -/
def Obligations.ClosedOnlyCommandGate : Prop :=
  ∀ s : State, s.cmdPhase = .start →
    (∀ i, closedOnly i = true → s.opened = true → exec i s = .next (ended s .wrongState 0)) ∧
    (∀ i t, isCommand i = true → (closedOnly i = false ∨ s.opened = false) → exec i s = .next t →
      t.resReason = .wrongState → s.resReason = .wrongState)

/-- Every reason code of a command that ends at its first transition has the causes of 60 R341 and no others, whatever other causes
hold (60 R344), and a command that ends at a later transition ends with `OK`. In whatever transition a command ends with
another reason than `OK`, it changes nothing but `RESULT`, `RVAL` (to 0) and `BUSY` (60 R340, 00 R10). That the checks are
made in a command's first transition and that a later one ends it with `OK` is log 5. -/
def Obligations.ReasonCodesHaveTheirCauses : Prop :=
  (∀ s t : State, s.cmdPhase = .start → s.rstC = false → s.initBusy = false → s.busy = true →
    commandTurn s = .next t → t.busy = false →
    (t.resReason = .illegalCmd ↔ ∃ e, decodeWord s.curWord = .error e) ∧
    ∀ i, decodeWord s.curWord = .ok i →
      (t.resReason = .wrongState ↔ closedOnly i = true ∧ s.opened = true) ∧
      (t.resReason = .configZero ↔ isSizeCommand i = true ∧ s.opened = false ∧ s.curArg.toNat = 0) ∧
      (t.resReason = .configRange ↔ isSizeCommand i = true ∧ s.opened = false ∧ s.curArg.toNat ≠ 0 ∧
        s.params.nmax < roundup s.curArg.toNat) ∧
      (t.resReason = .sizeMismatch ↔ s.opened = false ∧ ∃ n, blockLength s i = some n ∧ s.curArg.toNat ≠ n) ∧
      (t.resReason = .notReady ↔ i = .rbReadall ∧ s.opened = false ∧ s.curArg.toNat = s.rbCap ∧
        s.rbGate = false)) ∧
  (∀ (i : Instr) (s t : State), isCommand i = true → s.busy = true → exec i s = .next t → t.busy = false →
    t.resReason ≠ .ok → t = ended s t.resReason 0) ∧
  (∀ s t : State, Sequencer s → s.cmdPhase ≠ .start → commandTurn s = .next t → t.busy = false → t.resReason = .ok)

/-- What no command writes: its own latched word and argument, `ARG` (30 R124), the registers the host writes, the ring
memory, the overload counters; and only a tick, `LOGPOW` or `ENG_SETSIZE` touches the publication state. That `bus_rdata` is
left is the model's choice (log 15). -/
def Obligations.CommandsFrame : Prop :=
  ∀ (i : Instr) (s t : State), isCommand i = true → exec i s = .next t →
    (t.curWord = s.curWord ∧ t.curArg = s.curArg ∧ t.arg = s.arg ∧ t.err = s.err ∧ t.irqEnable = s.irqEnable ∧
      t.tickPeriod = s.tickPeriod ∧ t.skipStale = s.skipStale ∧ t.rbmem = s.rbmem ∧ t.params = s.params ∧
      t.ovlW = s.ovlW ∧ t.ovlWcnt = s.ovlWcnt ∧ t.ovlCnt = s.ovlCnt ∧ t.frozen = s.frozen ∧
      t.freezeAck = s.freezeAck ∧ t.busRdata = s.busRdata) ∧
    (i ≠ .tickOnce → t.irqStatus = s.irqStatus ∧ t.tickCount = s.tickCount ∧ t.tickStage = s.tickStage ∧
      t.drainOk = s.drainOk ∧ (i ≠ .logpow → t.snap = s.snap ∧ t.lockOwner = s.lockOwner ∧
        (i ≠ .engSetsize → t.snapValid = s.snapValid)))

/-- A host access never disturbs the command in progress: while `BUSY = 1` it changes neither the latched command nor its
progress, result or data (20 R96, 30 R124, 60 R342). -/
def Obligations.HostAccessKeepsCommandInProgress : Prop :=
  ∀ (i : Instr) (s t : State), (∃ a, i = .busRead a) ∨ (∃ a v b, i = .busWrite a v b) → s.busy = true →
    exec i s = .next t →
    t.busy = true ∧ t.curWord = s.curWord ∧ t.curArg = s.curArg ∧ t.cmdPhase = s.cmdPhase ∧
    t.resReason = s.resReason ∧ t.resOpcode = s.resOpcode ∧ t.rval = s.rval ∧ t.tickStage = s.tickStage ∧
    t.blk = s.blk ∧ t.win = s.win ∧ t.snap = s.snap ∧ t.rbmem = s.rbmem ∧ t.rbCap = s.rbCap ∧ t.fftN = s.fftN ∧
    t.winN = s.winN ∧ t.engN = s.engN

/-! ## Ring buffer -/

/-- The ring index of a cursor is the cursor modulo the capacity, and the wrap of the cursor does not show in it (40 R151). -/
def Obligations.RingIndexIsModulo : Prop :=
  ∀ (P : Params) (cap c : Nat), P.legal → ispow2 cap = true → cap ≤ P.nmax →
    ringIndex cap c = c % cap ∧ ringIndex cap (c + 2 ^ P.cw) = ringIndex cap c

/-- `RB_RESIZE` (40 R152), taken as one transition: the failures, and on success the capacity, both cursors, the count and
the gate, with the producer's pointer and its images cleared (40 R176). `RBMEM` is unchanged. That it is one transition is
log 10. The effective size of this and of every other size command is `roundup` of the request: the least power of two
that is at least the request, itself for a request that is one already (00 R7). -/
def Obligations.RbResizeSetsCapacity : Prop :=
  decodeWord 0x00000010 = .ok .rbResize ∧
  (∀ s : State, SizeFailures .rbResize s ∧
    ∀ c, SizeAccepted s c → s.freeze = .idle →
      exec .rbResize s = .next (ended
        { s with
          rbCap := c, rbWcur := 0, rbRcur := 0, rbAcc := 0, rbGate := false
          wptrW := 0, wptrG := 0, wsync := List.replicate s.params.syncStages 0, wsyncQ := 0 } .ok (BitVec.ofNat 32 c))) ∧
  (∀ n : Nat, ispow2 n = true ↔ ∃ k, n = 2 ^ k) ∧
  (∀ n : Nat, 1 ≤ n →
    ispow2 (roundup n) = true ∧ n ≤ roundup n ∧ (∀ m, ispow2 m = true → n ≤ m → roundup n ≤ m) ∧
    roundup (roundup n) = roundup n) ∧
  roundup 1 = 1 ∧ roundup 3 = 4 ∧ roundup 4 = 4 ∧ roundup 4097 = 8192

/-- `RB_READALL` (40 R154), taken as one transition: the failures, and on success the block copied from the ring, oldest
first, up to every beat the producer domain has accepted (40 R171), the gate and the count cleared, the read cursor at the
write cursor. That it is one transition is log 10. -/
def Obligations.RbReadallDrainsRing : Prop :=
  decodeWord 0x00000011 = .ok .rbReadall ∧
  ∀ s : State, LengthFailures .rbReadall s.rbCap s ∧
    (LengthAccepted s s.rbCap → s.rbGate = false → exec .rbReadall s = .next (ended s .notReady 0)) ∧
    (LengthAccepted s s.rbCap → s.rbGate = true → s.freeze = .idle →
      ∃ t, exec .rbReadall s = .next t ∧
        (∀ j < s.rbCap, t.blkAt j = s.rbmemAt (ringIndex s.rbCap (s.wptrW + j))) ∧
        (∀ a, 8 * s.rbCap ≤ a → t.byteAt .blk a = s.byteAt .blk a) ∧
        t = ended
          { s with
            blk := t.blk, rbGate := false, rbAcc := 0, rbWcur := s.wptrW, rbRcur := s.wptrW
            wsyncQ := s.wptrW, wsync := List.replicate s.params.syncStages s.wptrG } .ok 1)

/-- A drain after at least a capacity of beats copies exactly the last `RB_CAP` beats, oldest first (40 R155). Beats are
taken as `PUT` transitions (log 10). -/
def Obligations.DrainedBlockIsLatestBeats : Prop :=
  ∀ (s : State) (xs : List Sample), Inv s → Settled s → Running s → LengthAccepted s s.rbCap → s.rbCap ≤ xs.length →
    ∃ u t, putAll xs s = .next u ∧ exec .rbReadall u = .next t ∧ t.resReason = .ok ∧ t.rval = 1 ∧
      ∀ j < s.rbCap, some (t.blkAt j) = xs[xs.length - s.rbCap + j]?

/-- `RB_READY` and `IS_OPEN` return the gate and the lifecycle state, in every state, and change nothing else (40 R156,
43 R274). -/
def Obligations.QueriesReturnTheirFlag : Prop :=
  decodeWord 0x00000012 = .ok .rbReady ∧ decodeWord 0x00000043 = .ok .isOpen ∧
  ∀ s : State,
    exec .rbReady s = .next (ended s .ok (if s.rbGate then 1 else 0)) ∧
    exec .isOpen s = .next (ended s .ok (if s.opened then 1 else 0))

/-- The gate after a burst of beats is 1 exactly from the beat on that completes a capacity (40 R164), and the count
saturates (40 R160). The burst is arbitrary, so this says it of every prefix of one. -/
def Obligations.GateRisesAtCapacity : Prop :=
  ∀ (s : State) (xs : List Sample), Inv s → Settled s → Running s → s.rbGate = false →
    ∃ t, putAll xs s = .next t ∧ (t.rbGate = true ↔ s.rbCap - s.rbAcc ≤ xs.length) ∧
      t.rbAcc = min s.rbCap (s.rbAcc + xs.length)

/-- `PUT`. With no other beat under way it is the pseudocode of 40 R160: the ring slot at the write cursor, the cursor, the
count and the gate. With earlier beats under way all of them cross before it and are counted with it (40 R172, 00 R12);
while a resize suspends the crossing (40 R176) any beat is accepted, and only accepted. A frozen producer holds the beat (40 R175), and a
capacity of 0 takes none (40 R161). The beats under way are the model's (log 10). -/
def Obligations.PutWritesSlotAtCursor : Prop :=
  ∀ (s : State) (re im : F32),
    (s.sReady = false ∨ s.rbCap = 0 → exec (.put re im) s = .next s) ∧
    (s.sReady = true → s.rbCap ≠ 0 → s.params.legal → Settled s → s.rbWcur < 2 ^ s.params.cw →
      ∃ t, exec (.put re im) s = .next t ∧
        (∀ i, t.rbmemAt i = if i = ringIndex s.rbCap s.rbWcur then ⟨re, im⟩ else s.rbmemAt i) ∧
        (∀ a, a < 8 * ringIndex s.rbCap s.rbWcur ∨ 8 * ringIndex s.rbCap s.rbWcur + 8 ≤ a →
          t.byteAt .rbmem a = s.byteAt .rbmem a) ∧
        let w := (s.rbWcur + 1) % 2 ^ s.params.cw
        t = { s with
          rbmem := t.rbmem, rbWcur := w, rbAcc := min s.rbCap (s.rbAcc + 1)
          rbGate := decide (min s.rbCap (s.rbAcc + 1) = s.rbCap)
          wptrW := w, wptrG := gray w, wsync := List.replicate s.params.syncStages (gray w), wsyncQ := w }) ∧
    (s.sReady = true → s.rbCap ≠ 0 → s.clrReq = true ∨ s.beatsInFlight + 1 < 2 ^ (s.params.cw - 1) →
      ∃ t, exec (.put re im) s = .next t ∧
        (∀ i, t.rbmemAt i = if i = ringIndex s.rbCap s.wptrW then ⟨re, im⟩ else s.rbmemAt i) ∧
        (∀ a, a < 8 * ringIndex s.rbCap s.wptrW ∨ 8 * ringIndex s.rbCap s.wptrW + 8 ≤ a →
          t.byteAt .rbmem a = s.byteAt .rbmem a) ∧
        let w := (s.wptrW + 1) % 2 ^ s.params.cw
        let n := s.rbAcc + (w + 2 ^ s.params.cw - s.wsyncQ) % 2 ^ s.params.cw
        t = if s.clrReq then { s with rbmem := t.rbmem, wptrW := w, wptrG := gray w }
          else { s with
            rbmem := t.rbmem, rbWcur := w, rbAcc := min s.rbCap n, rbGate := decide (min s.rbCap n = s.rbCap)
            wptrW := w, wptrG := gray w, wsync := List.replicate s.params.syncStages (gray w), wsyncQ := w })

/-- The gray code (40 R174): its definition, the bits of its inverse and that it is one, one changed bit between successive
values, the wrap changing only the top bit, and the rule's examples. -/
def Obligations.GrayCodeRoundTrip : Prop :=
  (∀ b : Nat, gray b = b ^^^ (b >>> 1)) ∧
  (∀ cw g : Nat, (gray2bin (cw + 1) g).testBit cw = g.testBit cw ∧
    ∀ i < cw, (gray2bin (cw + 1) g).testBit i = ((gray2bin (cw + 1) g).testBit (i + 1) ^^ g.testBit i)) ∧
  (∀ cw b : Nat, b < 2 ^ cw → gray b < 2 ^ cw ∧ gray2bin cw (gray b) = b) ∧
  (∀ cw b : Nat, 1 ≤ cw → b < 2 ^ cw → ∃ k < cw, gray b ^^^ gray ((b + 1) % 2 ^ cw) = 2 ^ k) ∧
  (∀ cw : Nat, 1 ≤ cw → gray (2 ^ cw - 1) ^^^ gray 0 = 2 ^ (cw - 1)) ∧
  (List.range 9).map gray = [0, 1, 3, 2, 6, 7, 5, 4, 12]

/-- The crossing is linearizable to `PUT` (00 R12, 40 R172): beats accepted back to back, and then `SYNC_STAGES + 1` edges
of `clk`, come to exactly the state of as many `PUT` transitions. `PUT` as one transition is log 10. -/
def Obligations.CrossingRefinesPuts : Prop :=
  ∀ (s u : State) (xs : List Sample), Inv s → Settled s → Running s → acceptAll xs s = .next u →
    putAll xs s = .next (crossTimes (s.params.syncStages + 1) u)

/-- The freeze (40 R171, R175, R176): a frozen producer's ring memory is stable; a drain or a resize waits while the
handshake is under way; at its linearization point it acts on the settled write cursor and drops its requests. With
`wr_clk` stopped no handshake completes (70 R394): what needs one waits, step after step, until the clock runs again or
the block is reset. Where the handshake stands is read as log 10 says, when `ENG_SETSIZE` needs it as log 5 says, and the
stopped clock is log 19. -/
def Obligations.FreezeHandshakeGuardsRing : Prop :=
  (∀ s t : State, s.frozen = true → step s = .next t → (∀ rest, s.sched ≠ .rstAssert :: rest) → t.rbmem = s.rbmem) ∧
  (∀ s : State, s.freeze = .waiting →
    (LengthAccepted s s.rbCap → s.rbGate = true → exec .rbReadall s = .next s) ∧
    (∀ c, SizeAccepted s c → exec .rbResize s = .next s) ∧
    (∀ c i, s.cmdPhase = .winFill c i → c ≤ i → exec .engSetsize s = .next s) ∧
    (s.tickStage = .drain → s.rbCap = s.engN → s.rbGate = true → tickStep s = .next s)) ∧
  (∀ s : State, s.freeze = .held →
    (LengthAccepted s s.rbCap → s.rbGate = true →
      ∃ t, exec .rbReadall s = .next t ∧
        (∀ j < s.rbCap, t.blkAt j = s.rbmemAt (ringIndex s.rbCap (s.rbWcur + j))) ∧
        (∀ a, 8 * s.rbCap ≤ a → t.byteAt .blk a = s.byteAt .blk a) ∧
        t = ended
          { s with
            blk := t.blk, rbGate := false, rbAcc := 0, rbRcur := s.rbWcur
            freezeReq := false, clrReq := false, settleCnt := 0 } .ok 1) ∧
    (s.tickStage = .drain → s.rbCap = s.engN → s.rbGate = true →
      ∃ t, tickStep s = .next t ∧
        (∀ j < s.rbCap, t.blkAt j = s.rbmemAt (ringIndex s.rbCap (s.rbWcur + j))) ∧
        t = { s with
          blk := t.blk, rbGate := false, rbAcc := 0, rbRcur := s.rbWcur, drainOk := true, tickStage := .window
          freezeReq := false, clrReq := false, settleCnt := 0 }) ∧
    (∀ c, SizeAccepted s c →
      exec .rbResize s = .next (ended
        { s with
          rbCap := c, rbWcur := 0, rbRcur := 0, rbAcc := 0, rbGate := false
          wptrW := 0, wptrG := 0, wsync := List.replicate s.params.syncStages 0, wsyncQ := 0
          freezeReq := false, clrReq := false, settleCnt := 0 } .ok (BitVec.ofNat 32 c))) ∧
    (∀ c i, s.cmdPhase = .winFill c i → c ≤ i →
      exec .engSetsize s = .next (ended
        { s with
          engN := c, snapValid := false, fftN := c, winN := c
          rbCap := c, rbWcur := 0, rbRcur := 0, rbAcc := 0, rbGate := false
          wptrW := 0, wptrG := 0, wsync := List.replicate s.params.syncStages 0, wsyncQ := 0
          freezeReq := false, clrReq := false, settleCnt := 0 } .ok (BitVec.ofNat 32 c)))) ∧
  (∀ s t : State, ProducerStopped s → s.freeze = .waiting ∧
    (Inv s → Sequencer s → NeedsFreeze s → step s = .next t → (∀ rest, s.sched ≠ .wrStart :: rest) →
      (∀ rest, s.sched ≠ .rstAssert :: rest) →
      ProducerStopped t ∧ NeedsFreeze t ∧ (s.tickStage = .drain → t.tickStage = .drain) ∧
        (s.tickStage ≠ .drain → t.busy = true)))

/-- The handshake of 40 R171 and R176 carried out edge by edge, through its release. From a settled block whose latched command is
an accepted `RB_READALL`, with no beat offered: the request, `SYNC_STAGES + 1` edges of `wr_clk`, `2·SYNC_STAGES + 1` edges
of `clk` and the command's transition drain the ring with the producer frozen; `SYNC_STAGES + 1` further edges of `wr_clk`
release the producer, and `SYNC_STAGES` of `clk` let a new freeze begin. For an accepted `RB_RESIZE`, whatever beats are
offered or under way: `CLR_REQ` rises one `clk` edge before `FREEZE_REQ`, freezing clears the producer's pointer and its
gray code, the command's transition sets the capacity and discards the beats, and the release is the same. The requests as
turns of their own are log 10, the schedules log 2. -/
def Obligations.HandshakeEdgesReachTheDrain : Prop :=
  (∀ s : State, Inv s → Settled s → Running s → s.inReset = false → s.initBusy = false → s.busy = true →
    s.cmdPhase = .start → s.tickStage = .idle → decodeWord s.curWord = .ok .rbReadall →
    LengthAccepted s s.rbCap → s.rbGate = true → s.beatQ = [] → s.ovlQ = [] →
    s.sched = .freeze :: (List.replicate (s.params.syncStages + 1) .wrEdge ++
      List.replicate (2 * s.params.syncStages + 1) (.clkEdge false false false) ++
      .command :: (List.replicate (s.params.syncStages + 1) .wrEdge ++
        List.replicate s.params.syncStages (.clkEdge false false false))) →
    ∃ t u v, stepTimes (3 * s.params.syncStages + 4) s = .next t ∧ t.frozen = true ∧ t.freezeReq = false ∧
      t.busy = false ∧ t.resReason = .ok ∧ t.rval = 1 ∧ t.rbGate = false ∧ t.rbAcc = 0 ∧ t.rbRcur = s.rbWcur ∧
      (∀ j < s.rbCap, t.blkAt j = s.rbmemAt (ringIndex s.rbCap (s.rbWcur + j))) ∧
      stepTimes (s.params.syncStages + 1) t = .next u ∧ u.frozen = false ∧ u.freezeAck = false ∧ u.sReady = true ∧
      u.wptrW = s.wptrW ∧ stepTimes s.params.syncStages u = .next v ∧ v.freeze = .idle) ∧
  (∀ (s : State) (c : Nat), Inv s → Running s → s.inReset = false → s.initBusy = false → s.busy = true →
    s.cmdPhase = .start → s.tickStage = .idle → decodeWord s.curWord = .ok .rbResize → SizeAccepted s c → s.ovlQ = [] →
    s.sched = .freeze :: .clkEdge false false false :: .freeze :: (List.replicate (s.params.syncStages + 1) .wrEdge ++
      List.replicate (2 * s.params.syncStages + 1) (.clkEdge false false false) ++
      .command :: (List.replicate (s.params.syncStages + 1) .wrEdge ++
        List.replicate s.params.syncStages (.clkEdge false false false))) →
    ∃ p q r t u v, stepTimes 2 s = .next p ∧ p.clrReq = true ∧ p.freezeReq = false ∧
      step p = .next q ∧ q.clrReq = true ∧ q.freezeReq = true ∧
      stepTimes (s.params.syncStages + 1) q = .next r ∧ r.frozen = true ∧ r.freezeAck = true ∧ r.sReady = false ∧
      r.wptrW = 0 ∧ r.wptrG = 0 ∧ r.beatQ = s.beatQ.drop (s.params.syncStages + 1) ∧ r.rbCap = s.rbCap ∧
      r.rbWcur = p.rbWcur ∧ r.rbAcc = p.rbAcc ∧
      stepTimes (2 * s.params.syncStages + 2) r = .next t ∧ t.frozen = true ∧ t.freezeReq = false ∧ t.clrReq = false ∧
      t.busy = false ∧ t.resReason = .ok ∧ t.rval = BitVec.ofNat 32 c ∧ t.rbCap = c ∧ t.rbWcur = 0 ∧ t.rbRcur = 0 ∧
      t.rbAcc = 0 ∧ t.rbGate = false ∧
      stepTimes (s.params.syncStages + 1) t = .next u ∧ u.frozen = false ∧ u.freezeAck = false ∧ u.sReady = true ∧
      u.wptrW = 0 ∧ stepTimes s.params.syncStages u = .next v ∧ v.freeze = .idle ∧ v.rbAcc = 0)

/-! ## Transform -/

/-- `FFT_SETSIZE` (41 R201) and `FFT_PROCESS` (41 R202): the failures; the new size; and the block that `FFT_CORE` of the configured
size gives, the block beyond it and all other state unchanged. -/
def Obligations.FftCommandsSizeAndTransform : Prop :=
  decodeWord 0x00000020 = .ok .fftSetsize ∧ decodeWord 0x00000121 = .ok (.fftProcess true) ∧
  decodeWord 0x00000021 = .ok (.fftProcess false) ∧
  (∀ s : State, SizeFailures .fftSetsize s ∧
    ∀ c, SizeAccepted s c → exec .fftSetsize s = .next (ended { s with fftN := c } .ok (BitVec.ofNat 32 c))) ∧
  (∀ (fwd : Bool) (s : State), LengthFailures (.fftProcess fwd) s.fftN s ∧
    (LengthAccepted s s.fftN → ispow2 s.fftN = true →
      ∃ t, exec (.fftProcess fwd) s = .next t ∧
        (∀ i < s.fftN, some (t.blkAt i) = (fftCore s.fftN fwd ((List.range s.fftN).map s.blkAt))[i]?) ∧
        (∀ a, 8 * s.fftN ≤ a → t.byteAt .blk a = s.byteAt .blk a) ∧
        t = ended { s with blk := t.blk } .ok 0))

/-- In exact complex arithmetic, with the exact twiddle factors, the network of 41 R203 computes the sums of 41 R204:
exponent -2πi·m·n/N forward and +2πi·m·n/N inverse (the forward scale by 1/N is apart, 41 R207). The sign of the exponent is
general knowledge by the spec's own mark (log 14). -/
def Obligations.NetworkComputesDft : Prop :=
  ∀ (fwd : Bool) (L : Nat) (xs : List ℂ), xs.length = 2 ^ L →
    let sgn : ℂ := if fwd then -1 else 1
    let A : Arith ℂ := ⟨(· + ·), (· - ·), (· * ·), 1⟩
    let wm : Nat → ℂ := fun k => Complex.exp (sgn * (2 * (Real.pi : ℂ) * Complex.I) / 2 ^ k)
    ∀ m : Nat, m < 2 ^ L → (fftNetwork A wm L xs)[m]? =
      some (∑ n ∈ Finset.range (2 ^ L),
        xs.getD n 0 * Complex.exp (sgn * (2 * (Real.pi : ℂ) * Complex.I) * ((m : ℂ) * (n : ℂ)) / 2 ^ L))

/-- Bit reversal (41 R206): its digits and its sum, its range, the involution, what the permutation moves, the identity for `L = 0`
and the rule's example. -/
def Obligations.BitReversalIsInvolution : Prop :=
  (∀ L i : Nat, i < 2 ^ L →
    bitRev L i < 2 ^ L ∧ bitRev L (bitRev L i) = i ∧
    bitRev L i = ∑ t ∈ Finset.range L, (i.testBit t).toNat * 2 ^ (L - 1 - t)) ∧
  (∀ (L i : Nat) (d : Sample) (xs : List Sample), xs.length = 2 ^ L → i < 2 ^ L →
    (bitRevPermute L d xs)[i]? = xs[bitRev L i]?) ∧
  (∀ d x : Sample, bitRevPermute 0 d [x] = [x]) ∧
  (List.range 8).map (bitRev 3) = [0, 4, 2, 6, 1, 5, 3, 7]

/-- The transform of size 1 (41 R210): forward it returns its input but for NaN components, which become `QNAN`; inverse it is a
move. -/
def Obligations.SizeOneTransformIsIdentity : Prop :=
  ∀ x : Sample,
    fftCore 1 true [x] =
      [⟨if F32.isNaN x.re then 0x7FC00000 else x.re, if F32.isNaN x.im then 0x7FC00000 else x.im⟩] ∧
    fftCore 1 false [x] = [x]

/-- Every NaN an arithmetic unit produces is `QNAN`, and every NaN operand and invalid operation produces it (41 R222). -/
def Obligations.NanResultsAreCanonical : Prop :=
  (∀ a b r : F32, r ∈ [fadd a b, fsub a b, fmul a b, ln a] → F32.isNaN r = true → r = 0x7FC00000) ∧
  (∀ a b : F32, F32.isNaN a = true ∨ F32.isNaN b = true →
    fadd a b = 0x7FC00000 ∧ fsub a b = 0x7FC00000 ∧ fmul a b = 0x7FC00000) ∧
  (∀ a : F32, F32.isNaN a = true → ln a = 0x7FC00000) ∧
  (∀ a b : F32, F32.isInf a = true → F32.isZero b = true → fmul a b = 0x7FC00000 ∧ fmul b a = 0x7FC00000) ∧
  (∀ a : F32, F32.isInf a = true → fsub a a = 0x7FC00000)

/-- Signed zeros (41 R225): `x ⊖ x`, the sums of zeros, the sign of a product, and the rule's transform. -/
def Obligations.SignedZerosFollowIeee : Prop :=
  (∀ x : F32, F32.isNaN x = false → F32.isInf x = false → fsub x x = 0x00000000) ∧
  fadd 0x00000000 0x80000000 = 0x00000000 ∧ fadd 0x80000000 0x80000000 = 0x80000000 ∧
  (∀ a b : F32, F32.isNaN (fmul a b) = false → F32.sign (fmul a b) = (F32.sign a ^^ F32.sign b)) ∧
  fftCore 2 true [⟨0x80000000, 0x80000000⟩, ⟨0x80000000, 0x80000000⟩] =
    [⟨0x80000000, 0x80000000⟩, ⟨0x00000000, 0x00000000⟩]

/-- The binary32 operations round once, to nearest, ties to even (00 R9, 30 R141, 41 R220, R223, where the spec marks the
IEEE semantics as general knowledge): what a pattern stands for, what `RN` gives of an exact value `z / 2^q`, and that a
sum, a difference or a product of finite operands is `RN` of the exact one, or where that is 0 the zero of its sign
(41 R225); and the sums, differences and products with an infinite operand that are no NaN. (log 14) -/
def Obligations.ArithmeticRoundsOnceToNearest : Prop :=
  (∀ x : F32, F32.isNaN x = false → F32.isInf x = false →
    (F32.fix x : ℚ) / 2 ^ 149 = (-1) ^ (F32.sign x).toNat *
      (if F32.expo x = 0 then (F32.frac x : ℚ) / 2 ^ 23 / 2 ^ 126
       else (1 + (F32.frac x : ℚ) / 2 ^ 23) * 2 ^ F32.expo x / 2 ^ 127)) ∧
  (∀ (q : Nat) (z : Int), 149 ≤ q → z ≠ 0 →
    F32.sign (roundInt q z) = decide (z < 0) ∧ F32.isNaN (roundInt q z) = false ∧
    (F32.isInf (roundInt q z) = true ↔ (2 ^ 25 - 1) * 2 ^ (q + 103) ≤ z.natAbs) ∧
    (F32.isInf (roundInt q z) = false → ∀ y : F32, F32.isNaN y = false → F32.isInf y = false →
      |F32.fix (roundInt q z) * 2 ^ (q - 149) - z| ≤ |F32.fix y * 2 ^ (q - 149) - z| ∧
      (|F32.fix (roundInt q z) * 2 ^ (q - 149) - z| = |F32.fix y * 2 ^ (q - 149) - z| →
        F32.fix y ≠ F32.fix (roundInt q z) → (roundInt q z).getLsbD 0 = false))) ∧
  (∀ a b : F32, F32.isNaN a = false → F32.isInf a = false → F32.isNaN b = false → F32.isInf b = false →
    (F32.fix a + F32.fix b ≠ 0 → fadd a b = roundInt 149 (F32.fix a + F32.fix b)) ∧
    (F32.fix a - F32.fix b ≠ 0 → fsub a b = roundInt 149 (F32.fix a - F32.fix b)) ∧
    (F32.fix a * F32.fix b ≠ 0 → fmul a b = roundInt 298 (F32.fix a * F32.fix b)) ∧
    (F32.fix a + F32.fix b = 0 →
      fadd a b = if F32.sign a = true ∧ F32.sign b = true then 0x80000000 else 0x00000000) ∧
    (F32.fix a - F32.fix b = 0 →
      fsub a b = if F32.sign a = true ∧ F32.sign b = false then 0x80000000 else 0x00000000) ∧
    (F32.fix a * F32.fix b = 0 → fmul a b = if F32.sign a = F32.sign b then 0x00000000 else 0x80000000)) ∧
  (∀ a b : F32, F32.isInf a = true → F32.isNaN b = false →
    (F32.isInf b = false ∨ F32.sign a = F32.sign b → fadd a b = a ∧ fadd b a = a) ∧
    (F32.isInf b = false ∨ F32.sign a ≠ F32.sign b → fsub a b = a ∧ fsub b a = a ^^^ 0x80000000) ∧
    (F32.isZero b = false → fmul a b = fmul b a ∧
      fmul a b = if F32.sign a = F32.sign b then 0x7F800000 else 0xFF800000))

/-! ## Window -/

/-- Window coefficients are symmetric bit for bit (42 R245), and the two ends are `RN(0.00006)` at every size, sizes 1 and 2
among them (42 R243, R244). -/
def Obligations.WindowCoefficientsAreSymmetric : Prop :=
  (∀ n i : Nat, i < n → wcoef n i = wcoef n (n - 1 - i)) ∧
  wcoef 1 0 = 0x387BA882 ∧ wcoef 2 0 = 0x387BA882 ∧ wcoef 2 1 = 0x387BA882 ∧
  (∀ n : Nat, 1 ≤ n → wcoef n 0 = 0x387BA882 ∧ wcoef n (n - 1) = 0x387BA882)

/-- The enclosure of a window coefficient holds the exact value of 42 R242, and where its two ends round to one pattern no binary32
value is nearer to the exact value than `wcoef n i`. The ends round together at every legal size (log 9; checked outside
Lean). -/
def Obligations.WindowCoefficientIsNearest : Prop :=
  ∀ n i : Nat, i < n →
    let θ : ℝ := if n = 1 then 0 else 2 * Real.pi * i / (n - 1)
    let exact : ℝ := 0.35875 - 0.48829 * Real.cos θ + 0.14128 * Real.cos (2 * θ) - 0.01168 * Real.cos (3 * θ)
    ((wcoefBounds n i).1 : ℝ) ≤ 2 ^ 160 * exact ∧ 2 ^ 160 * exact ≤ ((wcoefBounds n i).2 : ℝ) ∧
    (roundInt 160 (wcoefBounds n i).1 = roundInt 160 (wcoefBounds n i).2 →
      ∀ y : F32, F32.isNaN y = false → F32.isInf y = false →
        |(F32.fix (wcoef n i) : ℝ) / 2 ^ 149 - exact| ≤ |(F32.fix y : ℝ) / 2 ^ 149 - exact|)

/-- `WIN_SETSIZE` (42 R241): the failures; its first transition, one transition per coefficient and its last one; and the
whole run, which leaves the table of size `c` and `WIN` beyond it as it was. No register a host can read changes before
the last transition (20 R92). Where the transitions lie is log 5. -/
def Obligations.WinSetsizeComputesTable : Prop :=
  decodeWord 0x00000030 = .ok .winSetsize ∧
  (∀ s : State, s.cmdPhase = .start → SizeFailures .winSetsize s ∧
    ∀ c, SizeAccepted s c →
      exec .winSetsize s = .next { s with cmdPhase := .winFill c 0 } ∧
      ∃ t, execTimes .winSetsize (c + 2) s = .next t ∧ (∀ i < c, t.winAt i = wcoef c i) ∧
        (∀ a, 4 * c ≤ a → t.byteAt .win a = s.byteAt .win a) ∧
        t = ended { s with win := t.win, winN := c } .ok (BitVec.ofNat 32 c)) ∧
  (∀ (s : State) (c i : Nat), s.cmdPhase = .winFill c i →
    (i < c → ∃ t, exec .winSetsize s = .next t ∧ t.winAt i = wcoef c i ∧
      (∀ a, a < 4 * i ∨ 4 * i + 4 ≤ a → t.byteAt .win a = s.byteAt .win a) ∧
      t = { s with win := t.win, cmdPhase := .winFill c (i + 1) }) ∧
    (c ≤ i → exec .winSetsize s = .next (ended { s with winN := c } .ok (BitVec.ofNat 32 c))))

/-- `WIN_PROCESS` (42 R246): the failures, and on success both components of each Sample multiplied by the coefficient at its
index. -/
def Obligations.WinProcessMultipliesBlock : Prop :=
  decodeWord 0x00000031 = .ok .winProcess ∧
  ∀ s : State, LengthFailures .winProcess s.winN s ∧
    (LengthAccepted s s.winN →
      ∃ t, exec .winProcess s = .next t ∧
        (∀ i < s.winN, t.blkAt i = ⟨fmul (s.blkAt i).re (s.winAt i), fmul (s.blkAt i).im (s.winAt i)⟩) ∧
        (∀ a, 8 * s.winN ≤ a → t.byteAt .blk a = s.byteAt .blk a) ∧
        t = ended { s with blk := t.blk } .ok 0)

/-! ## Engine -/

/-- `ENG_SETSIZE` (43 R271): the failures; its first transition, one transition per coefficient and its last one; and the
whole run, which sizes every component to `c`, empties the ring, marks the snapshot invalid and leaves the window table of
size `c`. No register a host can read changes before the last transition (20 R92). The last transition taken with its
freeze at once is log 10, at a handshake's linearization point it is stated in `FreezeHandshakeGuardsRing`; where the
transitions lie is log 5. -/
def Obligations.EngSetsizeSizesEveryComponent : Prop :=
  decodeWord 0x00000040 = .ok .engSetsize ∧
  (∀ s : State, s.cmdPhase = .start → SizeFailures .engSetsize s ∧
    ∀ c, SizeAccepted s c →
      exec .engSetsize s = .next { s with cmdPhase := .winFill c 0 } ∧
      (s.freeze = .idle →
        ∃ t, execTimes .engSetsize (c + 2) s = .next t ∧ (∀ i < c, t.winAt i = wcoef c i) ∧
          (∀ a, 4 * c ≤ a → t.byteAt .win a = s.byteAt .win a) ∧
          t = ended
            { s with
              engN := c, snapValid := false, rbCap := c, rbWcur := 0, rbRcur := 0, rbAcc := 0, rbGate := false
              wptrW := 0, wptrG := 0, wsync := List.replicate s.params.syncStages 0, wsyncQ := 0
              fftN := c, winN := c, win := t.win } .ok (BitVec.ofNat 32 c))) ∧
  (∀ (s : State) (c i : Nat), s.cmdPhase = .winFill c i →
    (i < c → ∃ t, exec .engSetsize s = .next t ∧ t.winAt i = wcoef c i ∧
      (∀ a, a < 4 * i ∨ 4 * i + 4 ≤ a → t.byteAt .win a = s.byteAt .win a) ∧
      t = { s with win := t.win, cmdPhase := .winFill c (i + 1) }) ∧
    (c ≤ i → s.freeze = .idle →
      exec .engSetsize s = .next (ended
        { s with
          engN := c, snapValid := false, rbCap := c, rbWcur := 0, rbRcur := 0, rbAcc := 0, rbGate := false
          wptrW := 0, wptrG := 0, wsync := List.replicate s.params.syncStages 0, wsyncQ := 0
          fftN := c, winN := c } .ok (BitVec.ofNat 32 c))))

/-- `OPEN` and `CLOSE` (43 R272, R273), with every transition of `CLOSE`: it stops the timer, waits for the running tick,
and leaves Open. Where the transitions of `CLOSE` lie is log 5. -/
def Obligations.OpenAndCloseMoveLifecycle : Prop :=
  decodeWord 0x00000041 = .ok .openEng ∧ decodeWord 0x00000042 = .ok .closeEng ∧
  ∀ s : State,
    (s.opened = true → exec .openEng s = .next (ended s .ok 1)) ∧
    (s.opened = false →
      exec .openEng s = .next (ended { s with opened := true, timerCnt := 0, tickPending := false } .ok 0)) ∧
    (s.cmdPhase = .start → s.opened = false → exec .closeEng s = .next (ended s .ok 0)) ∧
    (s.cmdPhase = .start → s.opened = true →
      exec .closeEng s = .next { s with closing := true, tickPending := false, cmdPhase := .closeWait }) ∧
    (s.cmdPhase = .closeWait → s.tickStage ≠ .idle → exec .closeEng s = .next s) ∧
    (s.cmdPhase = .closeWait → s.tickStage = .idle →
      exec .closeEng s = .next (ended { s with opened := false, closing := false, timerCnt := 0 } .ok 1))

/-- `TICK_ONCE` (43 R275): its first and last transitions, and the whole run with matching sizes, a full ring and a free
lock: the drained block is windowed, transformed and shifted, its log powers are the snapshot, and the tick is published.
Where the transitions lie is log 5, the drain as one transition log 10. -/
def Obligations.TickOncePublishesSpectrum : Prop :=
  decodeWord 0x00000044 = .ok .tickOnce ∧
  (∀ s : State, s.cmdPhase = .start →
    (s.opened = true → exec .tickOnce s = .next (ended s .wrongState 0)) ∧
    (s.opened = false →
      exec .tickOnce s = .next { s with tickByCmd := true, tickStage := .drain, cmdPhase := .tickWait })) ∧
  (∀ s : State, s.cmdPhase = .tickWait →
    (s.tickStage ≠ .idle → exec .tickOnce s = tickStep s) ∧
    (s.tickStage = .idle →
      exec .tickOnce s = .next (ended { s with tickByCmd := false } .ok (if s.drainOk then 1 else 0)))) ∧
  (∀ (s : State) (n : Nat), s.cmdPhase = .start → s.opened = false → s.freeze = .idle → s.lockOwner = .none →
    ispow2 n = true → s.rbCap = n → s.engN = n → s.fftN = n → s.winN = n → s.rbGate = true →
    let drained := (List.range n).map fun j => s.rbmemAt (ringIndex n (s.wptrW + j))
    let windowed := (List.range n).map fun j => scaleSample (s.winAt j) (drained.getD j ⟨0, 0⟩)
    let spectrum := fftShift n (fftCore n true windowed)
    ∃ t, execTimes .tickOnce (n + 8) s = .next t ∧
      (∀ i < n, some (t.blkAt i) = spectrum[i]? ∧ t.snapAt i = magLog (t.blkAt i)) ∧
      (∀ a, 8 * n ≤ a → t.byteAt .blk a = s.byteAt .blk a) ∧
      (∀ a, 4 * n ≤ a → t.byteAt .snap a = s.byteAt .snap a) ∧
      t = ended
        { s with
          blk := t.blk, snap := t.snap, rbGate := false, rbAcc := 0, rbWcur := s.wptrW, rbRcur := s.wptrW
          wsyncQ := s.wptrW, wsync := List.replicate s.params.syncStages s.wptrG
          drainOk := true, snapValid := true, tickCount := s.tickCount + 1
          irqStatus := s.irqStatus ||| 1#2, tickByCmd := false, tickStage := .idle } .ok 1)

/-- The stages of a tick up to the lock (43 R305-R309): the drain with its policy for a failed one, the window product, the
forward transform, each skipped without a report where the sizes differ, and the rotation. The drain as one transition is
log 10; at a handshake's linearization point it uses the settled write cursor and drops the request. -/
def Obligations.TickStagesProcessBlock : Prop :=
  ∀ s : State,
    (s.tickStage = .drain → s.rbCap = s.engN → s.rbGate = true → s.freeze = .idle →
      ∃ t, tickStep s = .next t ∧
        (∀ j < s.rbCap, t.blkAt j = s.rbmemAt (ringIndex s.rbCap (s.wptrW + j))) ∧
        (∀ a, 8 * s.rbCap ≤ a → t.byteAt .blk a = s.byteAt .blk a) ∧
        t = { s with
          blk := t.blk, rbGate := false, rbAcc := 0, rbWcur := s.wptrW, rbRcur := s.wptrW, wsyncQ := s.wptrW
          wsync := List.replicate s.params.syncStages s.wptrG, drainOk := true, tickStage := .window }) ∧
    (s.tickStage = .drain → s.rbCap = s.engN → s.rbGate = true → s.freeze = .held →
      ∃ t, tickStep s = .next t ∧
        (∀ j < s.rbCap, t.blkAt j = s.rbmemAt (ringIndex s.rbCap (s.rbWcur + j))) ∧
        (∀ a, 8 * s.rbCap ≤ a → t.byteAt .blk a = s.byteAt .blk a) ∧
        t = { s with
          blk := t.blk, rbGate := false, rbAcc := 0, rbRcur := s.rbWcur, drainOk := true, tickStage := .window
          freezeReq := false, clrReq := false, settleCnt := 0 }) ∧
    (s.tickStage = .drain → s.rbCap ≠ s.engN ∨ s.rbGate = false → s.skipStale = false →
      tickStep s = .next { s with drainOk := false, tickStage := .window }) ∧
    (s.tickStage = .drain → s.rbCap ≠ s.engN ∨ s.rbGate = false → s.skipStale = true →
      ∃ t, tickStep s = .next t ∧ t = { s with
        drainOk := false, tickStage := t.tickStage, tickPending := t.tickPending } ∧ AtTickEnd s t) ∧
    (s.tickStage = .window → s.winN = s.engN →
      ∃ t, tickStep s = .next t ∧
        (∀ i < s.engN, t.blkAt i = ⟨fmul (s.blkAt i).re (s.winAt i), fmul (s.blkAt i).im (s.winAt i)⟩) ∧
        (∀ a, 8 * s.engN ≤ a → t.byteAt .blk a = s.byteAt .blk a) ∧
        t = { s with blk := t.blk, tickStage := .fft }) ∧
    (s.tickStage = .window → s.winN ≠ s.engN → tickStep s = .next { s with tickStage := .fft }) ∧
    (s.tickStage = .fft → s.fftN = s.engN → ispow2 s.engN = true →
      ∃ t, tickStep s = .next t ∧
        (∀ i < s.engN, some (t.blkAt i) = (fftCore s.engN true ((List.range s.engN).map s.blkAt))[i]?) ∧
        (∀ a, 8 * s.engN ≤ a → t.byteAt .blk a = s.byteAt .blk a) ∧
        t = { s with blk := t.blk, tickStage := .shift }) ∧
    (s.tickStage = .fft → s.fftN ≠ s.engN → tickStep s = .next { s with tickStage := .shift }) ∧
    (s.tickStage = .shift →
      ∃ t, tickStep s = .next t ∧ (∀ i < s.engN, t.blkAt i = s.blkAt ((i + s.engN / 2) % s.engN)) ∧
        (∀ a, 8 * s.engN ≤ a → t.byteAt .blk a = s.byteAt .blk a) ∧
        t = { s with blk := t.blk, tickStage := .lock })

/-- The stages of a tick from the lock on (43 R310-R313): the wait for the lock and its acquisition in one transition, one entry
per transition, the publication, and the end of the tick in the same transition. -/
def Obligations.TickLocksLogsAndPublishes : Prop :=
  ∀ s : State,
    (s.tickStage = .lock → s.lockOwner ≠ .none → tickStep s = .next s) ∧
    (s.tickStage = .lock → s.lockOwner = .none →
      tickStep s = .next { s with lockOwner := .engine, tickStage := .log 0 }) ∧
    (∀ i, s.tickStage = .log i →
      ∃ t, tickStep s = .next t ∧ t.snapAt i = magLog (s.blkAt i) ∧
        (∀ a, a < 4 * i ∨ 4 * i + 4 ≤ a → t.byteAt .snap a = s.byteAt .snap a) ∧
        t = { s with snap := t.snap, tickStage := if i + 1 < s.engN then .log (i + 1) else .publish }) ∧
    (s.tickStage = .publish →
      ∃ t, tickStep s = .next t ∧ AtTickEnd s t ∧
        t = { s with
          lockOwner := .none, snapValid := true, tickCount := s.tickCount + 1, irqStatus := s.irqStatus ||| 1#2
          tickStage := t.tickStage, tickPending := t.tickPending }) ∧
    (s.tickStage = .idle → tickStep s = .next s)

/-- `SHIFT` (43 R276): the failures, the rotation by half the block, and that a second `SHIFT` restores the block. -/
def Obligations.ShiftRotatesByHalf : Prop :=
  decodeWord 0x00000045 = .ok .shift ∧
  ∀ s : State, LengthFailures .shift s.engN s ∧
    (LengthAccepted s s.engN → ispow2 s.engN = true →
      ∃ t u, exec .shift s = .next t ∧ exec .shift t = .next u ∧
        (∀ i < s.engN, t.blkAt i = s.blkAt ((i + s.engN / 2) % s.engN) ∧ u.blkAt i = s.blkAt i) ∧
        (∀ a, 8 * s.engN ≤ a → t.byteAt .blk a = s.byteAt .blk a) ∧
        t = ended { s with blk := t.blk } .ok 0)

/-- `LOGPOW` (43 R277, R311): the failures; its transitions, with the wait for the lock; and the whole run, which leaves the
log powers in the snapshot and publishes nothing. Where the first and the last transition lie is log 5. -/
def Obligations.LogpowWritesSnapshot : Prop :=
  decodeWord 0x00000046 = .ok .logpow ∧
  (∀ s : State, s.cmdPhase = .start → LengthFailures .logpow s.engN s ∧
    (LengthAccepted s s.engN → s.lockOwner ≠ .none → exec .logpow s = .next s) ∧
    (LengthAccepted s s.engN → s.lockOwner = .none →
      exec .logpow s = .next { s with lockOwner := .engine, cmdPhase := .logFill 0 } ∧
      ∃ t, execTimes .logpow (s.engN + 2) s = .next t ∧ (∀ i < s.engN, t.snapAt i = magLog (s.blkAt i)) ∧
        (∀ a, 4 * s.engN ≤ a → t.byteAt .snap a = s.byteAt .snap a) ∧
        t = ended { s with snap := t.snap, snapValid := true } .ok 0)) ∧
  (∀ (s : State) (i : Nat), s.cmdPhase = .logFill i →
    (i < s.engN → ∃ t, exec .logpow s = .next t ∧ t.snapAt i = magLog (s.blkAt i) ∧
      (∀ a, a < 4 * i ∨ 4 * i + 4 ≤ a → t.byteAt .snap a = s.byteAt .snap a) ∧
      t = { s with snap := t.snap, cmdPhase := .logFill (i + 1) }) ∧
    (s.engN ≤ i → exec .logpow s = .next (ended { s with lockOwner := .none, snapValid := true } .ok 0)))

/-- The magnitude converter is total (43 R278, R279): the sum of squares is never negative; a zero sum gives -inf, and the sum of a
Sample of two zeros is zero; an infinite one gives +inf, a NaN `QNAN`, and any other a number. -/
def Obligations.MagnitudeLogIsTotal : Prop :=
  ∀ x : Sample,
    let p := fadd (fmul x.re x.re) (fmul x.im x.im)
    magLog x = fmul 0x40A00000 (ln p) ∧
    (F32.isNaN p = true ∨ F32.sign p = false) ∧
    (F32.isNaN x.re = true ∨ F32.isNaN x.im = true ↔ F32.isNaN p = true) ∧
    (F32.isNaN p = true → magLog x = 0x7FC00000) ∧
    (p = 0x00000000 → magLog x = 0xFF800000) ∧
    (F32.isZero x.re = true → F32.isZero x.im = true → p = 0x00000000 ∧ magLog x = 0xFF800000) ∧
    (p = 0x7F800000 → magLog x = 0x7F800000) ∧
    (F32.isNaN p = false → F32.isNaN (magLog x) = false)

/-- The logarithm (43 R279): the special values of its table; the enclosure holds the exact logarithm of every finite positive
pattern; and where its two ends round to one pattern no binary32 value is nearer to the exact value than `ln x`. The ends
round together for every such pattern (log 9; checked outside Lean). -/
def Obligations.LogarithmIsNearest : Prop :=
  ln 0x3F800000 = 0x00000000 ∧ ln 0x00000000 = 0xFF800000 ∧ ln 0x80000000 = 0xFF800000 ∧
  ln 0x7F800000 = 0x7F800000 ∧
  (∀ x : F32, F32.isNaN x = true ∨ (F32.sign x = true ∧ F32.isZero x = false) → ln x = 0x7FC00000) ∧
  (∀ x : F32, F32.isNaN x = false → F32.isInf x = false → 0 < F32.fix x →
    let exact : ℝ := Real.log ((F32.fix x : ℝ) / 2 ^ 149)
    ((lnBounds x).1 : ℝ) ≤ 2 ^ 160 * exact ∧ 2 ^ 160 * exact ≤ ((lnBounds x).2 : ℝ) ∧
    (roundInt 160 (lnBounds x).1 = roundInt 160 (lnBounds x).2 →
      ∀ y : F32, F32.isNaN y = false → F32.isInf y = false →
        |(F32.fix (ln x) : ℝ) / 2 ^ 149 - exact| ≤ |(F32.fix y : ℝ) / 2 ^ 149 - exact|))

/-! ## Host bus -/

/-- What a host read of every register and window returns (20 R84, R85, 30 R121, R128, R136, R138): no read changes anything but
the data on the bus. -/
def Obligations.BusReadReturnsLocation : Prop :=
  ∀ s : State, s.params.legal →
    (∀ p ∈ ([(0x000, paramWord s.params), (0x004, if s.skipStale then 1 else 0), (0x008, s.statusWord), (0x00C, 0),
        (0x010, s.arg), (0x014, s.resultWord), (0x018, s.rval), (0x01C, s.err.setWidth 32),
        (0x020, s.irqStatus.setWidth 32), (0x024, s.irqEnable.setWidth 32), (0x028, s.tickPeriod),
        (0x02C, BitVec.ofNat 32 s.engN), (0x030, BitVec.ofNat 32 s.rbCap), (0x034, BitVec.ofNat 32 s.fftN),
        (0x038, BitVec.ofNat 32 s.winN), (0x03C, BitVec.ofNat 32 s.rbWcur), (0x040, BitVec.ofNat 32 s.rbRcur),
        (0x044, BitVec.ofNat 32 s.rbAcc), (0x048, BitVec.ofNat 32 s.ovlCnt), (0x04C, s.tickCount),
        (0x050, match s.lockOwner with | .none => 0 | .host => 1 | .engine => 2), (0x054, s.timerCnt)] :
        List (Nat × Word)),
      exec (.busRead p.1) s = .next { s with busRdata := p.2 }) ∧
    (∀ i < s.params.nmax,
      exec (.busRead (0x040000 + 4 * i)) s = .next { s with busRdata := s.snapAt i } ∧
      (s.busy = false → exec (.busRead (0x080000 + 4 * i)) s = .next { s with busRdata := s.winAt i }) ∧
      (s.opened = false → s.busy = false →
        exec (.busRead (0x100000 + 8 * i)) s = .next { s with busRdata := (s.blkAt i).re } ∧
        exec (.busRead (0x100004 + 8 * i)) s = .next { s with busRdata := (s.blkAt i).im })) ∧
    (∀ k, 1 ≤ k → k ≤ s.params.log2Nmax →
      exec (.busRead (0x0C0000 + 8 * k)) s = .next { s with busRdata := (twiddle k).re } ∧
      exec (.busRead (0x0C0004 + 8 * k)) s = .next { s with busRdata := (twiddle k).im })

/-- The fields of `STATUS`, `RESULT` and `PARAM`, bit by bit, the reserved bits among them (30 R125, R127, R130, R131). -/
def Obligations.StatusResultParamFields : Prop :=
  ∀ s : State,
    (s.statusWord.getLsbD 0 = s.busy ∧ s.statusWord.getLsbD 1 = s.opened ∧ s.statusWord.getLsbD 2 = s.rbGate ∧
      s.statusWord.getLsbD 3 = s.snapValid ∧ s.statusWord.getLsbD 4 = decide (s.tickStage ≠ .idle) ∧
      s.statusWord.getLsbD 5 = s.ovlCnt.testBit 0 ∧ s.statusWord.getLsbD 6 = s.closing ∧
      s.statusWord.getLsbD 7 = s.initBusy ∧
      s.statusWord.extractLsb' 8 2 = (match s.lockOwner with | .none => 0#2 | .host => 1#2 | .engine => 2#2) ∧
      s.statusWord.extractLsb' 10 22 = 0#22) ∧
    (s.resultWord.extractLsb' 0 4 = (match s.resReason with
        | .ok => 0#4 | .configZero => 1#4 | .configRange => 2#4 | .sizeMismatch => 3#4 | .notReady => 4#4
        | .wrongState => 5#4 | .illegalCmd => 6#4) ∧
      s.resultWord.extractLsb' 4 4 = 0#4 ∧ s.resultWord.extractLsb' 8 8 = s.resOpcode ∧
      s.resultWord.extractLsb' 16 16 = 0#16) ∧
    (s.params.legal →
      ((paramWord s.params).extractLsb' 0 5).toNat = s.params.log2Nmax ∧
      (paramWord s.params).extractLsb' 5 3 = 0#3 ∧
      ((paramWord s.params).extractLsb' 8 6).toNat = s.params.cw ∧
      (paramWord s.params).extractLsb' 14 10 = 0#10 ∧ (paramWord s.params).extractLsb' 24 8 = 1#8)

/-- The rejection rule (20 R83, 60 R343): a rejected read returns 0, a rejected write does nothing, either sets `ERR.ACCESS` and
nothing else; an access that is not rejected leaves `ERR.ACCESS` as it was, unless it is the write that clears it. -/
def Obligations.BusRejectionsFollowRule : Prop :=
  ∀ (s : State) (addr : Nat) (v : Word) (wstrb : BitVec 4), s.params.legal → addr < 2 ^ 21 →
    (Rejected s false addr 0 → exec (.busRead addr) s = .next { s with err := s.err ||| 2#2, busRdata := 0 }) ∧
    (¬ Rejected s false addr 0 → ∃ x, exec (.busRead addr) s = .next { s with busRdata := x }) ∧
    (Rejected s true addr wstrb → exec (.busWrite addr v wstrb) s = .next { s with err := s.err ||| 2#2 }) ∧
    (¬ Rejected s true addr wstrb → ∃ t, exec (.busWrite addr v wstrb) s = .next t ∧
      (addr ≠ 0x01C → t.err.getLsbD 1 = s.err.getLsbD 1))

/-- What a host write does to every writable location but `CMD` and `SNAPLOCK` (20 R86, R87, 30 R124, R129, R133, R134, R137,
60 R353): the word stored, bits cleared by writing 1, a period of at least 1, and one half of a Sample of `BLK`. -/
def Obligations.BusWriteActsOnLocation : Prop :=
  ∀ (s : State) (v : Word),
    exec (.busWrite 0x004 v 0b1111) s = .next { s with skipStale := v.getLsbD 0 } ∧
    exec (.busWrite 0x010 v 0b1111) s = .next { s with arg := v } ∧
    exec (.busWrite 0x01C v 0b1111) s = .next { s with err := s.err &&& ~~~(v.extractLsb' 0 2) } ∧
    exec (.busWrite 0x020 v 0b1111) s = .next { s with irqStatus := s.irqStatus &&& ~~~(v.extractLsb' 0 2) } ∧
    exec (.busWrite 0x024 v 0b1111) s = .next { s with irqEnable := v.extractLsb' 0 2 } ∧
    exec (.busWrite 0x028 v 0b1111) s = .next { s with tickPeriod := if v.toNat = 0 then 1 else v } ∧
    (∀ i < s.params.nmax, s.params.legal → s.opened = false → s.busy = false →
      (∃ t, exec (.busWrite (0x100000 + 8 * i) v 0b1111) s = .next t ∧ t.blkAt i = ⟨v, (s.blkAt i).im⟩ ∧
        (∀ a, a < 8 * i ∨ 8 * i + 4 ≤ a → t.byteAt .blk a = s.byteAt .blk a) ∧ t = { s with blk := t.blk }) ∧
      (∃ t, exec (.busWrite (0x100004 + 8 * i) v 0b1111) s = .next t ∧ t.blkAt i = ⟨(s.blkAt i).re, v⟩ ∧
        (∀ a, a < 8 * i + 4 ∨ 8 * i + 8 ≤ a → t.byteAt .blk a = s.byteAt .blk a) ∧ t = { s with blk := t.blk }))

/-- A write of `CMD` (30 R121, 60 R342) latches the word and `ARG` and sets `BUSY`, or while `BUSY = 1` is an overrun that sets its
error bit and changes nothing else; that the command then stands before its first transition is log 5. A write of
`SNAPLOCK` (43 R315) is a test-and-set for bit 0 = 1, a release of the host's own lock for bit 0 = 0, and nothing in every
other case. -/
def Obligations.CmdAndSnaplockWritesAct : Prop :=
  ∀ (s : State) (v : Word),
    (s.busy = false → exec (.busWrite 0x00C v 0b1111) s =
      .next { s with curWord := v, curArg := s.arg, busy := true, cmdPhase := .start }) ∧
    (s.busy = true → exec (.busWrite 0x00C v 0b1111) s = .next { s with err := s.err ||| 1#2 }) ∧
    exec (.busWrite 0x050 v 0b1111) s = .next { s with
      lockOwner :=
        match v.getLsbD 0, s.lockOwner with
        | true, .none => .host
        | true, .host => .host
        | true, .engine => .engine
        | false, .none => .none
        | false, .host => .none
        | false, .engine => .engine }

/-- The snapshot under the host's lock (20 R95, 43 R317): while `LOCK_OWNER = HOST` no step short of a reset writes `SNAP`; and
`SNAP_VALID` is cleared by nothing but a reset and `ENG_SETSIZE`. -/
def Obligations.HostLockKeepsSnapshot : Prop :=
  (∀ s t : State, Sequencer s → s.lockOwner = .host → (∀ rest, s.sched ≠ .rstAssert :: rest) → step s = .next t →
    ∀ a, t.byteAt .snap a = s.byteAt .snap a) ∧
  (∀ s t : State, s.snapValid = true → step s = .next t → t.snapValid = false →
    (∃ rest, s.sched = .rstAssert :: rest) ∨ decodeWord t.curWord = .ok .engSetsize)

/-! ## Timer, overload flag and interrupts -/

/-- The tick timer (43 R300, R301): what one edge of `clk` does to it, alone and together with a host access, a command or a tick
transition on the same edge, and that from an `OPEN` it expires every `TICK_PERIOD` edges. The edges as turns are log 2,
the order of the events on one of them log 11. -/
def Obligations.TimerExpiresEveryPeriod : Prop :=
  (∀ (s : State) (rest : List Turn), s.rstC = false → s.sched = .clkEdge false false false :: rest →
    ∃ t, step s = .next t ∧
      (s.opened = true → s.closing = false → s.tickPeriod.toNat ≤ s.timerCnt.toNat + 1 →
        t.timerCnt = 0 ∧
        (s.tickStage = .idle → t.tickStage = .drain ∧ t.tickByCmd = false ∧ t.tickPending = s.tickPending) ∧
        (s.tickStage ≠ .idle →
          t.tickStage = s.tickStage ∧ t.tickByCmd = s.tickByCmd ∧ t.tickPending = true)) ∧
      (s.opened = true → s.closing = false → s.timerCnt.toNat + 1 < s.tickPeriod.toNat →
        t.timerCnt = s.timerCnt + 1 ∧ t.tickStage = s.tickStage ∧ t.tickByCmd = s.tickByCmd ∧
        t.tickPending = s.tickPending) ∧
      (s.opened = false ∨ s.closing = true →
        t.timerCnt = s.timerCnt ∧ t.tickStage = s.tickStage ∧ t.tickByCmd = s.tickByCmd ∧
        t.tickPending = s.tickPending)) ∧
  (∀ (s t : State) (host command tick : Bool) (rest : List Turn), Sequencer s → s.rstC = false →
    s.sched = .clkEdge host command tick :: rest → step s = .next t →
    if s.opened = true ∧ s.closing = false ∧ t.opened = true ∧ t.closing = false then
      (t.tickPeriod.toNat ≤ s.timerCnt.toNat + 1 →
        t.timerCnt = 0 ∧ (t.tickStage = .drain ∧ t.tickByCmd = false ∨ t.tickStage ≠ .idle ∧ t.tickPending = true)) ∧
      (s.timerCnt.toNat + 1 < t.tickPeriod.toNat → t.timerCnt = s.timerCnt + 1)
    else t.timerCnt = s.timerCnt ∨ (t.timerCnt = 0 ∧ t.opened ≠ s.opened)) ∧
  (∀ (s : State) (n : Nat), s.rstC = false → s.opened = true → s.closing = false → s.timerCnt = 0 →
    s.tickPeriod ≠ 0 → s.tickStage = .idle → s.tickPending = false →
    s.sched = List.replicate n (.clkEdge false false false) →
    ∃ t, stepTimes n s = .next t ∧ t.timerCnt.toNat = n % s.tickPeriod.toNat ∧
      (t.tickStage = .drain ↔ s.tickPeriod.toNat ≤ n) ∧ (t.tickPending = true ↔ 2 * s.tickPeriod.toNat ≤ n))

/-- `OVLSET` (43 R320), the producer domain's half: nothing for the present value or in reset (70 R380), else the flag, the counter
and its gray code; beyond the rate bound (40 R173, 43 R321) it is the model's fault (log 7). -/
def Obligations.OvlsetCountsChanges : Prop :=
  ∀ (s : State) (b : Bool),
    (s.inReset = true ∨ b = s.ovlW → exec (.ovlset b) s = .next s) ∧
    (s.inReset = false → b ≠ s.ovlW → s.changesInFlight + 1 < 2 ^ (s.params.cw - 1) →
      exec (.ovlset b) s = .next { s with
        ovlW := b, ovlWcnt := (s.ovlWcnt + 1) % 2 ^ s.params.cw
        ovlG := gray ((s.ovlWcnt + 1) % 2 ^ s.params.cw) })

/-- The overload crossing (43 R321, R322): after `SYNC_STAGES + 1` edges of `clk` with no new change the core's counter is the
producer's, its flag is the value last supplied, the interrupt bit is set if anything changed, and nothing else is touched: the
other interrupt bit and a set `OVL` stay as they were. -/
def Obligations.OverloadChangesCross : Prop :=
  ∀ s : State, Inv s →
    let u := crossOverloadTimes (s.params.syncStages + 1) s
    u.ovlCnt = s.ovlWcnt ∧ u.ovl = s.ovlW ∧
    (u.irqStatus = s.irqStatus ∨ u.irqStatus = s.irqStatus ||| 2#2) ∧
    (s.ovlCnt ≠ s.ovlWcnt → u.irqStatus = s.irqStatus ||| 2#2) ∧
    u = { s with
      ovlCnt := s.ovlWcnt, ovlSync := List.replicate s.params.syncStages s.ovlG, irqStatus := u.irqStatus } ∧
    (s.ovlSync = List.replicate s.params.syncStages s.ovlG → s.ovlCnt = s.ovlWcnt → u = s)

/-- The interrupts (60 R350-R352): a step short of a reset sets `SPEC` only by a tick's publication and `OVL` only with an overload
change that reaches the core domain; and the line is the level of the enabled status bits, 0 in reset (70 R380). -/
def Obligations.InterruptsHaveTheirEvents : Prop :=
  (∀ s t : State, Sequencer s → (∀ rest, s.sched ≠ .rstAssert :: rest) → step s = .next t →
    (s.irqStatus.getLsbD 0 = false → t.irqStatus.getLsbD 0 = true →
      s.tickStage = .publish ∧ t.tickCount = s.tickCount + 1 ∧ t.snapValid = true) ∧
    (s.irqStatus.getLsbD 1 = false → t.irqStatus.getLsbD 1 = true → t.ovlCnt ≠ s.ovlCnt) ∧
    (t.tickCount ≠ s.tickCount → s.tickStage = .publish ∧ t.irqStatus.getLsbD 0 = true)) ∧
  (∀ s : State,
    (s.inReset = true → s.irq = false) ∧
    (s.inReset = false → s.irq = ((s.irqStatus.getLsbD 0 && s.irqEnable.getLsbD 0) ||
      (s.irqStatus.getLsbD 1 && s.irqEnable.getLsbD 1))))

/-- The two producer channels are independent (20 R91, 93 U10): a beat and an overload update may be taken in either order, and come
to the same state; what is accepted crosses one by one, either channel's oldest next, and touches nothing of the other; and
so the host may see the overload change of an `INGEST` before its sample or after it (43 R323). `PUT` as one transition is
log 10, the crossing of one channel as a turn log 20. -/
def Obligations.ProducerChannelsCommute : Prop :=
  (∀ (s t : State) (re im : F32) (b : Bool),
    andThen (exec (.put re im) s) (exec (.ovlset b)) = .next t ↔
      andThen (exec (.ovlset b) s) (exec (.put re im)) = .next t) ∧
  (∀ (s : State) (rest : List Turn), s.rstC = false →
    (s.sched = .beatCross :: rest → s.clrReq = false → s.wptrW ≠ s.wsyncQ → Inv s →
      let w := (s.wsyncQ + 1) % 2 ^ s.params.cw
      step s = .next { s with
        sched := rest, rbWcur := w, wsyncQ := w, rbAcc := min s.rbCap (s.rbAcc + 1)
        rbGate := decide (min s.rbCap (s.rbAcc + 1) = s.rbCap)
        wsync := s.wsync.map fun g => if g = gray s.wsyncQ then gray w else g }) ∧
    (s.sched = .overloadCross :: rest → s.ovlWcnt ≠ s.ovlCnt → Inv s →
      let c := (s.ovlCnt + 1) % 2 ^ s.params.cw
      step s = .next { s with
        sched := rest, ovlCnt := c, irqStatus := s.irqStatus ||| 2#2
        ovlSync := s.ovlSync.map fun g => if g = gray s.ovlCnt then gray c else g })) ∧
  (∀ s : State, stepTimes 2 { s with sched := [.beatCross, .overloadCross] } =
    stepTimes 2 { s with sched := [.overloadCross, .beatCross] }) ∧
  (∀ (s : State) (x : Sample) (b : Bool), Inv s → Settled s → Running s → s.rstC = false → s.beatQ = [] → s.ovlQ = [] →
    s.ovlCnt = s.ovlWcnt → b ≠ s.ovlW →
    let w := (s.rbWcur + 1) % 2 ^ s.params.cw
    (∃ h, hostRun [true, false, true, false, false]
        ⟨{ s with sched := [.wrEdge, .wrEdge, .overloadCross, .beatCross] }, (Pseudo.ingest [x] b).expand, []⟩ = .next h ∧
      h.todo = [] ∧ h.block.ovl = b ∧ h.block.rbWcur = s.rbWcur ∧ h.block.rbAcc = s.rbAcc ∧
      ∃ t, step h.block = .next t ∧ t.ovl = b ∧ t.rbWcur = w ∧ t.rbAcc = min s.rbCap (s.rbAcc + 1)) ∧
    (∃ h, hostRun [true, false, true, false, false]
        ⟨{ s with sched := [.wrEdge, .wrEdge, .beatCross, .overloadCross] }, (Pseudo.ingest [x] b).expand, []⟩ = .next h ∧
      h.todo = [] ∧ h.block.ovl = s.ovlW ∧ h.block.rbWcur = w ∧ h.block.rbAcc = min s.rbCap (s.rbAcc + 1) ∧
      ∃ t, step h.block = .next t ∧ t.ovl = b ∧ t.rbWcur = w ∧ t.rbAcc = min s.rbCap (s.rbAcc + 1)))

/-! ## Reset and invariants -/

/-- The reset values of 10 R45, for every instance; the machine's reset state is that of the default instance (00 R6). -/
def Obligations.ResetValues : Prop :=
  (∀ (P : Params) (e : Nat),
    let r := State.resetWith P e
    (r.rbCap = P.nReset ∧ r.rbWcur = 0 ∧ r.rbRcur = 0 ∧ r.rbAcc = 0 ∧ r.rbGate = false) ∧
    (r.fftN = P.nReset ∧ r.winN = P.nReset ∧ r.engN = P.nReset) ∧
    (r.opened = false ∧ r.closing = false ∧ r.tickByCmd = false ∧ r.tickPending = false ∧ r.drainOk = false ∧
      r.tickStage = .idle ∧ r.timerCnt = 0 ∧ r.tickPeriod = BitVec.ofNat 32 P.tickPeriodReset ∧ r.tickCount = 0 ∧
      r.skipStale = false) ∧
    (r.snapValid = false ∧ r.lockOwner = .none ∧ r.ovlW = false ∧ r.ovlWcnt = 0 ∧ r.ovlCnt = 0 ∧ r.ovl = false) ∧
    (r.busy = true ∧ r.arg = 0 ∧ r.rval = 0 ∧ r.resultWord = 0 ∧ r.err = 0 ∧ r.irqStatus = 0 ∧ r.irqEnable = 0) ∧
    (r.wptrW = 0 ∧ r.wptrG = 0 ∧ (∀ g ∈ r.wsync, g = 0) ∧ r.wsyncQ = 0 ∧ r.ovlG = 0 ∧ (∀ g ∈ r.ovlSync, g = 0) ∧
      (∀ b ∈ r.reqSync, b = false) ∧ (∀ b ∈ r.ackSync, b = false)) ∧
    (r.freezeReq = false ∧ r.freezeAck = false ∧ r.clrReq = false ∧ r.frozen = false ∧ r.initBusy = true)) ∧
  State.reset = State.resetWith Config.default 0 ∧
  Config.default.log2Nmax = 12 ∧ Config.default.nReset = 4096 ∧ Config.default.cw = 16 ∧
  Config.default.syncStages = 2 ∧ 0 < Config.default.fClk

/-- Reset (70 R380, R385). Asserting `rst_n` gives every element its reset value at once, whatever was in progress, with new
unspecified contents. While a domain is in reset no beat, no overload update and no host access is taken, and `irq` is 0;
while the core domain is, no command, tick, initialisation or freeze moves. Each domain leaves reset at the first edge of
its own clock with the pin high, and an edge in reset does nothing else but drop the overload update it ignores. The flags
of the domains and that dropped update are log 6, the offers and the schedule log 2, the clock's flag log 19, the zeros of
`CUR` and `bus_rdata` log 4. -/
def Obligations.ResetAbandonsEverything : Prop :=
  (∀ (s : State) (rest : List Turn), s.sched = .rstAssert :: rest →
    step s = .next { State.resetWith s.params (s.epoch + 1) with
      rstN := false, rstW := true, rstC := true, wrRuns := s.wrRuns
      busQ := s.busQ, beatQ := s.beatQ, ovlQ := s.ovlQ, sched := rest }) ∧
  (∀ s : State, s.inReset = true →
    s.sReady = false ∧ s.irq = false ∧ hostTurn s = .next s ∧ (∀ re im, exec (.put re im) s = .next s) ∧
    (∀ b, exec (.ovlset b) s = .next s)) ∧
  (∀ s : State, s.rstC = true →
    commandTurn s = .next s ∧ tickTurn s = .next s ∧ initTurn s = .next s ∧ freezeTurn s = .next s) ∧
  (∀ (s : State) (rest : List Turn), s.sched = .rstRelease :: rest →
    step s = .next { s with sched := rest, rstN := true }) ∧
  (∀ (s : State) (host command tick : Bool) (rest : List Turn), s.rstC = true →
    s.sched = .clkEdge host command tick :: rest → step s = .next { s with sched := rest, rstC := !s.rstN }) ∧
  (∀ (s : State) (rest : List Turn), s.rstW = true → s.wrRuns = true → s.sched = .wrEdge :: rest →
    step s = .next { s with
      sched := rest, rstW := !s.rstN, ovlQ := s.ovlQ.tail
      beatQ := match s.beatQ with
        | [] => []
        | p :: q => if p.valid then p :: q else q })

/-- The initialisation after reset (70 R381, R382). Each of its transitions writes one coefficient of the table of size
`N_RESET` and nothing else, whatever has happened beside it, and the last one clears `INIT_BUSY` and `BUSY`; from the reset
state `N_RESET + 1` steps of the block's own work do all of it, and everything else keeps its reset value. The block's own
work with an empty schedule is log 2, the position of the initialisation log 5, the zeros of `CUR` and `bus_rdata` log 4. -/
def Obligations.InitialisationBuildsWindow : Prop :=
  (∀ s : State, s.rstC = false → s.initBusy = true →
    (∀ rest, s.sched = .init :: rest → step s = initTurn { s with sched := rest }) ∧
    (s.sched = [] → step s = initTurn s) ∧
    (s.initPos < s.params.nReset →
      ∃ t, initTurn s = .next t ∧ t.winAt s.initPos = wcoef s.params.nReset s.initPos ∧
        (∀ a, a < 4 * s.initPos ∨ 4 * s.initPos + 4 ≤ a → t.byteAt .win a = s.byteAt .win a) ∧
        t = { s with win := t.win, initPos := s.initPos + 1 }) ∧
    (s.params.nReset ≤ s.initPos → initTurn s = .next { s with initBusy := false, busy := false })) ∧
  (∀ (P : Params) (e : Nat),
    ∃ t, stepTimes (P.nReset + 1) (State.resetWith P e) = .next t ∧ (∀ i < P.nReset, t.winAt i = wcoef P.nReset i) ∧
      t = { State.resetWith P e with win := t.win, initBusy := false, busy := false, initPos := P.nReset })

/-- The invariants hold right after reset, for every legal instance and for the machine's own reset state. -/
def Obligations.InvariantsHoldAtReset : Prop :=
  (∀ (P : Params) (e : Nat), P.legal → Inv (State.resetWith P e) ∧ Sequencer (State.resetWith P e)) ∧
  Inv State.reset ∧ Sequencer State.reset

/-- Every step keeps the invariants of the units: the ring buffer's three (10 R33), powers of two within `NMAX` for every
size and for one whose coefficients are being computed, `CW` bits for every cursor and counter, the gray codes of the pointers, the parity of the overload flag (43 R322), a
period of at least 1, and the canonical form of every memory. The canonical form is log 3. -/
def Obligations.StepKeepsUnitInvariants : Prop :=
  ∀ s t : State, Inv s → step s = .next t → Inv t

/-- Every step keeps what ties the two engine paths, the lifecycle and the snapshot lock together. The progress of a command
is log 5. -/
def Obligations.StepKeepsSequencer : Prop :=
  ∀ s t : State, Sequencer s → step s = .next t → Sequencer t

/-! ## Constants of the transform -/

/-- The constants of the transform. Each entry of the twiddle ROM is the pattern nearest to the exact cosine and sine of `2π/2^k` (41 R208),
its first two exactly; the factor of a stage is that entry, its imaginary part's sign flipped for the forward direction
(41 R203); the forward scale is exactly `2^-L` (41 R207). And where they stand in the transform: `FFT_CORE` is the network with
the direction's factors and the products of 41 R221, scaled on the forward pass alone (00 R2, 41 R207); each butterfly of a
stage is 41 R203's, with the factor that the recurrence gives (41 R205); stage `s` has span `N >> s` and ROM entry
`L - s + 1`, and the permutation comes last. -/
def Obligations.TransformConstantsAreExact : Prop :=
  (∀ k : Nat, 1 ≤ k → k ≤ 16 →
    F32.isNaN (twiddle k).re = false ∧ F32.isInf (twiddle k).re = false ∧
    F32.isNaN (twiddle k).im = false ∧ F32.isInf (twiddle k).im = false ∧
    ∀ y : F32, F32.isNaN y = false → F32.isInf y = false →
      |(F32.fix (twiddle k).re : ℝ) / 2 ^ 149 - Real.cos (2 * Real.pi / 2 ^ k)| ≤
        |(F32.fix y : ℝ) / 2 ^ 149 - Real.cos (2 * Real.pi / 2 ^ k)| ∧
      |(F32.fix (twiddle k).im : ℝ) / 2 ^ 149 - Real.sin (2 * Real.pi / 2 ^ k)| ≤
        |(F32.fix y : ℝ) / 2 ^ 149 - Real.sin (2 * Real.pi / 2 ^ k)|) ∧
  twiddle 1 = ⟨0xBF800000, 0x00000000⟩ ∧ twiddle 2 = ⟨0x00000000, 0x3F800000⟩ ∧
  (∀ k : Nat, romFactor false k = twiddle k ∧ romFactor true k = ⟨(twiddle k).re, (twiddle k).im ^^^ 0x80000000⟩) ∧
  (∀ L : Nat, L ≤ 16 → F32.isNaN (scaleFactor L) = false ∧ F32.isInf (scaleFactor L) = false ∧
    F32.fix (scaleFactor L) * 2 ^ L = 2 ^ 149) ∧
  (∀ (n : Nat) (xs : List Sample),
    fftCore n true xs = (fftNetwork f32Arith (romFactor true) n.log2 xs).map
      (fun x => ⟨fmul x.re (scaleFactor n.log2), fmul x.im (scaleFactor n.log2)⟩) ∧
    fftCore n false xs = fftNetwork f32Arith (romFactor false) n.log2 xs) ∧
  (∀ x y : Sample, f32Arith.mul x y =
      ⟨fsub (fmul x.re y.re) (fmul x.im y.im), fadd (fmul x.re y.im) (fmul x.im y.re)⟩ ∧
    f32Arith.add x y = ⟨fadd x.re y.re, fadd x.im y.im⟩ ∧ f32Arith.sub x y = ⟨fsub x.re y.re, fsub x.im y.im⟩ ∧
    f32Arith.one = ⟨0x3F800000, 0x00000000⟩) ∧
  (∀ (wm : Sample) (h b j : Nat) (a c : Sample) (xs : List Sample), j < h → b % (2 * h) = 0 →
    xs[b + j]? = some a → xs[b + j + h]? = some c →
    (fftStage f32Arith wm h xs)[b + j]? = some (f32Arith.add a c) ∧
    (fftStage f32Arith wm h xs)[b + j + h]? =
      some (f32Arith.mul (f32Arith.sub a c) ((fun w => f32Arith.mul w wm)^[j] f32Arith.one))) ∧
  (∀ (wm : Nat → Sample) (L : Nat) (xs : List Sample),
    fftStages f32Arith wm L 0 xs = xs ∧
    (∀ s, 1 ≤ s → s ≤ L → fftStages f32Arith wm L s xs =
      fftStage f32Arith (wm (L - s + 1)) ((2 ^ L) >>> s) (fftStages f32Arith wm L (s - 1) xs)) ∧
    fftNetwork f32Arith wm L xs = bitRevPermute L f32Arith.one (fftStages f32Arith wm L L xs))

end Statements
end

