-- ==== Sys2Proof/Laws/Memory.lean ====
section
/-! SUPPORT. The laws of the RAMs: a read after a write, and the canonical form kept by every write. -/

namespace Sys2Proof.Machine

theorem Memory.get?_cells (bs : List Byte) (a x : Nat) :
    Memory.get? (Memory.cells a bs) x = if a ≤ x then bs[x - a]? else none := by
  induction bs generalizing a with
  | nil => simp [Memory.cells, Memory.get?]
  | cons b bs ih =>
    have hstep : Memory.get? (Memory.cells a (b :: bs)) x
        = if a = x then some b else Memory.get? (Memory.cells (a + 1) bs) x := by
      by_cases h : a = x <;> simp [Memory.cells, Memory.get?, h]
    rw [hstep, ih]
    rcases Nat.lt_trichotomy a x with h | h | h
    · rw [if_neg (by omega), if_pos (by omega), if_pos (by omega)]
      obtain ⟨k, rfl⟩ : ∃ k, x = a + 1 + k := ⟨x - (a + 1), by omega⟩
      rw [show a + 1 + k - a = k + 1 by omega, show a + 1 + k - (a + 1) = k by omega, List.getElem?_cons_succ]
    · subst h; simp
    · rw [if_neg (by omega), if_neg (by omega), if_neg (by omega)]

theorem Memory.get?_append (m n : Memory) (x : Nat) :
    Memory.get? (m ++ n) x = (Memory.get? m x).or (Memory.get? n x) := by
  unfold Memory.get?
  rw [List.find?_append]
  cases List.find? (fun c => c.1 == x) m <;> rfl

theorem Memory.get?_filter (m : Memory) (p : Nat → Bool) (x : Nat) :
    Memory.get? (m.filter fun c => p c.1) x = if p x then Memory.get? m x else none := by
  have hstep : ∀ (d : Host.Cell) (n : Memory),
      Memory.get? (d :: n) x = if d.1 = x then some d.2 else Memory.get? n x := fun d n => by
    by_cases h : d.1 = x <;> simp [Memory.get?, h]
  induction m with
  | nil => simp [Memory.get?]
  | cons c m ih =>
    by_cases hp : p c.1
    · rw [List.filter_cons_of_pos (by simpa using hp), hstep, hstep, ih]
      by_cases hc : c.1 = x
      · simp [← hc, hp]
      · simp [hc]
    · rw [List.filter_cons_of_neg (by simpa using hp), hstep, ih]
      by_cases hc : c.1 = x
      · simp [← hc, hp]
      · simp [hc]

/-- A read after a write: inside the written range the written byte, outside it what was read before. -/
theorem Memory.get?_write (m : Memory) (a : Nat) (bs : List Byte) (x : Nat) :
    Memory.get? (m.write a bs) x = if a ≤ x ∧ x < a + bs.length then bs[x - a]? else Memory.get? m x := by
  unfold Memory.write
  rw [Memory.get?_append, Memory.get?_append, Memory.get?_filter m (fun y => decide (y < a)),
    Memory.get?_filter m (fun y => decide (a + bs.length ≤ y)), Memory.get?_cells]
  by_cases h1 : x < a
  · simp [h1, Nat.not_le.mpr h1]
    rw [if_neg (by omega)]; simp
  · by_cases h2 : x < a + bs.length
    · have hs : bs[x - a]? = some (bs[x - a]'(by omega)) := List.getElem?_eq_getElem _
      simp [Nat.not_lt.mp h1, h2, h1, hs]
    · have hn : bs[x - a]? = none := List.getElem?_eq_none (by omega)
      simp [h1, h2, hn, Nat.not_lt.mp h1, Nat.not_lt.mp h2]

theorem Memory.cells_bounds {bs : List Byte} {a : Nat} {c : Host.Cell} (h : c ∈ Memory.cells a bs) :
    a ≤ c.1 ∧ c.1 < a + bs.length := by
  induction bs generalizing a with
  | nil => simp [Memory.cells] at h
  | cons b bs ih =>
    rcases List.mem_cons.mp h with rfl | h
    · simp
    · have := ih h
      simp only [List.length_cons]; omega

theorem Memory.cells_wf (bs : List Byte) (a : Nat) : (Memory.cells a bs).wf := by
  induction bs generalizing a with
  | nil => exact List.Pairwise.nil
  | cons b bs ih => exact List.Pairwise.cons (fun c hc => (Memory.cells_bounds hc).1) (ih (a + 1))

/-- Every write keeps the canonical form. -/
theorem Memory.wf_write {m : Memory} (h : m.wf) (a : Nat) (bs : List Byte) : (m.write a bs).wf := by
  unfold Memory.write Memory.wf
  rw [List.pairwise_append, List.pairwise_append]
  refine ⟨h.filter _, ⟨Memory.cells_wf bs a, h.filter _, ?_⟩, ?_⟩
  · intro c hc d hd
    have := Memory.cells_bounds hc
    have := of_decide_eq_true (List.mem_filter.mp hd).2
    omega
  · intro c hc d hd
    have hc' := of_decide_eq_true (List.mem_filter.mp hc).2
    rcases List.mem_append.mp hd with hd | hd
    · have := Memory.cells_bounds hd; omega
    · have := of_decide_eq_true (List.mem_filter.mp hd).2; omega

/-- The four bytes of a word, put together again, are the word. -/
theorem wordOfBytes_extract (w : Word) :
    wordOfBytes (w.extractLsb' 0 8) (w.extractLsb' 8 8) (w.extractLsb' 16 8) (w.extractLsb' 24 8) = w := by
  unfold wordOfBytes
  apply BitVec.eq_of_getLsbD_eq
  intro i hi
  simp only [BitVec.getLsbD_append, BitVec.getLsbD_extractLsb']
  by_cases h0 : i < 8
  · simp [h0]
  · by_cases h1 : i < 16
    · simp [h0, show i - 8 < 8 by omega, show 8 + (i - 8) = i by omega]
    · by_cases h2 : i < 24
      · simp [h0, show ¬ i - 8 < 8 by omega, show i - 8 - 8 < 8 by omega, show 16 + (i - 8 - 8) = i by omega]
      · simp [h0, show ¬ i - 8 < 8 by omega, show ¬ i - 8 - 8 < 8 by omega,
          show 24 + (i - 8 - 8 - 8) = i by omega, show i - 8 - 8 - 8 < 8 by omega]

@[simp] theorem length_bytesOfWord (w : Word) : (bytesOfWord w).length = 4 := rfl

@[simp] theorem length_sampleBytes (x : Sample) : (sampleBytes x).length = 8 := rfl

theorem length_flatMap_sampleBytes (xs : List Sample) : (xs.flatMap sampleBytes).length = 8 * xs.length := by
  induction xs with
  | nil => rfl
  | cons x xs ih => simp [ih]; omega

/-- The byte at offset `k` of Sample `i` in the bytes of a block. -/
theorem getElem?_flatMap_sampleBytes (xs : List Sample) (i k : Nat) (hk : k < 8) :
    (xs.flatMap sampleBytes)[8 * i + k]? = (xs[i]?).bind (fun x => (sampleBytes x)[k]?) := by
  induction xs generalizing i with
  | nil => simp
  | cons x xs ih =>
    rw [List.flatMap_cons]
    cases i with
    | zero =>
      rw [List.getElem?_append_left (by simpa using hk)]
      simp
    | succ i =>
      rw [List.getElem?_append_right (by simp; omega)]
      simp only [length_sampleBytes, List.getElem?_cons_succ]
      rw [show 8 * (i + 1) + k - 8 = 8 * i + k by omega, ih]

end Sys2Proof.Machine
end

