-- ==== Sys2Proof/Laws/Samples.lean ====
section
/-! SUPPORT. What reading a byte, a word, a Sample or a memory entry gives after each write of a RAM. -/

namespace Sys2Proof.Machine

/-- One byte of a RAM after consecutive bytes were written into it. -/
theorem State.byteAt_of_write {s t : State} {id : MemId} {a : Nat} {bs : List Byte}
    (hm : t.ram id = (s.ram id).write a bs) (he : t.epoch = s.epoch) (x : Nat) :
    t.byteAt id x = if a ≤ x ∧ x < a + bs.length then bs.getD (x - a) 0 else s.byteAt id x := by
  unfold State.byteAt
  rw [hm, he, Memory.get?_write]
  by_cases h : a ≤ x ∧ x < a + bs.length
  · rw [if_pos h, if_pos h, List.getElem?_eq_getElem (by omega), List.getD_eq_getElem _ _ (by omega)]
    rfl
  · rw [if_neg h, if_neg h]

/-- A RAM that is not written reads as before. -/
theorem State.byteAt_congr {s t : State} {id : MemId} (hm : t.ram id = s.ram id) (he : t.epoch = s.epoch) (x : Nat) :
    t.byteAt id x = s.byteAt id x := by
  unfold State.byteAt; rw [hm, he]

theorem State.wordAt_congr {s t : State} {id : MemId} (hm : t.ram id = s.ram id) (he : t.epoch = s.epoch) (x : Nat) :
    t.wordAt id x = s.wordAt id x := by
  simp only [State.wordAt, State.byteAt_congr hm he]

theorem State.sampleAt_congr {s t : State} {id : MemId} (hm : t.ram id = s.ram id) (he : t.epoch = s.epoch) (i : Nat) :
    t.sampleAt id i = s.sampleAt id i := by
  simp only [State.sampleAt, State.wordAt_congr hm he]

/-- A word whose four bytes are written. -/
theorem State.wordAt_of_bytes {t : State} {id : MemId} {x : Nat} {v : Word}
    (h : ∀ k < 4, t.byteAt id (x + k) = (bytesOfWord v).getD k 0) : t.wordAt id x = v := by
  have h0 := h 0 (by omega); have h1 := h 1 (by omega); have h2 := h 2 (by omega); have h3 := h 3 (by omega)
  simp only [bytesOfWord, Nat.add_zero, List.getD_cons_zero, List.getD_cons_succ] at h0 h1 h2 h3
  rw [State.wordAt, h0, h1, h2, h3, wordOfBytes_extract]

/-- A word after a word was written, both at multiples of 4. -/
theorem State.wordAt_of_write {s t : State} {id : MemId} {a : Nat} {v : Word}
    (hm : t.ram id = (s.ram id).write a (bytesOfWord v)) (he : t.epoch = s.epoch) (x : Nat) (ha : a % 4 = 0)
    (hx : x % 4 = 0) : t.wordAt id x = if x = a then v else s.wordAt id x := by
  by_cases h : x = a
  · rw [if_pos h]; subst h
    refine State.wordAt_of_bytes fun k hk => ?_
    rw [State.byteAt_of_write hm he, if_pos (by simp; omega), Nat.add_sub_cancel_left]
  · rw [if_neg h]
    have hsame : ∀ k < 4, t.byteAt id (x + k) = s.byteAt id (x + k) := fun k hk => by
      rw [State.byteAt_of_write hm he, if_neg (by rw [length_bytesOfWord]; omega)]
    have h0 := hsame 0 (by omega)
    rw [Nat.add_zero] at h0
    rw [State.wordAt, State.wordAt, h0, hsame 1 (by omega), hsame 2 (by omega), hsame 3 (by omega)]

/-- A Sample after a block of Samples was written from address `8·n` on. -/
theorem State.sampleAt_of_write {s t : State} {id : MemId} {n : Nat} {xs : List Sample}
    (hm : t.ram id = (s.ram id).write (8 * n) (xs.flatMap sampleBytes)) (he : t.epoch = s.epoch) (i : Nat) :
    t.sampleAt id i = if n ≤ i then (xs[i - n]?).getD (s.sampleAt id i) else s.sampleAt id i := by
  have hb := State.byteAt_of_write hm he
  simp only [length_flatMap_sampleBytes] at hb
  by_cases h : n ≤ i ∧ i < n + xs.length
  · rw [if_pos h.1]
    have hget : xs[i - n]? = some (xs[i - n]'(by omega)) := List.getElem?_eq_getElem _
    have hbyte : ∀ k < 8, t.byteAt id (8 * i + k) = (sampleBytes (xs[i - n]'(by omega))).getD k 0 := fun k hk => by
      rw [hb, if_pos (by omega), show 8 * i + k - 8 * n = 8 * (i - n) + k by omega, List.getD_eq_getElem?_getD,
        getElem?_flatMap_sampleBytes _ _ _ hk, hget, List.getD_eq_getElem?_getD]
      rfl
    rw [hget, Option.getD_some]
    have hre : t.wordAt id (8 * i) = (xs[i - n]'(by omega)).re :=
      State.wordAt_of_bytes fun k hk => by
        rw [hbyte k (by omega), sampleBytes, List.getD_append _ _ _ _ (by simpa using hk)]
    have him : t.wordAt id (8 * i + 4) = (xs[i - n]'(by omega)).im :=
      State.wordAt_of_bytes fun k hk => by
        rw [show 8 * i + 4 + k = 8 * i + (4 + k) by omega, hbyte (4 + k) (by omega), sampleBytes,
          List.getD_append_right _ _ _ _ (by simp)]
        simp
    rw [State.sampleAt, hre, him]
  · have hsame : ∀ k < 8, t.byteAt id (8 * i + k) = s.byteAt id (8 * i + k) := fun k hk => by
      rw [hb, if_neg (by omega)]
    have hr : t.sampleAt id i = s.sampleAt id i := by
      simp only [State.sampleAt, State.wordAt]
      rw [show 8 * i = 8 * i + 0 by omega, hsame 0 (by omega)]
      simp only [Nat.add_zero, Nat.add_assoc]
      rw [hsame 1 (by omega), hsame 2 (by omega), hsame 3 (by omega), hsame 4 (by omega), hsame (4 + 1) (by omega),
        hsame (4 + 2) (by omega), hsame (4 + 3) (by omega)]
    rw [hr]
    split
    · rw [List.getElem?_eq_none (by omega), Option.getD_none]
    · rfl

@[simp] theorem State.blkAt_setBlock (s : State) (xs : List Sample) (i : Nat) :
    (s.setBlock xs).blkAt i = (xs[i]?).getD (s.blkAt i) := by
  have h := State.sampleAt_of_write (s := s) (t := s.setBlock xs) (id := .blk) (n := 0) (xs := xs) rfl rfl i
  simpa [State.blkAt] using h

@[simp] theorem State.rbmemAt_setRbmem (s : State) (i j : Nat) (x : Sample) :
    (s.setRbmem i x).rbmemAt j = if j = i then x else s.rbmemAt j := by
  have h := State.sampleAt_of_write (s := s) (t := s.setRbmem i x) (id := .rbmem) (n := i) (xs := [x])
    (by simp [State.ram, State.setRbmem]) rfl j
  rw [State.rbmemAt, h, State.rbmemAt]
  by_cases hj : j = i
  · subst hj; simp
  · rw [if_neg hj]
    split
    · rw [List.getElem?_eq_none (by simp; omega), Option.getD_none]
    · rfl

@[simp] theorem State.winAt_setWin (s : State) (i j : Nat) (v : F32) :
    (s.setWin i v).winAt j = if j = i then v else s.winAt j := by
  have h := State.wordAt_of_write (s := s) (t := s.setWin i v) (id := .win) (a := 4 * i) (v := v) rfl rfl (4 * j)
    (by omega) (by omega)
  rw [State.winAt, h, State.winAt]
  by_cases hj : j = i <;> simp [hj]

@[simp] theorem State.snapAt_setSnap (s : State) (i j : Nat) (v : F32) :
    (s.setSnap i v).snapAt j = if j = i then v else s.snapAt j := by
  have h := State.wordAt_of_write (s := s) (t := s.setSnap i v) (id := .snap) (a := 4 * i) (v := v) rfl rfl (4 * j)
    (by omega) (by omega)
  rw [State.snapAt, h, State.snapAt]
  by_cases hj : j = i <;> simp [hj]

/-- A write of one half of a Sample of `BLK`. -/
theorem State.blkAt_setBlkWord (s : State) (i j : Nat) (im : Bool) (v : Word) :
    (s.setBlkWord i im v).blkAt j =
      if j = i then (if im then ⟨(s.blkAt i).re, v⟩ else ⟨v, (s.blkAt i).im⟩) else s.blkAt j := by
  have h := fun x hx => State.wordAt_of_write (s := s) (t := s.setBlkWord i im v) (id := .blk)
    (a := 8 * i + if im then 4 else 0) (v := v) rfl rfl x (by split <;> omega) hx
  simp only [State.blkAt, State.sampleAt]
  rw [h _ (by omega), h _ (by omega)]
  by_cases hj : j = i
  · subst hj; cases im <;> simp
  · have h1 : ¬ 8 * j = 8 * i + (if im then 4 else 0) := by split <;> omega
    have h2 : ¬ 8 * j + 4 = 8 * i + (if im then 4 else 0) := by split <;> omega
    rw [if_neg h1, if_neg h2, if_neg hj]

/-- The bytes of `BLK` beyond a block that is written are kept. -/
theorem State.byteAt_setBlock_outside (s : State) (xs : List Sample) (a : Nat) (ha : 8 * xs.length ≤ a) :
    (s.setBlock xs).byteAt .blk a = s.byteAt .blk a := by
  rw [State.byteAt_of_write (s := s) (t := s.setBlock xs) (id := .blk) (a := 0) (bs := xs.flatMap sampleBytes) rfl rfl,
    if_neg (by rw [length_flatMap_sampleBytes]; omega)]

@[simp] theorem State.length_block (s : State) (n : Nat) : (s.block n).length = n := by simp [State.block]

@[simp] theorem State.getElem?_block (s : State) (n i : Nat) :
    (s.block n)[i]? = if i < n then some (s.blkAt i) else none := by
  by_cases h : i < n <;> simp [State.block, h]

end Sys2Proof.Machine
end

