-- ==== Sys2Proof/Laws/State.lean ====
section
/-! SUPPORT. One fact per field for each shared update of the state, true by rfl: simp takes each conjunct as a rewrite rule, so
that no later proof unfolds a record update. -/

namespace Sys2Proof.Machine

@[simp] theorem State.finish_fields (s : State) (r : Reason) (v : Word) :
    (s.finish r v).params = s.params ∧ (s.finish r v).rbmem = s.rbmem ∧ (s.finish r v).blk = s.blk ∧
    (s.finish r v).win = s.win ∧ (s.finish r v).snap = s.snap ∧ (s.finish r v).epoch = s.epoch ∧
    (s.finish r v).rbCap = s.rbCap ∧ (s.finish r v).rbWcur = s.rbWcur ∧ (s.finish r v).rbRcur = s.rbRcur ∧
    (s.finish r v).rbAcc = s.rbAcc ∧ (s.finish r v).rbGate = s.rbGate ∧ (s.finish r v).fftN = s.fftN ∧
    (s.finish r v).winN = s.winN ∧ (s.finish r v).engN = s.engN ∧ (s.finish r v).opened = s.opened ∧
    (s.finish r v).closing = s.closing ∧ (s.finish r v).tickStage = s.tickStage ∧
    (s.finish r v).tickByCmd = s.tickByCmd ∧ (s.finish r v).tickPending = s.tickPending ∧
    (s.finish r v).timerCnt = s.timerCnt ∧ (s.finish r v).tickPeriod = s.tickPeriod ∧
    (s.finish r v).tickCount = s.tickCount ∧ (s.finish r v).skipStale = s.skipStale ∧
    (s.finish r v).drainOk = s.drainOk ∧ (s.finish r v).snapValid = s.snapValid ∧
    (s.finish r v).lockOwner = s.lockOwner ∧ (s.finish r v).ovlW = s.ovlW ∧ (s.finish r v).ovlWcnt = s.ovlWcnt ∧
    (s.finish r v).ovlCnt = s.ovlCnt ∧ (s.finish r v).busy = false ∧ (s.finish r v).arg = s.arg ∧
    (s.finish r v).curWord = s.curWord ∧ (s.finish r v).curArg = s.curArg ∧ (s.finish r v).resReason = r ∧
    (s.finish r v).resOpcode = s.curOp ∧ (s.finish r v).rval = v ∧ (s.finish r v).err = s.err ∧
    (s.finish r v).irqStatus = s.irqStatus ∧ (s.finish r v).irqEnable = s.irqEnable ∧ (s.finish r v).wptrW = s.wptrW ∧
    (s.finish r v).wptrG = s.wptrG ∧ (s.finish r v).wsync = s.wsync ∧ (s.finish r v).wsyncQ = s.wsyncQ ∧
    (s.finish r v).ovlG = s.ovlG ∧ (s.finish r v).ovlSync = s.ovlSync ∧ (s.finish r v).freezeReq = s.freezeReq ∧
    (s.finish r v).reqSync = s.reqSync ∧ (s.finish r v).freezeAck = s.freezeAck ∧ (s.finish r v).ackSync = s.ackSync ∧
    (s.finish r v).clrReq = s.clrReq ∧ (s.finish r v).frozen = s.frozen ∧ (s.finish r v).initBusy = s.initBusy ∧
    (s.finish r v).cmdPhase = .start ∧ (s.finish r v).initPos = s.initPos ∧ (s.finish r v).settleCnt = s.settleCnt ∧
    (s.finish r v).rstN = s.rstN ∧ (s.finish r v).rstW = s.rstW ∧ (s.finish r v).rstC = s.rstC ∧
    (s.finish r v).wrRuns = s.wrRuns ∧ (s.finish r v).busRdata = s.busRdata ∧ (s.finish r v).busQ = s.busQ ∧
    (s.finish r v).beatQ = s.beatQ ∧ (s.finish r v).ovlQ = s.ovlQ ∧ (s.finish r v).sched = s.sched :=
  ⟨rfl, rfl, rfl, rfl, rfl, rfl, rfl, rfl, rfl, rfl, rfl, rfl, rfl, rfl, rfl, rfl, rfl, rfl, rfl, rfl, rfl, rfl, rfl,
    rfl, rfl, rfl, rfl, rfl, rfl, rfl, rfl, rfl, rfl, rfl, rfl, rfl, rfl, rfl, rfl, rfl, rfl, rfl, rfl, rfl, rfl,
    rfl, rfl, rfl, rfl, rfl, rfl, rfl, rfl, rfl, rfl, rfl, rfl, rfl, rfl, rfl, rfl, rfl, rfl, rfl⟩

@[simp] theorem State.accumulate_fields (s : State) (d : Nat) :
    (s.accumulate d).params = s.params ∧ (s.accumulate d).rbmem = s.rbmem ∧ (s.accumulate d).blk = s.blk ∧
    (s.accumulate d).win = s.win ∧ (s.accumulate d).snap = s.snap ∧ (s.accumulate d).epoch = s.epoch ∧
    (s.accumulate d).rbCap = s.rbCap ∧ (s.accumulate d).rbWcur = s.rbWcur ∧ (s.accumulate d).rbRcur = s.rbRcur ∧
    (s.accumulate d).rbAcc = min s.rbCap (s.rbAcc + d) ∧
    (s.accumulate d).rbGate = decide (min s.rbCap (s.rbAcc + d) = s.rbCap) ∧ (s.accumulate d).fftN = s.fftN ∧
    (s.accumulate d).winN = s.winN ∧ (s.accumulate d).engN = s.engN ∧ (s.accumulate d).opened = s.opened ∧
    (s.accumulate d).closing = s.closing ∧ (s.accumulate d).tickStage = s.tickStage ∧
    (s.accumulate d).tickByCmd = s.tickByCmd ∧ (s.accumulate d).tickPending = s.tickPending ∧
    (s.accumulate d).timerCnt = s.timerCnt ∧ (s.accumulate d).tickPeriod = s.tickPeriod ∧
    (s.accumulate d).tickCount = s.tickCount ∧ (s.accumulate d).skipStale = s.skipStale ∧
    (s.accumulate d).drainOk = s.drainOk ∧ (s.accumulate d).snapValid = s.snapValid ∧
    (s.accumulate d).lockOwner = s.lockOwner ∧ (s.accumulate d).ovlW = s.ovlW ∧ (s.accumulate d).ovlWcnt = s.ovlWcnt ∧
    (s.accumulate d).ovlCnt = s.ovlCnt ∧ (s.accumulate d).busy = s.busy ∧ (s.accumulate d).arg = s.arg ∧
    (s.accumulate d).curWord = s.curWord ∧ (s.accumulate d).curArg = s.curArg ∧
    (s.accumulate d).resReason = s.resReason ∧ (s.accumulate d).resOpcode = s.resOpcode ∧
    (s.accumulate d).rval = s.rval ∧ (s.accumulate d).err = s.err ∧ (s.accumulate d).irqStatus = s.irqStatus ∧
    (s.accumulate d).irqEnable = s.irqEnable ∧ (s.accumulate d).wptrW = s.wptrW ∧ (s.accumulate d).wptrG = s.wptrG ∧
    (s.accumulate d).wsync = s.wsync ∧ (s.accumulate d).wsyncQ = s.wsyncQ ∧ (s.accumulate d).ovlG = s.ovlG ∧
    (s.accumulate d).ovlSync = s.ovlSync ∧ (s.accumulate d).freezeReq = s.freezeReq ∧
    (s.accumulate d).reqSync = s.reqSync ∧ (s.accumulate d).freezeAck = s.freezeAck ∧
    (s.accumulate d).ackSync = s.ackSync ∧ (s.accumulate d).clrReq = s.clrReq ∧ (s.accumulate d).frozen = s.frozen ∧
    (s.accumulate d).initBusy = s.initBusy ∧ (s.accumulate d).cmdPhase = s.cmdPhase ∧
    (s.accumulate d).initPos = s.initPos ∧ (s.accumulate d).settleCnt = s.settleCnt ∧ (s.accumulate d).rstN = s.rstN ∧
    (s.accumulate d).rstW = s.rstW ∧ (s.accumulate d).rstC = s.rstC ∧ (s.accumulate d).wrRuns = s.wrRuns ∧
    (s.accumulate d).busRdata = s.busRdata ∧ (s.accumulate d).busQ = s.busQ ∧ (s.accumulate d).beatQ = s.beatQ ∧
    (s.accumulate d).ovlQ = s.ovlQ ∧ (s.accumulate d).sched = s.sched :=
  ⟨rfl, rfl, rfl, rfl, rfl, rfl, rfl, rfl, rfl, rfl, rfl, rfl, rfl, rfl, rfl, rfl, rfl, rfl, rfl, rfl, rfl, rfl, rfl,
    rfl, rfl, rfl, rfl, rfl, rfl, rfl, rfl, rfl, rfl, rfl, rfl, rfl, rfl, rfl, rfl, rfl, rfl, rfl, rfl, rfl, rfl,
    rfl, rfl, rfl, rfl, rfl, rfl, rfl, rfl, rfl, rfl, rfl, rfl, rfl, rfl, rfl, rfl, rfl, rfl, rfl⟩

@[simp] theorem State.raiseSpec_fields (s : State) :
    (s.raiseSpec).params = s.params ∧ (s.raiseSpec).rbmem = s.rbmem ∧ (s.raiseSpec).blk = s.blk ∧
    (s.raiseSpec).win = s.win ∧ (s.raiseSpec).snap = s.snap ∧ (s.raiseSpec).epoch = s.epoch ∧
    (s.raiseSpec).rbCap = s.rbCap ∧ (s.raiseSpec).rbWcur = s.rbWcur ∧ (s.raiseSpec).rbRcur = s.rbRcur ∧
    (s.raiseSpec).rbAcc = s.rbAcc ∧ (s.raiseSpec).rbGate = s.rbGate ∧ (s.raiseSpec).fftN = s.fftN ∧
    (s.raiseSpec).winN = s.winN ∧ (s.raiseSpec).engN = s.engN ∧ (s.raiseSpec).opened = s.opened ∧
    (s.raiseSpec).closing = s.closing ∧ (s.raiseSpec).tickStage = s.tickStage ∧
    (s.raiseSpec).tickByCmd = s.tickByCmd ∧ (s.raiseSpec).tickPending = s.tickPending ∧
    (s.raiseSpec).timerCnt = s.timerCnt ∧ (s.raiseSpec).tickPeriod = s.tickPeriod ∧
    (s.raiseSpec).tickCount = s.tickCount ∧ (s.raiseSpec).skipStale = s.skipStale ∧
    (s.raiseSpec).drainOk = s.drainOk ∧ (s.raiseSpec).snapValid = s.snapValid ∧
    (s.raiseSpec).lockOwner = s.lockOwner ∧ (s.raiseSpec).ovlW = s.ovlW ∧ (s.raiseSpec).ovlWcnt = s.ovlWcnt ∧
    (s.raiseSpec).ovlCnt = s.ovlCnt ∧ (s.raiseSpec).busy = s.busy ∧ (s.raiseSpec).arg = s.arg ∧
    (s.raiseSpec).curWord = s.curWord ∧ (s.raiseSpec).curArg = s.curArg ∧ (s.raiseSpec).resReason = s.resReason ∧
    (s.raiseSpec).resOpcode = s.resOpcode ∧ (s.raiseSpec).rval = s.rval ∧ (s.raiseSpec).err = s.err ∧
    (s.raiseSpec).irqStatus = s.irqStatus ||| 1#2 ∧ (s.raiseSpec).irqEnable = s.irqEnable ∧
    (s.raiseSpec).wptrW = s.wptrW ∧ (s.raiseSpec).wptrG = s.wptrG ∧ (s.raiseSpec).wsync = s.wsync ∧
    (s.raiseSpec).wsyncQ = s.wsyncQ ∧ (s.raiseSpec).ovlG = s.ovlG ∧ (s.raiseSpec).ovlSync = s.ovlSync ∧
    (s.raiseSpec).freezeReq = s.freezeReq ∧ (s.raiseSpec).reqSync = s.reqSync ∧
    (s.raiseSpec).freezeAck = s.freezeAck ∧ (s.raiseSpec).ackSync = s.ackSync ∧ (s.raiseSpec).clrReq = s.clrReq ∧
    (s.raiseSpec).frozen = s.frozen ∧ (s.raiseSpec).initBusy = s.initBusy ∧ (s.raiseSpec).cmdPhase = s.cmdPhase ∧
    (s.raiseSpec).initPos = s.initPos ∧ (s.raiseSpec).settleCnt = s.settleCnt ∧ (s.raiseSpec).rstN = s.rstN ∧
    (s.raiseSpec).rstW = s.rstW ∧ (s.raiseSpec).rstC = s.rstC ∧ (s.raiseSpec).wrRuns = s.wrRuns ∧
    (s.raiseSpec).busRdata = s.busRdata ∧ (s.raiseSpec).busQ = s.busQ ∧ (s.raiseSpec).beatQ = s.beatQ ∧
    (s.raiseSpec).ovlQ = s.ovlQ ∧ (s.raiseSpec).sched = s.sched :=
  ⟨rfl, rfl, rfl, rfl, rfl, rfl, rfl, rfl, rfl, rfl, rfl, rfl, rfl, rfl, rfl, rfl, rfl, rfl, rfl, rfl, rfl, rfl, rfl,
    rfl, rfl, rfl, rfl, rfl, rfl, rfl, rfl, rfl, rfl, rfl, rfl, rfl, rfl, rfl, rfl, rfl, rfl, rfl, rfl, rfl, rfl,
    rfl, rfl, rfl, rfl, rfl, rfl, rfl, rfl, rfl, rfl, rfl, rfl, rfl, rfl, rfl, rfl, rfl, rfl, rfl⟩

@[simp] theorem State.raiseOvl_fields (s : State) :
    (s.raiseOvl).params = s.params ∧ (s.raiseOvl).rbmem = s.rbmem ∧ (s.raiseOvl).blk = s.blk ∧
    (s.raiseOvl).win = s.win ∧ (s.raiseOvl).snap = s.snap ∧ (s.raiseOvl).epoch = s.epoch ∧
    (s.raiseOvl).rbCap = s.rbCap ∧ (s.raiseOvl).rbWcur = s.rbWcur ∧ (s.raiseOvl).rbRcur = s.rbRcur ∧
    (s.raiseOvl).rbAcc = s.rbAcc ∧ (s.raiseOvl).rbGate = s.rbGate ∧ (s.raiseOvl).fftN = s.fftN ∧
    (s.raiseOvl).winN = s.winN ∧ (s.raiseOvl).engN = s.engN ∧ (s.raiseOvl).opened = s.opened ∧
    (s.raiseOvl).closing = s.closing ∧ (s.raiseOvl).tickStage = s.tickStage ∧ (s.raiseOvl).tickByCmd = s.tickByCmd ∧
    (s.raiseOvl).tickPending = s.tickPending ∧ (s.raiseOvl).timerCnt = s.timerCnt ∧
    (s.raiseOvl).tickPeriod = s.tickPeriod ∧ (s.raiseOvl).tickCount = s.tickCount ∧
    (s.raiseOvl).skipStale = s.skipStale ∧ (s.raiseOvl).drainOk = s.drainOk ∧ (s.raiseOvl).snapValid = s.snapValid ∧
    (s.raiseOvl).lockOwner = s.lockOwner ∧ (s.raiseOvl).ovlW = s.ovlW ∧ (s.raiseOvl).ovlWcnt = s.ovlWcnt ∧
    (s.raiseOvl).ovlCnt = s.ovlCnt ∧ (s.raiseOvl).busy = s.busy ∧ (s.raiseOvl).arg = s.arg ∧
    (s.raiseOvl).curWord = s.curWord ∧ (s.raiseOvl).curArg = s.curArg ∧ (s.raiseOvl).resReason = s.resReason ∧
    (s.raiseOvl).resOpcode = s.resOpcode ∧ (s.raiseOvl).rval = s.rval ∧ (s.raiseOvl).err = s.err ∧
    (s.raiseOvl).irqStatus = s.irqStatus ||| 2#2 ∧ (s.raiseOvl).irqEnable = s.irqEnable ∧
    (s.raiseOvl).wptrW = s.wptrW ∧ (s.raiseOvl).wptrG = s.wptrG ∧ (s.raiseOvl).wsync = s.wsync ∧
    (s.raiseOvl).wsyncQ = s.wsyncQ ∧ (s.raiseOvl).ovlG = s.ovlG ∧ (s.raiseOvl).ovlSync = s.ovlSync ∧
    (s.raiseOvl).freezeReq = s.freezeReq ∧ (s.raiseOvl).reqSync = s.reqSync ∧ (s.raiseOvl).freezeAck = s.freezeAck ∧
    (s.raiseOvl).ackSync = s.ackSync ∧ (s.raiseOvl).clrReq = s.clrReq ∧ (s.raiseOvl).frozen = s.frozen ∧
    (s.raiseOvl).initBusy = s.initBusy ∧ (s.raiseOvl).cmdPhase = s.cmdPhase ∧ (s.raiseOvl).initPos = s.initPos ∧
    (s.raiseOvl).settleCnt = s.settleCnt ∧ (s.raiseOvl).rstN = s.rstN ∧ (s.raiseOvl).rstW = s.rstW ∧
    (s.raiseOvl).rstC = s.rstC ∧ (s.raiseOvl).wrRuns = s.wrRuns ∧ (s.raiseOvl).busRdata = s.busRdata ∧
    (s.raiseOvl).busQ = s.busQ ∧ (s.raiseOvl).beatQ = s.beatQ ∧ (s.raiseOvl).ovlQ = s.ovlQ ∧
    (s.raiseOvl).sched = s.sched :=
  ⟨rfl, rfl, rfl, rfl, rfl, rfl, rfl, rfl, rfl, rfl, rfl, rfl, rfl, rfl, rfl, rfl, rfl, rfl, rfl, rfl, rfl, rfl, rfl,
    rfl, rfl, rfl, rfl, rfl, rfl, rfl, rfl, rfl, rfl, rfl, rfl, rfl, rfl, rfl, rfl, rfl, rfl, rfl, rfl, rfl, rfl,
    rfl, rfl, rfl, rfl, rfl, rfl, rfl, rfl, rfl, rfl, rfl, rfl, rfl, rfl, rfl, rfl, rfl, rfl, rfl⟩

@[simp] theorem State.setOverrun_fields (s : State) :
    (s.setOverrun).params = s.params ∧ (s.setOverrun).rbmem = s.rbmem ∧ (s.setOverrun).blk = s.blk ∧
    (s.setOverrun).win = s.win ∧ (s.setOverrun).snap = s.snap ∧ (s.setOverrun).epoch = s.epoch ∧
    (s.setOverrun).rbCap = s.rbCap ∧ (s.setOverrun).rbWcur = s.rbWcur ∧ (s.setOverrun).rbRcur = s.rbRcur ∧
    (s.setOverrun).rbAcc = s.rbAcc ∧ (s.setOverrun).rbGate = s.rbGate ∧ (s.setOverrun).fftN = s.fftN ∧
    (s.setOverrun).winN = s.winN ∧ (s.setOverrun).engN = s.engN ∧ (s.setOverrun).opened = s.opened ∧
    (s.setOverrun).closing = s.closing ∧ (s.setOverrun).tickStage = s.tickStage ∧
    (s.setOverrun).tickByCmd = s.tickByCmd ∧ (s.setOverrun).tickPending = s.tickPending ∧
    (s.setOverrun).timerCnt = s.timerCnt ∧ (s.setOverrun).tickPeriod = s.tickPeriod ∧
    (s.setOverrun).tickCount = s.tickCount ∧ (s.setOverrun).skipStale = s.skipStale ∧
    (s.setOverrun).drainOk = s.drainOk ∧ (s.setOverrun).snapValid = s.snapValid ∧
    (s.setOverrun).lockOwner = s.lockOwner ∧ (s.setOverrun).ovlW = s.ovlW ∧ (s.setOverrun).ovlWcnt = s.ovlWcnt ∧
    (s.setOverrun).ovlCnt = s.ovlCnt ∧ (s.setOverrun).busy = s.busy ∧ (s.setOverrun).arg = s.arg ∧
    (s.setOverrun).curWord = s.curWord ∧ (s.setOverrun).curArg = s.curArg ∧ (s.setOverrun).resReason = s.resReason ∧
    (s.setOverrun).resOpcode = s.resOpcode ∧ (s.setOverrun).rval = s.rval ∧ (s.setOverrun).err = s.err ||| 1#2 ∧
    (s.setOverrun).irqStatus = s.irqStatus ∧ (s.setOverrun).irqEnable = s.irqEnable ∧ (s.setOverrun).wptrW = s.wptrW ∧
    (s.setOverrun).wptrG = s.wptrG ∧ (s.setOverrun).wsync = s.wsync ∧ (s.setOverrun).wsyncQ = s.wsyncQ ∧
    (s.setOverrun).ovlG = s.ovlG ∧ (s.setOverrun).ovlSync = s.ovlSync ∧ (s.setOverrun).freezeReq = s.freezeReq ∧
    (s.setOverrun).reqSync = s.reqSync ∧ (s.setOverrun).freezeAck = s.freezeAck ∧ (s.setOverrun).ackSync = s.ackSync ∧
    (s.setOverrun).clrReq = s.clrReq ∧ (s.setOverrun).frozen = s.frozen ∧ (s.setOverrun).initBusy = s.initBusy ∧
    (s.setOverrun).cmdPhase = s.cmdPhase ∧ (s.setOverrun).initPos = s.initPos ∧
    (s.setOverrun).settleCnt = s.settleCnt ∧ (s.setOverrun).rstN = s.rstN ∧ (s.setOverrun).rstW = s.rstW ∧
    (s.setOverrun).rstC = s.rstC ∧ (s.setOverrun).wrRuns = s.wrRuns ∧ (s.setOverrun).busRdata = s.busRdata ∧
    (s.setOverrun).busQ = s.busQ ∧ (s.setOverrun).beatQ = s.beatQ ∧ (s.setOverrun).ovlQ = s.ovlQ ∧
    (s.setOverrun).sched = s.sched :=
  ⟨rfl, rfl, rfl, rfl, rfl, rfl, rfl, rfl, rfl, rfl, rfl, rfl, rfl, rfl, rfl, rfl, rfl, rfl, rfl, rfl, rfl, rfl, rfl,
    rfl, rfl, rfl, rfl, rfl, rfl, rfl, rfl, rfl, rfl, rfl, rfl, rfl, rfl, rfl, rfl, rfl, rfl, rfl, rfl, rfl, rfl,
    rfl, rfl, rfl, rfl, rfl, rfl, rfl, rfl, rfl, rfl, rfl, rfl, rfl, rfl, rfl, rfl, rfl, rfl, rfl⟩

@[simp] theorem State.setAccess_fields (s : State) :
    (s.setAccess).params = s.params ∧ (s.setAccess).rbmem = s.rbmem ∧ (s.setAccess).blk = s.blk ∧
    (s.setAccess).win = s.win ∧ (s.setAccess).snap = s.snap ∧ (s.setAccess).epoch = s.epoch ∧
    (s.setAccess).rbCap = s.rbCap ∧ (s.setAccess).rbWcur = s.rbWcur ∧ (s.setAccess).rbRcur = s.rbRcur ∧
    (s.setAccess).rbAcc = s.rbAcc ∧ (s.setAccess).rbGate = s.rbGate ∧ (s.setAccess).fftN = s.fftN ∧
    (s.setAccess).winN = s.winN ∧ (s.setAccess).engN = s.engN ∧ (s.setAccess).opened = s.opened ∧
    (s.setAccess).closing = s.closing ∧ (s.setAccess).tickStage = s.tickStage ∧
    (s.setAccess).tickByCmd = s.tickByCmd ∧ (s.setAccess).tickPending = s.tickPending ∧
    (s.setAccess).timerCnt = s.timerCnt ∧ (s.setAccess).tickPeriod = s.tickPeriod ∧
    (s.setAccess).tickCount = s.tickCount ∧ (s.setAccess).skipStale = s.skipStale ∧
    (s.setAccess).drainOk = s.drainOk ∧ (s.setAccess).snapValid = s.snapValid ∧
    (s.setAccess).lockOwner = s.lockOwner ∧ (s.setAccess).ovlW = s.ovlW ∧ (s.setAccess).ovlWcnt = s.ovlWcnt ∧
    (s.setAccess).ovlCnt = s.ovlCnt ∧ (s.setAccess).busy = s.busy ∧ (s.setAccess).arg = s.arg ∧
    (s.setAccess).curWord = s.curWord ∧ (s.setAccess).curArg = s.curArg ∧ (s.setAccess).resReason = s.resReason ∧
    (s.setAccess).resOpcode = s.resOpcode ∧ (s.setAccess).rval = s.rval ∧ (s.setAccess).err = s.err ||| 2#2 ∧
    (s.setAccess).irqStatus = s.irqStatus ∧ (s.setAccess).irqEnable = s.irqEnable ∧ (s.setAccess).wptrW = s.wptrW ∧
    (s.setAccess).wptrG = s.wptrG ∧ (s.setAccess).wsync = s.wsync ∧ (s.setAccess).wsyncQ = s.wsyncQ ∧
    (s.setAccess).ovlG = s.ovlG ∧ (s.setAccess).ovlSync = s.ovlSync ∧ (s.setAccess).freezeReq = s.freezeReq ∧
    (s.setAccess).reqSync = s.reqSync ∧ (s.setAccess).freezeAck = s.freezeAck ∧ (s.setAccess).ackSync = s.ackSync ∧
    (s.setAccess).clrReq = s.clrReq ∧ (s.setAccess).frozen = s.frozen ∧ (s.setAccess).initBusy = s.initBusy ∧
    (s.setAccess).cmdPhase = s.cmdPhase ∧ (s.setAccess).initPos = s.initPos ∧ (s.setAccess).settleCnt = s.settleCnt ∧
    (s.setAccess).rstN = s.rstN ∧ (s.setAccess).rstW = s.rstW ∧ (s.setAccess).rstC = s.rstC ∧
    (s.setAccess).wrRuns = s.wrRuns ∧ (s.setAccess).busRdata = s.busRdata ∧ (s.setAccess).busQ = s.busQ ∧
    (s.setAccess).beatQ = s.beatQ ∧ (s.setAccess).ovlQ = s.ovlQ ∧ (s.setAccess).sched = s.sched :=
  ⟨rfl, rfl, rfl, rfl, rfl, rfl, rfl, rfl, rfl, rfl, rfl, rfl, rfl, rfl, rfl, rfl, rfl, rfl, rfl, rfl, rfl, rfl, rfl,
    rfl, rfl, rfl, rfl, rfl, rfl, rfl, rfl, rfl, rfl, rfl, rfl, rfl, rfl, rfl, rfl, rfl, rfl, rfl, rfl, rfl, rfl,
    rfl, rfl, rfl, rfl, rfl, rfl, rfl, rfl, rfl, rfl, rfl, rfl, rfl, rfl, rfl, rfl, rfl, rfl, rfl⟩

@[simp] theorem State.setRbmem_fields (s : State) (i : Nat) (x : Sample) :
    (s.setRbmem i x).params = s.params ∧ (s.setRbmem i x).rbmem = s.rbmem.write (8 * i) (sampleBytes x) ∧
    (s.setRbmem i x).blk = s.blk ∧ (s.setRbmem i x).win = s.win ∧ (s.setRbmem i x).snap = s.snap ∧
    (s.setRbmem i x).epoch = s.epoch ∧ (s.setRbmem i x).rbCap = s.rbCap ∧ (s.setRbmem i x).rbWcur = s.rbWcur ∧
    (s.setRbmem i x).rbRcur = s.rbRcur ∧ (s.setRbmem i x).rbAcc = s.rbAcc ∧ (s.setRbmem i x).rbGate = s.rbGate ∧
    (s.setRbmem i x).fftN = s.fftN ∧ (s.setRbmem i x).winN = s.winN ∧ (s.setRbmem i x).engN = s.engN ∧
    (s.setRbmem i x).opened = s.opened ∧ (s.setRbmem i x).closing = s.closing ∧
    (s.setRbmem i x).tickStage = s.tickStage ∧ (s.setRbmem i x).tickByCmd = s.tickByCmd ∧
    (s.setRbmem i x).tickPending = s.tickPending ∧ (s.setRbmem i x).timerCnt = s.timerCnt ∧
    (s.setRbmem i x).tickPeriod = s.tickPeriod ∧ (s.setRbmem i x).tickCount = s.tickCount ∧
    (s.setRbmem i x).skipStale = s.skipStale ∧ (s.setRbmem i x).drainOk = s.drainOk ∧
    (s.setRbmem i x).snapValid = s.snapValid ∧ (s.setRbmem i x).lockOwner = s.lockOwner ∧
    (s.setRbmem i x).ovlW = s.ovlW ∧ (s.setRbmem i x).ovlWcnt = s.ovlWcnt ∧ (s.setRbmem i x).ovlCnt = s.ovlCnt ∧
    (s.setRbmem i x).busy = s.busy ∧ (s.setRbmem i x).arg = s.arg ∧ (s.setRbmem i x).curWord = s.curWord ∧
    (s.setRbmem i x).curArg = s.curArg ∧ (s.setRbmem i x).resReason = s.resReason ∧
    (s.setRbmem i x).resOpcode = s.resOpcode ∧ (s.setRbmem i x).rval = s.rval ∧ (s.setRbmem i x).err = s.err ∧
    (s.setRbmem i x).irqStatus = s.irqStatus ∧ (s.setRbmem i x).irqEnable = s.irqEnable ∧
    (s.setRbmem i x).wptrW = s.wptrW ∧ (s.setRbmem i x).wptrG = s.wptrG ∧ (s.setRbmem i x).wsync = s.wsync ∧
    (s.setRbmem i x).wsyncQ = s.wsyncQ ∧ (s.setRbmem i x).ovlG = s.ovlG ∧ (s.setRbmem i x).ovlSync = s.ovlSync ∧
    (s.setRbmem i x).freezeReq = s.freezeReq ∧ (s.setRbmem i x).reqSync = s.reqSync ∧
    (s.setRbmem i x).freezeAck = s.freezeAck ∧ (s.setRbmem i x).ackSync = s.ackSync ∧
    (s.setRbmem i x).clrReq = s.clrReq ∧ (s.setRbmem i x).frozen = s.frozen ∧ (s.setRbmem i x).initBusy = s.initBusy ∧
    (s.setRbmem i x).cmdPhase = s.cmdPhase ∧ (s.setRbmem i x).initPos = s.initPos ∧
    (s.setRbmem i x).settleCnt = s.settleCnt ∧ (s.setRbmem i x).rstN = s.rstN ∧ (s.setRbmem i x).rstW = s.rstW ∧
    (s.setRbmem i x).rstC = s.rstC ∧ (s.setRbmem i x).wrRuns = s.wrRuns ∧ (s.setRbmem i x).busRdata = s.busRdata ∧
    (s.setRbmem i x).busQ = s.busQ ∧ (s.setRbmem i x).beatQ = s.beatQ ∧ (s.setRbmem i x).ovlQ = s.ovlQ ∧
    (s.setRbmem i x).sched = s.sched :=
  ⟨rfl, rfl, rfl, rfl, rfl, rfl, rfl, rfl, rfl, rfl, rfl, rfl, rfl, rfl, rfl, rfl, rfl, rfl, rfl, rfl, rfl, rfl, rfl,
    rfl, rfl, rfl, rfl, rfl, rfl, rfl, rfl, rfl, rfl, rfl, rfl, rfl, rfl, rfl, rfl, rfl, rfl, rfl, rfl, rfl, rfl,
    rfl, rfl, rfl, rfl, rfl, rfl, rfl, rfl, rfl, rfl, rfl, rfl, rfl, rfl, rfl, rfl, rfl, rfl, rfl⟩

@[simp] theorem State.setBlock_fields (s : State) (xs : List Sample) :
    (s.setBlock xs).params = s.params ∧ (s.setBlock xs).rbmem = s.rbmem ∧
    (s.setBlock xs).blk = s.blk.write 0 (xs.flatMap sampleBytes) ∧ (s.setBlock xs).win = s.win ∧
    (s.setBlock xs).snap = s.snap ∧ (s.setBlock xs).epoch = s.epoch ∧ (s.setBlock xs).rbCap = s.rbCap ∧
    (s.setBlock xs).rbWcur = s.rbWcur ∧ (s.setBlock xs).rbRcur = s.rbRcur ∧ (s.setBlock xs).rbAcc = s.rbAcc ∧
    (s.setBlock xs).rbGate = s.rbGate ∧ (s.setBlock xs).fftN = s.fftN ∧ (s.setBlock xs).winN = s.winN ∧
    (s.setBlock xs).engN = s.engN ∧ (s.setBlock xs).opened = s.opened ∧ (s.setBlock xs).closing = s.closing ∧
    (s.setBlock xs).tickStage = s.tickStage ∧ (s.setBlock xs).tickByCmd = s.tickByCmd ∧
    (s.setBlock xs).tickPending = s.tickPending ∧ (s.setBlock xs).timerCnt = s.timerCnt ∧
    (s.setBlock xs).tickPeriod = s.tickPeriod ∧ (s.setBlock xs).tickCount = s.tickCount ∧
    (s.setBlock xs).skipStale = s.skipStale ∧ (s.setBlock xs).drainOk = s.drainOk ∧
    (s.setBlock xs).snapValid = s.snapValid ∧ (s.setBlock xs).lockOwner = s.lockOwner ∧
    (s.setBlock xs).ovlW = s.ovlW ∧ (s.setBlock xs).ovlWcnt = s.ovlWcnt ∧ (s.setBlock xs).ovlCnt = s.ovlCnt ∧
    (s.setBlock xs).busy = s.busy ∧ (s.setBlock xs).arg = s.arg ∧ (s.setBlock xs).curWord = s.curWord ∧
    (s.setBlock xs).curArg = s.curArg ∧ (s.setBlock xs).resReason = s.resReason ∧
    (s.setBlock xs).resOpcode = s.resOpcode ∧ (s.setBlock xs).rval = s.rval ∧ (s.setBlock xs).err = s.err ∧
    (s.setBlock xs).irqStatus = s.irqStatus ∧ (s.setBlock xs).irqEnable = s.irqEnable ∧
    (s.setBlock xs).wptrW = s.wptrW ∧ (s.setBlock xs).wptrG = s.wptrG ∧ (s.setBlock xs).wsync = s.wsync ∧
    (s.setBlock xs).wsyncQ = s.wsyncQ ∧ (s.setBlock xs).ovlG = s.ovlG ∧ (s.setBlock xs).ovlSync = s.ovlSync ∧
    (s.setBlock xs).freezeReq = s.freezeReq ∧ (s.setBlock xs).reqSync = s.reqSync ∧
    (s.setBlock xs).freezeAck = s.freezeAck ∧ (s.setBlock xs).ackSync = s.ackSync ∧
    (s.setBlock xs).clrReq = s.clrReq ∧ (s.setBlock xs).frozen = s.frozen ∧ (s.setBlock xs).initBusy = s.initBusy ∧
    (s.setBlock xs).cmdPhase = s.cmdPhase ∧ (s.setBlock xs).initPos = s.initPos ∧
    (s.setBlock xs).settleCnt = s.settleCnt ∧ (s.setBlock xs).rstN = s.rstN ∧ (s.setBlock xs).rstW = s.rstW ∧
    (s.setBlock xs).rstC = s.rstC ∧ (s.setBlock xs).wrRuns = s.wrRuns ∧ (s.setBlock xs).busRdata = s.busRdata ∧
    (s.setBlock xs).busQ = s.busQ ∧ (s.setBlock xs).beatQ = s.beatQ ∧ (s.setBlock xs).ovlQ = s.ovlQ ∧
    (s.setBlock xs).sched = s.sched :=
  ⟨rfl, rfl, rfl, rfl, rfl, rfl, rfl, rfl, rfl, rfl, rfl, rfl, rfl, rfl, rfl, rfl, rfl, rfl, rfl, rfl, rfl, rfl, rfl,
    rfl, rfl, rfl, rfl, rfl, rfl, rfl, rfl, rfl, rfl, rfl, rfl, rfl, rfl, rfl, rfl, rfl, rfl, rfl, rfl, rfl, rfl,
    rfl, rfl, rfl, rfl, rfl, rfl, rfl, rfl, rfl, rfl, rfl, rfl, rfl, rfl, rfl, rfl, rfl, rfl, rfl⟩

@[simp] theorem State.setBlkWord_fields (s : State) (i : Nat) (im : Bool) (v : Word) :
    (s.setBlkWord i im v).params = s.params ∧ (s.setBlkWord i im v).rbmem = s.rbmem ∧
    (s.setBlkWord i im v).blk = s.blk.write (8 * i + if im then 4 else 0) (bytesOfWord v) ∧
    (s.setBlkWord i im v).win = s.win ∧ (s.setBlkWord i im v).snap = s.snap ∧ (s.setBlkWord i im v).epoch = s.epoch ∧
    (s.setBlkWord i im v).rbCap = s.rbCap ∧ (s.setBlkWord i im v).rbWcur = s.rbWcur ∧
    (s.setBlkWord i im v).rbRcur = s.rbRcur ∧ (s.setBlkWord i im v).rbAcc = s.rbAcc ∧
    (s.setBlkWord i im v).rbGate = s.rbGate ∧ (s.setBlkWord i im v).fftN = s.fftN ∧
    (s.setBlkWord i im v).winN = s.winN ∧ (s.setBlkWord i im v).engN = s.engN ∧
    (s.setBlkWord i im v).opened = s.opened ∧ (s.setBlkWord i im v).closing = s.closing ∧
    (s.setBlkWord i im v).tickStage = s.tickStage ∧ (s.setBlkWord i im v).tickByCmd = s.tickByCmd ∧
    (s.setBlkWord i im v).tickPending = s.tickPending ∧ (s.setBlkWord i im v).timerCnt = s.timerCnt ∧
    (s.setBlkWord i im v).tickPeriod = s.tickPeriod ∧ (s.setBlkWord i im v).tickCount = s.tickCount ∧
    (s.setBlkWord i im v).skipStale = s.skipStale ∧ (s.setBlkWord i im v).drainOk = s.drainOk ∧
    (s.setBlkWord i im v).snapValid = s.snapValid ∧ (s.setBlkWord i im v).lockOwner = s.lockOwner ∧
    (s.setBlkWord i im v).ovlW = s.ovlW ∧ (s.setBlkWord i im v).ovlWcnt = s.ovlWcnt ∧
    (s.setBlkWord i im v).ovlCnt = s.ovlCnt ∧ (s.setBlkWord i im v).busy = s.busy ∧
    (s.setBlkWord i im v).arg = s.arg ∧ (s.setBlkWord i im v).curWord = s.curWord ∧
    (s.setBlkWord i im v).curArg = s.curArg ∧ (s.setBlkWord i im v).resReason = s.resReason ∧
    (s.setBlkWord i im v).resOpcode = s.resOpcode ∧ (s.setBlkWord i im v).rval = s.rval ∧
    (s.setBlkWord i im v).err = s.err ∧ (s.setBlkWord i im v).irqStatus = s.irqStatus ∧
    (s.setBlkWord i im v).irqEnable = s.irqEnable ∧ (s.setBlkWord i im v).wptrW = s.wptrW ∧
    (s.setBlkWord i im v).wptrG = s.wptrG ∧ (s.setBlkWord i im v).wsync = s.wsync ∧
    (s.setBlkWord i im v).wsyncQ = s.wsyncQ ∧ (s.setBlkWord i im v).ovlG = s.ovlG ∧
    (s.setBlkWord i im v).ovlSync = s.ovlSync ∧ (s.setBlkWord i im v).freezeReq = s.freezeReq ∧
    (s.setBlkWord i im v).reqSync = s.reqSync ∧ (s.setBlkWord i im v).freezeAck = s.freezeAck ∧
    (s.setBlkWord i im v).ackSync = s.ackSync ∧ (s.setBlkWord i im v).clrReq = s.clrReq ∧
    (s.setBlkWord i im v).frozen = s.frozen ∧ (s.setBlkWord i im v).initBusy = s.initBusy ∧
    (s.setBlkWord i im v).cmdPhase = s.cmdPhase ∧ (s.setBlkWord i im v).initPos = s.initPos ∧
    (s.setBlkWord i im v).settleCnt = s.settleCnt ∧ (s.setBlkWord i im v).rstN = s.rstN ∧
    (s.setBlkWord i im v).rstW = s.rstW ∧ (s.setBlkWord i im v).rstC = s.rstC ∧
    (s.setBlkWord i im v).wrRuns = s.wrRuns ∧ (s.setBlkWord i im v).busRdata = s.busRdata ∧
    (s.setBlkWord i im v).busQ = s.busQ ∧ (s.setBlkWord i im v).beatQ = s.beatQ ∧
    (s.setBlkWord i im v).ovlQ = s.ovlQ ∧ (s.setBlkWord i im v).sched = s.sched :=
  ⟨rfl, rfl, rfl, rfl, rfl, rfl, rfl, rfl, rfl, rfl, rfl, rfl, rfl, rfl, rfl, rfl, rfl, rfl, rfl, rfl, rfl, rfl, rfl,
    rfl, rfl, rfl, rfl, rfl, rfl, rfl, rfl, rfl, rfl, rfl, rfl, rfl, rfl, rfl, rfl, rfl, rfl, rfl, rfl, rfl, rfl,
    rfl, rfl, rfl, rfl, rfl, rfl, rfl, rfl, rfl, rfl, rfl, rfl, rfl, rfl, rfl, rfl, rfl, rfl, rfl⟩

@[simp] theorem State.setWin_fields (s : State) (i : Nat) (v : F32) :
    (s.setWin i v).params = s.params ∧ (s.setWin i v).rbmem = s.rbmem ∧ (s.setWin i v).blk = s.blk ∧
    (s.setWin i v).win = s.win.write (4 * i) (bytesOfWord v) ∧ (s.setWin i v).snap = s.snap ∧
    (s.setWin i v).epoch = s.epoch ∧ (s.setWin i v).rbCap = s.rbCap ∧ (s.setWin i v).rbWcur = s.rbWcur ∧
    (s.setWin i v).rbRcur = s.rbRcur ∧ (s.setWin i v).rbAcc = s.rbAcc ∧ (s.setWin i v).rbGate = s.rbGate ∧
    (s.setWin i v).fftN = s.fftN ∧ (s.setWin i v).winN = s.winN ∧ (s.setWin i v).engN = s.engN ∧
    (s.setWin i v).opened = s.opened ∧ (s.setWin i v).closing = s.closing ∧ (s.setWin i v).tickStage = s.tickStage ∧
    (s.setWin i v).tickByCmd = s.tickByCmd ∧ (s.setWin i v).tickPending = s.tickPending ∧
    (s.setWin i v).timerCnt = s.timerCnt ∧ (s.setWin i v).tickPeriod = s.tickPeriod ∧
    (s.setWin i v).tickCount = s.tickCount ∧ (s.setWin i v).skipStale = s.skipStale ∧
    (s.setWin i v).drainOk = s.drainOk ∧ (s.setWin i v).snapValid = s.snapValid ∧
    (s.setWin i v).lockOwner = s.lockOwner ∧ (s.setWin i v).ovlW = s.ovlW ∧ (s.setWin i v).ovlWcnt = s.ovlWcnt ∧
    (s.setWin i v).ovlCnt = s.ovlCnt ∧ (s.setWin i v).busy = s.busy ∧ (s.setWin i v).arg = s.arg ∧
    (s.setWin i v).curWord = s.curWord ∧ (s.setWin i v).curArg = s.curArg ∧ (s.setWin i v).resReason = s.resReason ∧
    (s.setWin i v).resOpcode = s.resOpcode ∧ (s.setWin i v).rval = s.rval ∧ (s.setWin i v).err = s.err ∧
    (s.setWin i v).irqStatus = s.irqStatus ∧ (s.setWin i v).irqEnable = s.irqEnable ∧ (s.setWin i v).wptrW = s.wptrW ∧
    (s.setWin i v).wptrG = s.wptrG ∧ (s.setWin i v).wsync = s.wsync ∧ (s.setWin i v).wsyncQ = s.wsyncQ ∧
    (s.setWin i v).ovlG = s.ovlG ∧ (s.setWin i v).ovlSync = s.ovlSync ∧ (s.setWin i v).freezeReq = s.freezeReq ∧
    (s.setWin i v).reqSync = s.reqSync ∧ (s.setWin i v).freezeAck = s.freezeAck ∧ (s.setWin i v).ackSync = s.ackSync ∧
    (s.setWin i v).clrReq = s.clrReq ∧ (s.setWin i v).frozen = s.frozen ∧ (s.setWin i v).initBusy = s.initBusy ∧
    (s.setWin i v).cmdPhase = s.cmdPhase ∧ (s.setWin i v).initPos = s.initPos ∧
    (s.setWin i v).settleCnt = s.settleCnt ∧ (s.setWin i v).rstN = s.rstN ∧ (s.setWin i v).rstW = s.rstW ∧
    (s.setWin i v).rstC = s.rstC ∧ (s.setWin i v).wrRuns = s.wrRuns ∧ (s.setWin i v).busRdata = s.busRdata ∧
    (s.setWin i v).busQ = s.busQ ∧ (s.setWin i v).beatQ = s.beatQ ∧ (s.setWin i v).ovlQ = s.ovlQ ∧
    (s.setWin i v).sched = s.sched :=
  ⟨rfl, rfl, rfl, rfl, rfl, rfl, rfl, rfl, rfl, rfl, rfl, rfl, rfl, rfl, rfl, rfl, rfl, rfl, rfl, rfl, rfl, rfl, rfl,
    rfl, rfl, rfl, rfl, rfl, rfl, rfl, rfl, rfl, rfl, rfl, rfl, rfl, rfl, rfl, rfl, rfl, rfl, rfl, rfl, rfl, rfl,
    rfl, rfl, rfl, rfl, rfl, rfl, rfl, rfl, rfl, rfl, rfl, rfl, rfl, rfl, rfl, rfl, rfl, rfl, rfl⟩

@[simp] theorem State.setSnap_fields (s : State) (i : Nat) (v : F32) :
    (s.setSnap i v).params = s.params ∧ (s.setSnap i v).rbmem = s.rbmem ∧ (s.setSnap i v).blk = s.blk ∧
    (s.setSnap i v).win = s.win ∧ (s.setSnap i v).snap = s.snap.write (4 * i) (bytesOfWord v) ∧
    (s.setSnap i v).epoch = s.epoch ∧ (s.setSnap i v).rbCap = s.rbCap ∧ (s.setSnap i v).rbWcur = s.rbWcur ∧
    (s.setSnap i v).rbRcur = s.rbRcur ∧ (s.setSnap i v).rbAcc = s.rbAcc ∧ (s.setSnap i v).rbGate = s.rbGate ∧
    (s.setSnap i v).fftN = s.fftN ∧ (s.setSnap i v).winN = s.winN ∧ (s.setSnap i v).engN = s.engN ∧
    (s.setSnap i v).opened = s.opened ∧ (s.setSnap i v).closing = s.closing ∧
    (s.setSnap i v).tickStage = s.tickStage ∧ (s.setSnap i v).tickByCmd = s.tickByCmd ∧
    (s.setSnap i v).tickPending = s.tickPending ∧ (s.setSnap i v).timerCnt = s.timerCnt ∧
    (s.setSnap i v).tickPeriod = s.tickPeriod ∧ (s.setSnap i v).tickCount = s.tickCount ∧
    (s.setSnap i v).skipStale = s.skipStale ∧ (s.setSnap i v).drainOk = s.drainOk ∧
    (s.setSnap i v).snapValid = s.snapValid ∧ (s.setSnap i v).lockOwner = s.lockOwner ∧
    (s.setSnap i v).ovlW = s.ovlW ∧ (s.setSnap i v).ovlWcnt = s.ovlWcnt ∧ (s.setSnap i v).ovlCnt = s.ovlCnt ∧
    (s.setSnap i v).busy = s.busy ∧ (s.setSnap i v).arg = s.arg ∧ (s.setSnap i v).curWord = s.curWord ∧
    (s.setSnap i v).curArg = s.curArg ∧ (s.setSnap i v).resReason = s.resReason ∧
    (s.setSnap i v).resOpcode = s.resOpcode ∧ (s.setSnap i v).rval = s.rval ∧ (s.setSnap i v).err = s.err ∧
    (s.setSnap i v).irqStatus = s.irqStatus ∧ (s.setSnap i v).irqEnable = s.irqEnable ∧
    (s.setSnap i v).wptrW = s.wptrW ∧ (s.setSnap i v).wptrG = s.wptrG ∧ (s.setSnap i v).wsync = s.wsync ∧
    (s.setSnap i v).wsyncQ = s.wsyncQ ∧ (s.setSnap i v).ovlG = s.ovlG ∧ (s.setSnap i v).ovlSync = s.ovlSync ∧
    (s.setSnap i v).freezeReq = s.freezeReq ∧ (s.setSnap i v).reqSync = s.reqSync ∧
    (s.setSnap i v).freezeAck = s.freezeAck ∧ (s.setSnap i v).ackSync = s.ackSync ∧
    (s.setSnap i v).clrReq = s.clrReq ∧ (s.setSnap i v).frozen = s.frozen ∧ (s.setSnap i v).initBusy = s.initBusy ∧
    (s.setSnap i v).cmdPhase = s.cmdPhase ∧ (s.setSnap i v).initPos = s.initPos ∧
    (s.setSnap i v).settleCnt = s.settleCnt ∧ (s.setSnap i v).rstN = s.rstN ∧ (s.setSnap i v).rstW = s.rstW ∧
    (s.setSnap i v).rstC = s.rstC ∧ (s.setSnap i v).wrRuns = s.wrRuns ∧ (s.setSnap i v).busRdata = s.busRdata ∧
    (s.setSnap i v).busQ = s.busQ ∧ (s.setSnap i v).beatQ = s.beatQ ∧ (s.setSnap i v).ovlQ = s.ovlQ ∧
    (s.setSnap i v).sched = s.sched :=
  ⟨rfl, rfl, rfl, rfl, rfl, rfl, rfl, rfl, rfl, rfl, rfl, rfl, rfl, rfl, rfl, rfl, rfl, rfl, rfl, rfl, rfl, rfl, rfl,
    rfl, rfl, rfl, rfl, rfl, rfl, rfl, rfl, rfl, rfl, rfl, rfl, rfl, rfl, rfl, rfl, rfl, rfl, rfl, rfl, rfl, rfl,
    rfl, rfl, rfl, rfl, rfl, rfl, rfl, rfl, rfl, rfl, rfl, rfl, rfl, rfl, rfl, rfl, rfl, rfl, rfl⟩

@[simp] theorem State.releaseFreeze_fields (s : State) :
    (s.releaseFreeze).params = s.params ∧ (s.releaseFreeze).rbmem = s.rbmem ∧ (s.releaseFreeze).blk = s.blk ∧
    (s.releaseFreeze).win = s.win ∧ (s.releaseFreeze).snap = s.snap ∧ (s.releaseFreeze).epoch = s.epoch ∧
    (s.releaseFreeze).rbCap = s.rbCap ∧ (s.releaseFreeze).rbWcur = s.rbWcur ∧ (s.releaseFreeze).rbRcur = s.rbRcur ∧
    (s.releaseFreeze).rbAcc = s.rbAcc ∧ (s.releaseFreeze).rbGate = s.rbGate ∧ (s.releaseFreeze).fftN = s.fftN ∧
    (s.releaseFreeze).winN = s.winN ∧ (s.releaseFreeze).engN = s.engN ∧ (s.releaseFreeze).opened = s.opened ∧
    (s.releaseFreeze).closing = s.closing ∧ (s.releaseFreeze).tickStage = s.tickStage ∧
    (s.releaseFreeze).tickByCmd = s.tickByCmd ∧ (s.releaseFreeze).tickPending = s.tickPending ∧
    (s.releaseFreeze).timerCnt = s.timerCnt ∧ (s.releaseFreeze).tickPeriod = s.tickPeriod ∧
    (s.releaseFreeze).tickCount = s.tickCount ∧ (s.releaseFreeze).skipStale = s.skipStale ∧
    (s.releaseFreeze).drainOk = s.drainOk ∧ (s.releaseFreeze).snapValid = s.snapValid ∧
    (s.releaseFreeze).lockOwner = s.lockOwner ∧ (s.releaseFreeze).ovlW = s.ovlW ∧
    (s.releaseFreeze).ovlWcnt = s.ovlWcnt ∧ (s.releaseFreeze).ovlCnt = s.ovlCnt ∧ (s.releaseFreeze).busy = s.busy ∧
    (s.releaseFreeze).arg = s.arg ∧ (s.releaseFreeze).curWord = s.curWord ∧ (s.releaseFreeze).curArg = s.curArg ∧
    (s.releaseFreeze).resReason = s.resReason ∧ (s.releaseFreeze).resOpcode = s.resOpcode ∧
    (s.releaseFreeze).rval = s.rval ∧ (s.releaseFreeze).err = s.err ∧ (s.releaseFreeze).irqStatus = s.irqStatus ∧
    (s.releaseFreeze).irqEnable = s.irqEnable ∧ (s.releaseFreeze).wptrW = s.wptrW ∧
    (s.releaseFreeze).wptrG = s.wptrG ∧ (s.releaseFreeze).wsync = s.wsync ∧ (s.releaseFreeze).wsyncQ = s.wsyncQ ∧
    (s.releaseFreeze).ovlG = s.ovlG ∧ (s.releaseFreeze).ovlSync = s.ovlSync ∧ (s.releaseFreeze).freezeReq = false ∧
    (s.releaseFreeze).reqSync = s.reqSync ∧ (s.releaseFreeze).freezeAck = s.freezeAck ∧
    (s.releaseFreeze).ackSync = s.ackSync ∧ (s.releaseFreeze).clrReq = false ∧ (s.releaseFreeze).frozen = s.frozen ∧
    (s.releaseFreeze).initBusy = s.initBusy ∧ (s.releaseFreeze).cmdPhase = s.cmdPhase ∧
    (s.releaseFreeze).initPos = s.initPos ∧ (s.releaseFreeze).settleCnt = 0 ∧ (s.releaseFreeze).rstN = s.rstN ∧
    (s.releaseFreeze).rstW = s.rstW ∧ (s.releaseFreeze).rstC = s.rstC ∧ (s.releaseFreeze).wrRuns = s.wrRuns ∧
    (s.releaseFreeze).busRdata = s.busRdata ∧ (s.releaseFreeze).busQ = s.busQ ∧ (s.releaseFreeze).beatQ = s.beatQ ∧
    (s.releaseFreeze).ovlQ = s.ovlQ ∧ (s.releaseFreeze).sched = s.sched :=
  ⟨rfl, rfl, rfl, rfl, rfl, rfl, rfl, rfl, rfl, rfl, rfl, rfl, rfl, rfl, rfl, rfl, rfl, rfl, rfl, rfl, rfl, rfl, rfl,
    rfl, rfl, rfl, rfl, rfl, rfl, rfl, rfl, rfl, rfl, rfl, rfl, rfl, rfl, rfl, rfl, rfl, rfl, rfl, rfl, rfl, rfl,
    rfl, rfl, rfl, rfl, rfl, rfl, rfl, rfl, rfl, rfl, rfl, rfl, rfl, rfl, rfl, rfl, rfl, rfl, rfl⟩

end Sys2Proof.Machine
end

