-- ==== Sys2Proof/Laws/Ops.lean ====
section
/-! SUPPORT. What each shared operation can do, said once: if it answers a next state, which one. Later proofs cite these instead of
unfolding the operations. -/

namespace Sys2Proof.Machine

variable {s t : State}

/-- The bind lemma: two transitions end in `t` iff the first ends somewhere from which the second ends in `t`. -/
theorem andThen_eq_next {o : Host.Outcome State Fault Refusal} {f : State → Host.Outcome State Fault Refusal} :
    andThen o f = .next t ↔ ∃ u, o = .next u ∧ f u = .next t := by
  cases o <;> simp [andThen]

@[simp] theorem andThen_next (s : State) (f : State → Host.Outcome State Fault Refusal) : andThen (.next s) f = f s := rfl

/-! ### Sizes -/

theorem ispow2_iff {n : Nat} : ispow2 n = true ↔ ∃ k, n = 2 ^ k := by
  simp only [ispow2, beq_iff_eq]
  exact ⟨fun h => ⟨_, h⟩, fun ⟨k, hk⟩ => by rw [hk, Nat.log2_two_pow]⟩

theorem ispow2_pos {n : Nat} (h : ispow2 n = true) : 0 < n := by
  obtain ⟨k, rfl⟩ := ispow2_iff.mp h; exact Nat.two_pow_pos k

/-- A power of two is 2 to its logarithm. -/
theorem ispow2_log2 {n : Nat} (h : ispow2 n = true) : 2 ^ n.log2 = n := by
  obtain ⟨k, rfl⟩ := ispow2_iff.mp h
  rw [Nat.log2_two_pow]

theorem ispow2_roundup (n : Nat) : ispow2 (roundup n) = true := by
  unfold roundup; split
  · exact ispow2_iff.mpr ⟨0, rfl⟩
  · exact ispow2_iff.mpr ⟨_, rfl⟩

theorem le_roundup (n : Nat) : n ≤ roundup n := by
  unfold roundup; split
  · assumption
  · have := @Nat.lt_log2_self (n - 1); omega

/-- The size request answers a size exactly when the request is not 0 and its `roundup` is within `NMAX`. -/
theorem sizeRequest_ok {P : Params} {n c : Nat} :
    sizeRequest P n = .ok c ↔ n ≠ 0 ∧ roundup n ≤ P.nmax ∧ c = roundup n := by
  unfold sizeRequest
  split
  · simp [*]
  · split
    · simp
      omega
    · rename_i h1 h2
      simp only [Except.ok.injEq]
      exact ⟨fun h => ⟨h1, by omega, h.symm⟩, fun h => h.2.2.symm⟩

/-- Why a size request fails. -/
theorem sizeRequest_error {P : Params} {n : Nat} {r : Reason} :
    sizeRequest P n = .error r ↔
      (n = 0 ∧ .configZero = r) ∨ (n ≠ 0 ∧ P.nmax < roundup n ∧ .configRange = r) := by
  unfold sizeRequest
  split
  · simp [*]
  · split
    · simp_all
    · simp_all

/-! ### The shapes of the commands -/

theorem whileClosed_eq_next {body : State → Host.Outcome State Fault Refusal} :
    whileClosed s body = .next t ↔
      (s.opened = true ∧ s.fail .wrongState = t) ∨ (s.opened = false ∧ body s = .next t) := by
  unfold whileClosed; cases s.opened <;> simp 

theorem withSize_eq_next {body : Nat → State → Host.Outcome State Fault Refusal} :
    withSize s body = .next t ↔
      (s.opened = true ∧ s.fail .wrongState = t) ∨
      (s.opened = false ∧ ∃ r, sizeRequest s.params s.argNat = .error r ∧ s.fail r = t) ∨
      (s.opened = false ∧ ∃ c, sizeRequest s.params s.argNat = .ok c ∧ body c s = .next t) := by
  unfold withSize
  rw [whileClosed_eq_next]
  cases h : sizeRequest s.params s.argNat <;> simp 

theorem withLength_eq_next {n : Nat} {body : State → Host.Outcome State Fault Refusal} :
    withLength n s body = .next t ↔
      (s.opened = true ∧ s.fail .wrongState = t) ∨
      (s.opened = false ∧ s.argNat ≠ n ∧ s.fail .sizeMismatch = t) ∨
      (s.opened = false ∧ s.argNat = n ∧ body s = .next t) := by
  unfold withLength
  rw [whileClosed_eq_next]
  by_cases h : s.argNat = n <;> simp [h]

theorem withFreeze_eq_next {body : State → State} :
    withFreeze s body = .next t ↔
      (s.freeze = .idle ∧ body (settleBeats s) = t) ∨ (s.freeze = .held ∧ (body s).releaseFreeze = t) ∨
      (s.freeze = .waiting ∧ s = t) := by
  unfold withFreeze; cases s.freeze <;> simp 

/-- What it means that nothing of a handshake is under way. -/
theorem noHandshake_iff :
    s.noHandshake = true ↔ s.freezeReq = false ∧ s.frozen = false ∧ s.freezeAck = false ∧
      (∀ b ∈ s.ackSync, b = false) ∧ ∀ b ∈ s.reqSync, b = false := by
  simp [State.noHandshake, and_assoc]

/-- When a freeze may be taken as one transition. -/
theorem freeze_idle_iff : s.freeze = .idle ↔ s.noHandshake = true ∧ s.clrReq = false ∧ s.wrRuns = true := by
  unfold State.freeze
  split
  · have : s.noHandshake = false := by simp [State.noHandshake, *]
    split <;> simp [this]
  · split <;> simp_all [and_assoc]

/-- When the handshake has reached its linearization point. -/
theorem freeze_held_iff : s.freeze = .held ↔ s.freezeReq = true ∧ s.params.syncStages + 1 ≤ s.settleCnt := by
  unfold State.freeze
  split
  · split <;> simp_all
  · split <;> simp_all

/-- With no handshake under way the requests are low, so the crossing is not suspended. -/
theorem freeze_idle_requests (h : s.freeze = .idle) : s.freezeReq = false ∧ s.clrReq = false :=
  ⟨(noHandshake_iff.mp (freeze_idle_iff.mp h).1).1, (freeze_idle_iff.mp h).2.1⟩

theorem windowStep_eq_next {c i : Nat} {commit : State → Host.Outcome State Fault Refusal} :
    windowStep c i s commit = .next t ↔
      (i < c ∧ { fillWindow c i s with cmdPhase := .winFill c (i + 1) } = t) ∨ (c ≤ i ∧ commit s = .next t) := by
  unfold windowStep
  split
  · simp [*]
  · simp [*, Nat.not_lt.mp ‹_›]

/-! ### The producer domain -/

theorem acceptBeat_eq_next {x : Sample} :
    acceptBeat x s = .next t ↔
      (s.rbCap = 0 ∧ s = t) ∨
      (s.rbCap ≠ 0 ∧ (s.clrReq = true ∨ s.beatsInFlight + 1 < 2 ^ (s.params.cw - 1)) ∧
        { s.setRbmem (ringIndex s.rbCap s.wptrW) x with
          wptrW := counterNext s.params.cw s.wptrW, wptrG := gray (counterNext s.params.cw s.wptrW) } = t) := by
  unfold acceptBeat
  by_cases hb : s.rbCap = 0
  · simp [hb]
  · by_cases hc : s.clrReq = false ∧ 2 ^ (s.params.cw - 1) ≤ s.beatsInFlight + 1
    · have : ¬ (s.clrReq = true ∨ s.beatsInFlight + 1 < 2 ^ (s.params.cw - 1)) := by
        simp only [hc.1, Bool.false_eq_true, false_or]; omega
      simp [hb, hc]
    · have : s.clrReq = true ∨ s.beatsInFlight + 1 < 2 ^ (s.params.cw - 1) := by
        cases h : s.clrReq <;> simp_all
      rw [if_neg hb, if_neg hc]
      simp [hb, this]

theorem overloadUpdate_eq_next {b : Bool} :
    overloadUpdate b s = .next t ↔
      (b = s.ovlW ∧ s = t) ∨
      (b ≠ s.ovlW ∧ s.changesInFlight + 1 < 2 ^ (s.params.cw - 1) ∧
        { s with
          ovlW := b, ovlWcnt := counterNext s.params.cw s.ovlWcnt
          ovlG := gray (counterNext s.params.cw s.ovlWcnt) } = t) := by
  unfold overloadUpdate
  split
  · simp [*]
  · split
    · simp only [reduceCtorEq, false_iff, not_or, not_and]
      exact ⟨fun h => absurd h ‹_›, fun _ h => by omega⟩
    · simp [*, Nat.not_le.mp ‹_›]

/-- Where a crossing leaves the core domain. -/
theorem takeCursor_eq (w : Nat) (s : State) :
    takeCursor w s = if s.clrReq then s else
      { s with
        rbAcc := min s.rbCap (s.rbAcc + counterDelta s.params.cw w s.wsyncQ)
        rbGate := decide (min s.rbCap (s.rbAcc + counterDelta s.params.cw w s.wsyncQ) = s.rbCap)
        rbWcur := w, wsyncQ := w } := rfl

theorem settleBeats_eq (s : State) :
    settleBeats s = if s.clrReq then s else
      { s with
        rbAcc := min s.rbCap (s.rbAcc + counterDelta s.params.cw s.wptrW s.wsyncQ)
        rbGate := decide (min s.rbCap (s.rbAcc + counterDelta s.params.cw s.wptrW s.wsyncQ) = s.rbCap)
        rbWcur := s.wptrW, wsyncQ := s.wptrW, wsync := List.replicate s.params.syncStages s.wptrG } := by
  unfold settleBeats takeCursor
  split
  · rfl
  · rfl

theorem grayInverse_lt (k : Nat) (above : Bool) (g : Nat) : grayInverse k above g < 2 ^ k := by
  induction k generalizing above with
  | zero => simp [grayInverse]
  | succ k ih =>
    have h := ih (above ^^ g.testBit k)
    have hb : (above ^^ g.testBit k).toNat ≤ 1 := Bool.toNat_le _
    have : (above ^^ g.testBit k).toNat * 2 ^ k ≤ 1 * 2 ^ k := Nat.mul_le_mul_right _ hb
    simp only [grayInverse, Nat.pow_succ]
    omega

theorem gray2bin_lt (cw g : Nat) : gray2bin cw g < 2 ^ cw := grayInverse_lt _ _ _

theorem counterNext_lt (cw c : Nat) : counterNext cw c < 2 ^ cw := Nat.mod_lt _ (Nat.two_pow_pos cw)

theorem counterDelta_lt (cw a b : Nat) : counterDelta cw a b < 2 ^ cw := Nat.mod_lt _ (Nat.two_pow_pos cw)

@[simp] theorem counterDelta_self (cw a : Nat) : counterDelta cw a a = 0 := by simp [counterDelta]

@[simp] theorem length_shiftIn {α : Type} (v : α) (chain : List α) : (shiftIn v chain).length = chain.length := by
  simp [shiftIn]

/-! ### The memories -/

/-- `BLK[0 .. n-1] <- xs`: what the block reads as after it. -/
theorem blkAt_setBlock_range (s : State) (n : Nat) (f : Nat → Sample) (i : Nat) :
    (s.setBlock ((List.range n).map f)).blkAt i = if i < n then f i else s.blkAt i := by
  rw [State.blkAt_setBlock]
  by_cases h : i < n <;> simp [h]

theorem setRbmem_wf (h : s.rbmem.wf) (i : Nat) (x : Sample) : (s.setRbmem i x).rbmem.wf := Memory.wf_write h _ _

theorem setBlock_wf (h : s.blk.wf) (xs : List Sample) : (s.setBlock xs).blk.wf := Memory.wf_write h _ _

theorem setBlkWord_wf (h : s.blk.wf) (i : Nat) (im : Bool) (v : Word) : (s.setBlkWord i im v).blk.wf :=
  Memory.wf_write h _ _

theorem setWin_wf (h : s.win.wf) (i : Nat) (v : F32) : (s.setWin i v).win.wf := Memory.wf_write h _ _

theorem setSnap_wf (h : s.snap.wf) (i : Nat) (v : F32) : (s.setSnap i v).snap.wf := Memory.wf_write h _ _

/-- The memories of the reset state list nothing, so they have the canonical form. -/
theorem resetWith_wf (P : Params) (e : Nat) :
    (State.resetWith P e).rbmem.wf ∧ (State.resetWith P e).blk.wf ∧ (State.resetWith P e).win.wf ∧
      (State.resetWith P e).snap.wf :=
  ⟨List.Pairwise.nil, List.Pairwise.nil, List.Pairwise.nil, List.Pairwise.nil⟩

/-! ### The tick path -/

/-- Where `END` takes the tick path. -/
theorem tickEnd_eq (s : State) :
    tickEnd s =
      if s.tickByCmd = false ∧ s.tickPending = true ∧ s.opened = true ∧ s.closing = false then
        { s with tickPending := false, tickStage := .drain }
      else { s with tickStage := .idle } := by
  unfold tickEnd
  cases s.tickByCmd <;> cases s.tickPending <;> cases s.opened <;> cases s.closing <;> simp

/-- What one stage of the tick path can do. -/
theorem tickStep_eq_next :
    tickStep s = .next t ↔
      (s.tickStage = .idle ∧ s = t) ∨
      (s.tickStage = .drain ∧ s.rbCap = s.engN ∧ s.rbGate = true ∧
        withFreeze s (fun u => afterDrain true (drain u)) = .next t) ∨
      (s.tickStage = .drain ∧ ¬ (s.rbCap = s.engN ∧ s.rbGate = true) ∧ afterDrain false s = t) ∨
      (s.tickStage = .window ∧ { (if s.winN = s.engN then windowBlock s.engN s else s) with tickStage := .fft } = t) ∨
      (s.tickStage = .fft ∧
        { (if s.fftN = s.engN then transformBlock s.engN true s else s) with tickStage := .shift } = t) ∨
      (s.tickStage = .shift ∧ { shiftBlock s.engN s with tickStage := .lock } = t) ∨
      (s.tickStage = .lock ∧ s.lockOwner = .none ∧ { s with lockOwner := .engine, tickStage := .log 0 } = t) ∨
      (s.tickStage = .lock ∧ s.lockOwner ≠ .none ∧ s = t) ∨
      (∃ i, s.tickStage = .log i ∧
        { logEntry i s with tickStage := if i + 1 < s.engN then .log (i + 1) else .publish } = t) ∨
      (s.tickStage = .publish ∧ publish s = t) := by
  unfold tickStep
  cases h : s.tickStage with
  | drain =>
    by_cases hc : s.rbCap = s.engN ∧ s.rbGate = true
    · simp [hc]
    · rw [if_neg hc]
      simp only [reduceCtorEq, false_and, true_and, false_or, or_false, exists_false, hc, not_false_eq_true,
        Host.Outcome.next.injEq]
      exact ⟨.inr, fun h' => h'.resolve_left fun h' => hc ⟨h'.1, h'.2.1⟩⟩
  | lock => by_cases hl : s.lockOwner = .none <;> simp [hl]
  | _ => simp 

/-! ### No command and no host access stops -/

theorem withFreeze_answers (s : State) (body : State → State) : ∃ t, withFreeze s body = .next t := by
  unfold withFreeze; cases s.freeze <;> exact ⟨_, rfl⟩

theorem tickStep_answers (s : State) : ∃ t, tickStep s = .next t := by
  unfold tickStep
  cases s.tickStage <;> simp only <;> first
    | exact ⟨_, rfl⟩
    | (split <;> first | exact withFreeze_answers _ _ | exact ⟨_, rfl⟩)

/-- Entry `j` of the twiddle recurrence is `j` products by `wm` away from the first (41 R205). -/
theorem twiddles_getElem? {α : Type} (A : Arith α) (wm : α) {h j : Nat} (hj : j < h) (w : α) :
    (twiddles A wm h w)[j]? = some ((fun v => A.mul v wm)^[j] w) := by
  induction h generalizing j w with
  | zero => omega
  | succ h ih =>
    cases j with
    | zero => rfl
    | succ j => simpa [twiddles] using ih (by omega) (A.mul w wm)

end Sys2Proof.Machine
end

