-- ==== Sys2Proof/Laws/Bus.lean ====
section
/-! SUPPORT. Which location an accepted host access reaches, and what an access can do, said once. -/

namespace Sys2Proof.Machine

open Sys2Proof.Safety

variable {s t : State}

theorem entryAt_of_lt {k n offset : Nat} {f : Nat → Loc} (h : offset < 2 ^ k * n) :
    entryAt k n offset f = some (f (offset / 2 ^ k)) :=
  if_pos (Nat.div_lt_of_lt_mul h)

theorem entryAt_of_le {k n offset : Nat} {f : Nat → Loc} (h : 2 ^ k * n ≤ offset) : entryAt k n offset f = none :=
  if_neg fun h' => absurd (Nat.lt_of_lt_of_le (Nat.lt_mul_of_div_lt h' (Nat.two_pow_pos k))
    (Nat.mul_comm n _ ▸ h)) (Nat.lt_irrefl _)

/-- The offsets of the register file at which a register is listed (30 R128). -/
theorem regAt_some (a : Nat) (h : a % 4 = 0) : (∃ r, regAt a = some r) ↔ a ≤ 0x54 := by
  constructor
  · rintro ⟨r, hr⟩; unfold regAt at hr; split at hr <;> simp_all
  · intro h2
    obtain ⟨k, rfl⟩ : ∃ k, a = 4 * k := ⟨a/4, by omega⟩
    have : k ≤ 21 := by omega
    interval_cases k <;> exact ⟨_, rfl⟩

theorem nmax_le {P : Params} (h : P.legal) : P.nmax ≤ 65536 :=
  Nat.pow_le_pow_right (by omega) h.1

/-- Which window of 20 R84 an aligned address lies in, given the location found there: that one and no other. -/
theorem locate_region {P : Params} (h : P.legal) {a : Nat} (ha : a % 4 = 0) :
    match locate P a with
    | some (.reg r) => inRegisters a ∧ regAt a = some r ∧ ¬ inSnap P a ∧ ¬ inWin P a ∧ ¬ inTw P a ∧ ¬ inBlk P a
    | some (.snap _) => inSnap P a ∧ ¬ inRegisters a ∧ ¬ inWin P a ∧ ¬ inTw P a ∧ ¬ inBlk P a
    | some (.win _) => inWin P a ∧ ¬ inRegisters a ∧ ¬ inSnap P a ∧ ¬ inTw P a ∧ ¬ inBlk P a
    | some (.tw _ _) => inTw P a ∧ ¬ inRegisters a ∧ ¬ inSnap P a ∧ ¬ inWin P a ∧ ¬ inBlk P a
    | some (.blk _ _) => inBlk P a ∧ ¬ inRegisters a ∧ ¬ inSnap P a ∧ ¬ inWin P a ∧ ¬ inTw P a
    | none => ¬ (inRegisters a ∨ inSnap P a ∨ inWin P a ∨ inTw P a ∨ inBlk P a) := by
  have hn := nmax_le h
  have hl := h.1
  unfold locate
  have rs := regAt_some a ha
  unfold inRegisters inSnap inWin inTw inBlk
  by_cases h1 : a < 0x1000
  · rw [if_pos h1]
    cases hr : regAt a with
    | none => simp [hr] at rs; simp; omega
    | some r => simp [hr] at rs; simp; omega
  rw [if_neg h1]
  by_cases h2 : a < 0x40000
  · rw [if_pos h2]; simp; omega
  rw [if_neg h2]
  by_cases h3 : a < 0x80000
  · rw [if_pos h3]
    rcases Nat.lt_or_ge (a - 0x040000) (2 ^ 2 * P.nmax) with hi | hi
    · rw [entryAt_of_lt hi]; simp; omega
    · rw [entryAt_of_le hi]; simp; omega
  rw [if_neg h3]
  by_cases h4 : a < 0x0C0000
  · rw [if_pos h4]
    rcases Nat.lt_or_ge (a - 0x080000) (2 ^ 2 * P.nmax) with hi | hi
    · rw [entryAt_of_lt hi]; simp; omega
    · rw [entryAt_of_le hi]; simp; omega
  rw [if_neg h4]
  by_cases h5 : a < 0x0C0008
  · rw [if_pos h5]; simp; omega
  rw [if_neg h5]
  by_cases h6 : a < 0x0C0100
  · rw [if_pos h6]
    rcases Nat.lt_or_ge (a - 0x0C0008) (2 ^ 3 * P.log2Nmax) with hi | hi
    · rw [entryAt_of_lt hi]; simp; omega
    · rw [entryAt_of_le hi]; simp; omega
  rw [if_neg h6]
  by_cases h7 : a < 0x100000
  · rw [if_pos h7]; simp; omega
  rw [if_neg h7]
  by_cases h8 : a < 0x180000
  · rw [if_pos h8]
    rcases Nat.lt_or_ge (a - 0x100000) (2 ^ 3 * P.nmax) with hi | hi
    · rw [entryAt_of_lt hi]; simp; omega
    · rw [entryAt_of_le hi]; simp; omega
  rw [if_neg h8]
  simp; omega

/-- The location an accepted read is at. -/
theorem readTarget_eq_some {addr : Nat} {l : Loc} :
    readTarget s addr = some l ↔
      addr % 4 = 0 ∧ locate s.params addr = some l ∧
        (∀ i im, l = .blk i im → s.opened = false ∧ s.busy = false) ∧ (∀ i, l = .win i → s.busy = false) := by
  unfold readTarget
  by_cases ha : addr % 4 = 0
  · rw [if_neg (by simpa using ha)]
    cases hl : locate s.params addr with
    | none => simp
    | some m =>
      simp only [ha, true_and, Option.some.injEq]
      refine ⟨fun h => ?_, fun ⟨hm, hb, hw⟩ => ?_⟩
      · cases m <;> simp only [Option.ite_none_left_eq_some, Option.some.injEq, Bool.or_eq_true, not_or,
          Bool.not_eq_true] at h
        case blk => exact ⟨h.2, fun _ _ _ => h.1, fun _ hl => by rw [← h.2] at hl; cases hl⟩
        case win => exact ⟨h.2, fun _ _ hl => by (rw [← h.2] at hl; cases hl), fun _ _ => h.1⟩
        all_goals exact ⟨h, fun _ _ hl => by (rw [← h] at hl; cases hl), fun _ hl => by rw [← h] at hl; cases hl⟩
      · subst hm
        cases m with
        | blk i im => simp [hb i im rfl]
        | win i => simp [hw i rfl]
        | _ => rfl
  · simp [ha]

/-- The location an accepted write is at: an idle block's working memory while Closed, or a writable register. -/
theorem writeTarget_eq_some {addr : Nat} {wstrb : BitVec 4} {l : Loc} :
    writeTarget s addr wstrb = some l ↔
      addr % 4 = 0 ∧ wstrb = 0b1111#4 ∧ locate s.params addr = some l ∧
        ((∃ i im, l = .blk i im ∧ s.opened = false ∧ s.busy = false) ∨ ∃ r, l = .reg r ∧ r.writable = true) := by
  unfold writeTarget
  by_cases ha : addr % 4 = 0
  · by_cases hw : wstrb = 0b1111#4
    · rw [if_neg (by simp [ha, hw])]
      cases hl : locate s.params addr with
      | none => simp
      | some m =>
        cases m with
        | reg r => cases hr : r.writable <;> simp [ha, hw, hr] <;> rintro rfl <;> simp [hr]
        | blk i im =>
          simp only [ha, hw, true_and, Option.ite_none_left_eq_some, Option.some.injEq, Bool.or_eq_true, not_or,
            Bool.not_eq_true]
          refine ⟨fun h => ⟨h.2, .inl ⟨i, im, h.2.symm, h.1⟩⟩, ?_⟩
          rintro ⟨rfl, ⟨_, _, _, h⟩ | ⟨_, h, _⟩⟩
          · exact ⟨h, rfl⟩
          · cases h
        | _ =>
          simp only [ha, hw, true_and, Option.some.injEq]
          refine ⟨fun h => (Option.some_ne_none _ h.symm).elim, ?_⟩
          rintro ⟨rfl, ⟨_, _, h, _⟩ | ⟨_, h, _⟩⟩ <;> cases h
    · simp [hw]
  · simp [ha]

/-- What a read can do. -/
theorem execBusRead_eq_next {addr : Nat} :
    execBusRead addr s = .next t ↔
      (∃ l, readTarget s addr = some l ∧ { s with busRdata := s.readLoc l } = t) ∨
      (readTarget s addr = none ∧ { s.setAccess with busRdata := 0 } = t) := by
  unfold execBusRead
  cases readTarget s addr <;> simp

/-- What a write can do. -/
theorem execBusWrite_eq_next {addr : Nat} {v : Word} {wstrb : BitVec 4} :
    execBusWrite addr v wstrb s = .next t ↔
      (∃ r, writeTarget s addr wstrb = some (.reg r) ∧ s.writeReg v r = t) ∨
      (∃ i im, writeTarget s addr wstrb = some (.blk i im) ∧ s.opened = false ∧ s.busy = false ∧
        s.setBlkWord i im v = t) ∨
      (writeTarget s addr wstrb = none ∧ s.setAccess = t) := by
  unfold execBusWrite
  cases h : writeTarget s addr wstrb with
  | none => simp
  | some l =>
    rcases (writeTarget_eq_some.mp h).2.2.2 with ⟨i, im, rfl, ho, hb⟩ | ⟨r, rfl, -⟩
    · simp only [State.writeLoc, Option.some.injEq, reduceCtorEq, false_and, exists_false, false_or, or_false,
        Host.Outcome.next.injEq]
      refine ⟨fun h => ⟨i, im, rfl, ho, hb, h⟩, ?_⟩
      rintro ⟨i, im, h, -, -, h'⟩
      cases h; exact h'
    · simp [State.writeLoc]

/-- Every host access completes. -/
theorem execBusRead_answers (addr : Nat) (s : State) : ∃ t, execBusRead addr s = .next t := by
  unfold execBusRead; cases readTarget s addr <;> exact ⟨_, rfl⟩

theorem execBusWrite_answers (addr : Nat) (v : Word) (wstrb : BitVec 4) (s : State) :
    ∃ t, execBusWrite addr v wstrb s = .next t := by
  unfold execBusWrite; cases writeTarget s addr wstrb <;> exact ⟨_, rfl⟩

end Sys2Proof.Machine
end

