-- ==== Sys2Proof/Laws/Commands.lean ====
section
/-! SUPPORT. What a transition of each command can do, said once: every way a command's `exec` can answer, and that it always
answers. Proofs about all commands take the cases of `CommandTo`. -/

namespace Sys2Proof.Machine

open Sys2Proof.Safety

/-- An operation that needs the producer frozen takes place, as one transition or at the handshake's linearization point. -/
def FreezeTo (s : State) (body : State → State) (t : State) : Prop :=
  (s.freeze = .idle ∧ t = body (settleBeats s)) ∨ (s.freeze = .held ∧ t = (body s).releaseFreeze)

/-- Every transition a command can perform from `s`. -/
inductive CommandTo (s : State) : Instr → State → Prop
  | wrongState {i} (hi : closedOnly i = true) (ho : s.opened = true) : CommandTo s i (s.fail .wrongState)
  | sizeError {i r} (hi : isSizeCommand i = true) (ho : s.opened = false)
      (h : sizeRequest s.params s.argNat = .error r)
      (hp : i = .winSetsize ∨ i = .engSetsize → ∀ c k, s.cmdPhase ≠ .winFill c k) : CommandTo s i (s.fail r)
  | sizeMismatch {i n} (hi : blockLength s i = some n) (ho : s.opened = false) (h : s.argNat ≠ n)
      (hp : i = .logpow → ∀ k, s.cmdPhase ≠ .logFill k) : CommandTo s i (s.fail .sizeMismatch)
  | notReady (ho : s.opened = false) (ha : s.argNat = s.rbCap) (hg : s.rbGate = false) :
      CommandTo s .rbReadall (s.fail .notReady)
  | freezeWait {i} (h : s.freeze = .waiting) : CommandTo s i s
  | resize {c t} (ho : s.opened = false) (h : sizeRequest s.params s.argNat = .ok c)
      (hf : FreezeTo s (fun u => (resizeRing c u).finish .ok (BitVec.ofNat 32 c)) t) : CommandTo s .rbResize t
  | readall {t} (ho : s.opened = false) (ha : s.argNat = s.rbCap) (hg : s.rbGate = true)
      (hf : FreezeTo s (fun u => (drain u).finish .ok 1) t) : CommandTo s .rbReadall t
  | ready : CommandTo s .rbReady (s.finish .ok (bitWord s.rbGate))
  | fftSize {c} (ho : s.opened = false) (h : sizeRequest s.params s.argNat = .ok c) :
      CommandTo s .fftSetsize ({ s with fftN := c }.finish .ok (BitVec.ofNat 32 c))
  | transform {fwd} (ho : s.opened = false) (ha : s.argNat = s.fftN) :
      CommandTo s (.fftProcess fwd) ((transformBlock s.fftN fwd s).finish .ok 0)
  | fillStart {i c} (hi : i = .winSetsize ∨ i = .engSetsize) (ho : s.opened = false)
      (h : sizeRequest s.params s.argNat = .ok c) (hp : ∀ c i, s.cmdPhase ≠ .winFill c i) :
      CommandTo s i { s with cmdPhase := .winFill c 0 }
  | fill {i c k} (hi : i = .winSetsize ∨ i = .engSetsize) (hp : s.cmdPhase = .winFill c k) (hk : k < c) :
      CommandTo s i { fillWindow c k s with cmdPhase := .winFill c (k + 1) }
  | winDone {c k} (hp : s.cmdPhase = .winFill c k) (hk : c ≤ k) :
      CommandTo s .winSetsize ({ s with winN := c }.finish .ok (BitVec.ofNat 32 c))
  | engDone {c k t} (hp : s.cmdPhase = .winFill c k) (hk : c ≤ k)
      (hf : FreezeTo s (fun u => (sizeEngine c u).finish .ok (BitVec.ofNat 32 c)) t) : CommandTo s .engSetsize t
  | product (ho : s.opened = false) (ha : s.argNat = s.winN) :
      CommandTo s .winProcess ((windowBlock s.winN s).finish .ok 0)
  | openAgain (ho : s.opened = true) : CommandTo s .openEng (s.finish .ok 1)
  | openFirst (ho : s.opened = false) :
      CommandTo s .openEng ({ s with opened := true, timerCnt := 0, tickPending := false }.finish .ok 0)
  | closeClosed (hp : s.cmdPhase ≠ .closeWait) (ho : s.opened = false) : CommandTo s .closeEng (s.finish .ok 0)
  | closeStart (hp : s.cmdPhase ≠ .closeWait) (ho : s.opened = true) :
      CommandTo s .closeEng { s with closing := true, tickPending := false, cmdPhase := .closeWait }
  | closeWaits (hp : s.cmdPhase = .closeWait) (ht : s.tickStage ≠ .idle) : CommandTo s .closeEng s
  | closeDone (hp : s.cmdPhase = .closeWait) (ht : s.tickStage = .idle) :
      CommandTo s .closeEng ({ s with opened := false, closing := false, timerCnt := 0 }.finish .ok 1)
  | isOpen : CommandTo s .isOpen (s.finish .ok (bitWord s.opened))
  | tickStart (hp : s.cmdPhase ≠ .tickWait) (ho : s.opened = false) :
      CommandTo s .tickOnce { s with tickByCmd := true, tickStage := .drain, cmdPhase := .tickWait }
  | tickRuns {t} (hp : s.cmdPhase = .tickWait) (ht : s.tickStage ≠ .idle) (h : tickStep s = .next t) :
      CommandTo s .tickOnce t
  | tickDone (hp : s.cmdPhase = .tickWait) (ht : s.tickStage = .idle) :
      CommandTo s .tickOnce ({ s with tickByCmd := false }.finish .ok (bitWord s.drainOk))
  | shift (ho : s.opened = false) (ha : s.argNat = s.engN) : CommandTo s .shift ((shiftBlock s.engN s).finish .ok 0)
  | lockTaken (ho : s.opened = false) (ha : s.argNat = s.engN) (hp : ∀ k, s.cmdPhase ≠ .logFill k)
      (hl : s.lockOwner = .none) : CommandTo s .logpow { s with lockOwner := .engine, cmdPhase := .logFill 0 }
  | lockWait (ho : s.opened = false) (hp : ∀ k, s.cmdPhase ≠ .logFill k) (hl : s.lockOwner ≠ .none) :
      CommandTo s .logpow s
  | logEntry {k} (hp : s.cmdPhase = .logFill k) (h : k < s.engN) :
      CommandTo s .logpow { Machine.logEntry k s with cmdPhase := .logFill (k + 1) }
  | logDone {k} (hp : s.cmdPhase = .logFill k) (h : s.engN ≤ k) :
      CommandTo s .logpow ({ s with lockOwner := .none, snapValid := true }.finish .ok 0)

variable {s t : State}

theorem freezeTo_or_wait {body : State → State} (h : withFreeze s body = .next t) :
    FreezeTo s body t ∨ (s.freeze = .waiting ∧ t = s) := by
  rcases withFreeze_eq_next.mp h with ⟨hf, rfl⟩ | ⟨hf, rfl⟩ | ⟨hf, rfl⟩
  · exact .inl (.inl ⟨hf, rfl⟩)
  · exact .inl (.inr ⟨hf, rfl⟩)
  · exact .inr ⟨hf, rfl⟩

/-- A size command's body is reached, or it fails. -/
theorem size_cases {i : Instr} (hc : closedOnly i = true) (hi : isSizeCommand i = true)
    (hp : i = .winSetsize ∨ i = .engSetsize → ∀ c k, s.cmdPhase ≠ .winFill c k)
    {body : Nat → State → Host.Outcome State Fault Refusal} (h : withSize s body = .next t) :
    CommandTo s i t ∨ ∃ c, s.opened = false ∧ sizeRequest s.params s.argNat = .ok c ∧ body c s = .next t := by
  rcases withSize_eq_next.mp h with ⟨ho, rfl⟩ | ⟨ho, r, hr, rfl⟩ | ⟨ho, c, hr, h⟩
  · exact .inl (.wrongState hc ho)
  · exact .inl (.sizeError hi ho hr hp)
  · exact .inr ⟨c, ho, hr, h⟩

/-- The first transition of a command that computes `WIN`. -/
theorem fill_cases {i : Instr} (hi : i = .winSetsize ∨ i = .engSetsize) (hp : ∀ c k, s.cmdPhase ≠ .winFill c k)
    (h : withSize s (fun c s => .next { s with cmdPhase := .winFill c 0 }) = .next t) : CommandTo s i t := by
  have hc : closedOnly i = true ∧ isSizeCommand i = true := by rcases hi with rfl | rfl <;> exact ⟨rfl, rfl⟩
  refine (size_cases hc.1 hc.2 (fun _ => hp) h).elim id ?_
  rintro ⟨c, ho, hr, h⟩
  obtain rfl := Host.Outcome.next.inj h; exact .fillStart hi ho hr hp

/-- A block command's body is reached, or it fails. -/
theorem length_cases {i : Instr} {n : Nat} (hc : closedOnly i = true) (hi : blockLength s i = some n)
    (hp : i = .logpow → ∀ k, s.cmdPhase ≠ .logFill k)
    {body : State → Host.Outcome State Fault Refusal} (h : withLength n s body = .next t) :
    CommandTo s i t ∨ (s.opened = false ∧ s.argNat = n ∧ body s = .next t) := by
  rcases withLength_eq_next.mp h with ⟨ho, rfl⟩ | ⟨ho, hr, rfl⟩ | h
  · exact .inl (.wrongState hc ho)
  · exact .inl (.sizeMismatch hi ho hr hp)
  · exact .inr h

/-- Everything a transition of a command can do. -/
theorem command_cases {i : Instr} (hi : isCommand i = true) (h : exec i s = .next t) : CommandTo s i t := by
  cases i with
  | rbResize =>
    simp only [exec] at h
    unfold execRbResize at h
    refine (size_cases rfl rfl (by simp) h).elim id ?_
    rintro ⟨c, ho, hr, h⟩
    rcases freezeTo_or_wait h with h | ⟨h, rfl⟩
    · exact .resize ho hr h
    · exact .freezeWait h
  | rbReadall =>
    simp only [exec] at h
    unfold execRbReadall at h
    refine (length_cases rfl rfl (by simp) h).elim id ?_
    rintro ⟨ho, ha, h⟩
    split at h
    · obtain rfl := Host.Outcome.next.inj h; exact .notReady ho ha ‹_›
    · rcases freezeTo_or_wait h with h | ⟨h, rfl⟩
      · exact .readall ho ha (Bool.not_eq_false _ ▸ ‹¬ _›) h
      · exact .freezeWait h
  | rbReady => obtain rfl := Host.Outcome.next.inj h; exact .ready
  | fftSetsize =>
    simp only [exec] at h
    unfold execFftSetsize at h
    refine (size_cases rfl rfl (by simp) h).elim id ?_
    rintro ⟨c, ho, hr, h⟩
    obtain rfl := Host.Outcome.next.inj h; exact .fftSize ho hr
  | fftProcess fwd =>
    simp only [exec] at h
    unfold execFftProcess at h
    refine (length_cases rfl rfl (by simp) h).elim id ?_
    rintro ⟨ho, ha, h⟩
    obtain rfl := Host.Outcome.next.inj h; exact .transform ho ha
  | winSetsize =>
    simp only [exec] at h
    unfold execWinSetsize at h
    split at h
    · rename_i c k hp
      rcases windowStep_eq_next.mp h with ⟨hk, rfl⟩ | ⟨hk, h⟩
      · exact .fill (.inl rfl) hp hk
      · obtain rfl := Host.Outcome.next.inj h; exact .winDone hp hk
    all_goals exact fill_cases (.inl rfl) (by simp [*]) h
  | winProcess =>
    simp only [exec] at h
    unfold execWinProcess at h
    refine (length_cases rfl rfl (by simp) h).elim id ?_
    rintro ⟨ho, ha, h⟩
    obtain rfl := Host.Outcome.next.inj h; exact .product ho ha
  | engSetsize =>
    simp only [exec] at h
    unfold execEngSetsize at h
    split at h
    · rename_i c k hp
      rcases windowStep_eq_next.mp h with ⟨hk, rfl⟩ | ⟨hk, h⟩
      · exact .fill (.inr rfl) hp hk
      · rcases freezeTo_or_wait h with h | ⟨h, rfl⟩
        · exact .engDone hp hk h
        · exact .freezeWait h
    all_goals exact fill_cases (.inr rfl) (by simp [*]) h
  | openEng =>
    simp only [exec] at h
    unfold execOpenEng at h
    obtain rfl := Host.Outcome.next.inj h
    cases ho : s.opened with
    | false => exact .openFirst ho
    | true => exact .openAgain ho
  | closeEng =>
    simp only [exec] at h
    unfold execCloseEng at h
    split at h
    · split at h <;> obtain rfl := Host.Outcome.next.inj h
      · exact .closeDone ‹_› ‹_›
      · exact .closeWaits ‹_› ‹_›
    all_goals
      have hp : s.cmdPhase ≠ .closeWait := by simp [*]
      split at h <;> obtain rfl := Host.Outcome.next.inj h
      · exact .closeStart hp ‹_›
      · exact .closeClosed hp (Bool.eq_false_iff.mpr ‹_›)
  | isOpen => obtain rfl := Host.Outcome.next.inj h; exact .isOpen
  | tickOnce =>
    simp only [exec] at h
    unfold execTickOnce at h
    split at h
    · split at h
      · obtain rfl := Host.Outcome.next.inj h; exact .tickDone ‹_› ‹_›
      · exact .tickRuns ‹_› ‹_› h
    all_goals
      have hp : s.cmdPhase ≠ .tickWait := by simp [*]
      rcases whileClosed_eq_next.mp h with ⟨ho, rfl⟩ | ⟨ho, h⟩
      · exact .wrongState rfl ho
      · obtain rfl := Host.Outcome.next.inj h; exact .tickStart hp ho
  | shift =>
    simp only [exec] at h
    unfold execShift at h
    refine (length_cases rfl rfl (by simp) h).elim id ?_
    rintro ⟨ho, ha, h⟩
    obtain rfl := Host.Outcome.next.inj h; exact .shift ho ha
  | logpow =>
    simp only [exec] at h
    unfold execLogpow at h
    split at h
    · split at h <;> obtain rfl := Host.Outcome.next.inj h
      · exact .logEntry ‹_› ‹_›
      · exact .logDone ‹_› (by omega)
    all_goals
      have hp : ∀ k, s.cmdPhase ≠ .logFill k := by simp [*]
      refine (length_cases rfl rfl (fun _ => hp) h).elim id ?_
      rintro ⟨ho, ha, h⟩
      split at h <;> obtain rfl := Host.Outcome.next.inj h
      · exact .lockTaken ho ha hp ‹_›
      · exact .lockWait ho hp ‹_›
  | busRead _ => cases hi
  | busWrite _ _ _ => cases hi
  | put _ _ => cases hi
  | ovlset _ => cases hi

/-- A command word decodes to a command, never to another transaction. -/
theorem decodeWord_isCommand {w : Word} {i : Instr} (h : decodeWord w = .ok i) : isCommand i = true := by
  unfold decodeWord at h
  split at h
  · cases h
  · split at h
    · cases h
    · rename_i r hr
      split at h
      · cases h
      · have hm := List.mem_of_find?_eq_some hr
        obtain rfl := Except.ok.inj h
        simp only [opTable, List.mem_cons, List.not_mem_nil, or_false] at hm
        rcases hm with rfl | rfl | rfl | rfl | rfl | rfl | rfl | rfl | rfl | rfl | rfl | rfl | rfl | rfl <;> rfl

end Sys2Proof.Machine
end

