-- ==== Sys2Proof/Laws/PerInstr.lean ====
section
/-! SUPPORT. What holds of every instruction as syntax, one lemma per constructor: each is one row of the opcode table, and the words of
its row decode to it. -/

namespace Sys2Proof.Laws.OpcodeTable

open Sys2Proof

/-- A command's row of spec/opcode_table.json as its match and its mask; the port transactions have no word (30 R123, R139). -/
def row : Instr → Option (Word × Word)
  | .rbResize => some (0x00000010, 0xFFFFFFFF)
  | .rbReadall => some (0x00000011, 0xFFFFFFFF)
  | .rbReady => some (0x00000012, 0xFFFFFFFF)
  | .fftSetsize => some (0x00000020, 0xFFFFFFFF)
  | .fftProcess _ => some (0x00000021, 0xFFFFFEFF)
  | .winSetsize => some (0x00000030, 0xFFFFFFFF)
  | .winProcess => some (0x00000031, 0xFFFFFFFF)
  | .engSetsize => some (0x00000040, 0xFFFFFFFF)
  | .openEng => some (0x00000041, 0xFFFFFFFF)
  | .closeEng => some (0x00000042, 0xFFFFFFFF)
  | .isOpen => some (0x00000043, 0xFFFFFFFF)
  | .tickOnce => some (0x00000044, 0xFFFFFFFF)
  | .shift => some (0x00000045, 0xFFFFFFFF)
  | .logpow => some (0x00000046, 0xFFFFFFFF)
  | .busRead _ => none
  | .busWrite _ _ _ => none
  | .put _ _ => none
  | .ovlset _ => none

/-- The encoding of `i` is a word of its row and every word of its row decodes to an instruction of it; an instruction without a row
is no command word. -/
def Statement (i : Instr) : Prop :=
  match row i with
  | some (pattern, mask) =>
    (∃ w, encode i = .command w ∧ w &&& mask = pattern) ∧
      ∀ w : Word, w &&& mask = pattern → ∃ j, decodeWord w = .ok j ∧ row j = row i
  | none => ∀ w : Word, encode i ≠ .command w ∧ decodeWord w ≠ .ok i

/-- A row whose mask is all ones has one word. -/
theorem of_word {i : Instr} {p : Word} (hr : row i = some (p, 0xFFFFFFFF)) (he : encode i = .command p)
    (hd : decodeWord p = .ok i) : Statement i := by
  have hm : ∀ w : Word, w &&& 0xFFFFFFFF = w := fun w => BitVec.and_allOnes
  unfold Statement
  rw [hr]
  exact ⟨⟨p, he, hm p⟩, fun w hw => ⟨i, by rw [hm w] at hw; rw [hw, hd], hr⟩⟩

theorem rbResize : Statement .rbResize := of_word rfl rfl rfl
theorem rbReadall : Statement .rbReadall := of_word rfl rfl rfl
theorem rbReady : Statement .rbReady := of_word rfl rfl rfl
theorem fftSetsize : Statement .fftSetsize := of_word rfl rfl rfl

/-- The words of a row whose mask leaves out bit 8. -/
theorem flag_words {w p : Word} (h : w &&& 0xFFFFFEFF = p) : w = p ∨ w = p ||| 0x100 := by
  subst h
  have hb : ∀ i, i < 32 →
      w.getLsbD i = ((w &&& 0xFFFFFEFF) ||| (if w.getLsbD 8 then 0x100 else 0 : Word)).getLsbD i := by
    intro i hi
    by_cases h8 : i = 8
    · subst h8; cases h : w.getLsbD 8 <;> simp
    · have h1 : (0xFFFFFEFF#32).getLsbD i = true ∧ (0x100#32).getLsbD i = false := by
        interval_cases i <;> first | contradiction | decide
      cases w.getLsbD 8
      · simpa using fun _ => h1.1
      · rw [if_pos rfl, BitVec.getLsbD_or, BitVec.getLsbD_and]
        erw [h1.1, h1.2]; simp
  have hw := BitVec.eq_of_getLsbD_eq hb
  cases h : w.getLsbD 8
  · left; rw [h] at hw; simpa using hw
  · right; rw [h] at hw; simpa using hw

theorem fftProcess (fwd : Bool) : Statement (.fftProcess fwd) := by
  refine ⟨⟨commandWord 0x21 fwd, rfl, by cases fwd <;> rfl⟩, fun w hw => ?_⟩
  rcases flag_words hw with rfl | rfl
  · exact ⟨.fftProcess false, rfl, rfl⟩
  · exact ⟨.fftProcess true, rfl, rfl⟩

theorem winSetsize : Statement .winSetsize := of_word rfl rfl rfl
theorem winProcess : Statement .winProcess := of_word rfl rfl rfl
theorem engSetsize : Statement .engSetsize := of_word rfl rfl rfl
theorem openEng : Statement .openEng := of_word rfl rfl rfl
theorem closeEng : Statement .closeEng := of_word rfl rfl rfl
theorem isOpen : Statement .isOpen := of_word rfl rfl rfl
theorem tickOnce : Statement .tickOnce := of_word rfl rfl rfl
theorem shift : Statement .shift := of_word rfl rfl rfl
theorem logpow : Statement .logpow := of_word rfl rfl rfl

/-- What a word decodes to has a row. -/
theorem row_of_decode {w : Word} {i : Instr} (h : decodeWord w = .ok i) : row i ≠ none := by
  unfold decodeWord at h
  split at h
  · cases h
  · split at h
    · cases h
    · rename_i r hr
      split at h
      · cases h
      · have hm := List.mem_of_find?_eq_some hr
        obtain rfl := Except.ok.inj h
        simp only [opTable, List.mem_cons, List.not_mem_nil, or_false] at hm
        rcases hm with rfl | rfl | rfl | rfl | rfl | rfl | rfl | rfl | rfl | rfl | rfl | rfl | rfl | rfl <;> simp [row]

theorem busRead (addr : Nat) : Statement (.busRead addr) :=
  fun _ => ⟨fun h => Encoded.noConfusion h, fun h => row_of_decode h rfl⟩
theorem busWrite (addr : Nat) (v : Word) (wstrb : BitVec 4) : Statement (.busWrite addr v wstrb) :=
  fun _ => ⟨fun h => Encoded.noConfusion h, fun h => row_of_decode h rfl⟩
theorem put (re im : F32) : Statement (.put re im) :=
  fun _ => ⟨fun h => Encoded.noConfusion h, fun h => row_of_decode h rfl⟩
theorem ovlset (b : Bool) : Statement (.ovlset b) :=
  fun _ => ⟨fun h => Encoded.noConfusion h, fun h => row_of_decode h rfl⟩

end Sys2Proof.Laws.OpcodeTable
end

