-- ==== Sys2Proof/Laws/Turns.lean ====
section
/-! SUPPORT. The induction over a step, packaged once: a property that every elementary transition keeps is kept by every step. -/

namespace Sys2Proof.Machine

open Sys2Proof.Safety

/-- `P` is kept by every elementary transition a step is made of, but for the two turns that some properties do not survive: the
assertion of reset and the start of a stopped `wr_clk`. -/
structure StepClosed (P : State → Prop) : Prop where
  /-- what the outside world offers and the schedule do not matter -/
  queues : ∀ (s : State) (bq : List BusSignals) (pq : List SampleSignals) (oq : List OverloadSignals) (ts : List Turn), P s →
    P { s with busQ := bq, beatQ := pq, ovlQ := oq, sched := ts }
  /-- a transition of the latched command -/
  command : ∀ (s t : State) (i : Instr), P s → s.rstC = false → s.initBusy = false → s.busy = true →
    decodeWord s.curWord = .ok i → CommandTo s i t → P t
  /-- an illegal word -/
  illegal : ∀ (s : State) (e : DecodeError), P s → s.rstC = false → s.initBusy = false → s.busy = true →
    decodeWord s.curWord = .error e → P (s.fail .illegalCmd)
  /-- a stage of the tick path -/
  tick : ∀ s t : State, P s → s.rstC = false → s.tickByCmd = false → tickStep s = .next t → P t
  /-- a coefficient of the initialisation, and its end -/
  init : ∀ s : State, P s → s.rstC = false → s.initBusy = true → s.initPos < s.params.nReset →
    P { fillWindow s.params.nReset s.initPos s with initPos := s.initPos + 1 }
  initDone : ∀ s : State, P s → s.rstC = false → s.initBusy = true → s.params.nReset ≤ s.initPos →
    P { s with initBusy := false, busy := false }
  /-- host accesses -/
  read : ∀ (s t : State) (addr : Nat), P s → s.inReset = false → execBusRead addr s = .next t → P t
  write : ∀ (s t : State) (addr : Nat) (v : Word) (b : BitVec 4), P s → s.inReset = false →
    execBusWrite addr v b s = .next t → P t
  /-- the producer -/
  accept : ∀ (s t : State) (x : Sample), P s → s.wrRuns = true → s.sReady = true → acceptBeat x s = .next t → P t
  settle : ∀ s : State, P s → s.wrRuns = true → s.sReady = true → P (settleBeats s)
  overload : ∀ (s t : State) (b : Bool), P s → s.wrRuns = true → s.inReset = false → overloadUpdate b s = .next t → P t
  /-- the clock edges -/
  producer : ∀ s : State, P s → s.wrRuns = true → s.rstW = false → P (producerHandshake s)
  cross : ∀ s : State, P s → s.rstC = false → P (crossBeats s)
  overloadCross : ∀ s : State, P s → s.rstC = false → P (crossOverload s)
  beatOne : ∀ s : State, P s → s.rstC = false → P (crossOneBeat s)
  changeOne : ∀ s : State, P s → s.rstC = false → P (crossOneChange s)
  timer : ∀ (s : State) (c : Bool), P s → s.rstC = false → P (timerEdge c s)
  core : ∀ s : State, P s → s.rstC = false → P (coreHandshake s)
  request : ∀ (s : State) (c : Bool), P s → s.rstC = false → P (requestFreeze c s)
  /-- the platform stops `wr_clk`, the reset pin goes high, and each domain leaves reset -/
  wrStop : ∀ s : State, P s → P { s with wrRuns := false }
  releaseRst : ∀ s : State, P s → P { s with rstN := true }
  leaveW : ∀ s : State, P s → s.wrRuns = true → P { s with rstW := false }
  leaveC : ∀ s : State, P s → P { s with rstC := false }

variable {s t : State} {P : State → Prop}

theorem decodeBus_eq_ok {b : BusSignals} {i : Instr} (h : decodeBus b = .ok i) :
    (∃ a, i = .busRead a) ∨ ∃ a v w, i = .busWrite a v w := by
  unfold decodeBus at h
  split at h
  · obtain rfl := Except.ok.inj h
    split
    · exact .inr ⟨_, _, _, rfl⟩
    · exact .inl ⟨_, rfl⟩
  · cases h

theorem decodeSample_eq_ok {p : SampleSignals} {i : Instr} (h : decodeSample p = .ok i) :
    p.valid = true ∧ i = .put p.re p.im := by
  unfold decodeSample at h
  split at h
  · exact ⟨‹_›, (Except.ok.inj h).symm⟩
  · cases h

theorem decodeOverload_eq_ok {o : OverloadSignals} {i : Instr} (h : decodeOverload o = .ok i) :
    o.valid = true ∧ i = .ovlset o.value := by
  unfold decodeOverload at h
  split at h
  · exact ⟨‹_›, (Except.ok.inj h).symm⟩
  · cases h

/-- Commands and the tick path leave the reset pin and the two domains alone, so an edge's substeps all run out of reset. -/
theorem tickStep_rstC (h : tickStep s = .next t) : t.rstC = s.rstC := by
  rcases tickStep_eq_next.mp h with ⟨_, rfl⟩ | ⟨_, _, _, h⟩ | ⟨_, _, rfl⟩ | ⟨_, rfl⟩ | ⟨_, rfl⟩ | ⟨_, rfl⟩ |
    ⟨_, _, rfl⟩ | ⟨_, _, rfl⟩ | ⟨i, _, rfl⟩ | ⟨_, rfl⟩
  · rfl
  · rcases freezeTo_or_wait h with (⟨_, rfl⟩ | ⟨_, rfl⟩) | ⟨_, rfl⟩
    · show (settleBeats s).rstC = s.rstC
      rw [settleBeats_eq]; split <;> rfl
    · rfl
    · rfl
  · unfold afterDrain; rw [tickEnd_eq]; split <;> (try split) <;> rfl
  · show (if _ then _ else _ : State).rstC = _
    split <;> rfl
  · show (if _ then _ else _ : State).rstC = _
    split <;> rfl
  · rfl
  · rfl
  · rfl
  · rfl
  · unfold publish; rw [tickEnd_eq]; split <;> rfl

theorem freezeTo_rstC {body : State → State} (h : FreezeTo s body t) (hb : ∀ u, (body u).rstC = u.rstC) :
    t.rstC = s.rstC := by
  rcases h with ⟨_, rfl⟩ | ⟨_, rfl⟩
  · rw [hb, settleBeats_eq]; split <;> rfl
  · exact hb s

theorem command_rstC {i : Instr} (h : CommandTo s i t) : t.rstC = s.rstC := by
  cases h with
  | resize _ _ hf => exact freezeTo_rstC hf fun _ => rfl
  | readall _ _ _ hf => exact freezeTo_rstC hf fun _ => rfl
  | engDone _ _ hf => exact freezeTo_rstC hf fun _ => rfl
  | tickRuns _ _ h => exact tickStep_rstC h
  | _ => rfl

theorem writeReg_rst (v : Word) (r : Reg) : (s.writeReg v r).rstC = s.rstC := by
  cases r <;> simp only [State.writeReg]
  · unfold issueCommand; split <;> rfl
  · unfold lockWrite; split <;> split <;> rfl

/-- What a `clk` edge out of reset consists of, in its order (60 R345). -/
theorem clkEdgeTurn_eq_next {host command tick : Bool} (hr : s.rstC = false) :
    clkEdgeTurn host command tick s = .next t ↔
      ∃ u v w, (if host then hostTurn (crossBeats s) else .next (crossBeats s)) = .next u ∧
        (if command then (if u.initBusy then initTurn u else commandTurn u) else .next u) = .next v ∧
        (if tick then tickTurn v else .next v) = .next w ∧
        coreHandshake (timerEdge (s.opened && !s.closing) (crossOverload w)) = t := by
  unfold clkEdgeTurn
  rw [if_neg (by simp [hr])]
  simp only [andThen_eq_next, Host.Outcome.next.injEq]
  exact ⟨fun ⟨u, hu, v, hv, w, hw, h⟩ => ⟨u, v, w, hu, hv, hw, h⟩, fun ⟨u, v, w, hu, hv, hw, h⟩ => ⟨u, hu, v, hv, w, hw, h⟩⟩

/-- A crossing changes nothing outside the ring buffer's core-domain half. -/
theorem crossBeats_frame (s : State) :
    ∃ a g w q c, crossBeats s = { s with rbAcc := a, rbGate := g, rbWcur := w, wsyncQ := q, wsync := c } := by
  unfold crossBeats; rw [takeCursor_eq]; split <;> exact ⟨_, _, _, _, _, rfl⟩

/-- An overload crossing takes the counter it sees, and raises the interrupt exactly when that is a new one. -/
theorem crossOverload_frame (s : State) :
    crossOverload s = { s with
      ovlCnt := gray2bin s.params.cw (syncOut 0 s.ovlSync), ovlSync := shiftIn s.ovlG s.ovlSync
      irqStatus := if gray2bin s.params.cw (syncOut 0 s.ovlSync) ≠ s.ovlCnt then s.irqStatus ||| 2#2 else s.irqStatus } := by
  unfold crossOverload
  simp only
  split
  · rfl
  · rename_i h; rw [not_not.mp h]

/-- One beat's crossing is counted, or nothing changes: it is suspended, or no beat is under way. -/
theorem crossOneBeat_eq (s : State) :
    crossOneBeat s = if s.clrReq = true ∨ s.beatsInFlight = 0 then s else
      { s with
        rbAcc := min s.rbCap (s.rbAcc + counterDelta s.params.cw (counterNext s.params.cw s.wsyncQ) s.wsyncQ)
        rbGate := decide
          (min s.rbCap (s.rbAcc + counterDelta s.params.cw (counterNext s.params.cw s.wsyncQ) s.wsyncQ) = s.rbCap)
        rbWcur := counterNext s.params.cw s.wsyncQ, wsyncQ := counterNext s.params.cw s.wsyncQ
        wsync := passOn (gray s.wsyncQ) (gray (counterNext s.params.cw s.wsyncQ)) s.wsync } := by
  unfold crossOneBeat
  split
  · rfl
  · rename_i h
    simp only [takeCursor_eq, if_neg (fun hc => h (.inl hc))]

/-- One change's crossing raises the interrupt and touches nothing outside the overload channel. -/
theorem crossOneChange_eq (s : State) :
    crossOneChange s = if s.changesInFlight = 0 then s else
      { s with
        ovlCnt := counterNext s.params.cw s.ovlCnt, irqStatus := s.irqStatus ||| 2#2
        ovlSync := passOn (gray s.ovlCnt) (gray (counterNext s.params.cw s.ovlCnt)) s.ovlSync } := rfl

@[simp] theorem length_passOn (old new : Nat) (chain : List Nat) : (passOn old new chain).length = chain.length := by
  simp [passOn]

/-- The two channels cross independently of each other (20 R91). -/
theorem crossOneBeat_crossOneChange (s : State) :
    crossOneBeat (crossOneChange s) = crossOneChange (crossOneBeat s) := by
  rw [crossOneBeat_eq, crossOneChange_eq, crossOneBeat_eq s, crossOneChange_eq]
  by_cases hb : s.clrReq = true ∨ s.beatsInFlight = 0 <;> by_cases hc : s.changesInFlight = 0 <;>
    simp_all [State.beatsInFlight, State.changesInFlight]

/-- The timer touches the timer, the start of a tick and the pending bit. -/
theorem timerEdge_frame (c : Bool) (s : State) :
    ∃ n k b p, timerEdge c s = { s with timerCnt := n, tickStage := k, tickByCmd := b, tickPending := p } := by
  unfold timerEdge
  split
  · split
    · split <;> exact ⟨_, _, _, _, rfl⟩
    · exact ⟨_, _, _, _, rfl⟩
  · exact ⟨_, _, _, _, rfl⟩

namespace StepClosed

theorem hostTurn (c : StepClosed P) (hs : P s) (h : hostTurn s = .next t) : P t ∧ t.rstC = s.rstC := by
  unfold Machine.hostTurn at h
  split at h
  · obtain rfl := Host.Outcome.next.inj h; exact ⟨hs, rfl⟩
  · rename_i b q _
    split at h
    · obtain rfl := Host.Outcome.next.inj h; exact ⟨hs, rfl⟩
    · have hr : s.inReset = false := Bool.eq_false_iff.mpr ‹_›
      have hq := c.queues s q s.beatQ s.ovlQ s.sched hs
      split at h
      · rename_i i hi
        rcases decodeBus_eq_ok hi with ⟨a, rfl⟩ | ⟨a, v, w, rfl⟩
        · refine ⟨c.read _ _ _ hq hr h, ?_⟩
          rcases execBusRead_eq_next.mp h with ⟨_, _, rfl⟩ | ⟨_, rfl⟩ <;> rfl
        · refine ⟨c.write _ _ _ _ _ hq hr h, ?_⟩
          rcases execBusWrite_eq_next.mp h with ⟨r, _, rfl⟩ | ⟨_, _, _, _, _, rfl⟩ | ⟨_, rfl⟩
          · exact writeReg_rst _ _
          · rfl
          · rfl
      · obtain rfl := Host.Outcome.next.inj h; exact ⟨hq, rfl⟩

theorem commandTurn (c : StepClosed P) (hs : P s) (h : commandTurn s = .next t) : P t ∧ t.rstC = s.rstC := by
  unfold Machine.commandTurn at h
  split at h
  · obtain rfl := Host.Outcome.next.inj h; exact ⟨hs, rfl⟩
  · rename_i hr
    simp only [Bool.or_eq_true, Bool.not_eq_true', not_or, Bool.not_eq_true, Bool.not_eq_false] at hr
    split at h
    · rename_i i hi
      have hc := command_cases (decodeWord_isCommand hi) h
      exact ⟨c.command s t i hs hr.1.1 hr.1.2 hr.2 hi hc, command_rstC hc⟩
    · rename_i e he
      obtain rfl := Host.Outcome.next.inj h
      exact ⟨c.illegal s e hs hr.1.1 hr.1.2 hr.2 he, rfl⟩

theorem tickTurn (c : StepClosed P) (hs : P s) (h : tickTurn s = .next t) : P t ∧ t.rstC = s.rstC := by
  unfold Machine.tickTurn at h
  split at h
  · obtain rfl := Host.Outcome.next.inj h; exact ⟨hs, rfl⟩
  · rename_i hr
    simp only [Bool.or_eq_true, not_or, Bool.not_eq_true] at hr
    exact ⟨c.tick s t hs hr.1 hr.2 h, tickStep_rstC h⟩

theorem initTurn (c : StepClosed P) (hs : P s) (h : initTurn s = .next t) : P t ∧ t.rstC = s.rstC := by
  unfold Machine.initTurn at h
  split at h
  · obtain rfl := Host.Outcome.next.inj h; exact ⟨hs, rfl⟩
  · rename_i hr
    simp only [Bool.or_eq_true, Bool.not_eq_true', not_or, Bool.not_eq_true, Bool.not_eq_false] at hr
    split at h <;> obtain rfl := Host.Outcome.next.inj h
    · exact ⟨c.init s hs hr.1 hr.2 ‹_›, rfl⟩
    · exact ⟨c.initDone s hs hr.1 hr.2 (Nat.not_lt.mp ‹_›), rfl⟩

theorem overloadEdge (c : StepClosed P) (hs : P s) (hw : s.wrRuns = true) (h : overloadEdge s = .next t) :
    P t ∧ t.wrRuns = true := by
  unfold Machine.overloadEdge at h
  split at h
  · obtain rfl := Host.Outcome.next.inj h; exact ⟨hs, hw⟩
  · rename_i o q _
    have hq := c.queues s s.busQ s.beatQ q s.sched hs
    split at h
    · rename_i i hi
      obtain ⟨-, rfl⟩ := decodeOverload_eq_ok hi
      simp only [exec] at h
      unfold execOvlset at h
      split at h
      · obtain rfl := Host.Outcome.next.inj h; exact ⟨hq, hw⟩
      · refine ⟨c.overload _ _ _ hq hw (Bool.eq_false_iff.mpr ‹_›) h, ?_⟩
        rcases overloadUpdate_eq_next.mp h with ⟨_, rfl⟩ | ⟨_, _, rfl⟩ <;> exact hw
    · obtain rfl := Host.Outcome.next.inj h; exact ⟨hq, hw⟩

theorem overloadTurn (c : StepClosed P) (hs : P s) (h : overloadTurn s = .next t) : P t := by
  unfold Machine.overloadTurn at h
  split at h
  · obtain rfl := Host.Outcome.next.inj h; exact hs
  · rename_i hn; exact (c.overloadEdge hs (by simpa using hn) h).1

theorem beatTurn (c : StepClosed P) (hs : P s) (h : beatTurn s = .next t) : P t := by
  unfold Machine.beatTurn at h
  split at h
  · obtain rfl := Host.Outcome.next.inj h; exact hs
  · rename_i p q _
    split at h
    · obtain rfl := Host.Outcome.next.inj h; exact hs
    · rename_i hn
      have hw : s.wrRuns = true := by simpa using hn
      have hq := c.queues s s.busQ q s.ovlQ s.sched hs
      split at h
      · rename_i i hi
        obtain ⟨-, rfl⟩ := decodeSample_eq_ok hi
        split at h
        · rename_i hr
          simp only [exec] at h
          unfold execPut at h
          split at h
          · obtain rfl := Host.Outcome.next.inj h; exact hq
          · obtain ⟨u, hu, h⟩ := andThen_eq_next.mp h
            obtain rfl := Host.Outcome.next.inj h
            have hk : u.wrRuns = true ∧ u.sReady = true := by
              rcases acceptBeat_eq_next.mp hu with ⟨_, rfl⟩ | ⟨_, _, rfl⟩ <;> exact ⟨hw, hr⟩
            exact c.settle _ (c.accept _ _ _ hq hw hr hu) hk.1 hk.2
        · obtain rfl := Host.Outcome.next.inj h; exact hs
      · obtain rfl := Host.Outcome.next.inj h; exact hq

theorem sampleEdge (c : StepClosed P) (hs : P s) (hw : s.wrRuns = true) (h : sampleEdge s = .next t) :
    P t ∧ t.wrRuns = true := by
  unfold Machine.sampleEdge at h
  split at h
  · obtain rfl := Host.Outcome.next.inj h; exact ⟨hs, hw⟩
  · rename_i p q _
    have hq := c.queues s s.busQ q s.ovlQ s.sched hs
    split at h
    · obtain rfl := Host.Outcome.next.inj h; exact ⟨hq, hw⟩
    · split at h
      · refine ⟨c.accept _ _ _ hq hw ‹_› h, ?_⟩
        rcases acceptBeat_eq_next.mp h with ⟨_, rfl⟩ | ⟨_, _, rfl⟩ <;> exact hw
      · obtain rfl := Host.Outcome.next.inj h; exact ⟨hs, hw⟩

theorem wrEdgeTurn (c : StepClosed P) (hs : P s) (h : wrEdgeTurn s = .next t) : P t := by
  unfold Machine.wrEdgeTurn at h
  split at h
  · obtain rfl := Host.Outcome.next.inj h; exact hs
  · rename_i hn
    obtain ⟨u, hu, h⟩ := andThen_eq_next.mp h
    obtain ⟨v, hv, hu⟩ := andThen_eq_next.mp hu
    obtain rfl := Host.Outcome.next.inj h
    obtain ⟨hv, hw⟩ := c.sampleEdge hs (by simpa using hn) hv
    obtain ⟨hp, hw⟩ := c.overloadEdge hv hw hu
    unfold producerEdge
    split
    · split
      · exact c.leaveW u hp hw
      · exact hp
    · exact c.producer u hp hw (Bool.eq_false_iff.mpr ‹_›)

theorem clkEdgeTurn (c : StepClosed P) {host command tick : Bool} (hs : P s)
    (h : clkEdgeTurn host command tick s = .next t) : P t := by
  unfold Machine.clkEdgeTurn at h
  split at h
  · obtain rfl := Host.Outcome.next.inj h
    split
    · exact c.leaveC s hs
    · exact hs
  · rename_i hr
    have hr : s.rstC = false := Bool.eq_false_iff.mpr hr
    have h0 : P (crossBeats s) ∧ (crossBeats s).rstC = false := by
      refine ⟨c.cross s hs hr, ?_⟩
      show (takeCursor _ s).rstC = false
      rw [takeCursor_eq]; split <;> exact hr
    obtain ⟨u, hu, h⟩ := andThen_eq_next.mp h
    have h1 : P u ∧ u.rstC = false := by
      split at hu
      · obtain ⟨hp, he⟩ := c.hostTurn h0.1 hu
        exact ⟨hp, he.trans h0.2⟩
      · obtain rfl := Host.Outcome.next.inj hu; exact h0
    obtain ⟨v, hv, h⟩ := andThen_eq_next.mp h
    have h2 : P v ∧ v.rstC = false := by
      split at hv
      · split at hv
        · obtain ⟨hp, he⟩ := c.initTurn h1.1 hv; exact ⟨hp, he.trans h1.2⟩
        · obtain ⟨hp, he⟩ := c.commandTurn h1.1 hv; exact ⟨hp, he.trans h1.2⟩
      · obtain rfl := Host.Outcome.next.inj hv; exact h1
    obtain ⟨w, hw, h⟩ := andThen_eq_next.mp h
    have h3 : P w ∧ w.rstC = false := by
      split at hw
      · obtain ⟨hp, he⟩ := c.tickTurn h2.1 hw; exact ⟨hp, he.trans h2.2⟩
      · obtain rfl := Host.Outcome.next.inj hw; exact h2
    obtain rfl := Host.Outcome.next.inj h
    have h4 : (crossOverload w).rstC = false := by
      unfold crossOverload; simp only; split <;> exact h3.2
    have h5 := c.timer _ (s.opened && !s.closing) (c.overloadCross w h3.1 h3.2) h4
    refine c.core _ h5 ?_
    unfold timerEdge
    split
    · split
      · split <;> exact h4
      · exact h4
    · exact h4

theorem crossTurn (_ : StepClosed P) {cross : State → State} (hc : ∀ s : State, P s → s.rstC = false → P (cross s)) (hs : P s)
    (h : crossTurn cross s = .next t) : P t := by
  obtain rfl := Host.Outcome.next.inj h
  split
  · exact hs
  · exact hc s hs (Bool.eq_false_iff.mpr ‹_›)

theorem takeTurn (c : StepClosed P) {k : Turn} (hs : P s) (hw : k = .wrStart → P { s with wrRuns := true })
    (hr : k = .rstAssert → P (rstAssertTurn s)) (h : takeTurn k s = .next t) : P t := by
  cases k with
  | host => exact (c.hostTurn hs h).1
  | beat => exact c.beatTurn hs h
  | overload => exact c.overloadTurn hs h
  | command => exact (c.commandTurn hs h).1
  | tick => exact (c.tickTurn hs h).1
  | init => exact (c.initTurn hs h).1
  | freeze =>
    simp only [Machine.takeTurn] at h
    unfold freezeTurn at h
    split at h
    · obtain rfl := Host.Outcome.next.inj h; exact hs
    · split at h <;> obtain rfl := Host.Outcome.next.inj h
      · exact c.request s _ hs (Bool.eq_false_iff.mpr ‹_›)
      · exact hs
  | wrEdge => exact c.wrEdgeTurn hs h
  | beatCross => exact c.crossTurn c.beatOne hs h
  | overloadCross => exact c.crossTurn c.changeOne hs h
  | clkEdge => exact c.clkEdgeTurn hs h
  | wrStop => obtain rfl := Host.Outcome.next.inj h; exact c.wrStop s hs
  | wrStart => obtain rfl := Host.Outcome.next.inj h; exact hw rfl
  | rstAssert => obtain rfl := Host.Outcome.next.inj h; exact hr rfl
  | rstRelease => obtain rfl := Host.Outcome.next.inj h; exact c.releaseRst s hs

/-- The block's own next work is never the platform's. -/
theorem ownTurn_cases {k : Turn} (h : ownTurn s = some k) : k = .init ∨ k = .tick ∨ k = .command := by
  unfold ownTurn at h
  split at h
  · cases h
  · split at h
    · exact .inl (Option.some.inj h).symm
    · split at h
      · exact .inr (.inl (Option.some.inj h).symm)
      · split at h
        · exact .inr (.inr (Option.some.inj h).symm)
        · cases h

/-- A property that every elementary transition keeps is kept by every step, unless the platform asserts reset or starts `wr_clk`; for
these two the premises say what is needed. -/
theorem step (c : StepClosed P) (hs : P s)
    (hw : ∀ rest, s.sched = .wrStart :: rest → P { s with sched := rest, wrRuns := true })
    (hr : ∀ rest, s.sched = .rstAssert :: rest → P (rstAssertTurn { s with sched := rest })) (h : step s = .next t) :
    P t := by
  unfold Machine.step at h
  split at h
  · rename_i k rest hk
    exact c.takeTurn (c.queues s s.busQ s.beatQ s.ovlQ _ hs) (fun e => hw rest (e ▸ hk)) (fun e => hr rest (e ▸ hk)) h
  · split at h
    · rename_i k hk
      rcases ownTurn_cases hk with rfl | rfl | rfl <;> exact c.takeTurn hs (by simp) (by simp) h
    · obtain rfl := Host.Outcome.next.inj h; exact hs

end StepClosed

end Sys2Proof.Machine
end

