-- ==== Sys2Proof/Tests/Slice0.lean ====
section
/-! SUPPORT. The model's own tests: the encodings of the spec, its worked examples (spec file 95), and a witness for the hypotheses of every
statement. Expected results come from the spec, never from the model. -/

namespace Sys2Proof.Tests

open Sys2Proof Sys2Proof.Machine Sys2Proof.Safety

-- One theorem at a time: elaborated side by side, this many evaluations ask for more threads than the memory limit allows.
set_option Elab.async false

/-! ## Well-formedness: the one check, and ill-formed terms it refuses (20 R80, 30 R139) -/

theorem test_wf_last_address : (Instr.busRead 0x1FFFFF).wf = true := by decide
theorem test_wf_refuses_read_outside : (Instr.busRead 0x200000).wf = false := by decide
theorem test_wf_refuses_write_outside : (Instr.busWrite 0x200000 0 0b1111).wf = false := by decide

/-! ## Encodings, written out from 30 R122, R123 (bits 31..9 = 0, bit 8 = F, bits 7..0 = OP) and 30 R139 -/

theorem test_decode_rbResize : decodeWord 0b00000000_00000000_00000000_00010000 = .ok .rbResize := by decide
theorem test_decode_rbReadall : decodeWord 0b00000000_00000000_00000000_00010001 = .ok .rbReadall := by decide
theorem test_decode_rbReady : decodeWord 0b00000000_00000000_00000000_00010010 = .ok .rbReady := by decide
theorem test_decode_fftSetsize : decodeWord 0b00000000_00000000_00000000_00100000 = .ok .fftSetsize := by decide
theorem test_decode_fftForward : decodeWord 0b00000000_00000000_00000001_00100001 = .ok (.fftProcess true) := by decide
theorem test_decode_fftInverse : decodeWord 0b00000000_00000000_00000000_00100001 = .ok (.fftProcess false) := by decide
theorem test_decode_winSetsize : decodeWord 0b00000000_00000000_00000000_00110000 = .ok .winSetsize := by decide
theorem test_decode_winProcess : decodeWord 0b00000000_00000000_00000000_00110001 = .ok .winProcess := by decide
theorem test_decode_engSetsize : decodeWord 0b00000000_00000000_00000000_01000000 = .ok .engSetsize := by decide
theorem test_decode_open : decodeWord 0b00000000_00000000_00000000_01000001 = .ok .openEng := by decide
theorem test_decode_close : decodeWord 0b00000000_00000000_00000000_01000010 = .ok .closeEng := by decide
theorem test_decode_isOpen : decodeWord 0b00000000_00000000_00000000_01000011 = .ok .isOpen := by decide
theorem test_decode_tickOnce : decodeWord 0b00000000_00000000_00000000_01000100 = .ok .tickOnce := by decide
theorem test_decode_shift : decodeWord 0b00000000_00000000_00000000_01000101 = .ok .shift := by decide
theorem test_decode_logpow : decodeWord 0b00000000_00000000_00000000_01000110 = .ok .logpow := by decide
/-- V-ERR-3, V-ERR-4, V-ERR-5 and T-FFT-14: illegal words. -/
theorem test_decode_illegal :
    decodeWord 0x110 = .error .strayFlag ∧ decodeWord 0xFF = .error .unknownOpcode ∧
    decodeWord 0x10041 = .error .reservedBits ∧ decodeWord 0x321 = .error .reservedBits := by decide
theorem test_decode_busRead : decode (.bus ⟨true, false, 0x030, 0, 0⟩) = .ok (.busRead 0x030) := by decide
theorem test_decode_busWrite :
    decode (.bus ⟨true, true, 0x100008, 0x3F800000, 0b1111⟩) = .ok (.busWrite 0x100008 0x3F800000 0b1111) := by decide
theorem test_decode_put : decode (.sample ⟨true, 0x3F800000, 0xBF800000⟩) = .ok (.put 0x3F800000 0xBF800000) := by decide
theorem test_decode_ovlset : decode (.overload ⟨true, false⟩) = .ok (.ovlset false) := by decide
theorem test_decode_not_offered : decode (.bus ⟨false, false, 0, 0, 0⟩) = .error .notOffered := by decide
/-- The bytes of a word, lowest address first (20 R82). -/
theorem test_decode_bytes : decodeBytes [0x21, 0x01, 0x00, 0x00] = .ok (.fftProcess true, []) := by decide

/-! ## Small states -/

/-- A small legal instance: `NMAX` = 8, `N_RESET` = 4, `CW` = 5. -/
def small : Params := ⟨3, 4, 5, 2, 1000, 3⟩

/-- The small instance Closed and idle, after its initialisation, with `WIN` not looked at. -/
def idle : State := { State.resetWith small 0 with busy := false, initBusy := false }

/-- A RAM of Samples. -/
def samples (xs : List Sample) : Memory := Memory.write [] 0 (xs.flatMap sampleBytes)

/-- A RAM of values. -/
def values (xs : List F32) : Memory := Memory.write [] 0 (xs.flatMap bytesOfWord)

/-- A command is latched with its argument. -/
def latched (s : State) (word arg : Word) : State := { s with curWord := word, curArg := arg, busy := true }

/-- The state after a transition, and `s` if there is none. -/
def after (o : Host.Outcome State Fault Refusal) : State :=
  match o with
  | .next t => t
  | .fault _ | .refused _ => idle

/-- The first `n` Samples of `BLK`. -/
def blkOf (s : State) (n : Nat) : List Sample := (List.range n).map s.blkAt

/-- The beat `(k, -k)` of spec file 95 for k = 1 .. 6. -/
def beat (k : Nat) : Sample :=
  match k with
  | 1 => ⟨0x3F800000, 0xBF800000⟩
  | 2 => ⟨0x40000000, 0xC0000000⟩
  | 3 => ⟨0x40400000, 0xC0400000⟩
  | 4 => ⟨0x40800000, 0xC0800000⟩
  | 5 => ⟨0x40A00000, 0xC0A00000⟩
  | _ => ⟨0x40C00000, 0xC0C00000⟩

/-- V-RB-3 before its drain: six beats in a ring of four. -/
def sixBeats : State :=
  { idle with
    rbmem := samples [beat 5, beat 6, beat 3, beat 4], rbWcur := 6, rbAcc := 4, rbGate := true
    wptrW := 6, wptrG := 5, wsync := [5, 5], wsyncQ := 6 }

/-! ## One step of each instruction -/

/-- V-SIZE-5 and V-RB-8. -/
theorem test_rbResize :
    let t := after (exec .rbResize (latched sixBeats 0x10 5))
    (t.rbCap, t.rbWcur, t.rbRcur, t.rbAcc, t.rbGate, t.rval, t.resultWord) = (8, 0, 0, 0, false, 8, 0x1000) ∧
      t.rbmemAt 1 = beat 6 := by decide +kernel
/-- V-SIZE-8 with `NMAX` = 8. -/
theorem test_rbResize_range :
    let t := after (exec .rbResize (latched sixBeats 0x10 9))
    (t.rbCap, t.rbAcc, t.rval, t.resultWord) = (4, 4, 0, 0x1002) := by decide +kernel
/-- V-RB-3. -/
theorem test_rbReadall :
    let t := after (exec .rbReadall (latched sixBeats 0x11 4))
    blkOf t 4 = [beat 3, beat 4, beat 5, beat 6] ∧
      (t.rbRcur, t.rbWcur, t.rbAcc, t.rbGate, t.rval, t.resultWord) = (6, 6, 0, false, 1, 0x1100) := by decide +kernel
/-- V-RB-6. -/
theorem test_rbReadall_mismatch :
    let t := after (exec .rbReadall (latched sixBeats 0x11 8))
    (t.rbGate, t.rbAcc, t.rval, t.resultWord) = (true, 4, 0, 0x1103) := by decide +kernel
/-- V-RB-2. -/
theorem test_rbReady : (after (exec .rbReady (latched sixBeats 0x12 0))).rval = 1 := by decide +kernel
/-- V-SIZE-4. -/
theorem test_fftSetsize :
    let t := after (exec .fftSetsize (latched idle 0x20 3))
    (t.fftN, t.rval, t.resultWord) = (4, 4, 0x2000) := by decide +kernel
/-- T-FFT-6, forward. -/
theorem test_fftProcess_forward :
    let s := { idle with blk := samples [⟨0, 0⟩, ⟨0x3F800000, 0⟩, ⟨0x40000000, 0⟩, ⟨0x40400000, 0⟩] }
    blkOf (after (exec (.fftProcess true) (latched s 0x121 4))) 4 =
      [⟨0x3FC00000, 0⟩, ⟨0xBF000000, 0x3F000000⟩, ⟨0xBF000000, 0⟩, ⟨0xBF000000, 0xBF000000⟩] := by decide +kernel
/-- T-FFT-9, inverse: the multiplication by (+1, +0) is not skipped. -/
theorem test_fftProcess_inverse :
    let s := { idle with fftN := 2, blk := samples [⟨0x7F800000, 0⟩, ⟨0x3F800000, 0⟩] }
    blkOf (after (exec (.fftProcess false) (latched s 0x21 2))) 2 = [⟨0x7F800000, 0⟩, ⟨0x7F800000, 0x7FC00000⟩] := by
  decide +kernel
/-- T-FFT-8: three stages, of spans 4, 2 and 1, forward and then inverse. -/
theorem test_fftProcess_eight :
    let s := { idle with fftN := 8, blk := samples ((List.range 8).map fun i => ⟨if i = 1 then 0x3F800000 else 0, 0⟩) }
    let t := after (exec (.fftProcess true) (latched s 0x121 8))
    blkOf t 8 =
      [⟨0x3E000000, 0⟩, ⟨0x3DB504F3, 0xBDB504F3⟩, ⟨0, 0xBE000000⟩, ⟨0xBDB504F3, 0xBDB504F3⟩, ⟨0xBE000000, 0⟩,
        ⟨0xBDB504F3, 0x3DB504F3⟩, ⟨0, 0x3E000000⟩, ⟨0x3DB504F3, 0x3DB504F3⟩] ∧
    blkOf (after (exec (.fftProcess false) (latched t 0x21 8))) 8 =
      [⟨0, 0⟩, ⟨0x3F7FFFFF, 0⟩, ⟨0, 0⟩, ⟨0x32800000, 0x32800000⟩, ⟨0, 0⟩, ⟨0x33800000, 0⟩, ⟨0, 0⟩,
        ⟨0x32800000, 0xB2800000⟩] := by decide +kernel
/-- V-WIN-1: the size, which no read shows before the last transition (20 R92), and the second coefficient of the table. -/
theorem test_winSetsize :
    let s := { latched idle 0x30 3 with winN := 8 }
    let t := after (exec .winSetsize s)
    let u := after (exec .winSetsize { t with cmdPhase := .winFill 4 4 })
    (t.winN, t.busy, t.cmdPhase) = (8, true, .winFill 4 0) ∧ (u.winN, u.busy, u.rval, u.resultWord) = (4, false, 4, 0x3000) := by
  decide +kernel
theorem test_winSetsize_coefficient :
    (after (exec .winSetsize { latched idle 0x30 3 with cmdPhase := .winFill 4 1 })).winAt 1 = 0x3F054467 := by
  decide +kernel
/-- V-WIN-5. -/
theorem test_winProcess :
    let s := { idle with
      blk := samples [⟨0x3F800000, 0x3F800000⟩, ⟨0x3F800000, 0xC0000000⟩, ⟨0x40000000, 0⟩, ⟨0x80000000, 0x40800000⟩]
      win := values [0x387BA882, 0x3F054467, 0x3F054467, 0x387BA882] }
    blkOf (after (exec .winProcess (latched s 0x31 4))) 4 =
      [⟨0x387BA882, 0x387BA882⟩, ⟨0x3F054467, 0xBF854467⟩, ⟨0x3F854467, 0⟩, ⟨0x80000000, 0x397BA882⟩] := by
  decide +kernel
/-- V-ENG-5: every component takes the size 8, in the last transition. -/
theorem test_engSetsize :
    let t := after (exec .engSetsize { latched { sixBeats with snapValid := true } 0x40 5 with cmdPhase := .winFill 8 8 })
    (t.engN, t.rbCap, t.fftN, t.winN, t.snapValid, t.rbAcc, t.rbGate) = (8, 8, 8, 8, false, 0, false) := by decide +kernel
/-- No read shows a size before it (20 R92). -/
theorem test_engSetsize_hidden :
    let t := after (exec .engSetsize (latched { sixBeats with snapValid := true } 0x40 5))
    (t.engN, t.rbCap, t.snapValid, t.rbGate, t.cmdPhase) = (4, 4, true, true, .winFill 8 0) := by decide +kernel
/-- V-ERR-2. -/
theorem test_engSetsize_open :
    (after (exec .engSetsize (latched { idle with opened := true } 0x40 0))).resultWord = 0x4005 := by decide +kernel
/-- V-ENG-1: the first `OPEN` returns 0, the second one 1. -/
theorem test_open :
    let t := after (exec .openEng (latched { idle with timerCnt := 7, tickPending := true } 0x41 0))
    (t.opened, t.timerCnt, t.tickPending, t.rval, t.resultWord) = (true, 0, false, 0, 0x4100) := by decide +kernel
theorem test_open_again :
    let t := after (exec .openEng (latched { idle with opened := true, timerCnt := 7 } 0x41 0))
    (t.opened, t.timerCnt, t.rval) = (true, 7, 1) := by decide +kernel
/-- V-TM-5: `CLOSE` during a tick drops the pending one and waits. -/
theorem test_close :
    let t := after (exec .closeEng
      (latched { idle with opened := true, tickStage := .fft, tickPending := true } 0x42 0))
    (t.opened, t.closing, t.tickPending, t.tickStage, t.busy) = (true, true, false, .fft, true) := by decide +kernel
/-- V-ENG-2. -/
theorem test_close_closed :
    let t := after (exec .closeEng (latched { idle with timerCnt := 2 } 0x42 0))
    (t.opened, t.timerCnt, t.rval, t.resultWord) = (false, 2, 0, 0x4200) := by decide +kernel
theorem test_isOpen : (after (exec .isOpen (latched { idle with opened := true } 0x43 0))).rval = 1 := by decide +kernel
/-- P3: the window stage of a tick. -/
theorem test_tickOnce_window :
    let s := { latched idle 0x44 0 with
      tickByCmd := true, cmdPhase := .tickWait, tickStage := .window
      blk := samples [⟨0x3F800000, 0⟩, ⟨0, 0x3F800000⟩, ⟨0xBF800000, 0⟩, ⟨0, 0xBF800000⟩]
      win := values [0x387BA882, 0x3F054467, 0x3F054467, 0x387BA882] }
    let t := after (exec .tickOnce s)
    blkOf t 4 = [⟨0x387BA882, 0⟩, ⟨0, 0x3F054467⟩, ⟨0xBF054467, 0⟩, ⟨0, 0xB87BA882⟩] ∧ t.tickStage = .fft := by
  decide +kernel
/-- V-ENG-7: a failed drain with `SKIP_STALE` ends the tick without a publication. -/
theorem test_tickOnce_skips :
    let s := { latched idle 0x44 0 with
      tickByCmd := true, cmdPhase := .tickWait, tickStage := .drain, skipStale := true, drainOk := true }
    let t := after (exec .tickOnce s)
    (t.tickStage, t.drainOk, t.tickCount, t.irqStatus) = (.idle, false, 0, 0) := by decide +kernel
/-- V-SH-1. -/
theorem test_shift :
    let s := { idle with blk := samples [beat 1, beat 2, beat 3, beat 4] }
    blkOf (after (exec .shift (latched s 0x45 4))) 4 = [beat 3, beat 4, beat 1, beat 2] := by decide +kernel
/-- V-LOG-14: the entry of (3, 4). -/
theorem test_logpow :
    let s := { latched idle 0x46 1 with
      engN := 1, lockOwner := .engine, cmdPhase := .logFill 0, blk := samples [⟨0x40400000, 0x40800000⟩] }
    (after (exec .logpow s)).snapAt 0 = 0x4180C14A := by decide +kernel
/-- V-LOG-16: the host holds the lock, and the command waits. -/
theorem test_logpow_waits :
    let t := after (exec .logpow (latched { idle with lockOwner := .host } 0x46 4))
    (t.busy, t.lockOwner, t.cmdPhase) = (true, .host, .start) := by decide +kernel
/-- V-RST-3 for the small instance: VERSION 1, `CW` 5, `LOG2_NMAX` 3. -/
theorem test_busRead_param : (after (exec (.busRead 0) idle)).busRdata = 0x01000503 := by decide +kernel
/-- V-ERR-9. -/
theorem test_busRead_rejected :
    let t := after (exec (.busRead 0x100000) { idle with opened := true, busRdata := 5 })
    (t.busRdata, t.err) = (0, 2) := by decide +kernel
/-- 20 R86: `BLK[1].re` becomes 1.0. -/
theorem test_busWrite_block :
    ((after (exec (.busWrite 0x100008 0x3F800000 0b1111) { idle with blk := samples [beat 1, beat 2] })).blkAt 1)
      = ⟨0x3F800000, 0xC0000000⟩ := by decide +kernel
/-- V-LK-7: a release by `0xFFFFFFFE`. -/
theorem test_busWrite_lock :
    (after (exec (.busWrite 0x050 0xFFFFFFFE 0b1111) { idle with lockOwner := .host })).lockOwner = .none := by
  decide +kernel
/-- V-RB-2: the fourth beat sets the gate. -/
theorem test_put :
    let s := { idle with
      rbmem := samples [beat 1, beat 2, beat 3], rbWcur := 3, rbAcc := 3, wptrW := 3, wptrG := 2, wsync := [2, 2], wsyncQ := 3 }
    let t := after (exec (.put (beat 4).re (beat 4).im) s)
    (t.rbmemAt 3, t.rbWcur, t.rbAcc, t.rbGate) = (beat 4, 4, 4, true) := by decide +kernel
/-- V-RB-11 at `CW` = 5: the cursor wraps, and the beat goes to slot 31 mod 4 = 3. -/
theorem test_put_wraps :
    let s := { idle with rbWcur := 31, wptrW := 31, wptrG := 16, wsync := [16, 16], wsyncQ := 31 }
    let t := after (exec (.put (beat 1).re (beat 1).im) s)
    (t.rbmemAt 3, t.rbWcur, t.rbAcc) = (beat 1, 0, 1) := by decide +kernel
/-- V-OVL-1: the first change counts, the same value again does not. -/
theorem test_ovlset :
    let t := after (exec (.ovlset true) idle)
    (t.ovlW, t.ovlWcnt, t.ovlCnt, t.irqStatus) = (true, 1, 0, 0) ∧ exec (.ovlset true) t = .next t := by
  refine ⟨by decide +kernel, rfl⟩
/-- V-OVL-3: two changes that reach the core at one edge. -/
theorem test_overload_crossing :
    let t := crossOverload { idle with ovlWcnt := 2, ovlG := 3, ovlSync := [3, 3] }
    (t.ovlCnt, t.ovl, t.irqStatus) = (2, false, 2) := by decide +kernel

/-! ## The arithmetic and the crossing -/

/-- V-LOG-1, 2, 4, 11, 12, 13. -/
theorem test_magLog :
    (magLog ⟨0x3F800000, 0⟩, magLog ⟨0, 0⟩, magLog ⟨0x3F800000, 0x3F800000⟩, magLog ⟨0x1A000000, 0⟩,
      magLog ⟨0x1A800000, 0⟩, magLog ⟨0x60AD78EC, 0⟩) =
    (0, 0xFF800000, 0x405DCE9E, 0xFF800000, 0xC4003B74, 0x7F800000) := by decide +kernel
/-- The examples of 43 R279. -/
theorem test_ln : (ln 0x40000000, ln 0x41C80000, ln 0x00000002) = (0x3F317218, 0x404E0210, 0xC2CD2BEC) := by
  decide +kernel
/-- V-RST-6. -/
theorem test_wcoef_4096 : wcoef 4096 1 = 0x387BCC44 := by decide +kernel
/-- V-GRAY-2 to V-GRAY-5. -/
theorem test_gray :
    (gray 0x7FFF, gray 0x8000, gray 0xFFFF, gray2bin 16 12) = (0x4000, 0xC000, 0x8000, 8) := by decide +kernel
/-- V-TM-1: the third edge after `OPEN` is the first expiry for a period of 3. -/
theorem test_timer :
    let t := timerEdge true { idle with opened := true, timerCnt := 2 }
    (t.timerCnt, t.tickStage) = (0, .drain) := by decide +kernel
/-- V-RST-1 for the small instance. -/
theorem test_reset_status : (State.resetWith small 0).statusWord = 0x81 := by decide +kernel
/-- The first command after reset, for every row: with `ARG = 0` the commands with an operand fail (60 R341), the others run. -/
theorem test_first_command :
    [0x10, 0x11, 0x12, 0x20, 0x21, 0x121, 0x30, 0x31, 0x40, 0x41, 0x42, 0x43, 0x44, 0x45, 0x46].map
        (fun w => let t := after (step (State.reset.withFetchWord 32 w)); (t.resReason, t.resOpcode, t.tickStage)) =
      [(.configZero, 0x10, .idle), (.sizeMismatch, 0x11, .idle), (.ok, 0x12, .idle), (.configZero, 0x20, .idle),
        (.sizeMismatch, 0x21, .idle), (.sizeMismatch, 0x21, .idle), (.configZero, 0x30, .idle),
        (.sizeMismatch, 0x31, .idle), (.configZero, 0x40, .idle), (.ok, 0x41, .idle), (.ok, 0x42, .idle),
        (.ok, 0x43, .idle), (.ok, 0, .drain), (.sizeMismatch, 0x45, .idle), (.sizeMismatch, 0x46, .idle)] := by
  decide +kernel
/-- Two beats accepted while a resize suspends the count are discarded by it, however small `CW` is (40 R153, R176). -/
theorem test_resize_discards :
    let s := { latched { idle with params := ⟨0, 1, 2, 2, 1000, 3⟩, rbCap := 1 } 0x10 1 with clrReq := true }
    let t := after (andThen (acceptBeat (beat 1) s) (acceptBeat (beat 2)))
    (t.wptrW, t.rbAcc) = (2, 0) ∧ (after (acceptBeat (beat 2) t)).wptrW = 3 := by decide +kernel
/-- 70 R394: with `wr_clk` stopped a drain waits with `BUSY = 1`. -/
theorem test_stopped_clock :
    let t := after (exec .rbReadall (latched { sixBeats with wrRuns := false } 0x11 4))
    (t.busy, t.rbGate, t.rbAcc) = (true, true, 4) := by decide +kernel
/-- The block in which a run of a host ends, with what is left to do and what was read. -/
def hostAfter (o : Host.Outcome HostState Fault Refusal) : State × List Action × List Word :=
  match o with
  | .next h => (h.block, h.todo, h.reads)
  | .fault _ | .refused _ => (idle, [.poll .idle], [])
/-- `IS_OPEN` as its expansion: the loop of `WAITIDLE` goes on while `BUSY = 1` (30 R143). -/
theorem test_pseudo_waitIdle :
    let h := hostAfter (hostRun [true, true, true, true, false, true, true, true] ⟨idle, (Pseudo.command 0x43 none).expand, []⟩)
    h.1.resultWord = 0x4300 ∧ h.2.1 = [] ∧ h.2.2 = [0, 1] := by decide +kernel
/-- `GET_SPECTRUM` reads as many entries as `ENG_N` says, and gives the lock back (30 R143). -/
theorem test_pseudo_getSpectrum :
    let h := hostAfter (hostRun (List.replicate 12 true)
      ⟨{ idle with engN := 2, snap := values [0x3F800000, 0x40000000] }, Pseudo.getSpectrum.expand, []⟩)
    h.1.lockOwner = .none ∧ h.2.1 = [] ∧ h.2.2 = [0x40000000, 0x3F800000, 2, 1] := by decide +kernel
/-- A beat of `INGEST` is held, not dropped, while the producer is frozen (40 R175), and the update comes after it. -/
theorem test_pseudo_ingest_held :
    let h := hostAfter (hostRun [true, false, true]
      ⟨{ idle with frozen := true, sched := [.beat] }, (Pseudo.ingest [beat 1] true).expand, []⟩)
    h.1.beatQ = [⟨true, (beat 1).re, (beat 1).im⟩] ∧ h.2.1 = [.access (.ovlset true)] := by decide +kernel
/-- The overload change of one `INGEST` may be seen before its sample, or after it (20 R91, 43 R323, 93 U10). -/
theorem test_pseudo_ingest_order :
    [[Turn.overloadCross, .beatCross], [.beatCross, .overloadCross]].map (fun crossings =>
      let h := hostAfter (hostRun [true, false, true, false, false]
        ⟨{ idle with sched := .wrEdge :: .wrEdge :: crossings }, (Pseudo.ingest [beat 1] true).expand, []⟩)
      (h.2.1, h.1.ovl, h.1.rbAcc, (after (step h.1)).ovl, (after (step h.1)).rbAcc)) =
    [([], true, 0, true, 1), ([], false, 1, true, 1)] := by decide +kernel
/-- A change that has crossed by itself stays, and the edges that follow bring nothing new (43 R321). -/
theorem test_cross_one :
    let s := crossOneChange { idle with ovlW := true, ovlWcnt := 1, ovlG := 1, ovlSync := [1, 0], irqStatus := 0 }
    (s.ovlCnt, s.ovlSync, s.irqStatus, (crossOverloadTimes 3 { s with irqStatus := 0 }).irqStatus) = (1, [1, 1], 2, 0) := by
  decide +kernel

/-! ## Witnesses: for every statement with hypotheses, states and operands that meet them, at the ends of their ranges -/

theorem idle_inv : Inv idle := by constructor <;> decide +kernel
theorem sixBeats_inv : Inv sixBeats := by constructor <;> decide +kernel
theorem idle_settled : Settled idle := by constructor <;> decide +kernel
theorem sixBeats_settled : Settled sixBeats := by constructor <;> decide +kernel
theorem idle_running : Running idle := by constructor <;> decide +kernel
theorem sixBeats_running : Running sixBeats := by constructor <;> decide +kernel

/-- A published tick that waits for the host's lock while Open. -/
def openLocked : State := { idle with opened := true, lockOwner := .host, tickStage := .lock, sched := [.tick] }

theorem openLocked_sequencer : Sequencer openLocked := by
  constructor <;> simp [openLocked, idle, State.resetWith, tickHoldsLock, commandHoldsLock]

theorem witness_DecodeAndEncodeAgree :
    (Instr.busRead 0x1FFFFF).wf = true ∧ decodeWord 0x121 = .ok (.fftProcess true) ∧
    decodeBus ⟨true, true, 0x1FFFFF, 1, 0b1111⟩ = .ok (.busWrite 0x1FFFFF 1 0b1111) ∧
    decodeSample ⟨true, 1, 2⟩ = .ok (.put 1 2) ∧ decodeOverload ⟨true, true⟩ = .ok (.ovlset true) := by decide
theorem witness_CommandWordMap :
    let s := latched idle 0x110 0
    s.rstC = false ∧ s.initBusy = false ∧ s.busy = true ∧ decodeWord s.curWord = .error .strayFlag := by decide +kernel
theorem witness_StepRunsLatchedCommand :
    let s := latched idle 0x43 0
    s.rstC = false ∧ s.initBusy = false ∧ s.busy = true ∧ decodeWord s.curWord = .ok .isOpen ∧ s.sched = [] ∧
      s.tickEnabled = false ∧ { s with sched := [.command] }.sched = .command :: [] := by decide +kernel
theorem witness_StepRunsLatchedCommand_tick :
    let s := { openLocked with lockOwner := .none }
    s.rstC = false ∧ s.tickByCmd = false ∧ s.sched = .tick :: [] ∧ { s with sched := [] }.initBusy = false ∧
      { s with sched := [] }.tickEnabled = true := by decide +kernel
theorem witness_StepRunsOfferedTransactions :
    let s := { idle with busQ := [⟨true, false, 0, 0, 0⟩], beatQ := [⟨true, 1, 2⟩], ovlQ := [⟨true, true⟩] }
    (∃ b q, s.busQ = b :: q ∧ decodeBus b = .ok (.busRead 0)) ∧
    (∃ p q, s.beatQ = p :: q ∧ decodeSample p = .ok (.put 1 2)) ∧
    (∃ o q, s.ovlQ = o :: q ∧ decodeOverload o = .ok (.ovlset true)) ∧ (s.wrRuns && s.sReady) = true :=
  ⟨⟨_, _, rfl, rfl⟩, ⟨_, _, rfl, rfl⟩, ⟨_, _, rfl, rfl⟩, rfl⟩
/-- At an edge of `wr_clk`: a beat and a change are offered, at the last beat within the bound; the beat meets a frozen producer;
both records are invalid; the clock is stopped. -/
def atWrEdge : State :=
  { idle with sched := [.wrEdge], beatQ := [⟨true, 1, 2⟩], ovlQ := [⟨true, true⟩], wptrW := 14, wptrG := gray 14 }
theorem witness_StepRunsOfferedTransactions_edge :
    (atWrEdge.sched = .wrEdge :: [] ∧ atWrEdge.wrRuns = true ∧ atWrEdge.inReset = false ∧
      atWrEdge.beatsInFlight + 1 < 2 ^ (atWrEdge.params.cw - 1) ∧
      atWrEdge.changesInFlight + 1 < 2 ^ (atWrEdge.params.cw - 1)) ∧
    (atWrEdge.beatQ = ⟨true, 1, 2⟩ :: [] ∧ atWrEdge.sReady = true ∧ atWrEdge.rbCap ≠ 0 ∧
      atWrEdge.ovlQ = ⟨true, true⟩ :: [] ∧ true ≠ atWrEdge.ovlW) ∧
    { atWrEdge with frozen := true }.sReady = false ∧
    (∀ p q, { atWrEdge with beatQ := [⟨false, 1, 2⟩] }.beatQ = p :: q → p.valid = false) ∧
    (∀ o q, { atWrEdge with ovlQ := [⟨false, true⟩] }.ovlQ = o :: q → o.valid = false ∨ o.value = atWrEdge.ovlW) ∧
    { atWrEdge with wrRuns := false }.wrRuns = false := by
  refine ⟨?_, ?_, ?_, fun p q h => ?_, fun o q h => ?_, rfl⟩
  · decide +kernel
  · decide +kernel
  · decide +kernel
  · cases h; rfl
  · cases h; exact .inl rfl
/-- 40 R170, R175 and 43 R320 at one edge: slot 14 mod 4 is written and both counts advance; a frozen producer holds the beat. -/
theorem test_wrEdge :
    (let t := after (step atWrEdge)
     (t.beatQ, t.ovlQ, t.rbmemAt 2, t.wptrW, t.wptrG) = ([], [], ⟨1, 2⟩, 15, 8) ∧ (t.ovlW, t.ovlG) = (true, 1)) ∧
    (let t := after (step { atWrEdge with frozen := true, reqSync := [true, true] })
     (t.beatQ, t.wptrW, t.ovlW) = ([⟨true, 1, 2⟩], 14, true)) := by decide +kernel
theorem witness_SameEdgeOrder_overrun :
    let s := { latched idle 0x43 0 with
      sched := [.clkEdge true true false], busQ := [⟨true, true, 0x00C, 0x41, 0b1111⟩] }
    s.inReset = false ∧ s.initBusy = false ∧ s.busy = true ∧ decodeWord s.curWord = .ok .isOpen := by decide +kernel
theorem witness_SameEdgeOrder_overload :
    let s := { idle with ovlWcnt := 1, ovlG := 1, ovlSync := [1, 1], sched := [.clkEdge true false false] }
    s.inReset = false ∧ gray2bin s.params.cw (syncOut 0 s.ovlSync) ≠ s.ovlCnt := by decide +kernel
theorem witness_SameEdgeOrder_tick :
    let s := { idle with
      opened := true, lockOwner := .engine, tickStage := .publish, timerCnt := 2, sched := [.clkEdge false false true] }
    s.rstC = false ∧ s.opened = true ∧ s.closing = false ∧ s.tickByCmd = false ∧ s.tickPending = false ∧
      s.tickStage = .publish ∧ s.tickPeriod.toNat ≤ s.timerCnt.toNat + 1 := by decide +kernel
/-- A timer's drain while Open, and `RB_READALL`, at the edge at which the beat that fills the ring crosses. -/
def filling : State := { idle with rbAcc := 3, wptrW := 1, wptrG := 1, wsync := [1, 1] }
theorem witness_SameEdgeOrder_drain :
    let s := { filling with opened := true, tickStage := .drain, sched := [.clkEdge false false true] }
    let u := { latched filling 0x11 4 with sched := [.clkEdge false true false] }
    s.rstC = false ∧ s.tickByCmd = false ∧ s.tickStage = .drain ∧ s.rbCap = s.engN ∧ s.freeze = .idle ∧
      s.rbCap ≤ s.rbAcc + counterDelta s.params.cw (gray2bin s.params.cw (syncOut 0 s.wsync)) s.wsyncQ ∧
      u.initBusy = false ∧ u.busy = true ∧ decodeWord u.curWord = .ok .rbReadall ∧ LengthAccepted u u.rbCap ∧
      u.freeze = .idle := by
  refine ⟨?_, ?_, ?_, ?_, ?_, ?_, ?_, ?_, ?_, ⟨?_, ?_⟩, ?_⟩ <;> decide +kernel
/-- The last state below the bound: 14 beats in flight at `CW` = 5, and the first one at it. -/
theorem witness_NeverStopsWithinClockRatio :
    let s := { idle with wptrW := 14, wptrG := gray 14 }
    s.beatsInFlight + 1 < 2 ^ (s.params.cw - 1) ∧ s.changesInFlight + 1 < 2 ^ (s.params.cw - 1) ∧
      acceptBeat (beat 1) { idle with wptrW := 15, wptrG := gray 15 } = .fault .beatRate ∧
      { idle with clrReq := true, wptrW := 15 }.clrReq = true ∧
      ∃ t, acceptBeat (beat 1) { idle with clrReq := true, wptrW := 15 } = .next t := by
  refine ⟨by decide +kernel, by decide +kernel, rfl, rfl, _, rfl⟩
theorem witness_ClosedOnlyCommandGate :
    let s := { idle with opened := true, resReason := .wrongState }
    s.cmdPhase = .start ∧ closedOnly .tickOnce = true ∧ s.opened = true ∧ isCommand .closeEng = true ∧
      closedOnly .closeEng = false ∧ (after (exec .closeEng s)).resReason = .wrongState := by decide +kernel
/-- A command of each reason ends at its first transition. -/
theorem witness_ReasonCodesHaveTheirCauses :
    [latched idle 0x43 0, latched { idle with opened := true } 0x44 0, latched idle 0x20 0, latched idle 0x20 9,
      latched idle 0x31 5, latched idle 0x11 4, latched idle 0x110 0].map
        (fun s => ((after (commandTurn s)).busy, (after (commandTurn s)).resReason)) =
      [(false, .ok), (false, .wrongState), (false, .configZero), (false, .configRange), (false, .sizeMismatch),
        (false, .notReady), (false, .illegalCmd)] := by decide +kernel
theorem witness_ReasonCodesHaveTheirCauses_later :
    let s := { latched idle 0x42 0 with opened := true, closing := true, cmdPhase := .closeWait }
    Sequencer s ∧ s.cmdPhase ≠ .start ∧ ∃ t, commandTurn s = .next t ∧ t.busy = false := by
  refine ⟨?_, by decide, _, rfl, rfl⟩
  constructor <;> simp [latched, idle, State.resetWith, tickHoldsLock, commandHoldsLock]
  all_goals decide +kernel
theorem witness_CommandsFrame : ∃ t, exec .logpow (latched idle 0x46 4) = .next t := ⟨_, rfl⟩
theorem witness_HostAccessKeepsCommandInProgress :
    (latched idle 0x43 0).busy = true ∧ ∃ t, exec (.busWrite 0x00C 0x41 0b1111) (latched idle 0x43 0) = .next t :=
  ⟨rfl, _, rfl⟩
theorem witness_RingIndexIsModulo :
    small.legal ∧ ispow2 1 = true ∧ ispow2 small.nmax = true ∧ small.nmax ≤ small.nmax := by decide +kernel
theorem witness_RbResizeSetsCapacity : 1 ≤ (1 : Nat) ∧ ispow2 1 = true ∧ 5 ≤ 8 ∧ ispow2 8 = true := by decide +kernel
/-- The least and the largest accepted request, and each failure. -/
theorem witness_size_requests :
    SizeAccepted (latched idle 0x10 1) 1 ∧ SizeAccepted (latched idle 0x10 8) 8 ∧ (latched idle 0x10 8).freeze = .idle ∧
    (latched idle 0x10 8).cmdPhase = .start ∧ (latched idle 0x10 0).curArg.toNat = 0 ∧
    (latched idle 0x10 9).params.nmax < roundup (latched idle 0x10 9).curArg.toNat := by
  refine ⟨⟨?_, ?_, ?_, ?_⟩, ⟨?_, ?_, ?_, ?_⟩, ?_, ?_, ?_, ?_⟩ <;> decide +kernel
theorem witness_RbReadallDrainsRing :
    LengthAccepted (latched sixBeats 0x11 4) 4 ∧ sixBeats.rbCap = 4 ∧ sixBeats.rbGate = true ∧ sixBeats.freeze = .idle ∧
    LengthAccepted (latched idle 0x11 4) 4 ∧ idle.rbGate = false ∧ (latched idle 0x11 3).curArg.toNat ≠ idle.rbCap := by
  refine ⟨⟨?_, ?_⟩, ?_, ?_, ?_, ⟨?_, ?_⟩, ?_, ?_⟩ <;> decide +kernel
theorem latched_inv : Inv (latched idle 0x11 4) := by constructor <;> decide +kernel
theorem witness_DrainedBlockIsLatestBeats :
    Inv (latched idle 0x11 4) ∧ Settled (latched idle 0x11 4) ∧ Running (latched idle 0x11 4) ∧
    LengthAccepted (latched idle 0x11 4) 4 ∧ idle.rbCap ≤ [beat 1, beat 2, beat 3, beat 4].length :=
  ⟨latched_inv, by constructor <;> decide +kernel, by constructor <;> decide +kernel,
    by constructor <;> decide +kernel, by decide +kernel⟩
theorem witness_GateRisesAtCapacity : Inv idle ∧ Settled idle ∧ Running idle ∧ idle.rbGate = false :=
  ⟨idle_inv, idle_settled, idle_running, rfl⟩
theorem witness_PutWritesSlotAtCursor :
    { idle with frozen := true }.sReady = false ∧ { idle with rbCap := 0 }.rbCap = 0 ∧ idle.sReady = true ∧
    idle.rbCap ≠ 0 ∧ idle.params.legal ∧ Settled { idle with rbWcur := 31, wptrW := 31, wptrG := 16, wsync := [16, 16], wsyncQ := 31 } ∧
    { idle with wptrW := 14 }.beatsInFlight + 1 < 2 ^ (idle.params.cw - 1) ∧ { idle with clrReq := true }.clrReq = true := by
  refine ⟨?_, ?_, ?_, ?_, ?_, ⟨?_, ?_, ?_, ?_, ?_⟩, ?_, ?_⟩ <;> decide +kernel
theorem witness_GrayCodeRoundTrip : 1 ≤ 16 ∧ 0xFFFF < 2 ^ 16 := by decide
theorem witness_CrossingRefinesPuts :
    Inv idle ∧ Settled idle ∧ Running idle ∧ ∃ u, acceptAll [beat 1, beat 2] idle = .next u :=
  ⟨idle_inv, idle_settled, idle_running, _, rfl⟩
/-- The handshake asked for, and the same at its linearization point. -/
def asked : State := { latched sixBeats 0x11 4 with freezeReq := true }
def heldAsked : State :=
  { asked with freezeAck := true, frozen := true, reqSync := [true, true], ackSync := [true, true], settleCnt := 3 }
theorem witness_FreezeHandshakeGuardsRing :
    heldAsked.frozen = true ∧ (∃ t, step heldAsked = .next t) ∧ asked.freeze = .waiting ∧ heldAsked.freeze = .held ∧
    LengthAccepted asked 4 ∧ asked.rbCap = 4 ∧ asked.rbGate = true ∧ SizeAccepted asked 4 ∧
    { asked with cmdPhase := .winFill 4 4 }.freeze = .waiting ∧ { heldAsked with cmdPhase := .winFill 4 4 }.freeze = .held ∧
    { asked with tickStage := .drain }.rbCap = { asked with tickStage := .drain }.engN ∧
    { heldAsked with tickStage := .drain }.freeze = .held := by
  refine ⟨?_, ⟨_, rfl⟩, ?_, ?_, ⟨?_, ?_⟩, ?_, ?_, ⟨?_, ?_, ?_, ?_⟩, ?_, ?_, ?_, ?_⟩ <;> decide +kernel
/-- `RB_READALL` with `wr_clk` stopped, before a freeze is asked for and after, and a tick's drain. -/
def stoppedDrain : State := { latched sixBeats 0x11 4 with wrRuns := false }
theorem witness_FreezeHandshakeGuardsRing_stopped :
    ProducerStopped stoppedDrain ∧ Inv stoppedDrain ∧ Sequencer stoppedDrain ∧ NeedsFreeze stoppedDrain ∧
    (∃ t, step stoppedDrain = .next t) ∧ (∀ rest, stoppedDrain.sched ≠ .wrStart :: rest) ∧
    (∀ rest, stoppedDrain.sched ≠ .rstAssert :: rest) ∧ ProducerStopped { stoppedDrain with freezeReq := true } ∧
    NeedsFreeze { sixBeats with opened := true, tickStage := .drain, wrRuns := false } := by
  refine ⟨?_, ?_, ?_, .inr ⟨rfl, rfl, rfl, .inl ⟨?_, ⟨rfl, ?_⟩, rfl⟩⟩, ⟨_, rfl⟩, fun _ h => (by cases h), fun _ h => (by cases h),
    ?_, .inl ⟨rfl, rfl, rfl⟩⟩
  · constructor <;> decide +kernel
  · constructor <;> decide +kernel
  · constructor <;> simp [stoppedDrain, latched, sixBeats, idle, State.resetWith, tickHoldsLock, commandHoldsLock]
  · decide +kernel
  · decide +kernel
  · constructor <;> decide +kernel
/-- The schedule of the statement at `SYNC_STAGES` = 2. -/
def handshake : State :=
  { latched sixBeats 0x11 4 with
    sched := .freeze :: (List.replicate 3 .wrEdge ++ List.replicate 5 (.clkEdge false false false) ++
      .command :: (List.replicate 3 .wrEdge ++ List.replicate 2 (.clkEdge false false false))) }
/-- The same for a resize, with five beats offered and two under way. -/
def resizing : State :=
  { latched sixBeats 0x10 5 with
    rbWcur := 4, wsyncQ := 4, beatQ := List.replicate 5 ⟨true, 1, 2⟩
    sched := .freeze :: .clkEdge false false false :: .freeze :: (List.replicate 3 .wrEdge ++
      List.replicate 5 (.clkEdge false false false) ++
      .command :: (List.replicate 3 .wrEdge ++ List.replicate 2 (.clkEdge false false false))) }
theorem witness_HandshakeEdgesReachTheDrain :
    Inv handshake ∧ Settled handshake ∧ Running handshake ∧ handshake.inReset = false ∧ handshake.initBusy = false ∧
    handshake.busy = true ∧ handshake.cmdPhase = .start ∧ handshake.tickStage = .idle ∧
    decodeWord handshake.curWord = .ok .rbReadall ∧ LengthAccepted handshake handshake.rbCap ∧
    handshake.rbGate = true ∧ handshake.beatQ = [] ∧ handshake.ovlQ = [] ∧
    handshake.sched = .freeze :: (List.replicate (handshake.params.syncStages + 1) .wrEdge ++
      List.replicate (2 * handshake.params.syncStages + 1) (.clkEdge false false false) ++
      .command :: (List.replicate (handshake.params.syncStages + 1) .wrEdge ++
        List.replicate handshake.params.syncStages (.clkEdge false false false))) := by
  refine ⟨?_, ⟨?_, ?_, ?_, ?_, ?_⟩, ⟨?_, ?_⟩, ?_, ?_, ?_, ?_, ?_, ?_, ⟨?_, ?_⟩, ?_, ?_, ?_, rfl⟩
  · constructor <;> decide +kernel
  all_goals decide +kernel
theorem witness_HandshakeEdgesReachTheDrain_resize :
    Inv resizing ∧ Running resizing ∧ resizing.inReset = false ∧ resizing.initBusy = false ∧ resizing.busy = true ∧
    resizing.cmdPhase = .start ∧ resizing.tickStage = .idle ∧ decodeWord resizing.curWord = .ok .rbResize ∧
    SizeAccepted resizing 8 ∧ resizing.ovlQ = [] ∧
    resizing.sched = .freeze :: .clkEdge false false false :: .freeze ::
      (List.replicate (resizing.params.syncStages + 1) .wrEdge ++
        List.replicate (2 * resizing.params.syncStages + 1) (.clkEdge false false false) ++
        .command :: (List.replicate (resizing.params.syncStages + 1) .wrEdge ++
          List.replicate resizing.params.syncStages (.clkEdge false false false))) := by
  refine ⟨?_, ⟨?_, ?_⟩, ?_, ?_, ?_, ?_, ?_, ?_, ⟨?_, ?_, ?_, ?_⟩, ?_, rfl⟩
  · constructor <;> decide +kernel
  all_goals decide +kernel
theorem witness_block_commands :
    LengthAccepted (latched idle 0x121 4) idle.fftN ∧ ispow2 idle.fftN = true ∧
    LengthAccepted (latched idle 0x31 4) idle.winN ∧ LengthAccepted (latched idle 0x45 4) idle.engN ∧
    ispow2 idle.engN = true ∧ (latched idle 0x121 3).curArg.toNat ≠ idle.fftN ∧
    { idle with opened := true }.opened = true := by
  refine ⟨⟨?_, ?_⟩, ?_, ⟨?_, ?_⟩, ⟨?_, ?_⟩, ?_, ?_, ?_⟩ <;> decide +kernel
theorem witness_TransformConstantsAreExact :
    1 ≤ 16 ∧ F32.isNaN 0x00000001 = false ∧ F32.isInf 0x00000001 = false ∧ (16 : Nat) ≤ 16 ∧
    (1 < 2 ∧ 4 % (2 * 2) = 0 ∧ ((List.range 8).map beat)[4 + 1]? = some (beat 5) ∧
      ((List.range 8).map beat)[4 + 1 + 2]? = some (beat 7)) ∧ 1 ≤ 1 ∧ 1 ≤ 3 := by decide +kernel
theorem witness_NetworkComputesDft : ([1, 2] : List ℂ).length = 2 ^ 1 ∧ 1 < 2 ^ 1 := by simp
theorem witness_BitReversalIsInvolution : 7 < 2 ^ 3 ∧ [beat 1, beat 2].length = 2 ^ 1 ∧ 1 < 2 ^ 1 := by decide
theorem witness_NanResultsAreCanonical :
    F32.isNaN 0x7FC00001 = true ∧ F32.isInf 0xFF800000 = true ∧ F32.isZero 0x80000000 = true ∧
    fadd 0x7F800000 0xFF800000 = 0x7FC00000 := by decide +kernel
theorem witness_SignedZerosFollowIeee :
    F32.isNaN 0x7F7FFFFF = false ∧ F32.isInf 0x7F7FFFFF = false ∧ F32.isNaN (fmul 0x80000000 0x3F800000) = false := by
  decide +kernel
theorem witness_ArithmeticRoundsOnceToNearest :
    F32.isNaN 0x00000001 = false ∧ F32.isInf 0x00000001 = false ∧ F32.isInf (roundInt 149 1) = false ∧
    F32.fix 0x00000001 + F32.fix 0x00000001 ≠ 0 ∧ F32.fix 0x3F800000 - F32.fix 0x00000001 ≠ 0 ∧
    F32.fix 0x00000001 * F32.fix 0x00000001 ≠ 0 ∧ F32.isInf 0xFF800000 = true ∧ F32.isNaN 0x80000001 = false ∧
    F32.isInf 0x80000001 = false ∧ F32.isZero 0x80000001 = false ∧ F32.sign 0xFF800000 ≠ F32.sign 0x7F800000 ∧
    F32.fix 0x3F800000 + F32.fix 0xBF800000 = 0 ∧ F32.fix 0x80000000 + F32.fix 0x80000000 = 0 ∧
    F32.fix 0x80000000 - F32.fix 0x00000000 = 0 ∧ F32.fix 0x80000000 * F32.fix 0x3F800000 = 0 := by
  decide +kernel
/-- Exact zeros (41 R225; IEEE 754): `1 + -1`, `(+0) + (+0)`, `(-0) + (-0)`, `(-0) - (+0)`, `(-0) * 1`, `(-0) * -1`. -/
theorem test_exact_zeros :
    [fadd 0x3F800000 0xBF800000, fadd 0 0, fadd 0x80000000 0x80000000, fsub 0x80000000 0, fmul 0x80000000 0x3F800000,
      fmul 0x80000000 0xBF800000] = [0, 0, 0x80000000, 0x80000000, 0x80000000, 0] := by decide +kernel
/-- Sums and products with an infinite operand (41 R222, R225; IEEE 754). -/
theorem test_infinite_operands :
    (fadd 0xFF800000 0x3F800000, fsub 0x3F800000 0xFF800000, fsub 0xFF800000 0x7F800000, fmul 0x7F800000 0x80000001) =
      (0xFF800000, 0x7F800000, 0xFF800000, 0xFF800000) := by decide +kernel
theorem witness_WindowCoefficients :
    1 ≤ 4096 ∧ 4095 < 4096 ∧ roundInt 160 (wcoefBounds 4096 1).1 = roundInt 160 (wcoefBounds 4096 1).2 := by
  decide +kernel
theorem witness_WinSetsizeComputesTable :
    { latched idle 0x30 3 with cmdPhase := .winFill 4 3 }.cmdPhase = .winFill 4 3 ∧ 3 < 4 ∧
    { latched idle 0x30 3 with cmdPhase := .winFill 4 4 }.cmdPhase = .winFill 4 4 ∧ 4 ≤ 4 := by decide +kernel
theorem witness_OpenAndCloseMoveLifecycle :
    let s := { latched idle 0x42 0 with opened := true, closing := true, cmdPhase := .closeWait }
    s.cmdPhase = .closeWait ∧ s.tickStage = .idle ∧ { s with tickStage := .publish }.tickStage ≠ .idle := by
  decide +kernel
theorem witness_TickOncePublishesSpectrum :
    let s := latched sixBeats 0x44 0
    s.cmdPhase = .start ∧ s.opened = false ∧ s.freeze = .idle ∧ s.lockOwner = .none ∧ ispow2 4 = true ∧ s.rbCap = 4 ∧
      s.engN = 4 ∧ s.fftN = 4 ∧ s.winN = 4 ∧ s.rbGate = true := by decide +kernel
theorem witness_TickStagesProcessBlock :
    let s := { sixBeats with tickStage := .drain }
    s.tickStage = .drain ∧ s.rbCap = s.engN ∧ s.rbGate = true ∧ s.freeze = .idle ∧ s.winN = s.engN ∧ s.fftN = s.engN ∧
      ispow2 s.engN = true ∧ { s with rbGate := false }.rbGate = false ∧ s.skipStale = false ∧
      { s with freezeReq := true, settleCnt := 3 }.freeze = .held := by decide +kernel
/-- A failed drain under `SKIP_STALE`, and each size that differs from `ENG_N`. -/
theorem witness_TickStagesProcessBlock_mismatch :
    let s := { idle with tickStage := .drain, skipStale := true, rbCap := 8, winN := 8, fftN := 8 }
    s.rbCap ≠ s.engN ∧ s.skipStale = true ∧ s.winN ≠ s.engN ∧ s.fftN ≠ s.engN := by decide +kernel
theorem witness_TickLocksLogsAndPublishes :
    openLocked.tickStage = .lock ∧ openLocked.lockOwner ≠ .none ∧ { openLocked with lockOwner := .none }.lockOwner = .none ∧
    { openLocked with tickStage := .log 3 }.tickStage = .log 3 := by decide +kernel
theorem witness_LogpowWritesSnapshot :
    let s := latched idle 0x46 4
    s.cmdPhase = .start ∧ s.opened = false ∧ s.curArg.toNat = s.engN ∧ s.lockOwner = .none ∧
      { s with cmdPhase := .logFill 3 }.cmdPhase = .logFill 3 ∧ 3 < s.engN := by decide +kernel
theorem witness_MagnitudeLogIsTotal :
    let p (x : Sample) := fadd (fmul x.re x.re) (fmul x.im x.im)
    F32.isNaN (p ⟨0x7FC00000, 0⟩) = true ∧ p ⟨0x80000000, 0⟩ = 0x00000000 ∧ p ⟨0xFF800000, 0⟩ = 0x7F800000 ∧
      F32.isNaN (p ⟨0x3F800000, 0⟩) = false ∧ F32.isZero 0x80000000 = true ∧ F32.isZero 0x00000000 = true := by
  decide +kernel
theorem witness_LogarithmIsNearest :
    F32.isNaN 0x00000001 = false ∧ F32.isInf 0x00000001 = false ∧ 0 < F32.fix 0x00000001 ∧
    roundInt 160 (lnBounds 0x00000001).1 = roundInt 160 (lnBounds 0x00000001).2 ∧
    F32.sign 0x80000001 = true ∧ F32.isZero 0x80000001 = false := by decide +kernel
theorem witness_BusReadReturnsLocation : idle.params.legal ∧ 7 < idle.params.nmax ∧ 3 ≤ idle.params.log2Nmax := by
  decide +kernel
/-- One access of each rejection of 20 R83, and the last mapped word of each window. -/
theorem witness_BusRejectionsFollowRule :
    Rejected idle false 0x002 0 ∧ Rejected idle true 0x010 0b0111 ∧ Rejected idle false 0x058 0 ∧
    Rejected idle false 0x0C0004 0 ∧ Rejected idle false 0x0C0020 0 ∧ Rejected idle true 0x008 0b1111 ∧
    Rejected { idle with opened := true } false 0x100000 0 ∧ Rejected { idle with busy := true } false 0x080000 0 ∧
    ¬ Rejected idle false 0x04001C 0 ∧ ¬ Rejected idle false 0x0C001C 0 ∧ ¬ Rejected idle true 0x10003C 0b1111 := by
  simp [Rejected, inRegisters, inSnap, inWin, inTw, inBlk, readOnlyRegister, Params.nmax, idle, small, State.resetWith]
theorem witness_BusWriteActsOnLocation :
    7 < idle.params.nmax ∧ idle.params.legal ∧ idle.opened = false ∧ idle.busy = false := by decide +kernel
theorem witness_CmdAndSnaplockWritesAct : idle.busy = false ∧ (latched idle 0x43 0).busy = true := by decide +kernel
theorem witness_HostLockKeepsSnapshot :
    Sequencer openLocked ∧ openLocked.lockOwner = .host ∧ (∀ rest, openLocked.sched ≠ .rstAssert :: rest) ∧
    (∃ t, step openLocked = .next t) ∧
    (let s := { latched idle 0x40 4 with snapValid := true, cmdPhase := .winFill 4 4, sched := [.command] }
     s.snapValid = true ∧ (after (step s)).snapValid = false) :=
  ⟨openLocked_sequencer, rfl, fun _ h => (by cases h), ⟨_, rfl⟩, by decide +kernel⟩
theorem witness_TimerExpiresEveryPeriod :
    let s := { idle with opened := true, sched := [.clkEdge false false false] }
    s.rstC = false ∧ s.opened = true ∧ s.closing = false ∧ s.timerCnt = 0 ∧ s.tickPeriod ≠ 0 ∧ s.tickStage = .idle ∧
      s.tickPending = false ∧ s.sched = List.replicate 1 (.clkEdge false false false) ∧
      s.timerCnt.toNat + 1 < s.tickPeriod.toNat ∧
      s.tickPeriod.toNat ≤ { s with timerCnt := 2 }.timerCnt.toNat + 1 := by decide +kernel
/-- An edge with a command on it while the timer counts, at an expiry and before one, and the edges of `OPEN` and of `CLOSE`. -/
theorem witness_TimerExpiresEveryPeriod_edge :
    let s := { latched { idle with opened := true } 0x43 0 with sched := [.clkEdge false true false] }
    let t := after (step s)
    let u := after (step { s with timerCnt := 2 })
    let v := { latched idle 0x41 0 with sched := [.clkEdge false true false] }
    Sequencer s ∧ s.rstC = false ∧ (∃ t, step s = .next t) ∧ t.opened = true ∧ t.closing = false ∧
      s.timerCnt.toNat + 1 < t.tickPeriod.toNat ∧ u.tickPeriod.toNat ≤ 2 + 1 ∧ u.opened = true ∧
      Sequencer v ∧ (after (step v)).opened ≠ v.opened := by
  refine ⟨?_, by decide +kernel, ⟨_, rfl⟩, ?_, ?_, ?_, ?_, ?_, ?_, ?_⟩
  · constructor <;> simp [latched, idle, State.resetWith, tickHoldsLock, commandHoldsLock]
  · decide +kernel
  · decide +kernel
  · decide +kernel
  · decide +kernel
  · decide +kernel
  · constructor <;> simp [latched, idle, State.resetWith, tickHoldsLock, commandHoldsLock]
  · decide +kernel
theorem witness_OvlsetCountsChanges :
    { idle with rstW := true }.inReset = true ∧ false = idle.ovlW ∧ idle.inReset = false ∧ true ≠ idle.ovlW ∧
    { idle with ovlWcnt := 14 }.changesInFlight + 1 < 2 ^ (idle.params.cw - 1) := by decide +kernel
theorem witness_OverloadChangesCross :
    let s := { idle with ovlW := true, ovlWcnt := 1, ovlG := 1 }
    Inv s ∧ s.ovlCnt ≠ s.ovlWcnt ∧ idle.ovlSync = List.replicate idle.params.syncStages idle.ovlG ∧
      idle.ovlCnt = idle.ovlWcnt := by
  refine ⟨by constructor <;> decide +kernel, ?_, ?_, ?_⟩ <;> decide +kernel
/-- A tick that publishes, and an overload change that reaches the core. -/
theorem witness_InterruptsHaveTheirEvents :
    let s := { openLocked with lockOwner := .engine, tickStage := .publish }
    let u := { openLocked with ovlSync := [1, 1], sched := [.clkEdge false false false] }
    Sequencer s ∧ s.irqStatus.getLsbD 0 = false ∧ (after (step s)).irqStatus.getLsbD 0 = true ∧
      (after (step s)).tickCount ≠ s.tickCount ∧ u.irqStatus.getLsbD 1 = false ∧
      (after (step u)).irqStatus.getLsbD 1 = true ∧ { s with rstC := true }.inReset = true ∧ s.inReset = false := by
  refine ⟨?_, ?_, ?_, ?_, ?_, ?_, ?_, ?_⟩
  · constructor <;> simp [openLocked, idle, State.resetWith, tickHoldsLock, commandHoldsLock]
  all_goals decide +kernel
theorem witness_ProducerChannelsCommute : ∃ t, andThen (exec (.put 1 2) idle) (exec (.ovlset true)) = .next t := ⟨_, rfl⟩
/-- A beat and a change under way, the counters at their wrap; and the run of `INGEST`. -/
def bothUnderWay : State :=
  { idle with rbWcur := 31, wsyncQ := 31, wptrW := 0, wsync := [0, 16], ovlCnt := 31, ovlWcnt := 0, ovlSync := [16, 16] }
theorem witness_ProducerChannelsCommute_cross :
    { bothUnderWay with sched := [.beatCross] }.rstC = false ∧ bothUnderWay.clrReq = false ∧
    bothUnderWay.wptrW ≠ bothUnderWay.wsyncQ ∧ bothUnderWay.ovlWcnt ≠ bothUnderWay.ovlCnt ∧ Inv bothUnderWay ∧
    idle.beatQ = [] ∧ idle.ovlQ = [] ∧ idle.ovlCnt = idle.ovlWcnt ∧ true ≠ idle.ovlW := by
  refine ⟨?_, ?_, ?_, ?_, ?_, ?_⟩
  case refine_5 => constructor <;> decide +kernel
  all_goals decide +kernel
theorem witness_ResetAbandonsEverything :
    { sixBeats with sched := [.rstAssert] }.sched = .rstAssert :: [] ∧ { idle with rstW := true }.inReset = true ∧
    (let s := { idle with rstW := true, rstC := true, sched := [.wrEdge] }; s.rstC = true ∧ s.rstW = true ∧ s.wrRuns = true) :=
  ⟨rfl, rfl, rfl, rfl, rfl⟩
/-- 70 R380: at the edge that ends the reset of its domain an overload update is ignored, and a beat is still held. -/
theorem test_edge_in_reset :
    let t := after (takeTurn .wrEdge { idle with rstW := true, ovlQ := [⟨true, true⟩], beatQ := [⟨true, 1, 2⟩] })
    (t.rstW, t.ovlQ, t.beatQ, t.ovlWcnt, t.wptrW) = (false, [], [⟨true, 1, 2⟩], 0, 0) := by decide +kernel
/-- The first coefficient, and the end. -/
theorem witness_InitialisationBuildsWindow :
    let r := State.resetWith small 0
    r.rstC = false ∧ r.initBusy = true ∧ r.sched = [] ∧ r.initPos < r.params.nReset ∧
      { r with initPos := 4 }.params.nReset ≤ { r with initPos := 4 }.initPos ∧
      { r with sched := [.init] }.sched = .init :: [] := by decide +kernel
theorem witness_InvariantsHoldAtReset : small.legal := by decide +kernel
theorem witness_StepKeepsUnitInvariants : Inv idle ∧ ∃ t, step idle = .next t := ⟨idle_inv, _, rfl⟩
theorem witness_StepKeepsSequencer : Sequencer openLocked ∧ ∃ t, step openLocked = .next t :=
  ⟨openLocked_sequencer, _, rfl⟩

end Sys2Proof.Tests
end

section
/-! PROOFS. Sizes and the ring: `RB_RESIZE` as one transition (40 R152), and what `roundup` is (00 R7). -/

namespace Sys2Proof.Machine

open Sys2Proof.Safety

variable {s : State}

/-! ### Ending a command -/

/-- `finish` is what the statements write out field by field. -/
theorem finish_eq_ended (s : State) (r : Reason) (v : Word) : s.finish r v = ended s r v := rfl

theorem fail_eq_ended (s : State) (r : Reason) : s.fail r = ended s r 0 := rfl

/-! ### Size commands -/

theorem whileClosed_opened {body : State → Host.Outcome State Fault Refusal} (ho : s.opened = true) :
    whileClosed s body = .next (ended s .wrongState 0) := if_pos ho

theorem whileClosed_closed {body : State → Host.Outcome State Fault Refusal} (ho : s.opened = false) :
    whileClosed s body = body s := if_neg (by simp [ho])

/-- A size command that begins with the checks of `withSize` fails as 60 R341 says. -/
theorem sizeFailures_of_withSize {i : Instr} {body : Nat → State → Host.Outcome State Fault Refusal}
    (h : exec i s = withSize s body) : SizeFailures i s := by
  have hfail : ∀ r, s.opened = false → sizeRequest s.params s.argNat = .error r →
      exec i s = .next (ended s r 0) := fun r ho hr => by
    rw [h, withSize, whileClosed_closed ho, hr, ← fail_eq_ended]
  refine ⟨fun ho => ?_, fun ho h0 => ?_, fun ho h0 hr => ?_⟩
  · rw [h, withSize, whileClosed_opened ho]
  · exact hfail _ ho (sizeRequest_error.mpr (.inl ⟨h0, rfl⟩))
  · exact hfail _ ho (sizeRequest_error.mpr (.inr ⟨h0, hr, rfl⟩))

/-- An accepted size request runs the command's body. -/
theorem withSize_accepted {c : Nat} {body : Nat → State → Host.Outcome State Fault Refusal} (h : SizeAccepted s c) :
    withSize s body = body c s := by
  obtain ⟨ho, h0, rfl, hn⟩ := h
  have hr : sizeRequest s.params s.argNat = .ok (roundup s.curArg.toNat) := sizeRequest_ok.mpr ⟨h0, hn, rfl⟩
  rw [withSize, whileClosed_closed ho, hr]

theorem withFreeze_idle {body : State → State} (h : s.freeze = .idle) :
    withFreeze s body = .next (body (settleBeats s)) := by rw [withFreeze, h]

/-! ### The resize -/

/-- A resize overwrites everything that settling the crossing changes (40 R152, R176). -/
theorem resizeRing_settleBeats (c : Nat) (s : State) : resizeRing c (settleBeats s) = resizeRing c s := by
  rw [settleBeats_eq]
  split <;> rfl

theorem exec_rbResize_eq (s : State) :
    exec .rbResize s =
      withSize s fun c s => withFreeze s fun t => (resizeRing c t).finish .ok (BitVec.ofNat 32 c) := rfl

theorem exec_rbResize_accepted {c : Nat} (h : SizeAccepted s c) (hf : s.freeze = .idle) :
    exec .rbResize s = .next (ended (resizeRing c s) .ok (BitVec.ofNat 32 c)) := by
  rw [exec_rbResize_eq, withSize_accepted h, withFreeze_idle hf, resizeRing_settleBeats, finish_eq_ended]

/-! ### `roundup` -/

theorem roundup_le_of_ispow2 {n m : Nat} (hm : ispow2 m = true) (h : n ≤ m) : roundup n ≤ m := by
  obtain ⟨k, rfl⟩ := ispow2_iff.mp hm
  unfold roundup
  split
  · exact Nat.one_le_two_pow
  · have hlog : (n - 1).log2 < k := (Nat.log2_lt (by omega)).mpr (by omega)
    exact Nat.pow_le_pow_right (by decide) hlog

/-- A power of two is its own `roundup`. -/
theorem roundup_of_ispow2 {n : Nat} (h : ispow2 n = true) : roundup n = n :=
  Nat.le_antisymm (roundup_le_of_ispow2 h (Nat.le_refl n)) (le_roundup n)

/-- Settles O13: the command is its checks and then a resize of the ring, which overwrites whatever a settling changes. -/
theorem rbResizeSetsCapacity : Obligations.RbResizeSetsCapacity := by
  unfold Obligations.RbResizeSetsCapacity
  refine ⟨rfl, fun s => ⟨sizeFailures_of_withSize (exec_rbResize_eq s), fun c h hf => exec_rbResize_accepted h hf⟩,
    fun n => ispow2_iff, fun n _ => ⟨ispow2_roundup n, le_roundup n, fun m => roundup_le_of_ispow2,
      roundup_of_ispow2 (ispow2_roundup n)⟩, ?_⟩
  decide +kernel

end Sys2Proof.Machine
end

section
/-! PROOFS. The sample crossing refines `PUT` (00 R12, 40 R170-R172). Settling commutes with accepting a beat, so a burst and
then a settling is as many `PUT`s; and `SYNC_STAGES + 1` edges of `clk` come to a settling. -/

namespace Sys2Proof.Machine

open Sys2Proof.Safety

/-! ### The gray code (40 R174) -/

theorem testBit_gray (b k : Nat) : (gray b).testBit k = (b.testBit k ^^ b.testBit (k + 1)) := by
  simp [gray, Nat.add_comm]

/-- Decoding downwards from bit `k`, given the true bit `k`, rebuilds the bits below it. -/
theorem grayInverse_gray (b k : Nat) : grayInverse k (b.testBit k) (gray b) = b % 2 ^ k := by
  induction k with
  | zero => simp [grayInverse, Nat.mod_one]
  | succ k ih =>
    have hbit : (b.testBit (k + 1) ^^ (gray b).testBit k) = b.testBit k := by
      rw [testBit_gray]; cases b.testBit k <;> cases b.testBit (k + 1) <;> rfl
    rw [grayInverse, hbit, ih, Nat.toNat_testBit, Nat.mod_pow_succ, Nat.add_comm, Nat.mul_comm]

theorem gray2bin_gray {cw b : Nat} (h : b < 2 ^ cw) : gray2bin cw (gray b) = b := by
  have := grayInverse_gray b cw
  rwa [Nat.testBit_lt_two_pow h, Nat.mod_eq_of_lt h] at this

/-! ### Counters of `cw` bits -/

theorem counterDelta_of_lt {cw a b : Nat} (ha : a < 2 ^ cw) (hb : b < 2 ^ cw) :
    counterDelta cw a b = if b ≤ a then a - b else a + 2 ^ cw - b := by
  unfold counterDelta
  split
  · rw [show a + 2 ^ cw - b = a - b + 2 ^ cw by omega, Nat.add_mod_right, Nat.mod_eq_of_lt (by omega)]
  · exact Nat.mod_eq_of_lt (by omega)

theorem counterNext_of_lt {cw c : Nat} (hc : c < 2 ^ cw) : counterNext cw c = if c + 1 < 2 ^ cw then c + 1 else 0 := by
  unfold counterNext
  split
  · exact Nat.mod_eq_of_lt ‹_›
  · rw [show c + 1 = 2 ^ cw by omega, Nat.mod_self]

/-- One step of the first counter adds one to the difference, unless that wraps. -/
theorem counterDelta_next {cw a b : Nat} (ha : a < 2 ^ cw) (hb : b < 2 ^ cw) (h : counterDelta cw a b + 1 < 2 ^ cw) :
    counterDelta cw (counterNext cw a) b = counterDelta cw a b + 1 := by
  rw [counterDelta_of_lt ha hb] at h ⊢
  rw [counterDelta_of_lt (counterNext_lt cw a) hb, counterNext_of_lt ha]
  split_ifs at h ⊢ <;> omega

/-! ### Synchronisers -/

/-- The output of a synchroniser in which the value `b` still stands last. -/
theorem syncOut_append_replicate {α : Type} (d b : α) (xs : List α) (j : Nat) :
    syncOut d (xs ++ List.replicate (j + 1) b) = b := by
  rw [List.replicate_succ', ← List.append_assoc, syncOut, List.getLastD_concat]

/-- An edge moves the new value `v` one flip-flop on. -/
theorem shiftIn_replicate_append {α : Type} (v b : α) (i j : Nat) :
    shiftIn v (List.replicate i v ++ List.replicate (j + 1) b) = List.replicate (i + 1) v ++ List.replicate j b := by
  rw [List.replicate_succ', ← List.append_assoc, shiftIn, ← List.cons_append, List.dropLast_concat]
  rfl

theorem shiftIn_replicate {α : Type} (v : α) (n : Nat) : shiftIn v (List.replicate n v) = List.replicate n v := by
  rw [shiftIn, ← List.replicate_succ, List.replicate_succ', List.dropLast_concat]

/-! ### The crossing -/

variable {s t : State} {i j : Nat}

/-- The count and the gate agree with the capacity (10 R33), and the core domain's image of the pointer is its cursor. -/
structure CoreAgrees (s : State) : Prop where
  running : s.clrReq = false
  cursor : s.rbWcur = s.wsyncQ
  acc : s.rbAcc ≤ s.rbCap
  gate : s.rbGate = decide (s.rbAcc = s.rbCap)

/-- `i` flip-flops of the synchroniser show the producer's pointer, the `j` after them still the pointer that the core domain
has seen. -/
structure Crossing (s : State) (i j : Nat) : Prop where
  core : CoreAgrees s
  pointer : s.wptrW < 2 ^ s.params.cw
  image : s.wsyncQ < 2 ^ s.params.cw
  code : s.wptrG = gray s.wptrW
  chain : s.wsync = List.replicate i s.wptrG ++ List.replicate j (gray s.wsyncQ)
  stages : i + j = s.params.syncStages

/-- Taking the cursor that has been seen already changes nothing. -/
theorem takeCursor_seen (h : CoreAgrees s) : takeCursor s.wsyncQ s = s := by
  obtain ⟨hr, hcur, hacc, hgate⟩ := h
  rw [takeCursor_eq, if_neg (by simp [hr]), counterDelta_self, Nat.add_zero, Nat.min_eq_right hacc, ← hgate]
  cases s
  simp_all

/-- With the pointer seen and the synchroniser showing nothing else, there is nothing to settle. -/
theorem settleBeats_settled (h : CoreAgrees s) (hp : s.wptrW = s.wsyncQ)
    (hc : s.wsync = List.replicate s.params.syncStages s.wptrG) : settleBeats s = s := by
  rw [settleBeats, if_neg (by simp [h.running]), hp, takeCursor_seen h, ← hc]

/-- While the old value still stands last, an edge of `clk` only moves the synchroniser on. -/
theorem crossBeats_of_old (h : Crossing s i (j + 1)) :
    crossBeats s = { s with wsync := List.replicate (i + 1) s.wptrG ++ List.replicate j (gray s.wsyncQ) } := by
  rw [crossBeats, h.chain, syncOut_append_replicate, gray2bin_gray h.image, takeCursor_seen h.core,
    shiftIn_replicate_append]

/-- Once the new value stands last, an edge of `clk` settles the crossing. -/
theorem crossBeats_of_new (h : Crossing s (i + 1) 0) : crossBeats s = settleBeats s := by
  have hchain : s.wsync = [] ++ List.replicate (i + 1) s.wptrG := by simpa using h.chain
  rw [crossBeats, hchain, syncOut_append_replicate, h.code, gray2bin_gray h.pointer, List.nil_append,
    shiftIn_replicate, settleBeats, if_neg (by simp [h.core.running]), ← h.stages]
  simp only [h.code, Nat.add_zero]

/-- The edges that the synchroniser still needs, and one more, come to a settling (40 R171, R172). -/
theorem crossTimes_eq_settleBeats (hs : 0 < s.params.syncStages) (h : Crossing s i j) :
    crossTimes (j + 1) s = settleBeats s := by
  induction j generalizing s i with
  | zero =>
    obtain ⟨i, rfl⟩ : ∃ k, i = k + 1 := ⟨i - 1, by have := h.stages; omega⟩
    exact crossBeats_of_new h
  | succ j ih =>
    have hstep := crossBeats_of_old h
    have hnext : Crossing (crossBeats s) (i + 1) j := by
      rw [hstep]
      obtain ⟨hcore, hp, hi, hc, -, hn⟩ := h
      exact ⟨⟨hcore.running, hcore.cursor, hcore.acc, hcore.gate⟩, hp, hi, hc, rfl, by simp only; omega⟩
    have hstages : 0 < (crossBeats s).params.syncStages := by rw [hstep]; exact hs
    rw [crossTimes, ih hstages hnext, hstep, settleBeats_eq, settleBeats_eq]
    simp only [h.core.running, Bool.false_eq_true, if_false]

/-! ### Accepting and settling -/

/-- The producer takes beats, and none of those under way has entered the synchroniser. -/
structure Accepting (s : State) : Prop where
  crossing : Crossing s 0 s.params.syncStages
  ready : s.sReady = true
  cap : s.rbCap ≠ 0
  width : 2 ≤ s.params.cw

theorem accepting_of_settled (hi : Inv s) (hs : Settled s) (hr : Running s) : Accepting s where
  crossing :=
    { core := ⟨hs.running, hs.seen.symm, hi.acc, hi.gate⟩
      pointer := hi.cursors.2.2.1
      image := hi.cursors.2.2.2
      code := hi.codes.1
      chain := by rw [hs.chain, hs.seen]; rfl
      stages := Nat.zero_add _ }
  ready := hr.ready
  cap := (ispow2_pos hi.cap.1).ne'
  width := by have := hi.legal.2.2.2.1; omega

theorem acceptBeat_keeps_accepting {x : Sample} (h : Accepting s) (ha : acceptBeat x s = .next t) : Accepting t := by
  obtain ⟨⟨⟨hr, hcur, hacc, hgate⟩, -, hq, -, hchain, hn⟩, hready, hcap, hw⟩ := h
  rcases acceptBeat_eq_next.mp ha with ⟨h0, -⟩ | ⟨-, -, rfl⟩
  · exact absurd h0 hcap
  · exact ⟨⟨⟨hr, hcur, hacc, hgate⟩, counterNext_lt _ _, hq, rfl, hchain, hn⟩, hready, hcap, hw⟩

/-- A `PUT` that the producer takes is an accepted beat and then a settling (40 R160; log 10). -/
theorem exec_put_of_ready (x : Sample) (hr : s.sReady = true) (hc : s.rbCap ≠ 0) :
    exec (.put x.re x.im) s = andThen (acceptBeat x s) fun t => .next (settleBeats t) :=
  if_neg (by simp [hr, hc])

/-- Settling commutes with accepting: a beat after a settling, as a `PUT`, and a settling after the beat come to one
state. -/
theorem exec_put_settleBeats {x : Sample} (h : Accepting s) (ha : acceptBeat x s = .next t) :
    exec (.put x.re x.im) (settleBeats s) = .next (settleBeats t) := by
  obtain ⟨⟨⟨hr, -, -, -⟩, hp, hq, -, -, -⟩, hready, hcap, hw⟩ := h
  have hbound : 2 ^ 1 ≤ 2 ^ (s.params.cw - 1) := Nat.pow_le_pow_right (by decide) (by omega)
  have hhalf : 2 ^ (s.params.cw - 1) ≤ 2 ^ s.params.cw := Nat.pow_le_pow_right (by decide) (by omega)
  obtain ⟨h0, -⟩ | ⟨-, hroom, rfl⟩ := acceptBeat_eq_next.mp ha
  · exact absurd h0 hcap
  rw [hr, State.beatsInFlight] at hroom
  have hd := counterDelta_next hp hq (by simp at hroom; omega)
  have hd1 : counterDelta s.params.cw (counterNext s.params.cw s.wptrW) s.wptrW = 1 := by
    rw [counterDelta_next hp hp (by rw [counterDelta_self]; omega), counterDelta_self]
  have hsum : ∀ c a d : Nat, min c (min c (a + d) + 1) = min c (a + (d + 1)) := by omega
  have hsettled := settleBeats_eq s
  rw [if_neg (by simp [hr])] at hsettled
  rw [exec_put_of_ready x (by rw [hsettled]; exact hready) (by rw [hsettled]; exact hcap), hsettled]
  refine andThen_eq_next.mpr ⟨_, acceptBeat_eq_next.mpr (.inr ⟨hcap, .inr ?_, rfl⟩), ?_⟩
  · simp only [State.beatsInFlight, counterDelta_self]; omega
  · simp only [settleBeats_eq, State.setRbmem, hr, Bool.false_eq_true, if_false, hd, hd1, hsum]

/-- A burst and then a settling is as many `PUT`s after a settling. -/
theorem putAll_settleBeats {xs : List Sample} {u : State} (h : Accepting s) (ha : acceptAll xs s = .next u) :
    putAll xs (settleBeats s) = .next (settleBeats u) ∧ Accepting u ∧ u.params = s.params := by
  induction xs generalizing s with
  | nil => obtain rfl := Host.Outcome.next.inj ha; exact ⟨rfl, h, rfl⟩
  | cons x xs ih =>
    obtain ⟨t, hx, hxs⟩ := andThen_eq_next.mp ha
    obtain ⟨hput, hu, hparams⟩ := ih (acceptBeat_keeps_accepting h hx) hxs
    have hsame : t.params = s.params := by
      rcases acceptBeat_eq_next.mp hx with ⟨-, rfl⟩ | ⟨-, -, rfl⟩ <;> rfl
    refine ⟨?_, hu, hparams.trans hsame⟩
    rw [putAll, exec_put_settleBeats h hx, andThen_next, hput]

/-- Settles O20: settling commutes with accepting a beat, and the edges of `clk` come to a settling. -/
theorem crossingRefinesPuts : Obligations.CrossingRefinesPuts := by
  unfold Obligations.CrossingRefinesPuts
  intro s u xs hi hs hr ha
  have hstart : settleBeats s = s :=
    settleBeats_settled ⟨hs.running, hs.seen.symm, hi.acc, hi.gate⟩ (hs.pointer.trans hs.seen.symm)
      (by rw [hs.chain, hs.code])
  obtain ⟨hput, hu, hparams⟩ := putAll_settleBeats (accepting_of_settled hi hs hr) ha
  have hstages : 0 < u.params.syncStages := by
    rw [hparams]; have := hi.legal.2.2.2.2.2.1; omega
  rw [hstart] at hput
  rw [hput, ← hparams, crossTimes_eq_settleBeats hstages hu.crossing]

end Sys2Proof.Machine
end

section
/-! PROOFS. The fields of a binary32 pattern (30 R141) as arithmetic on its number, and what each says of a pattern built from
a sign and 31 bits. -/

namespace Sys2Proof.Machine

/-! ### The fields as numbers -/

theorem F32.expo_eq (x : F32) : F32.expo x = x.toNat / 2 ^ 23 % 2 ^ 8 := by
  simp [F32.expo, BitVec.extractLsb'_toNat, Nat.shiftRight_eq_div_pow]

theorem F32.frac_eq (x : F32) : F32.frac x = x.toNat % 2 ^ 23 := by
  simp [F32.frac, BitVec.extractLsb'_toNat]

theorem F32.sign_eq (x : F32) : F32.sign x = decide (2 ^ 31 ≤ x.toNat) := BitVec.msb_eq_decide x

theorem F32.frac_lt (x : F32) : F32.frac x < 2 ^ 23 := by
  rw [F32.frac_eq]; exact Nat.mod_lt _ (by decide)

theorem F32.signif_lt (x : F32) : F32.signif x < 2 ^ 24 := by
  have := F32.frac_lt x
  unfold F32.signif
  split <;> omega

theorem F32.isInf_iff (x : F32) : F32.isInf x = true ↔ F32.expo x = 255 ∧ F32.frac x = 0 := by simp [F32.isInf]

theorem F32.isNaN_iff (x : F32) : F32.isNaN x = true ↔ F32.expo x = 255 ∧ F32.frac x ≠ 0 := by simp [F32.isNaN]

/-- An infinity is neither a NaN nor a zero. -/
theorem F32.not_nan_of_inf {x : F32} (h : F32.isInf x = true) : F32.isNaN x = false ∧ F32.isZero x = false := by
  rw [F32.isInf_iff] at h
  simp [F32.isNaN, F32.isZero, h]

/-- A pattern is its sign and its 31 lower bits. -/
theorem F32.eq_withSign (x : F32) : x = withSign (F32.sign x) (F32.expo x * 2 ^ 23 + F32.frac x) := by
  have hx := x.isLt
  apply BitVec.eq_of_toNat_eq
  rw [withSign, BitVec.toNat_ofNat, F32.sign_eq, F32.expo_eq, F32.frac_eq]
  by_cases h : 2 ^ 31 ≤ x.toNat
  · rw [if_pos (decide_eq_true h)]; omega
  · rw [if_neg (by simpa using h)]; omega

/-- An infinity is determined by its sign. -/
theorem F32.eq_of_isInf {x : F32} (h : F32.isInf x = true) : x = withSign (F32.sign x) 0x7F800000 := by
  obtain ⟨he, hf⟩ := (F32.isInf_iff x).mp h
  calc x = withSign (F32.sign x) (255 * 2 ^ 23 + 0) := by rw [← he, ← hf, ← F32.eq_withSign x]
    _ = _ := rfl

/-! ### The value -/

theorem F32.natAbs_fix (x : F32) : (F32.fix x).natAbs = F32.mag x := by
  unfold F32.fix; split <;> simp

/-- The sign of a value other than 0 is the sign of its pattern. -/
theorem F32.fix_neg_iff {x : F32} (h : F32.fix x ≠ 0) : F32.fix x < 0 ↔ F32.sign x = true := by
  unfold F32.fix at h ⊢
  cases hs : F32.sign x
  · simp
  · simp only [hs, if_true, iff_true] at h ⊢
    omega

/-! ### Patterns built from a sign and 31 bits -/

section WithSign

variable {neg : Bool} {m : Nat}

theorem toNat_withSign (h : m < 2 ^ 31) : (withSign neg m).toNat = if neg then 2 ^ 31 + m else m := by
  rw [withSign, BitVec.toNat_ofNat]
  split <;> omega

theorem sign_withSign (h : m < 2 ^ 31) : F32.sign (withSign neg m) = neg := by
  rw [F32.sign_eq, toNat_withSign h]
  cases neg
  · exact decide_eq_false (by simpa using h)
  · exact decide_eq_true (Nat.le_add_right _ _)

theorem expo_withSign (h : m < 2 ^ 31) : F32.expo (withSign neg m) = m / 2 ^ 23 := by
  rw [F32.expo_eq, toNat_withSign h]
  split <;> omega

theorem frac_withSign (h : m < 2 ^ 31) : F32.frac (withSign neg m) = m % 2 ^ 23 := by
  rw [F32.frac_eq, toNat_withSign h]
  split <;> omega

/-- Up to the pattern of an infinity there is no NaN. -/
theorem isNaN_withSign (h : m ≤ 0x7F800000) : F32.isNaN (withSign neg m) = false := by
  rw [← Bool.not_eq_true, F32.isNaN_iff, expo_withSign (by omega), frac_withSign (by omega)]
  omega

theorem isInf_withSign (h : m ≤ 0x7F800000) : F32.isInf (withSign neg m) = true ↔ m = 0x7F800000 := by
  rw [F32.isInf_iff, expo_withSign (by omega), frac_withSign (by omega)]
  omega

/-- The magnitude of a pattern written as a place `u` and a significand `r` of 24 bits, or the carry out of them. -/
theorem mag_withSign {u r : Nat} (hr : r ≤ 2 ^ 24) (hu : u = 0 ∨ 2 ^ 23 ≤ r) (hm : u * 2 ^ 23 + r < 2 ^ 31) :
    F32.mag (withSign neg (u * 2 ^ 23 + r)) = r * 2 ^ u := by
  rw [F32.mag, F32.signif, expo_withSign hm, frac_withSign hm]
  rcases Nat.lt_or_ge r (2 ^ 23) with h | h
  · obtain rfl : u = 0 := by omega
    rw [show (0 * 2 ^ 23 + r) / 2 ^ 23 = 0 by omega, show (0 * 2 ^ 23 + r) % 2 ^ 23 = r by omega]
    rfl
  · rcases Nat.lt_or_ge r (2 ^ 24) with h' | h'
    · rw [show (u * 2 ^ 23 + r) / 2 ^ 23 = u + 1 by omega, show (u * 2 ^ 23 + r) % 2 ^ 23 = r - 2 ^ 23 by omega,
        if_neg (by omega), Nat.sub_add_cancel h, Nat.max_eq_left (by omega), Nat.add_sub_cancel]
    · rw [show (u * 2 ^ 23 + r) / 2 ^ 23 = u + 2 by omega, show (u * 2 ^ 23 + r) % 2 ^ 23 = 0 by omega,
        if_neg (by omega), Nat.max_eq_left (by omega), show r = 2 ^ 23 * 2 by omega, show u + 2 - 1 = u + 1 by omega]
      ring

end WithSign

/-! ### Flipping the sign -/

theorem extractLsb'_fneg (x : F32) {i n : Nat} (h : (0x80000000 : F32).extractLsb' i n = 0) :
    (fneg x).extractLsb' i n = x.extractLsb' i n := by
  rw [fneg, BitVec.extractLsb'_xor, h]; exact BitVec.xor_zero

@[simp] theorem expo_fneg (x : F32) : F32.expo (fneg x) = F32.expo x :=
  congrArg BitVec.toNat (extractLsb'_fneg x (by decide))

@[simp] theorem frac_fneg (x : F32) : F32.frac (fneg x) = F32.frac x :=
  congrArg BitVec.toNat (extractLsb'_fneg x (by decide))

@[simp] theorem sign_fneg (x : F32) : F32.sign (fneg x) = !F32.sign x := by
  rw [F32.sign, fneg, BitVec.getLsbD_xor]
  exact Bool.xor_true _

@[simp] theorem isNaN_fneg (x : F32) : F32.isNaN (fneg x) = F32.isNaN x := by simp [F32.isNaN]

@[simp] theorem isInf_fneg (x : F32) : F32.isInf (fneg x) = F32.isInf x := by simp [F32.isInf]

@[simp] theorem fix_fneg (x : F32) : F32.fix (fneg x) = -F32.fix x := by
  have hm : F32.mag (fneg x) = F32.mag x := by simp [F32.mag, F32.signif]
  rw [F32.fix, F32.fix, sign_fneg, hm]
  cases F32.sign x <;> simp

/-- What a finite pattern stands for (30 R141). -/
theorem fix_value (x : F32) :
    (F32.fix x : ℚ) / 2 ^ 149 = (-1) ^ (F32.sign x).toNat *
      (if F32.expo x = 0 then (F32.frac x : ℚ) / 2 ^ 23 / 2 ^ 126
       else (1 + (F32.frac x : ℚ) / 2 ^ 23) * 2 ^ F32.expo x / 2 ^ 127) := by
  have hmag : (F32.mag x : ℚ) / 2 ^ 149 =
      if F32.expo x = 0 then (F32.frac x : ℚ) / 2 ^ 23 / 2 ^ 126
      else (1 + (F32.frac x : ℚ) / 2 ^ 23) * 2 ^ F32.expo x / 2 ^ 127 := by
    unfold F32.mag F32.signif
    split
    · rename_i h
      rw [h, show max 0 1 - 1 = 0 from rfl]
      push_cast
      ring
    · obtain ⟨e, he⟩ := Nat.exists_eq_add_one_of_ne_zero ‹_›
      rw [he, Nat.max_eq_left (by omega), Nat.add_sub_cancel]
      push_cast
      ring
  rw [← hmag, F32.fix]
  cases F32.sign x <;> simp
  ring

end Sys2Proof.Machine
end

section
/-! PROOFS. `RN` (00 R9): the significand that `roundMag` takes is the nearest multiple of the last place, ties to even; no
pattern of a finer place comes nearer; and an infinity begins at half a last place above the largest finite pattern. -/

namespace Sys2Proof.Machine

/-! ### Rounding an integer quotient -/

/-- The quotient rounds up from half a unit on, the half itself if the unit below is odd. -/
theorem roundNearestEven_eq (n k : Nat) :
    roundNearestEven n k =
      if 2 ^ k < 2 * (n % 2 ^ k) ∨ (2 * (n % 2 ^ k) = 2 ^ k ∧ n / 2 ^ k % 2 = 1) then n / 2 ^ k + 1 else n / 2 ^ k := rfl

/-- No multiple of `2^k` is nearer to `n` than the rounded one, and one as near leaves it even. -/
theorem roundNearestEven_nearest (n k : Nat) (t : Int) :
    |(roundNearestEven n k : Int) * 2 ^ k - n| ≤ |t * 2 ^ k - n| ∧
      (|(roundNearestEven n k : Int) * 2 ^ k - n| = |t * 2 ^ k - n| → t ≠ roundNearestEven n k →
        roundNearestEven n k % 2 = 0) := by
  obtain ⟨d, hd⟩ : ∃ d : Nat, d = 2 ^ k := ⟨_, rfl⟩
  have hpos : 0 < d := hd ▸ Nat.two_pow_pos k
  have hdz : (2 : Int) ^ k = d := by rw [hd]; norm_cast
  obtain ⟨q, r, hq, hr⟩ : ∃ q r, n / d = q ∧ n % d = r := ⟨_, _, rfl, rfl⟩
  have hn : (n : Int) = d * q + r := by rw [← hq, ← hr]; exact_mod_cast (Nat.div_add_mod n d).symm
  have hrd : r < d := hr ▸ Nat.mod_lt n hpos
  -- `t` is `e` units from the quotient, so `e·d - r` is its distance
  obtain ⟨e, rfl⟩ : ∃ e : Int, t = q + e := ⟨t - q, by ring⟩
  have ht : (q + e) * (d : Int) - n = e * d - r := by rw [hn]; ring
  have hfar : e ≤ -1 ∧ e * (d : Int) ≤ -d ∨ e = 0 ∧ e * (d : Int) = 0 ∨ e = 1 ∧ e * (d : Int) = d ∨
      2 ≤ e ∧ 2 * (d : Int) ≤ e * d := by
    rcases lt_trichotomy e 0 with h | h | h
    · exact .inl ⟨by omega, by nlinarith⟩
    · exact .inr (.inl ⟨h, by simp [h]⟩)
    · rcases eq_or_lt_of_le (show 1 ≤ e from h) with h | h
      · exact .inr (.inr (.inl ⟨h.symm, by simp [← h]⟩))
      · exact .inr (.inr (.inr ⟨by omega, by nlinarith⟩))
  have hup : ((q + 1 : Nat) : Int) * d - n = d - r := by rw [hn]; push_cast; ring
  have hdown : (q : Int) * d - n = -r := by rw [hn]; ring
  rw [roundNearestEven_eq, hdz, ← hd, hq, hr, ht]
  clear ht hn
  generalize e * (d : Int) = m at hfar
  have hdist := abs_cases (m - r)
  split
  · rw [hup, abs_of_nonneg (by omega)]
    push_cast
    omega
  · rw [hdown, abs_neg, abs_of_nonneg (by omega)]
    omega

theorem le_roundNearestEven {a n k : Nat} (h : a * 2 ^ k ≤ n) : a ≤ roundNearestEven n k := by
  have hq : a ≤ n / 2 ^ k := (Nat.le_div_iff_mul_le (Nat.two_pow_pos k)).mpr h
  rw [roundNearestEven_eq]
  split <;> omega

theorem roundNearestEven_le {b n k : Nat} (h : n < b * 2 ^ k) : roundNearestEven n k ≤ b := by
  have hq : n / 2 ^ k < b := (Nat.div_lt_iff_lt_mul (Nat.two_pow_pos k)).mpr h
  rw [roundNearestEven_eq]
  split <;> omega

/-- An even quotient is reached from half a unit below it on. -/
theorem le_roundNearestEven_iff {b n k : Nat} (hb : b % 2 = 0) (hpos : 0 < b) :
    b ≤ roundNearestEven n k ↔ (2 * b - 1) * 2 ^ k ≤ 2 * n := by
  have hmod := Nat.mod_lt n (Nat.two_pow_pos k)
  have hn := Nat.div_add_mod' n (2 ^ k)
  rw [roundNearestEven_eq]
  generalize n / 2 ^ k = q at *
  generalize n % 2 ^ k = r at *
  generalize 2 ^ k = d at *
  rcases Nat.lt_trichotomy (q + 1) b with h | rfl | h
  · have hfar : (q + 1) * 2 * d + d ≤ (2 * b - 1) * d := by
      rw [← Nat.succ_mul]; exact Nat.mul_le_mul_right d (by omega)
    have hqd : (q + 1) * 2 * d = 2 * (q * d) + 2 * d := by ring
    refine ⟨fun h' => ?_, fun h' => ?_⟩
    · split at h' <;> omega
    · omega
  · have hqd : (2 * (q + 1) - 1) * d = 2 * (q * d) + d := by
      rw [show 2 * (q + 1) - 1 = 2 * q + 1 by omega]; ring
    rw [hqd]
    split <;> omega
  · have hnear : (2 * b - 1) * d ≤ 2 * q * d := Nat.mul_le_mul_right d (by omega)
    have hqd : 2 * q * d = 2 * (q * d) := by ring
    refine ⟨fun _ => by omega, fun _ => ?_⟩
    split <;> omega

/-! ### The place of the last bit -/

/-- The place of the last fraction bit of `RN(n / 2^q)`, counted from 2^-149. -/
def lastPlace (q n : Nat) : Nat := n.log2 + 126 - q

/-- The significand of `RN(n / 2^q)`, in units of the last place. -/
def roundedSignif (q n : Nat) : Nat := roundNearestEven n (lastPlace q n + (q - 149))

theorem roundMag_eq (q n : Nat) :
    roundMag q n = min (lastPlace q n * 2 ^ 23 + roundedSignif q n) 0x7F800000 := rfl

section Rounding

variable {q n : Nat}

/-- Between two powers of two: `n` has 24 bits above the last place, unless the last place is that of the subnormals. -/
theorem bounds_of_lastPlace (hq : 149 ≤ q) (hn : n ≠ 0) :
    n < 2 ^ 24 * 2 ^ (lastPlace q n + (q - 149)) ∧
      (lastPlace q n = 0 ∨ 2 ^ 23 * 2 ^ (lastPlace q n + (q - 149)) ≤ n) := by
  have hlow := Nat.log2_self_le hn
  have hhigh := Nat.lt_log2_self (n := n)
  simp only [lastPlace, ← Nat.pow_add]
  refine ⟨Nat.lt_of_lt_of_le hhigh (Nat.pow_le_pow_right (by decide) (by omega)), ?_⟩
  rcases Nat.lt_or_ge q (n.log2 + 126) with h | h
  · right
    rwa [show 23 + (n.log2 + 126 - q + (q - 149)) = n.log2 by omega]
  · left; omega

theorem roundedSignif_bounds (hq : 149 ≤ q) (hn : n ≠ 0) :
    roundedSignif q n ≤ 2 ^ 24 ∧ (lastPlace q n = 0 ∨ 2 ^ 23 ≤ roundedSignif q n) := by
  obtain ⟨hlt, hle⟩ := bounds_of_lastPlace hq hn
  exact ⟨roundNearestEven_le hlt, hle.imp_right le_roundNearestEven⟩

/-- The rounding overflows from half a last place above the largest finite pattern on. -/
theorem overflow_iff (hq : 149 ≤ q) (hn : n ≠ 0) :
    0x7F800000 ≤ lastPlace q n * 2 ^ 23 + roundedSignif q n ↔ (2 ^ 25 - 1) * 2 ^ (q + 103) ≤ n := by
  obtain ⟨hle, hge⟩ := roundedSignif_bounds hq hn
  obtain ⟨hlt, hpow⟩ := bounds_of_lastPlace hq hn
  rcases Nat.lt_trichotomy (lastPlace q n) 253 with hu | hu | hu
  · have hsmall : 2 ^ (lastPlace q n + (q - 149)) ≤ 2 ^ (q + 103) := Nat.pow_le_pow_right (by decide) (by omega)
    omega
  · have htop : 0x7F800000 ≤ lastPlace q n * 2 ^ 23 + roundedSignif q n ↔ 2 ^ 24 ≤ roundedSignif q n := by omega
    have hk : 2 ^ (lastPlace q n + (q - 149)) = 2 * 2 ^ (q + 103) := by
      rw [hu, show 253 + (q - 149) = q + 103 + 1 by omega, Nat.pow_succ, Nat.mul_comm]
    rw [htop, roundedSignif, le_roundNearestEven_iff (by decide) (by decide), hk]
    omega
  · have hbig : 2 ^ 2 * 2 ^ (q + 103) ≤ 2 ^ (lastPlace q n + (q - 149)) := by
      rw [← Nat.pow_add]; exact Nat.pow_le_pow_right (by decide) (by omega)
    omega

theorem roundMag_le (q n : Nat) : roundMag q n ≤ 0x7F800000 := Nat.min_le_right _ _

theorem roundMag_inf_iff (hq : 149 ≤ q) (hn : n ≠ 0) :
    roundMag q n = 0x7F800000 ↔ (2 ^ 25 - 1) * 2 ^ (q + 103) ≤ n := by
  rw [← overflow_iff hq hn, roundMag_eq]
  omega

/-- A finite result is the rounded significand at its place. -/
theorem roundMag_finite (h : roundMag q n ≠ 0x7F800000) :
    roundMag q n = lastPlace q n * 2 ^ 23 + roundedSignif q n := by
  rw [roundMag_eq] at h ⊢
  omega

theorem mag_roundMag {neg : Bool} (hq : 149 ≤ q) (hn : n ≠ 0) (h : roundMag q n ≠ 0x7F800000) :
    F32.mag (withSign neg (roundMag q n)) = roundedSignif q n * 2 ^ lastPlace q n := by
  obtain ⟨hle, hge⟩ := roundedSignif_bounds hq hn
  have hlt := roundMag_le q n
  rw [roundMag_finite h] at hlt ⊢
  exact mag_withSign hle hge (by omega)

/-- No value of a pattern is nearer to `n / 2^q` than the rounded one, and one as near leaves the significand even. -/
theorem roundedSignif_nearest (hq : 149 ≤ q) (hn : n ≠ 0) {f : Int} {y : F32} (hf : f.natAbs = F32.mag y) :
    |((roundedSignif q n * 2 ^ lastPlace q n : Nat) : Int) * 2 ^ (q - 149) - n| ≤ |f * 2 ^ (q - 149) - n| ∧
      (|((roundedSignif q n * 2 ^ lastPlace q n : Nat) : Int) * 2 ^ (q - 149) - n| = |f * 2 ^ (q - 149) - n| →
        f ≠ (roundedSignif q n * 2 ^ lastPlace q n : Nat) → roundedSignif q n % 2 = 0) := by
  have hgrid : ∀ t : Int, t * 2 ^ lastPlace q n * 2 ^ (q - 149) = t * 2 ^ (lastPlace q n + (q - 149)) := fun t => by
    rw [pow_add, mul_assoc]
  have hround : ((roundedSignif q n * 2 ^ lastPlace q n : Nat) : Int) * 2 ^ (q - 149) =
      roundNearestEven n (lastPlace q n + (q - 149)) * 2 ^ (lastPlace q n + (q - 149)) := by
    rw [← hgrid]; push_cast; rfl
  rw [hround]
  rcases Nat.lt_or_ge (max (F32.expo y) 1 - 1) (lastPlace q n) with hv | hv
  · -- `y` is below the power of two under `n`, which is a multiple of the last place itself
    have hpow : 2 ^ 23 * 2 ^ (lastPlace q n + (q - 149)) ≤ n :=
      (bounds_of_lastPlace hq hn).2.resolve_left (by omega)
    have hsmall : F32.mag y < 2 ^ 23 * 2 ^ lastPlace q n := by
      calc F32.mag y < 2 ^ 24 * 2 ^ (max (F32.expo y) 1 - 1) :=
            Nat.mul_lt_mul_of_pos_right (F32.signif_lt y) (Nat.two_pow_pos _)
        _ ≤ 2 ^ 24 * 2 ^ (lastPlace q n - 1) :=
            Nat.mul_le_mul_left _ (Nat.pow_le_pow_right (by decide) (by omega))
        _ = 2 ^ 23 * 2 ^ lastPlace q n := by rw [← Nat.pow_add, ← Nat.pow_add]; congr 1; omega
    have hf' : f * 2 ^ (q - 149) < 2 ^ 23 * 2 ^ (lastPlace q n + (q - 149)) := by
      rw [← hgrid]
      exact mul_lt_mul_of_pos_right (by zify at hsmall; omega) (by positivity)
    have hnear := (roundNearestEven_nearest n (lastPlace q n + (q - 149)) (2 ^ 23)).1
    zify at hpow
    have hstrict : |(2 : Int) ^ 23 * 2 ^ (lastPlace q n + (q - 149)) - n| < |f * 2 ^ (q - 149) - n| := by
      rw [abs_of_nonpos (by linarith), abs_of_nonpos (by linarith)]
      linarith
    exact ⟨(hnear.trans_lt hstrict).le, fun heq => absurd heq (hnear.trans_lt hstrict).ne⟩
  · -- `y` is a multiple of the last place
    obtain ⟨t, rfl⟩ : (2 : Int) ^ lastPlace q n ∣ f := by
      rw [← Int.natAbs_dvd_natAbs, hf, F32.mag, Int.natAbs_pow]
      exact Dvd.dvd.mul_left (pow_dvd_pow _ hv) _
    rw [mul_comm ((2 : Int) ^ lastPlace q n), hgrid]
    obtain ⟨hnear, htie⟩ := roundNearestEven_nearest n (lastPlace q n + (q - 149)) t
    refine ⟨hnear, fun heq hne => htie heq fun ht => hne ?_⟩
    rw [ht]; push_cast; rfl

end Rounding

/-! ### Rounding an integer -/

variable {q : Nat} {z : Int}

theorem sign_roundInt (q : Nat) (z : Int) : F32.sign (roundInt q z) = decide (z < 0) :=
  sign_withSign (by have := roundMag_le q z.natAbs; omega)

theorem isNaN_roundInt (q : Nat) (z : Int) : F32.isNaN (roundInt q z) = false := isNaN_withSign (roundMag_le q _)

theorem isInf_roundInt (hq : 149 ≤ q) (hz : z ≠ 0) :
    F32.isInf (roundInt q z) = true ↔ (2 ^ 25 - 1) * 2 ^ (q + 103) ≤ z.natAbs := by
  rw [← roundMag_inf_iff hq (Int.natAbs_ne_zero.mpr hz)]
  exact isInf_withSign (roundMag_le q _)

/-- A finite result in terms of its place and significand: its value, and its lowest bit. -/
theorem roundInt_finite (hq : 149 ≤ q) (hz : z ≠ 0) (h : F32.isInf (roundInt q z) = false) :
    F32.fix (roundInt q z) = z.sign * (roundedSignif q z.natAbs * 2 ^ lastPlace q z.natAbs : Nat) ∧
      (roundInt q z).getLsbD 0 = decide (roundedSignif q z.natAbs % 2 = 1) := by
  have hn := Int.natAbs_ne_zero.mpr hz
  have hfin : roundMag q z.natAbs ≠ 0x7F800000 := fun h' =>
    Bool.eq_false_iff.mp h ((isInf_withSign (roundMag_le q _)).mpr h')
  have hlt := roundMag_le q z.natAbs
  constructor
  · rw [F32.fix, sign_roundInt, roundInt, mag_roundMag hq hn hfin]
    rcases lt_or_gt_of_ne hz with h | h
    · simp [h, Int.sign_eq_neg_one_of_neg h]
    · simp [not_lt_of_gt h, Int.sign_eq_one_of_pos h]
  · rw [BitVec.getLsbD, roundInt, toNat_withSign (by omega), Nat.testBit_zero, roundMag_finite hfin]
    congr 1
    split <;> exact propext (by omega)

/-- `RN` is nearest: no finite pattern has a value nearer to `z / 2^q`, and one as near leaves an even pattern (00 R9). -/
theorem roundInt_nearest (hq : 149 ≤ q) (hz : z ≠ 0) (h : F32.isInf (roundInt q z) = false) (y : F32) :
    |F32.fix (roundInt q z) * 2 ^ (q - 149) - z| ≤ |F32.fix y * 2 ^ (q - 149) - z| ∧
      (|F32.fix (roundInt q z) * 2 ^ (q - 149) - z| = |F32.fix y * 2 ^ (q - 149) - z| →
        F32.fix y ≠ F32.fix (roundInt q z) → (roundInt q z).getLsbD 0 = false) := by
  obtain ⟨hfix, hbit⟩ := roundInt_finite hq hz h
  have hself : z.sign * z.sign = 1 := by rw [← abs_mul_abs_self, Int.abs_sign_of_ne_zero hz, one_mul]
  -- multiplied by the sign of `z`, both distances are distances to its absolute value
  have habs : ∀ f : Int, |f * 2 ^ (q - 149) - z| = |z.sign * f * 2 ^ (q - 149) - z.natAbs| := fun f => by
    have hz' : (z.natAbs : Int) = z.sign * z := (Int.sign_mul_self_eq_natAbs z).symm
    rw [hz', mul_assoc, ← mul_sub, abs_mul, Int.abs_sign_of_ne_zero hz, one_mul]
  have hy : (z.sign * F32.fix y).natAbs = F32.mag y := by
    rw [Int.natAbs_mul, Int.natAbs_sign_of_ne_zero hz, one_mul, F32.natAbs_fix]
  obtain ⟨hnear, htie⟩ := roundedSignif_nearest hq (Int.natAbs_ne_zero.mpr hz) hy
  rw [habs, habs, hfix, ← mul_assoc, hself, one_mul, hbit]
  refine ⟨hnear, fun heq hne => ?_⟩
  have := htie heq fun h' => hne ?_
  · simp [this]
  · rw [← h', ← mul_assoc, hself, one_mul]

end Sys2Proof.Machine
end

section
/-! PROOFS. The three binary32 operations (41 R220-R225): of finite operands the exact result rounded once, or the zero of its
sign; with an infinite operand the infinity. -/

namespace Sys2Proof.Machine

variable {a b : F32}

/-! ### Finite operands -/

theorem fadd_finite (ha : F32.isNaN a = false) (ha' : F32.isInf a = false) (hb : F32.isNaN b = false)
    (hb' : F32.isInf b = false) :
    fadd a b = if F32.fix a + F32.fix b = 0 then withSign (F32.sign a && F32.sign b) 0
      else roundInt 149 (F32.fix a + F32.fix b) := by
  simp [fadd, ha, ha', hb, hb']

theorem fsub_finite (ha : F32.isNaN a = false) (ha' : F32.isInf a = false) (hb : F32.isNaN b = false)
    (hb' : F32.isInf b = false) :
    fsub a b = if F32.fix a - F32.fix b = 0 then withSign (F32.sign a && !F32.sign b) 0
      else roundInt 149 (F32.fix a - F32.fix b) := by
  rw [fsub, fadd_finite ha ha' (by simpa using hb) (by simpa using hb'), fix_fneg, sign_fneg, Int.sub_eq_add_neg]

theorem fmul_finite (ha : F32.isNaN a = false) (ha' : F32.isInf a = false) (hb : F32.isNaN b = false)
    (hb' : F32.isInf b = false) :
    fmul a b = withSign (F32.sign a != F32.sign b) (roundMag 298 (F32.fix a * F32.fix b).natAbs) := by
  rw [Int.natAbs_mul, F32.natAbs_fix, F32.natAbs_fix]
  simp [fmul, ha, ha', hb, hb']

/-- The sign of a product other than 0 is the XOR of the signs (41 R225). -/
theorem fix_mul_neg_iff (h : F32.fix a * F32.fix b ≠ 0) :
    F32.fix a * F32.fix b < 0 ↔ (F32.sign a != F32.sign b) = true := by
  obtain ⟨ha, hb⟩ := mul_ne_zero_iff.mp h
  have hsa := F32.fix_neg_iff ha
  have hsb := F32.fix_neg_iff hb
  have hpa : 0 < F32.fix a ↔ ¬ F32.fix a < 0 := by omega
  have hpb : 0 < F32.fix b ↔ ¬ F32.fix b < 0 := by omega
  rw [mul_neg_iff, hpa, hpb, hsa, hsb]
  cases F32.sign a <;> cases F32.sign b <;> simp

theorem fmul_nonzero (ha : F32.isNaN a = false) (ha' : F32.isInf a = false) (hb : F32.isNaN b = false)
    (hb' : F32.isInf b = false) (h : F32.fix a * F32.fix b ≠ 0) :
    fmul a b = roundInt 298 (F32.fix a * F32.fix b) := by
  have hsign : decide (F32.fix a * F32.fix b < 0) = (F32.sign a != F32.sign b) :=
    Bool.eq_iff_iff.mpr (decide_eq_true_iff.trans (fix_mul_neg_iff h))
  rw [fmul_finite ha ha' hb hb', roundInt, hsign]

theorem withSign_zero (neg : Bool) : withSign neg 0 = if neg = true then 0x80000000 else 0x00000000 := by
  cases neg <;> rfl

/-! ### An infinite operand -/

/-- A sum with an infinity is that infinity, unless the other operand is the opposite one. -/
theorem fadd_inf (ha : F32.isInf a = true) (hb : F32.isNaN b = false)
    (h : F32.isInf b = false ∨ F32.sign a = F32.sign b) : fadd a b = a ∧ fadd b a = a := by
  have hna := (F32.not_nan_of_inf ha).1
  cases hb' : F32.isInf b with
  | false => simp [fadd, ha, hb, hb', hna]
  | true =>
    have hsign : F32.sign a = F32.sign b := h.resolve_left (by simp [hb'])
    have hsame : b = a := by rw [F32.eq_of_isInf ha, F32.eq_of_isInf hb', hsign]
    subst hsame
    simp [fadd, ha, hna]

theorem fsub_inf (ha : F32.isInf a = true) (hb : F32.isNaN b = false)
    (h : F32.isInf b = false ∨ F32.sign a ≠ F32.sign b) : fsub a b = a ∧ fsub b a = a ^^^ 0x80000000 := by
  constructor
  · refine (fadd_inf ha (by simpa using hb) (h.imp (by simp) fun hs => ?_)).1
    rw [sign_fneg, Bool.eq_not]
    exact hs
  · refine (fadd_inf (a := fneg a) (by simpa using ha) hb (h.imp id fun hs => ?_)).2
    rw [sign_fneg, Bool.not_eq]
    exact hs

theorem fmul_inf (ha : F32.isInf a = true) (hb : F32.isNaN b = false) (hz : F32.isZero b = false) :
    fmul a b = fmul b a ∧ fmul a b = if F32.sign a = F32.sign b then 0x7F800000 else 0xFF800000 := by
  obtain ⟨hna, hza⟩ := F32.not_nan_of_inf ha
  have hval : ∀ neg : Bool, withSign neg 0x7F800000 = if neg = false then 0x7F800000 else 0xFF800000 := by decide
  have hab : fmul a b = withSign (F32.sign a != F32.sign b) 0x7F800000 := by simp [fmul, ha, hb, hna, hz, hza]
  have hba : fmul b a = withSign (F32.sign b != F32.sign a) 0x7F800000 := by simp [fmul, ha, hb, hna, hz, hza]
  rw [hab, hba, hval]
  refine ⟨by rw [← hval, bne_comm], by simp⟩

/-- Settles O29: the value of a pattern, `RN` as the nearest one, and the operations by their operands. -/
theorem arithmeticRoundsOnceToNearest : Obligations.ArithmeticRoundsOnceToNearest := by
  unfold Obligations.ArithmeticRoundsOnceToNearest
  refine ⟨fun x _ _ => fix_value x, fun q z hq hz => ?_, fun a b ha ha' hb hb' => ?_, fun a b ha hb => ?_⟩
  · exact ⟨sign_roundInt q z, isNaN_roundInt q z, isInf_roundInt hq hz, fun hf y _ _ => roundInt_nearest hq hz hf y⟩
  · refine ⟨fun h => ?_, fun h => ?_, fmul_nonzero ha ha' hb hb', fun h => ?_, fun h => ?_, fun h => ?_⟩
    · rw [fadd_finite ha ha' hb hb', if_neg h]
    · rw [fsub_finite ha ha' hb hb', if_neg h]
    · rw [fadd_finite ha ha' hb hb', if_pos h, withSign_zero]; simp
    · rw [fsub_finite ha ha' hb hb', if_pos h, withSign_zero]; simp
    · have hzero : roundMag 298 (0 : Int).natAbs = 0 := by decide
      rw [fmul_finite ha ha' hb hb', h, hzero, withSign_zero]
      cases F32.sign a <;> cases F32.sign b <;> rfl
  · exact ⟨fadd_inf ha hb, fsub_inf ha hb, fmul_inf ha hb⟩

end Sys2Proof.Machine
end

section
/-! PROOFS. A pattern is the nearest one to a real value as soon as both ends of an interval that holds the value round to
it. -/

namespace Sys2Proof.Machine

/-- To be at least as near to `x` as another point is a half line in `x`, so what holds at both ends of an interval holds in
it. -/
theorem abs_sub_le_of_enclosed {a y x lo hi : ℝ} (hlo : lo ≤ x) (hhi : x ≤ hi) (h1 : |a - lo| ≤ |y - lo|)
    (h2 : |a - hi| ≤ |y - hi|) : |a - x| ≤ |y - x| := by
  rw [← sq_le_sq] at h1 h2 ⊢
  rcases le_total a y with h | h <;> nlinarith

/-- Where both ends of an enclosure of `2^q·x` round to `p`, no pattern has a value nearer to `x` than `p`. -/
theorem nearest_of_enclosed {q : Nat} {lo hi : Int} {x : ℝ} {p : F32} (hq : 149 ≤ q) (hlo : lo ≠ 0) (hhi : hi ≠ 0)
    (hle : (lo : ℝ) ≤ 2 ^ q * x) (hge : 2 ^ q * x ≤ hi) (hpl : roundInt q lo = p) (hph : roundInt q hi = p)
    (hf : F32.isInf p = false) (y : F32) :
    |(F32.fix p : ℝ) / 2 ^ 149 - x| ≤ |(F32.fix y : ℝ) / 2 ^ 149 - x| := by
  have hl := (roundInt_nearest hq hlo (by rw [hpl]; exact hf) y).1
  have hh := (roundInt_nearest hq hhi (by rw [hph]; exact hf) y).1
  rw [hpl] at hl
  rw [hph] at hh
  have hmid := abs_sub_le_of_enclosed (a := ((F32.fix p * 2 ^ (q - 149) : Int) : ℝ))
    (y := ((F32.fix y * 2 ^ (q - 149) : Int) : ℝ)) hle hge (by exact_mod_cast hl) (by exact_mod_cast hh)
  have hpow : (2 : ℝ) ^ q = 2 ^ 149 * 2 ^ (q - 149) := by rw [← pow_add, Nat.add_sub_cancel' hq]
  have hscale : ∀ f : Int,
      |((f * 2 ^ (q - 149) : Int) : ℝ) - 2 ^ q * x| = 2 ^ q * |(f : ℝ) / 2 ^ 149 - x| := fun f => by
    have hmul : ((f * 2 ^ (q - 149) : Int) : ℝ) - 2 ^ q * x = 2 ^ q * ((f : ℝ) / 2 ^ 149 - x) := by
      rw [hpow]
      push_cast
      field_simp
    rw [hmul, abs_mul, abs_of_nonneg (by positivity)]
  rw [hscale, hscale] at hmid
  exact le_of_mul_le_mul_left hmid (by positivity)

end Sys2Proof.Machine
end

section
/-! PROOFS. The constants of the transform (41 R207, R208). A bound on a cosine is checked exactly: doubling the angle takes it
to a right angle, where the cosine is 0, and takes a bound `h` to `2h² - 1`. -/

namespace Sys2Proof.Machine

theorem cos_halving (j : Nat) : Real.cos (Real.pi / 2 / 2 ^ j) = 2 * Real.cos (Real.pi / 2 / 2 ^ (j + 1)) ^ 2 - 1 := by
  rw [← Real.cos_two_mul]
  congr 1
  ring

/-- The angles of `belowCos` and `aboveCos` are acute, or right. -/
theorem acute_mem_Icc (j : Nat) : Real.pi / 2 / 2 ^ j ∈ Set.Icc 0 (Real.pi / 2) := by
  have hpi := Real.pi_pos
  exact ⟨by positivity, div_le_self (by positivity) (one_le_pow₀ (by norm_num))⟩

theorem cos_acute_nonneg (j : Nat) : 0 ≤ Real.cos (Real.pi / 2 / 2 ^ j) := by
  obtain ⟨h0, h1⟩ := acute_mem_Icc j
  exact Real.cos_nonneg_of_mem_Icc ⟨by linarith [Real.pi_pos], h1⟩

/-- `a / 2^B` is at most `cos(π/2 / 2^j)`, as the doubled angle shows; a bound below 0 is taken as 0. -/
def belowCos : Nat → Nat → Nat → Bool
  | 0, _, a => a == 0
  | j + 1, B, a => belowCos j (2 * B) (2 * a * a - 2 ^ (2 * B))

/-- `a / 2^B` is at least `cos(π/2 / 2^j)`, as the doubled angle shows. -/
def aboveCos : Nat → Nat → Nat → Bool
  | 0, _, _ => true
  | j + 1, B, a => decide (2 ^ (2 * B) ≤ 2 * a * a) && aboveCos j (2 * B) (2 * a * a - 2 ^ (2 * B))

/-- The doubled bound as a real number. -/
theorem doubled_bound (B : Nat) (a : ℝ) : (2 * a * a - 2 ^ (2 * B)) / 2 ^ (2 * B) = 2 * (a / 2 ^ B) ^ 2 - 1 := by
  rw [pow_mul']
  field_simp

/-- A truncated difference is at least the real one. -/
theorem sub_le_cast_sub (m n : Nat) : (m : ℝ) - n ≤ ((m - n : Nat) : ℝ) := by
  rw [sub_le_iff_le_add]; exact_mod_cast le_tsub_add

theorem le_cos_of_belowCos {j B a : Nat} (h : belowCos j B a = true) :
    (a : ℝ) / 2 ^ B ≤ Real.cos (Real.pi / 2 / 2 ^ j) := by
  induction j generalizing B a with
  | zero =>
    obtain rfl : a = 0 := by simpa [belowCos] using h
    simp
  | succ j ih =>
    have hdouble := ih h
    have htrunc := sub_le_cast_sub (2 * a * a) (2 ^ (2 * B))
    push_cast at htrunc
    have hle := (div_le_div_of_nonneg_right htrunc (by positivity)).trans hdouble
    rw [doubled_bound, cos_halving] at hle
    exact le_of_sq_le_sq (by linarith) (cos_acute_nonneg _)

theorem cos_le_of_aboveCos {j B a : Nat} (h : aboveCos j B a = true) :
    Real.cos (Real.pi / 2 / 2 ^ j) ≤ (a : ℝ) / 2 ^ B := by
  induction j generalizing B a with
  | zero => simp; positivity
  | succ j ih =>
    obtain ⟨hpos, h⟩ : 2 ^ (2 * B) ≤ 2 * a * a ∧ _ := by simpa [aboveCos] using h
    have hdouble := ih h
    rw [Nat.cast_sub hpos] at hdouble
    push_cast at hdouble
    rw [doubled_bound, cos_halving] at hdouble
    exact le_of_sq_le_sq (by linarith) (by positivity)

/-! ### Sines -/

theorem sin_halving (j : Nat) : Real.cos (Real.pi / 2 / 2 ^ j) = 1 - 2 * Real.sin (Real.pi / 2 / 2 ^ (j + 1)) ^ 2 := by
  rw [cos_halving, Real.cos_sq']
  ring

theorem sin_acute_nonneg (j : Nat) : 0 ≤ Real.sin (Real.pi / 2 / 2 ^ j) := by
  obtain ⟨h0, h1⟩ := acute_mem_Icc j
  exact Real.sin_nonneg_of_nonneg_of_le_pi h0 (by linarith [Real.pi_pos])

/-- `a / 2^B` is at most `sin(π/2 / 2^(j+1))`, as the cosine of the doubled angle shows. -/
def belowSin (j B a : Nat) : Bool := decide (2 * a * a ≤ 2 ^ (2 * B)) && aboveCos j (2 * B) (2 ^ (2 * B) - 2 * a * a)

/-- `a / 2^B` is at least `sin(π/2 / 2^(j+1))`, as the cosine of the doubled angle shows. -/
def aboveSin (j B a : Nat) : Bool := belowCos j (2 * B) (2 ^ (2 * B) - 2 * a * a)

/-- The bound that a sine's square gives for the cosine of the doubled angle. -/
theorem doubled_sine_bound (B : Nat) (a : ℝ) :
    (2 ^ (2 * B) - 2 * a * a) / 2 ^ (2 * B) = 1 - 2 * (a / 2 ^ B) ^ 2 := by
  rw [← neg_sub, neg_div, doubled_bound]
  ring

theorem le_sin_of_belowSin {j B a : Nat} (h : belowSin j B a = true) :
    (a : ℝ) / 2 ^ B ≤ Real.sin (Real.pi / 2 / 2 ^ (j + 1)) := by
  obtain ⟨hle, h⟩ : 2 * a * a ≤ 2 ^ (2 * B) ∧ _ := by simpa [belowSin] using h
  have hdouble := cos_le_of_aboveCos h
  rw [Nat.cast_sub hle] at hdouble
  push_cast at hdouble
  rw [doubled_sine_bound, sin_halving] at hdouble
  exact le_of_sq_le_sq (by linarith) (sin_acute_nonneg _)

theorem sin_le_of_aboveSin {j B a : Nat} (h : aboveSin j B a = true) :
    Real.sin (Real.pi / 2 / 2 ^ (j + 1)) ≤ (a : ℝ) / 2 ^ B := by
  have htrunc := sub_le_cast_sub (2 ^ (2 * B)) (2 * a * a)
  push_cast at htrunc
  have hle := (div_le_div_of_nonneg_right htrunc (by positivity)).trans (le_cos_of_belowCos h)
  rw [doubled_sine_bound, sin_halving] at hle
  exact le_of_sq_le_sq (by linarith) (by positivity)

/-! ### Nearest patterns -/

/-- The pattern `p` is finite, and no pattern has a value nearer to `x`. -/
structure IsNearest (p : F32) (x : ℝ) : Prop where
  notNaN : F32.isNaN p = false
  notInf : F32.isInf p = false
  nearest : ∀ y : F32, |(F32.fix p : ℝ) / 2 ^ 149 - x| ≤ |(F32.fix y : ℝ) / 2 ^ 149 - x|

/-- A pattern whose value is exact is nearest. -/
theorem isNearest_of_eq {p : F32} {x : ℝ} (hn : F32.isNaN p = false) (hi : F32.isInf p = false)
    (h : (F32.fix p : ℝ) = 2 ^ 149 * x) : IsNearest p x := by
  refine ⟨hn, hi, fun y => ?_⟩
  rw [h, mul_div_cancel_left₀ x (by positivity), sub_self, abs_zero]
  exact abs_nonneg _

/-- The least value, in units of 2^-149, that surely rounds to the positive pattern `p` of exponent 3 or more: just above the
middle of `p` and the pattern below, which is nearer where `p` is a power of two. -/
def roundsFrom (p : F32) : Nat := F32.mag p + 1 - 2 ^ (F32.expo p - if F32.frac p = 0 then 3 else 2)

/-- The greatest one: just below the middle of `p` and the pattern above. -/
def roundsTo (p : F32) : Nat := F32.mag p + 2 ^ (F32.expo p - 2) - 1

/-- `p` is finite, and both ends of the interval of `roundsFrom` and `roundsTo` are positive and round to it. -/
def roundsBetween (p : F32) : Bool :=
  !F32.isInf p && decide (0 < roundsFrom p) && decide (0 < roundsTo p) &&
    decide (roundInt 149 (roundsFrom p) = p) && decide (roundInt 149 (roundsTo p) = p)

theorem isNearest_of_roundsBetween {p : F32} {x : ℝ} (h : roundsBetween p = true)
    (hlo : (roundsFrom p : ℝ) / 2 ^ 149 ≤ x) (hhi : x ≤ (roundsTo p : ℝ) / 2 ^ 149) : IsNearest p x := by
  simp only [roundsBetween, Bool.and_eq_true, Bool.not_eq_true', decide_eq_true_eq] at h
  obtain ⟨⟨⟨⟨hf, hpos⟩, hpos'⟩, hfrom⟩, hto⟩ := h
  rw [div_le_iff₀' (by positivity)] at hlo
  rw [le_div_iff₀' (by positivity)] at hhi
  exact ⟨hfrom ▸ isNaN_roundInt 149 _, hf, nearest_of_enclosed (Nat.le_refl 149)
    (Int.natCast_ne_zero.mpr hpos.ne') (Int.natCast_ne_zero.mpr hpos'.ne')
    (by exact_mod_cast hlo) (by exact_mod_cast hhi) hfrom hto hf⟩

/-! ### The table (41 R208) -/

/-- `p` is nearest to `cos(π/2 / 2^j)`. -/
def nearestCos (j : Nat) (p : F32) : Bool :=
  roundsBetween p && belowCos j 149 (roundsFrom p) && aboveCos j 149 (roundsTo p)

/-- `p` is nearest to `sin(π/2 / 2^(j+1))`. -/
def nearestSin (j : Nat) (p : F32) : Bool :=
  roundsBetween p && belowSin j 149 (roundsFrom p) && aboveSin j 149 (roundsTo p)

theorem isNearest_of_nearestCos {j : Nat} {p : F32} (h : nearestCos j p = true) :
    IsNearest p (Real.cos (Real.pi / 2 / 2 ^ j)) := by
  simp only [nearestCos, Bool.and_eq_true] at h
  obtain ⟨⟨hp, hlo⟩, hhi⟩ := h
  exact isNearest_of_roundsBetween hp (le_cos_of_belowCos hlo) (cos_le_of_aboveCos hhi)

theorem isNearest_of_nearestSin {j : Nat} {p : F32} (h : nearestSin j p = true) :
    IsNearest p (Real.sin (Real.pi / 2 / 2 ^ (j + 1))) := by
  simp only [nearestSin, Bool.and_eq_true] at h
  obtain ⟨⟨hp, hlo⟩, hhi⟩ := h
  exact isNearest_of_roundsBetween hp (le_sin_of_belowSin hlo) (sin_le_of_aboveSin hhi)

theorem twiddle_checked : ∀ j < 14,
    nearestCos (j + 1) (twiddle (j + 3)).re = true ∧ nearestSin j (twiddle (j + 3)).im = true := by decide +kernel

/-- Every entry of the ROM is nearest to the exact cosine and sine of its angle. -/
theorem twiddle_nearest {k : Nat} (h1 : 1 ≤ k) (h16 : k ≤ 16) :
    IsNearest (twiddle k).re (Real.cos (2 * Real.pi / 2 ^ k)) ∧
      IsNearest (twiddle k).im (Real.sin (2 * Real.pi / 2 ^ k)) := by
  have hzero : F32.fix 0x00000000 = 0 := by decide
  have hone : F32.fix 0x3F800000 = 2 ^ 149 := by decide +kernel
  have hminus : F32.fix 0xBF800000 = -2 ^ 149 := by decide +kernel
  match k with
  | 1 =>
    have hangle : 2 * Real.pi / 2 ^ 1 = Real.pi := by ring
    rw [hangle, Real.cos_pi, Real.sin_pi]
    exact ⟨isNearest_of_eq (by decide) (by decide) (by rw [twiddle, hminus]; norm_num),
      isNearest_of_eq (by decide) (by decide) (by rw [twiddle, hzero]; norm_num)⟩
  | 2 =>
    have hangle : 2 * Real.pi / 2 ^ 2 = Real.pi / 2 := by ring
    rw [hangle, Real.cos_pi_div_two, Real.sin_pi_div_two]
    exact ⟨isNearest_of_eq (by decide) (by decide) (by rw [twiddle, hzero]; norm_num),
      isNearest_of_eq (by decide) (by decide) (by rw [twiddle, hone]; norm_num)⟩
  | j + 3 =>
    have hangle : 2 * Real.pi / 2 ^ (j + 3) = Real.pi / 2 / 2 ^ (j + 1) := by rw [pow_add, pow_add]; ring
    obtain ⟨hcos, hsin⟩ := twiddle_checked j (by omega)
    rw [hangle]
    exact ⟨isNearest_of_nearestCos hcos, isNearest_of_nearestSin hsin⟩

/-! ### The forward scale (41 R207) -/

theorem scaleFactor_eq {L : Nat} (h : L ≤ 126) : scaleFactor L = withSign false ((126 - L) * 2 ^ 23 + 2 ^ 23) := by
  rw [scaleFactor, withSign, show 127 - L = 126 - L + 1 by omega, Nat.succ_mul]
  rfl

/-- The scale is finite, and exactly `2^-L`. -/
theorem scaleFactor_exact {L : Nat} (h : L ≤ 126) :
    F32.isNaN (scaleFactor L) = false ∧ F32.isInf (scaleFactor L) = false ∧
      F32.fix (scaleFactor L) * 2 ^ L = 2 ^ 149 := by
  have hmag : F32.mag (scaleFactor L) = 2 ^ 23 * 2 ^ (126 - L) := by
    rw [scaleFactor_eq h, mag_withSign (by decide) (.inr (Nat.le_refl _)) (by omega)]
  have hsign : F32.sign (scaleFactor L) = false := by rw [scaleFactor_eq h, sign_withSign (by omega)]
  have hpow : 2 ^ 23 * 2 ^ (126 - L) * 2 ^ L = 2 ^ 149 := by
    rw [← Nat.pow_add, ← Nat.pow_add]; congr 1; omega
  refine ⟨by rw [scaleFactor_eq h]; exact isNaN_withSign (by omega), ?_, ?_⟩
  · rw [scaleFactor_eq h, ← Bool.not_eq_true, isInf_withSign (by omega)]
    omega
  · rw [F32.fix, hsign, if_neg (by decide), hmag]
    exact_mod_cast hpow

/-! ### The network (41 R203, R205) -/

section Network

variable {α : Type} (A : Arith α)

/-- The butterfly of a stage: the pair `h` apart becomes the sum, and the difference times the factor that the recurrence
gives. -/
theorem fftStage_butterfly (wm : α) {h b j : Nat} {a c : α} {xs : List α} (hj : j < h) (hb : b % (2 * h) = 0)
    (ha : xs[b + j]? = some a) (hc : xs[b + j + h]? = some c) :
    (fftStage A wm h xs)[b + j]? = some (A.add a c) ∧
      (fftStage A wm h xs)[b + j + h]? = some (A.mul (A.sub a c) ((fun w => A.mul w wm)^[j] A.one)) := by
  obtain ⟨hlen, -⟩ := List.getElem?_eq_some_iff.mp hc
  obtain ⟨m, rfl⟩ := Nat.dvd_of_mod_eq_zero hb
  have hlow : (2 * h * m + j) % (2 * h) = j := by rw [Nat.mul_add_mod, Nat.mod_eq_of_lt (by omega)]
  have hhigh : (2 * h * m + j + h) % (2 * h) = j + h := by
    rw [Nat.add_assoc, Nat.mul_add_mod, Nat.mod_eq_of_lt (by omega)]
  have htwiddle := twiddles_getElem? A wm hj A.one
  constructor
  · rw [fftStage, List.getElem?_map, List.getElem?_range (by omega), Option.map_some]
    simp [hlow, hj, List.getD_eq_getElem?_getD, ha, hc]
  · rw [fftStage, List.getElem?_map, List.getElem?_range (by omega), Option.map_some]
    simp [hhigh, List.getD_eq_getElem?_getD, ha, hc, htwiddle]

/-- Stage `s` has span `2^L >> s` and the factor of ROM entry `L - s + 1`. -/
theorem fftStages_stage (wm : Nat → α) {L s : Nat} (xs : List α) (h1 : 1 ≤ s) (hL : s ≤ L) :
    fftStages A wm L s xs = fftStage A (wm (L - s + 1)) ((2 ^ L) >>> s) (fftStages A wm L (s - 1) xs) := by
  obtain ⟨t, rfl⟩ : ∃ t, s = t + 1 := ⟨s - 1, by omega⟩
  rw [fftStages, Nat.add_sub_cancel, show L - (t + 1) + 1 = L - t by omega]

end Network

/-- Settles O60: the ROM by exact bounds on its cosines and sines, the scale by its fields, the network by its equations. -/
theorem transformConstantsAreExact : Obligations.TransformConstantsAreExact := by
  unfold Obligations.TransformConstantsAreExact
  refine ⟨fun k h1 h16 => ?_, rfl, rfl, fun k => ⟨rfl, rfl⟩, fun L hL => scaleFactor_exact (by omega),
    fun n xs => ⟨rfl, rfl⟩, fun x y => ⟨rfl, rfl, rfl, rfl⟩,
    fun wm h b j a c xs hj hb ha hc => fftStage_butterfly f32Arith wm hj hb ha hc,
    fun wm L xs => ⟨rfl, fun s h1 hL => fftStages_stage f32Arith wm xs h1 hL, rfl⟩⟩
  obtain ⟨hcos, hsin⟩ := twiddle_nearest h1 h16
  exact ⟨hcos.notNaN, hcos.notInf, hsin.notNaN, hsin.notInf, fun y _ _ => ⟨hcos.nearest y, hsin.nearest y⟩⟩

end Sys2Proof.Machine
end

section
/-! PROOFS. The state right after reset (10 R45): its values, and that it satisfies the invariants of the units and of the
sequencer (10 R33). -/

namespace Sys2Proof.Machine

open Sys2Proof.Safety

/-! ### The reset values -/

/-- The default parameters lie in the ranges of 00 R6, whatever the `F_CLK` of the platform. -/
theorem config_default_legal : Config.default.legal := by
  have hperiod : 1 ≤ defaultTickPeriod (Config.fClkPred + 1) ∧
      defaultTickPeriod (Config.fClkPred + 1) ≤ 2 ^ 32 - 1 := by
    unfold defaultTickPeriod; omega
  exact ⟨by decide, ispow2_iff.mpr ⟨12, rfl⟩, Nat.le_refl _, by decide, by decide, by decide, Nat.succ_pos _, hperiod⟩

theorem gray_zero : gray 0 = 0 := by simp [gray]

theorem resultWord_resetWith (P : Params) (e : Nat) : (State.resetWith P e).resultWord = 0 :=
  show Reason.ok.code ||| BitVec.zeroExtend 32 (0 : BitVec 8) <<< 8 = 0 by decide

/-- Settles O54: every value is a field of `resetWith`, and a synchroniser repeats one value. -/
theorem resetValues : Obligations.ResetValues := by
  unfold Obligations.ResetValues
  refine ⟨fun P e => ⟨⟨rfl, rfl, rfl, rfl, rfl⟩, ⟨rfl, rfl, rfl⟩, ⟨rfl, rfl, rfl, rfl, rfl, rfl, rfl, rfl, rfl, rfl⟩,
    ⟨rfl, rfl, rfl, rfl, rfl, Nat.zero_testBit 0⟩, ⟨rfl, rfl, rfl, resultWord_resetWith P e, rfl, rfl, rfl⟩, ?chains,
    ⟨rfl, rfl, rfl, rfl, rfl⟩⟩,
    rfl, rfl, rfl, rfl, rfl, Nat.succ_pos _⟩
  case chains =>
    exact ⟨rfl, rfl, fun _ => List.eq_of_mem_replicate, rfl, rfl, fun _ => List.eq_of_mem_replicate,
      fun _ => List.eq_of_mem_replicate, fun _ => List.eq_of_mem_replicate⟩

/-! ### The invariants at reset -/

/-- A legal tick period fits its register and is not 0 there (10 R38). -/
theorem resetPeriod_ne_zero {P : Params} (h : P.legal) : BitVec.ofNat 32 P.tickPeriodReset ≠ 0 := by
  obtain ⟨-, -, -, -, -, -, -, hpos, hmax⟩ := h
  intro hzero
  have hnat := congrArg BitVec.toNat hzero
  rw [BitVec.toNat_ofNat, Nat.mod_eq_of_lt (by omega)] at hnat
  exact absurd hnat (Nat.ne_of_gt hpos)

/-- An empty ring has its gate down, because no capacity is 0 (10 R33). -/
theorem gate_of_empty {c : Nat} (hc : ispow2 c = true) : false = decide (0 = c) :=
  (decide_eq_false (ispow2_pos hc).ne).symm

theorem inv_resetWith {P : Params} (h : P.legal) (e : Nat) : Inv (State.resetWith P e) := by
  obtain ⟨-, hpow, hmax, -⟩ := id h
  have hsize := And.intro hpow hmax
  have hcw : 0 < 2 ^ P.cw := Nat.two_pow_pos _
  exact
    { legal := h
      cap := hsize
      fft := hsize
      win := hsize
      eng := hsize
      acc := Nat.zero_le _
      gate := gate_of_empty hpow
      cursors := ⟨hcw, hcw, hcw, hcw⟩
      counters := ⟨hcw, hcw⟩
      codes := ⟨gray_zero.symm, gray_zero.symm⟩
      parity := (Nat.zero_testBit 0).symm
      chains := ⟨List.length_replicate, List.length_replicate, List.length_replicate, List.length_replicate⟩
      period := resetPeriod_ne_zero h
      size := rfl
      rams := resetWith_wf P e }

/-- At reset no command and no tick is under way, the engine is Closed and nobody holds the lock. -/
theorem sequencer_resetWith (P : Params) (e : Nat) : Sequencer (State.resetWith P e) where
  begun hp := absurd rfl hp
  initial _ := ⟨rfl, rfl, rfl⟩
  filling _ _ hp := nomatch hp
  logging _ hp := nomatch hp
  ticking hp := nomatch hp
  leaving hp := nomatch hp
  closing := rfl
  byCommand := rfl
  running ht := absurd rfl ht
  pending hp := nomatch hp
  lock := by simp [State.resetWith, tickHoldsLock, commandHoldsLock]

/-- Settles O57: both invariants hold of `resetWith`, and the machine's reset state is that of the default parameters. -/
theorem invariantsHoldAtReset : Obligations.InvariantsHoldAtReset := by
  unfold Obligations.InvariantsHoldAtReset
  exact ⟨fun P e h => ⟨inv_resetWith h e, sequencer_resetWith P e⟩, inv_resetWith config_default_legal 0,
    sequencer_resetWith _ _⟩

end Sys2Proof.Machine
end

section
/-! PROOFS. The invariants of the units are kept by every elementary transition, hence by every step (10 R32, R33, R38, R44;
43 R322). One lemma per shared operation of the model; an update of fields that no invariant reads is `{ h with }`. -/

namespace Sys2Proof.Machine

open Sys2Proof.Safety

variable {s t : State}

/-! ### Sizes -/

/-- A size that a unit may be set to: a power of two within `NMAX` (00 R7, 60 R341). -/
abbrev LegalSize (P : Params) (c : Nat) : Prop := ispow2 c = true ∧ c ≤ P.nmax

theorem sizeRequest_legalSize {P : Params} {n c : Nat} (h : sizeRequest P n = .ok c) : LegalSize P c := by
  obtain ⟨-, hmax, rfl⟩ := sizeRequest_ok.mp h
  exact ⟨ispow2_roundup n, hmax⟩

theorem legalPhase_winFill {P : Params} {c i : Nat} : legalPhase P (.winFill c i) = true ↔ LegalSize P c := by
  simp [legalPhase]

/-- The size whose coefficients a command computes is a legal one. -/
theorem legalSize_of_winFill {c k : Nat} (h : Inv s) (hp : s.cmdPhase = .winFill c k) : LegalSize s.params c :=
  legalPhase_winFill.mp (hp ▸ h.size)

/-! ### Ending and continuing a command -/

theorem inv_finish (h : Inv s) (r : Reason) (v : Word) : Inv (s.finish r v) := { h with size := rfl }

theorem inv_cmdPhase (h : Inv s) {p : CmdPhase} (hp : legalPhase s.params p = true) : Inv { s with cmdPhase := p } :=
  { h with size := hp }

/-! ### The memories -/

theorem inv_setBlock (h : Inv s) (xs : List Sample) : Inv (s.setBlock xs) := by
  obtain ⟨hrb, hblk, hwin, hsnap⟩ := h.rams
  exact { h with rams := ⟨hrb, setBlock_wf hblk xs, hwin, hsnap⟩ }

theorem inv_setBlkWord (h : Inv s) (i : Nat) (im : Bool) (v : Word) : Inv (s.setBlkWord i im v) := by
  obtain ⟨hrb, hblk, hwin, hsnap⟩ := h.rams
  exact { h with rams := ⟨hrb, setBlkWord_wf hblk i im v, hwin, hsnap⟩ }

theorem inv_fillWindow (h : Inv s) (c i : Nat) : Inv (fillWindow c i s) := by
  obtain ⟨hrb, hblk, hwin, hsnap⟩ := h.rams
  exact { h with rams := ⟨hrb, hblk, setWin_wf hwin i _, hsnap⟩ }

theorem inv_logEntry (h : Inv s) (i : Nat) : Inv (logEntry i s) := by
  obtain ⟨hrb, hblk, hwin, hsnap⟩ := h.rams
  exact { h with rams := ⟨hrb, hblk, hwin, setSnap_wf hsnap i _⟩ }

/-! ### The crossing of the beats -/

@[simp] theorem takeCursor_params (w : Nat) (s : State) : (takeCursor w s).params = s.params := by
  rw [takeCursor_eq]; split <;> rfl

@[simp] theorem settleBeats_params (s : State) : (settleBeats s).params = s.params := by
  rw [settleBeats_eq]; split <;> rfl

/-- Counting beats saturates the count at the capacity and takes the gate anew from it (40 R172). -/
theorem inv_takeCursor {w : Nat} (h : Inv s) (hw : w < 2 ^ s.params.cw) : Inv (takeCursor w s) := by
  obtain ⟨-, hrcur, hptr, -⟩ := h.cursors
  rw [takeCursor_eq]
  split
  · exact h
  · exact { h with acc := Nat.min_le_left _ _, gate := rfl, cursors := ⟨hw, hrcur, hptr, hw⟩ }

theorem inv_wsync {c : List Nat} (h : Inv s) (hc : c.length = s.params.syncStages) : Inv { s with wsync := c } := by
  obtain ⟨-, hchains⟩ := h.chains
  exact { h with chains := ⟨hc, hchains⟩ }

theorem inv_settleBeats (h : Inv s) : Inv (settleBeats s) := by
  obtain ⟨-, -, hptr, -⟩ := h.cursors
  unfold settleBeats
  split
  · exact h
  · exact inv_wsync (inv_takeCursor h hptr) (by simp)

theorem inv_crossBeats (h : Inv s) : Inv (crossBeats s) := by
  obtain ⟨hlen, -⟩ := h.chains
  exact inv_wsync (inv_takeCursor h (gray2bin_lt _ _)) (by simpa using hlen)

theorem inv_crossOneBeat (h : Inv s) : Inv (crossOneBeat s) := by
  obtain ⟨hlen, -⟩ := h.chains
  unfold crossOneBeat
  split
  · exact h
  · exact inv_wsync (inv_takeCursor h (counterNext_lt _ _)) (by simpa using hlen)

/-- An accepted beat moves the pointer with its gray code (40 R170). -/
theorem inv_acceptBeat {x : Sample} (h : Inv s) (ha : acceptBeat x s = .next t) : Inv t := by
  obtain ⟨-, rfl⟩ | ⟨-, -, rfl⟩ := acceptBeat_eq_next.mp ha
  · exact h
  · obtain ⟨hwcur, hrcur, -, hseen⟩ := h.cursors
    obtain ⟨-, hovl⟩ := h.codes
    obtain ⟨hrb, hrest⟩ := h.rams
    exact { h with
      cursors := ⟨hwcur, hrcur, counterNext_lt _ _, hseen⟩
      codes := ⟨rfl, hovl⟩
      rams := ⟨setRbmem_wf hrb _ _, hrest⟩ }

/-! ### The overload channel -/

/-- Counting modulo `2^cw` flips the parity (43 R322). -/
theorem testBit_zero_counterNext {cw : Nat} (hcw : 0 < cw) (c : Nat) :
    (counterNext cw c).testBit 0 = !c.testBit 0 := by
  have hmod : (c + 1) % 2 ^ cw % 2 = (c + 1) % 2 := Nat.mod_mod_of_dvd _ (dvd_pow_self 2 hcw.ne')
  rw [counterNext, Nat.testBit_zero, Nat.testBit_zero, hmod]
  rcases Nat.mod_two_eq_zero_or_one c with hc | hc <;> simp [Nat.add_mod, hc]

theorem inv_overloadUpdate {b : Bool} (h : Inv s) (ho : overloadUpdate b s = .next t) : Inv t := by
  obtain ⟨-, rfl⟩ | ⟨hb, -, rfl⟩ := overloadUpdate_eq_next.mp ho
  · exact h
  · obtain ⟨-, -, -, hcw, -⟩ := h.legal
    obtain ⟨-, hcnt⟩ := h.counters
    obtain ⟨hptr, -⟩ := h.codes
    have hflip : b = (counterNext s.params.cw s.ovlWcnt).testBit 0 := by
      rw [testBit_zero_counterNext (by omega), ← h.parity]; exact Bool.eq_not_of_ne hb
    exact { h with counters := ⟨counterNext_lt _ _, hcnt⟩, codes := ⟨hptr, rfl⟩, parity := hflip }

/-- The core domain's image of the change counter moves. -/
theorem inv_ovlCnt {c : Nat} {chain : List Nat} {q : BitVec 2} (h : Inv s) (hc : c < 2 ^ s.params.cw)
    (hlen : chain.length = s.ovlSync.length) : Inv { s with ovlCnt := c, ovlSync := chain, irqStatus := q } := by
  obtain ⟨hcnt, -⟩ := h.counters
  obtain ⟨hw, hovl, hhandshake⟩ := h.chains
  exact { h with counters := ⟨hcnt, hc⟩, chains := ⟨hw, hlen.trans hovl, hhandshake⟩ }

theorem inv_crossOverload (h : Inv s) : Inv (crossOverload s) := by
  rw [crossOverload_frame]
  exact inv_ovlCnt h (gray2bin_lt _ _) (length_shiftIn _ _)

theorem inv_crossOneChange (h : Inv s) : Inv (crossOneChange s) := by
  rw [crossOneChange_eq]
  split
  · exact h
  · exact inv_ovlCnt h (counterNext_lt _ _) (length_passOn _ _ _)

/-! ### The freeze handshake -/

/-- Freezing for a resize clears the pointer with its gray code (40 R176); the rest of the producer's half moves flags. -/
theorem inv_producerHandshake (h : Inv s) : Inv (producerHandshake s) := by
  obtain ⟨hwcur, hrcur, -, hseen⟩ := h.cursors
  obtain ⟨-, hovl⟩ := h.codes
  obtain ⟨hw, hov, hreq, hack⟩ := h.chains
  have hreq' := (length_shiftIn s.freezeReq s.reqSync).trans hreq
  unfold producerHandshake
  simp only
  split
  · split
    · exact { h with
        cursors := ⟨hwcur, hrcur, Nat.two_pow_pos _, hseen⟩
        codes := ⟨gray_zero.symm, hovl⟩
        chains := ⟨hw, hov, hreq', hack⟩ }
    · exact { h with chains := ⟨hw, hov, hreq', hack⟩ }
  · split <;> exact { h with chains := ⟨hw, hov, hreq', hack⟩ }

theorem inv_coreHandshake (h : Inv s) : Inv (coreHandshake s) := by
  obtain ⟨hw, hov, hreq, hack⟩ := h.chains
  exact { h with chains := ⟨hw, hov, hreq, (length_shiftIn s.freezeAck s.ackSync).trans hack⟩ }

theorem inv_requestFreeze (h : Inv s) (clr : Bool) : Inv (requestFreeze clr s) := by
  unfold requestFreeze
  split
  · exact h
  · split <;> exact { h with }

/-- An operation under the freeze keeps the invariants if it does in every state with the same parameters. -/
theorem inv_freezeTo {body : State → State} (h : Inv s)
    (hbody : ∀ u, Safety.Inv u → u.params = s.params → Safety.Inv (body u)) (hf : FreezeTo s body t) : Inv t := by
  obtain ⟨-, rfl⟩ | ⟨-, rfl⟩ := hf
  · exact hbody _ (inv_settleBeats h) (settleBeats_params s)
  · exact { hbody s h rfl with }

/-! ### The ring buffer -/

/-- A drain clears the count and the gate together, and the capacity is not 0 (40 R154). -/
theorem inv_drain (h : Inv s) : Inv (drain s) := by
  obtain ⟨hwcur, -, hptr, hseen⟩ := h.cursors
  obtain ⟨hcap, -⟩ := h.cap
  exact { inv_setBlock h _ with
    acc := Nat.zero_le _
    gate := gate_of_empty hcap
    cursors := ⟨hwcur, hwcur, hptr, hseen⟩ }

/-- A resize clears the cursors, the pointer, the count and the gate (40 R152, R176). -/
theorem inv_resizeRing {c : Nat} (h : Inv s) (hc : LegalSize s.params c) : Inv (resizeRing c s) := by
  have hzero : 0 < 2 ^ s.params.cw := Nat.two_pow_pos _
  obtain ⟨-, hovl⟩ := h.codes
  obtain ⟨-, hchains⟩ := h.chains
  exact { h with
    cap := hc
    acc := Nat.zero_le _
    gate := gate_of_empty hc.1
    cursors := ⟨hzero, hzero, hzero, hzero⟩
    codes := ⟨gray_zero.symm, hovl⟩
    chains := ⟨List.length_replicate, hchains⟩ }

theorem inv_sizeEngine {c : Nat} (h : Inv s) (hc : LegalSize s.params c) : Inv (sizeEngine c s) := by
  have hsized : Inv { s with engN := c, snapValid := false } := { h with eng := hc }
  exact { inv_resizeRing hsized hc with fft := hc, win := hc }

/-! ### The tick path -/

theorem inv_tickStage (h : Inv s) (k : TickStage) : Inv { s with tickStage := k } := { h with }

theorem inv_tickEnd (h : Inv s) : Inv (tickEnd s) := by
  rw [tickEnd_eq]
  split <;> exact { h with }

theorem inv_afterDrain (h : Inv s) (ok : Bool) : Inv (afterDrain ok s) := by
  unfold afterDrain
  split
  · exact inv_tickEnd { h with }
  · exact { h with }

theorem inv_tickStep (h : Inv s) (ht : tickStep s = .next t) : Inv t := by
  rcases tickStep_eq_next.mp ht with ⟨-, rfl⟩ | ⟨-, -, -, hd⟩ | ⟨-, -, rfl⟩ | ⟨-, rfl⟩ | ⟨-, rfl⟩ | ⟨-, rfl⟩ |
    ⟨-, -, rfl⟩ | ⟨-, -, rfl⟩ | ⟨i, -, rfl⟩ | ⟨-, rfl⟩
  · exact h
  · obtain hf | ⟨-, rfl⟩ := freezeTo_or_wait hd
    · exact inv_freezeTo h (fun u hu _ => inv_afterDrain (inv_drain hu) true) hf
    · exact h
  · exact inv_afterDrain h false
  · exact inv_tickStage (by split; exacts [inv_setBlock h _, h]) .fft
  · exact inv_tickStage (by split; exacts [inv_setBlock h _, h]) .shift
  · exact inv_tickStage (inv_setBlock h _) .lock
  · exact { h with }
  · exact h
  · exact inv_tickStage (inv_logEntry h i) _
  · exact inv_tickEnd { h with }

theorem inv_timerEdge (h : Inv s) (c : Bool) : Inv (timerEdge c s) := by
  obtain ⟨n, k, b, p, hframe⟩ := timerEdge_frame c s
  rw [hframe]
  exact { h with }

/-! ### The commands -/

theorem inv_commandTo {i : Instr} (h : Inv s) (hc : CommandTo s i t) : Inv t := by
  cases hc with
  | wrongState | sizeError | sizeMismatch | notReady | ready | openAgain | closeClosed | isOpen => exact inv_finish h _ _
  | freezeWait | closeWaits | lockWait => exact h
  | resize _ hsize hf =>
    exact inv_freezeTo h (fun u hu hsame =>
      inv_finish (inv_resizeRing hu (hsame ▸ sizeRequest_legalSize hsize)) _ _) hf
  | readall _ _ _ hf => exact inv_freezeTo h (fun u hu _ => inv_finish (inv_drain hu) _ _) hf
  | fftSize _ hsize => exact { h with fft := sizeRequest_legalSize hsize, size := rfl }
  | transform | product | shift => exact inv_finish (inv_setBlock h _) _ _
  | fillStart _ _ hsize => exact inv_cmdPhase h (legalPhase_winFill.mpr (sizeRequest_legalSize hsize))
  | fill _ hp =>
    have hlegal := legalSize_of_winFill h hp
    exact inv_cmdPhase (inv_fillWindow h _ _) (legalPhase_winFill.mpr hlegal)
  | winDone hp =>
    have hlegal := legalSize_of_winFill h hp
    exact { h with win := hlegal, size := rfl }
  | engDone hp _ hf =>
    exact inv_freezeTo h (fun u hu hsame =>
      inv_finish (inv_sizeEngine hu (hsame ▸ legalSize_of_winFill h hp)) _ _) hf
  | openFirst | closeStart | closeDone | tickStart | tickDone | lockTaken | logDone => exact { h with size := rfl }
  | tickRuns _ _ hstep => exact inv_tickStep h hstep
  | logEntry => exact inv_cmdPhase (inv_logEntry h _) rfl

/-! ### The host accesses -/

/-- Of the registers a write reaches, the invariants read only the period, and a period of 0 is stored as 1 (10 R38). -/
theorem inv_writeReg (h : Inv s) (v : Word) (r : Reg) : Inv (s.writeReg v r) := by
  cases r with
  | tickPeriod =>
    have hperiod : (if v = 0 then 1 else v) ≠ 0 := by
      split
      · decide
      · assumption
    exact { h with period := hperiod }
  | cmd =>
    simp only [State.writeReg]
    unfold issueCommand
    split
    · exact { h with }
    · exact { h with size := rfl }
  | snaplock =>
    simp only [State.writeReg]
    unfold lockWrite
    split <;> split
    · exact { h with }
    · exact h
    · exact { h with }
    · exact h
  | _ => exact { h with }

theorem inv_execBusRead {addr : Nat} (h : Inv s) (hr : execBusRead addr s = .next t) : Inv t := by
  obtain ⟨_, -, rfl⟩ | ⟨-, rfl⟩ := execBusRead_eq_next.mp hr
  · exact { h with }
  · exact { h with }

theorem inv_execBusWrite {addr : Nat} {v : Word} {wstrb : BitVec 4} (h : Inv s)
    (hw : execBusWrite addr v wstrb s = .next t) : Inv t := by
  obtain ⟨r, -, rfl⟩ | ⟨i, im, -, -, -, rfl⟩ | ⟨-, rfl⟩ := execBusWrite_eq_next.mp hw
  · exact inv_writeReg h v r
  · exact inv_setBlkWord h i im v
  · exact { h with }

/-! ### Every step -/

theorem inv_rstAssertTurn (h : Inv s) : Inv (rstAssertTurn s) := { inv_resetWith h.legal (s.epoch + 1) with }

/-- Every elementary transition keeps the invariants of the units. -/
theorem inv_stepClosed : StepClosed Safety.Inv where
  queues _ _ _ _ _ h := { h with }
  command _ _ _ h _ _ _ _ hc := inv_commandTo h hc
  illegal _ _ h _ _ _ _ := inv_finish h _ _
  tick _ _ h _ _ ht := inv_tickStep h ht
  init _ h _ _ _ := { inv_fillWindow h _ _ with }
  initDone _ h _ _ _ := { h with }
  read _ _ _ h _ hr := inv_execBusRead h hr
  write _ _ _ _ _ h _ hw := inv_execBusWrite h hw
  accept _ _ _ h _ _ ha := inv_acceptBeat h ha
  settle _ h _ _ := inv_settleBeats h
  overload _ _ _ h _ _ ho := inv_overloadUpdate h ho
  producer _ h _ _ := inv_producerHandshake h
  cross _ h _ := inv_crossBeats h
  overloadCross _ h _ := inv_crossOverload h
  beatOne _ h _ := inv_crossOneBeat h
  changeOne _ h _ := inv_crossOneChange h
  timer _ c h _ := inv_timerEdge h c
  core _ h _ := inv_coreHandshake h
  request _ c h _ := inv_requestFreeze h c
  wrStop _ h := { h with }
  releaseRst _ h := { h with }
  leaveW _ h _ := { h with }
  leaveC _ h := { h with }

/-- Settles O58: every elementary transition keeps the invariants, and so do the start of `wr_clk` and the assertion of reset. -/
theorem stepKeepsUnitInvariants : Obligations.StepKeepsUnitInvariants := by
  unfold Obligations.StepKeepsUnitInvariants
  intro s t h hstep
  exact inv_stepClosed.step h (fun _ _ => { h with }) (fun _ _ => inv_rstAssertTurn { h with }) hstep

end Sys2Proof.Machine
end

section
/-! PROOFS. What the transactions at the ports can do, said once: a write of a register, a `PUT`, an `OVLSET`. -/

namespace Sys2Proof.Machine

open Sys2Proof.Safety

variable {s t : State}

/-- A write of a register reaches the host's own fields and the lock, and `ERR.ACCESS` only if the register is `ERR`; or it
issues a command, which it can only while none is in progress (20 R87, 30 R121, R132, 60 R342). -/
theorem writeReg_cases (s : State) (v : Word) (r : Reg) :
    (∃ c x e q m p o, s.writeReg v r = { s with
        skipStale := c, arg := x, err := e, irqStatus := q, irqEnable := m, tickPeriod := p, lockOwner := o } ∧
      (r ≠ .err → e.getLsbD 1 = s.err.getLsbD 1)) ∨
    (s.busy = false ∧
      s.writeReg v r = { s with curWord := v, curArg := s.arg, busy := true, cmdPhase := .start }) := by
  cases r with
  | cmd =>
    simp only [State.writeReg]
    unfold issueCommand
    split
    · exact .inl ⟨_, _, _, _, _, _, _, rfl, fun _ => by simp⟩
    · exact .inr ⟨Bool.eq_false_iff.mpr ‹_›, rfl⟩
  | snaplock =>
    simp only [State.writeReg]
    unfold lockWrite
    split <;> split <;> exact .inl ⟨_, _, _, _, _, _, _, rfl, fun _ => rfl⟩
  | err => exact .inl ⟨_, _, _, _, _, _, _, rfl, fun hr => absurd rfl hr⟩
  | _ => exact .inl ⟨_, _, _, _, _, _, _, rfl, fun _ => rfl⟩

/-- Settling changes nothing outside the ring buffer's core-domain half. -/
theorem settleBeats_frame (s : State) :
    ∃ a g w q c, settleBeats s = { s with rbAcc := a, rbGate := g, rbWcur := w, wsyncQ := q, wsync := c } := by
  rw [settleBeats_eq]; split <;> exact ⟨_, _, _, _, _, rfl⟩

/-- What a `PUT` can do (40 R160, R175). -/
theorem exec_put_eq_next {re im : F32} :
    exec (.put re im) s = .next t ↔
      ((s.sReady = false ∨ s.rbCap = 0) ∧ s = t) ∨
      (¬ (s.sReady = false ∨ s.rbCap = 0) ∧ ∃ u, acceptBeat ⟨re, im⟩ s = .next u ∧ settleBeats u = t) := by
  simp only [exec, execPut]
  split
  · simp [*]
  · rename_i h
    simp only [andThen_eq_next, Host.Outcome.next.injEq, h, false_and, false_or, not_false_eq_true, true_and]

/-- What an `OVLSET` can do (43 R320, 70 R380). -/
theorem exec_ovlset_eq_next {b : Bool} :
    exec (.ovlset b) s = .next t ↔
      (s.inReset = true ∧ s = t) ∨
      (s.inReset = false ∧
        ((b = s.ovlW ∧ s = t) ∨
          (b ≠ s.ovlW ∧ s.changesInFlight + 1 < 2 ^ (s.params.cw - 1) ∧
            { s with
              ovlW := b, ovlWcnt := counterNext s.params.cw s.ovlWcnt
              ovlG := gray (counterNext s.params.cw s.ovlWcnt) } = t))) := by
  rw [← overloadUpdate_eq_next]
  simp only [exec, execOvlset]
  cases s.inReset <;> simp

end Sys2Proof.Machine
end

section
/-! PROOFS. The snapshot and its two writers (20 R95, 43 R310, R317). A frame lemma per turn says that no other agent touches
`SNAP`, `SNAP_VALID` or the tick path, and one per engine path says when that path does; an edge of `clk` puts them together. -/

namespace Sys2Proof.Machine

open Sys2Proof.Safety

variable {s t u : State}

/-! ### What the other agents leave alone -/

/-- What `SNAP` reads as: the bytes written, and the content of the others (93 U1). -/
def State.snapCells (s : State) : Memory × Nat := (s.snap, s.epoch)

/-- The snapshot and where the tick path stands: what the ports, the crossings, the initialisation and the handshake
leave. -/
def State.tickView (s : State) : (Memory × Nat) × Bool × TickStage × Bool :=
  (s.snapCells, s.snapValid, s.tickStage, s.tickByCmd)

theorem byteAt_snap_of_snapCells (h : t.snapCells = s.snapCells) (a : Nat) : t.byteAt .snap a = s.byteAt .snap a :=
  State.byteAt_congr (id := .snap) (congrArg Prod.fst h) (congrArg Prod.snd h) a

theorem snapCells_of_tickView (h : t.tickView = s.tickView) : t.snapCells = s.snapCells := congrArg Prod.fst h

theorem snapValid_of_tickView (h : t.tickView = s.tickView) : t.snapValid = s.snapValid := congrArg (·.2.1) h

theorem tickStage_of_tickView (h : t.tickView = s.tickView) : t.tickStage = s.tickStage := congrArg (·.2.2.1) h

theorem tickByCmd_of_tickView (h : t.tickView = s.tickView) : t.tickByCmd = s.tickByCmd := congrArg (·.2.2.2) h

theorem hostTurn_frame (h : hostTurn s = .next t) :
    t.tickView = s.tickView ∧ (t.cmdPhase = s.cmdPhase ∨ t.cmdPhase = .start) := by
  unfold hostTurn at h
  split at h
  · obtain rfl := Host.Outcome.next.inj h; exact ⟨rfl, .inl rfl⟩
  split at h
  · obtain rfl := Host.Outcome.next.inj h; exact ⟨rfl, .inl rfl⟩
  split at h
  · rename_i hi
    obtain ⟨a, rfl⟩ | ⟨a, v, w, rfl⟩ := decodeBus_eq_ok hi
    · obtain ⟨_, -, rfl⟩ | ⟨-, rfl⟩ := execBusRead_eq_next.mp h <;> exact ⟨rfl, .inl rfl⟩
    · obtain ⟨r, -, rfl⟩ | ⟨_, _, -, -, -, rfl⟩ | ⟨-, rfl⟩ := execBusWrite_eq_next.mp h
      · obtain ⟨_, _, _, _, _, _, _, hw, -⟩ | ⟨-, hw⟩ := writeReg_cases { s with busQ := _ } v r
        · rw [hw]; exact ⟨rfl, .inl rfl⟩
        · rw [hw]; exact ⟨rfl, .inr rfl⟩
      · exact ⟨rfl, .inl rfl⟩
      · exact ⟨rfl, .inl rfl⟩
  · obtain rfl := Host.Outcome.next.inj h; exact ⟨rfl, .inl rfl⟩

theorem acceptBeat_tickView {x : Sample} (h : acceptBeat x s = .next t) : t.tickView = s.tickView := by
  obtain ⟨-, rfl⟩ | ⟨-, -, rfl⟩ := acceptBeat_eq_next.mp h <;> rfl

theorem settleBeats_tickView (s : State) : (settleBeats s).tickView = s.tickView := by
  obtain ⟨a, g, w, q, c, h⟩ := settleBeats_frame s
  rw [h]; rfl

theorem beatTurn_tickView (h : beatTurn s = .next t) : t.tickView = s.tickView := by
  unfold beatTurn at h
  split at h
  · obtain rfl := Host.Outcome.next.inj h; rfl
  split at h
  · obtain rfl := Host.Outcome.next.inj h; rfl
  split at h
  · rename_i hi
    obtain ⟨-, rfl⟩ := decodeSample_eq_ok hi
    split at h
    · obtain ⟨-, rfl⟩ | ⟨-, u, hu, rfl⟩ := exec_put_eq_next.mp h
      · rfl
      · have haccept := acceptBeat_tickView hu
        exact (settleBeats_tickView u).trans haccept
    · obtain rfl := Host.Outcome.next.inj h; rfl
  · obtain rfl := Host.Outcome.next.inj h; rfl

theorem overloadEdge_tickView (h : overloadEdge s = .next t) : t.tickView = s.tickView := by
  unfold overloadEdge at h
  split at h
  · obtain rfl := Host.Outcome.next.inj h; rfl
  split at h
  · rename_i hi
    obtain ⟨-, rfl⟩ := decodeOverload_eq_ok hi
    obtain ⟨-, rfl⟩ | ⟨-, ⟨-, rfl⟩ | ⟨-, -, rfl⟩⟩ := exec_ovlset_eq_next.mp h <;> rfl
  · obtain rfl := Host.Outcome.next.inj h; rfl

theorem sampleEdge_tickView (h : sampleEdge s = .next t) : t.tickView = s.tickView := by
  unfold sampleEdge at h
  split at h
  · obtain rfl := Host.Outcome.next.inj h; rfl
  split at h
  · obtain rfl := Host.Outcome.next.inj h; rfl
  split at h
  · have haccept := acceptBeat_tickView h
    exact haccept
  · obtain rfl := Host.Outcome.next.inj h; rfl

theorem producerEdge_tickView (s : State) : (producerEdge s).tickView = s.tickView := by
  unfold producerEdge producerHandshake
  split
  · split <;> rfl
  · simp only
    split
    · split <;> rfl
    · split <;> rfl

theorem wrEdgeTurn_tickView (h : wrEdgeTurn s = .next t) : t.tickView = s.tickView := by
  unfold wrEdgeTurn at h
  split at h
  · obtain rfl := Host.Outcome.next.inj h; rfl
  · obtain ⟨v, hv, h⟩ := andThen_eq_next.mp h
    obtain ⟨w, hw, hv⟩ := andThen_eq_next.mp hv
    obtain rfl := Host.Outcome.next.inj h
    exact (producerEdge_tickView v).trans ((overloadEdge_tickView hv).trans (sampleEdge_tickView hw))

/-- The initialisation writes `WIN`, its progress and the two busy flags (70 R381). -/
theorem initTurn_frame (h : initTurn s = .next t) :
    ∃ m n b c, t = { s with win := m, initPos := n, initBusy := b, busy := c } := by
  unfold initTurn at h
  split at h
  · exact ⟨_, _, _, _, (Host.Outcome.next.inj h).symm⟩
  · split at h <;> exact ⟨_, _, _, _, (Host.Outcome.next.inj h).symm⟩

theorem freezeTurn_tickView (h : freezeTurn s = .next t) : t.tickView = s.tickView := by
  unfold freezeTurn at h
  split at h
  · obtain rfl := Host.Outcome.next.inj h; rfl
  split at h
  · obtain rfl := Host.Outcome.next.inj h
    unfold requestFreeze
    split
    · rfl
    · split <;> rfl
  · obtain rfl := Host.Outcome.next.inj h; rfl

theorem crossOneBeat_tickView (s : State) : (crossOneBeat s).tickView = s.tickView := by
  rw [crossOneBeat_eq]; split <;> rfl

theorem crossOneChange_tickView (s : State) : (crossOneChange s).tickView = s.tickView := by
  rw [crossOneChange_eq]; split <;> rfl

theorem crossTurn_tickView {cross : State → State} (hc : ∀ s, (cross s).tickView = s.tickView)
    (h : crossTurn cross s = .next t) : t.tickView = s.tickView := by
  obtain rfl := Host.Outcome.next.inj h
  split
  · rfl
  · exact hc s

/-- The turns of the two engine paths, the edge of `clk` that holds them, and the fall of the reset pin: every other turn leaves
the snapshot and the tick path. -/
def Turn.movesEngine : Turn → Bool
  | .command | .tick | .clkEdge _ _ _ | .rstAssert => true
  | .host | .beat | .overload | .init | .freeze | .wrEdge | .beatCross | .overloadCross | .wrStop | .wrStart
  | .rstRelease => false

theorem takeTurn_tickView {k : Turn} (hk : k.movesEngine = false) (h : takeTurn k s = .next t) :
    t.tickView = s.tickView := by
  cases k with
  | host => exact (hostTurn_frame h).1
  | beat => exact beatTurn_tickView h
  | overload =>
    simp only [takeTurn, overloadTurn] at h
    split at h
    · obtain rfl := Host.Outcome.next.inj h; rfl
    · exact overloadEdge_tickView h
  | init =>
    obtain ⟨m, n, b, c, rfl⟩ := initTurn_frame h
    rfl
  | freeze => exact freezeTurn_tickView h
  | wrEdge => exact wrEdgeTurn_tickView h
  | beatCross => exact crossTurn_tickView crossOneBeat_tickView h
  | overloadCross => exact crossTurn_tickView crossOneChange_tickView h
  | wrStop | wrStart | rstRelease => obtain rfl := Host.Outcome.next.inj h; rfl
  | command | tick | clkEdge | rstAssert => cases hk

/-! ### When the engine's paths write the snapshot -/

/-- The end of a tick moves the tick path alone. -/
theorem tickEnd_frame (s : State) : ∃ k p, tickEnd s = { s with tickStage := k, tickPending := p } := by
  rw [tickEnd_eq]; split <;> exact ⟨_, _, rfl⟩

theorem afterDrain_frame (ok : Bool) (s : State) :
    ∃ k p, afterDrain ok s = { s with drainOk := ok, tickStage := k, tickPending := p } := by
  unfold afterDrain
  split
  · exact tickEnd_frame { s with drainOk := ok }
  · exact ⟨_, _, rfl⟩

/-- An operation under the freeze keeps every view that settling and releasing keep and the operation itself keeps. -/
theorem freezeTo_view {α : Type} {body : State → State} (f : State → α) (h : FreezeTo s body t)
    (hs : f (settleBeats s) = f s) (hr : ∀ u : State, f u.releaseFreeze = f u) (hb : ∀ u, f (body u) = f u) :
    f t = f s := by
  obtain ⟨-, rfl⟩ | ⟨-, rfl⟩ := h
  · rw [hb, hs]
  · rw [hr, hb]

/-- What an engine transition does to the snapshot: if `rests` it leaves `SNAP`, if `stays` it leaves a valid snapshot valid, and
it always leaves the latched command. -/
structure SnapStep (rests stays : Prop) (s t : State) : Prop where
  cells : rests → t.snapCells = s.snapCells
  valid : stays → s.snapValid = true → t.snapValid = true
  word : t.curWord = s.curWord

/-- The snapshot and the latched command. -/
def State.snapView (s : State) : (Memory × Nat) × Bool × Word := (s.snapCells, s.snapValid, s.curWord)

theorem snapStep_of_view {rests stays : Prop} (h : t.snapView = s.snapView) : SnapStep rests stays s t where
  cells _ := congrArg Prod.fst h
  valid _ hv := (congrArg (·.2.1) h : t.snapValid = s.snapValid).trans hv
  word := congrArg (·.2.2) h

theorem settleBeats_snapView (s : State) : (settleBeats s).snapView = s.snapView := by
  obtain ⟨a, g, w, q, c, h⟩ := settleBeats_frame s
  rw [h]; rfl

theorem snapStep_of_freezeTo {rests stays : Prop} {body : State → State} (h : FreezeTo s body t)
    (hb : ∀ u, (body u).snapView = u.snapView) : SnapStep rests stays s t :=
  snapStep_of_view (freezeTo_view State.snapView h (settleBeats_snapView s) (fun _ => rfl) hb)

/-- No engine path is between the transitions that take and release the snapshot lock (43 R277, R310). -/
def State.snapIdle (s : State) : Prop := tickHoldsLock s.tickStage = false ∧ commandHoldsLock s.cmdPhase = false

/-- A stage of the tick path leaves the snapshot, but for the entry of a `LOG` stage and the publication (43 R310,
R312). -/
theorem tickStep_snap_cases (h : tickStep s = .next t) :
    (t.snapView, t.tickByCmd) = (s.snapView, s.tickByCmd) ∨
    (∃ i k, s.tickStage = .log i ∧ t = { logEntry i s with tickStage := k }) ∨
    t = publish s := by
  rcases tickStep_eq_next.mp h with ⟨-, rfl⟩ | ⟨-, -, -, hd⟩ | ⟨-, -, rfl⟩ | ⟨-, rfl⟩ | ⟨-, rfl⟩ | ⟨-, rfl⟩ |
    ⟨-, -, rfl⟩ | ⟨-, -, rfl⟩ | ⟨i, hlog, rfl⟩ | ⟨-, rfl⟩
  · exact .inl rfl
  · obtain hf | ⟨-, rfl⟩ := freezeTo_or_wait hd
    · refine .inl (freezeTo_view (fun u => (u.snapView, u.tickByCmd)) hf ?_ (fun _ => rfl) fun u => ?_)
      · obtain ⟨a, g, w, q, c, h⟩ := settleBeats_frame s
        rw [h]; rfl
      · obtain ⟨k, p, h⟩ := afterDrain_frame true (drain u)
        rw [h]; rfl
    · exact .inl rfl
  · obtain ⟨k, p, h⟩ := afterDrain_frame false s
    rw [h]; exact .inl rfl
  · split <;> exact .inl rfl
  · split <;> exact .inl rfl
  · exact .inl rfl
  · exact .inl rfl
  · exact .inl rfl
  · exact .inr (.inl ⟨i, _, hlog, rfl⟩)
  · exact .inr (.inr rfl)

/-- The publication makes the snapshot valid and leaves its values (43 R312). -/
theorem publish_frame (s : State) :
    ∃ k p, publish s = { s with
      lockOwner := .none, snapValid := true, tickCount := s.tickCount + 1, irqStatus := s.irqStatus ||| 1#2
      tickStage := k, tickPending := p } := by
  unfold publish
  rw [tickEnd_eq]
  split <;> exact ⟨_, _, rfl⟩

theorem snapStep_of_tickStep (h : tickStep s = .next t) : SnapStep (tickHoldsLock s.tickStage = false) True s t := by
  obtain hview | ⟨i, k, hlog, rfl⟩ | rfl := tickStep_snap_cases h
  · exact snapStep_of_view (congrArg Prod.fst hview)
  · exact ⟨fun hidle => (by rw [hlog] at hidle; cases hidle), fun _ hv => hv, rfl⟩
  · obtain ⟨k, p, h⟩ := publish_frame s
    rw [h]; exact ⟨fun _ => rfl, fun _ _ => rfl, rfl⟩

theorem tickStep_tickByCmd (h : tickStep s = .next t) : t.tickByCmd = s.tickByCmd := by
  obtain hview | ⟨i, k, -, rfl⟩ | rfl := tickStep_snap_cases h
  · exact congrArg Prod.snd hview
  · rfl
  · obtain ⟨k, p, h⟩ := publish_frame s
    rw [h]

/-- A command writes `SNAP` only as `LOGPOW` between its transitions or as `TICK_ONCE` in its tick, and only `ENG_SETSIZE` makes
it invalid (43 R271, R275, R277). -/
theorem snapStep_of_command {i : Instr} (h : CommandTo s i t) : SnapStep s.snapIdle (i ≠ .engSetsize) s t := by
  cases h with
  | resize _ _ hf => exact snapStep_of_freezeTo hf fun _ => rfl
  | readall _ _ _ hf => exact snapStep_of_freezeTo hf fun _ => rfl
  | engDone _ _ hf =>
    have hcells : t.snapCells = s.snapCells :=
      freezeTo_view State.snapCells hf (congrArg Prod.fst (settleBeats_snapView s)) (fun _ => rfl) fun _ => rfl
    have hword : t.curWord = s.curWord :=
      freezeTo_view State.curWord hf (congrArg (·.2.2) (settleBeats_snapView s)) (fun _ => rfl) fun _ => rfl
    exact ⟨fun _ => hcells, fun hne => absurd rfl hne, hword⟩
  | tickRuns _ _ ht =>
    obtain ⟨hcells, hvalid, hword⟩ := snapStep_of_tickStep ht
    exact ⟨fun hidle => hcells hidle.1, fun _ => hvalid trivial, hword⟩
  | logEntry hp _ => exact ⟨fun ⟨_, hidle⟩ => (by rw [hp] at hidle; cases hidle), fun _ hv => hv, rfl⟩
  | logDone _ _ => exact ⟨fun _ => rfl, fun _ _ => rfl, rfl⟩
  | _ => exact snapStep_of_view rfl

theorem tickStage_of_freezeTo {body : State → State} (h : FreezeTo s body t)
    (hb : ∀ u, (body u).tickStage = u.tickStage) : t.tickStage = s.tickStage :=
  freezeTo_view State.tickStage h (tickStage_of_tickView (settleBeats_tickView s)) (fun _ => rfl) hb

/-- A command leaves the tick path in a stage that writes `SNAP` only as `TICK_ONCE`, whose tick is no stage of the tick path's
own (43 R270, R275). -/
theorem command_tickByCmd {i : Instr} (h : CommandTo s i t) (hidle : s.snapIdle)
    (hby : s.cmdPhase = .tickWait → s.tickByCmd = true) (ht : tickHoldsLock t.tickStage = true) :
    t.tickByCmd = true := by
  have hstage : t.tickStage ≠ s.tickStage := fun he => by rw [he, hidle.1] at ht; cases ht
  cases h with
  | resize _ _ hf => exact absurd (tickStage_of_freezeTo hf fun _ => rfl) hstage
  | readall _ _ _ hf => exact absurd (tickStage_of_freezeTo hf fun _ => rfl) hstage
  | engDone _ _ hf => exact absurd (tickStage_of_freezeTo hf fun _ => rfl) hstage
  | tickRuns hp _ hstep => exact (tickStep_tickByCmd hstep).trans (hby hp)
  | tickStart _ _ => rfl
  | _ => exact absurd rfl hstage

theorem snapStep_of_commandTurn (h : commandTurn s = .next t) :
    SnapStep s.snapIdle (decodeWord s.curWord ≠ .ok .engSetsize) s t := by
  unfold commandTurn at h
  split at h
  · obtain rfl := Host.Outcome.next.inj h; exact snapStep_of_view rfl
  split at h
  · rename_i i hi
    obtain ⟨hcells, hvalid, hword⟩ := snapStep_of_command (command_cases (decodeWord_isCommand hi) h)
    exact ⟨hcells, fun hne => hvalid fun he => hne (he ▸ hi), hword⟩
  · obtain rfl := Host.Outcome.next.inj h; exact snapStep_of_view rfl

theorem commandTurn_tickByCmd (h : commandTurn s = .next t) (hidle : s.snapIdle)
    (hby : s.cmdPhase = .tickWait → s.tickByCmd = true) (ht : tickHoldsLock t.tickStage = true) :
    t.tickByCmd = true := by
  have hmoved : tickHoldsLock s.tickStage ≠ true := by rw [hidle.1]; exact Bool.false_ne_true
  unfold commandTurn at h
  split at h
  · obtain rfl := Host.Outcome.next.inj h; exact absurd ht hmoved
  split at h
  · rename_i i hi
    exact command_tickByCmd (command_cases (decodeWord_isCommand hi) h) hidle hby ht
  · obtain rfl := Host.Outcome.next.inj h; exact absurd ht hmoved

/-! ### An edge of `clk` and a step -/

/-- Neither path writes the snapshot, and the tick of `TICK_ONCE` is marked as its own. -/
structure SnapAtRest (s : State) : Prop where
  idle : s.snapIdle
  byCommand : s.cmdPhase = .tickWait → s.tickByCmd = true

/-- While the host owns the lock the engine does not (43 R317). -/
theorem snapAtRest_of_hostLock (h : Sequencer s) (hl : s.lockOwner = .host) : SnapAtRest s where
  idle := by
    have howner : ¬ (tickHoldsLock s.tickStage = true ∨ commandHoldsLock s.cmdPhase = true) := fun hw => by
      have hengine := h.lock.mpr hw
      rw [hl] at hengine; cases hengine
    simpa [State.snapIdle] using howner
  byCommand hp := by rw [h.byCommand, hp]; rfl

theorem snapAtRest_congr (h : SnapAtRest s) (hv : t.tickView = s.tickView)
    (hp : t.cmdPhase = s.cmdPhase ∨ t.cmdPhase = .start) : SnapAtRest t := by
  obtain ⟨⟨htick, hcommand⟩, hby⟩ := h
  rw [← tickStage_of_tickView hv] at htick
  rw [← tickByCmd_of_tickView hv] at hby
  obtain hp | hp := hp
  · exact ⟨⟨htick, hp ▸ hcommand⟩, hp ▸ hby⟩
  · exact ⟨⟨htick, by rw [hp]; rfl⟩, fun hw => by rw [hp] at hw; cases hw⟩

/-- The host's part of an edge of `clk`. -/
theorem edgeHost_frame {host : Bool}
    (h : (if host then hostTurn (crossBeats s) else .next (crossBeats s)) = .next u) :
    u.tickView = s.tickView ∧ (u.cmdPhase = s.cmdPhase ∨ u.cmdPhase = .start) := by
  obtain ⟨a, g, w, q, c, hc⟩ := crossBeats_frame s
  rw [hc] at h
  split at h
  · have hframe := hostTurn_frame h
    exact hframe
  · obtain rfl := Host.Outcome.next.inj h
    exact ⟨rfl, .inl rfl⟩

/-- The part of the command path, or of the initialisation, of an edge of `clk`. -/
theorem edgeCommand_snap {command : Bool}
    (h : (if command then (if u.initBusy then initTurn u else commandTurn u) else .next u) = .next t) :
    SnapStep u.snapIdle (decodeWord u.curWord ≠ .ok .engSetsize) u t ∧
      (SnapAtRest u → tickHoldsLock t.tickStage = true → t.tickByCmd = true) := by
  have hsame : SnapAtRest u → tickHoldsLock u.tickStage = true → u.tickByCmd = true := fun hrest hw => by
    rw [hrest.idle.1] at hw; cases hw
  split at h
  · split at h
    · obtain ⟨m, n, b, c, rfl⟩ := initTurn_frame h
      exact ⟨snapStep_of_view rfl, hsame⟩
    · exact ⟨snapStep_of_commandTurn h, fun hrest => commandTurn_tickByCmd h hrest.idle hrest.byCommand⟩
  · obtain rfl := Host.Outcome.next.inj h
    exact ⟨snapStep_of_view rfl, hsame⟩

/-- The tick path performs no stage of `TICK_ONCE`'s tick (43 R270). -/
theorem snapStep_of_tickTurn (h : tickTurn s = .next t) :
    SnapStep (tickHoldsLock s.tickStage = true → s.tickByCmd = true) True s t := by
  unfold tickTurn at h
  split at h
  · obtain rfl := Host.Outcome.next.inj h; exact snapStep_of_view rfl
  · rename_i hn
    obtain ⟨hcells, hvalid, hword⟩ := snapStep_of_tickStep h
    refine ⟨fun hown => hcells (Bool.eq_false_iff.mpr fun hl => hn ?_), hvalid, hword⟩
    rw [hown hl, Bool.or_true]

theorem edgeTick_snap {tick : Bool} (h : (if tick then tickTurn s else .next s) = .next t) :
    SnapStep (tickHoldsLock s.tickStage = true → s.tickByCmd = true) True s t := by
  split at h
  · exact snapStep_of_tickTurn h
  · obtain rfl := Host.Outcome.next.inj h; exact snapStep_of_view rfl

/-- The rest of an edge of `clk`. -/
theorem edgeEnd_snapView (c : Bool) (s : State) :
    (coreHandshake (timerEdge c (crossOverload s))).snapView = s.snapView := by
  obtain ⟨n, k, b, p, h⟩ := timerEdge_frame c (crossOverload s)
  rw [h, crossOverload_frame]; rfl

/-- An edge of `clk` out of reset, as the snapshot sees it: up to the host's part nothing happens to it, then at most the command
path and the tick path act. -/
theorem clkEdgeTurn_snap {host command tick : Bool} (hr : s.rstC = false)
    (h : clkEdgeTurn host command tick s = .next t) :
    ∃ u, u.tickView = s.tickView ∧ SnapStep (SnapAtRest s) (decodeWord u.curWord ≠ .ok .engSetsize) u t := by
  obtain ⟨u, v, w, hu, hv, hw, rfl⟩ := (clkEdgeTurn_eq_next hr).mp h
  obtain ⟨hview, hphase⟩ := edgeHost_frame hu
  obtain ⟨hcommand, hown⟩ := edgeCommand_snap hv
  have htick := edgeTick_snap hw
  have hend : SnapStep True True w _ := snapStep_of_view (edgeEnd_snapView (s.opened && !s.closing) w)
  refine ⟨u, hview, fun hrest => ?_, fun hne hvalid => ?_, ?_⟩
  · have hrest' := snapAtRest_congr hrest hview hphase
    exact (hend.cells trivial).trans ((htick.cells (hown hrest')).trans (hcommand.cells hrest'.idle))
  · exact hend.valid trivial (htick.valid trivial (hcommand.valid hne hvalid))
  · exact hend.word.trans (htick.word.trans hcommand.word)

/-- Every turn but the fall of `rst_n`, as the snapshot sees it. -/
theorem takeTurn_snap {k : Turn} (hk : k ≠ .rstAssert) (h : takeTurn k s = .next t) :
    (SnapAtRest s → t.snapCells = s.snapCells) ∧
      (s.snapValid = true → decodeWord t.curWord ≠ .ok .engSetsize → t.snapValid = true) := by
  cases k with
  | rstAssert => exact absurd rfl hk
  | command =>
    obtain ⟨hcells, hvalid, hword⟩ := snapStep_of_commandTurn h
    exact ⟨fun hrest => hcells hrest.idle, fun hv hne => hvalid (hword ▸ hne) hv⟩
  | tick =>
    obtain ⟨hcells, hvalid, -⟩ := snapStep_of_tickTurn h
    refine ⟨fun hrest => hcells fun hl => ?_, fun hv _ => hvalid trivial hv⟩
    rw [hrest.idle.1] at hl; cases hl
  | clkEdge host command tick =>
    by_cases hr : s.rstC = true
    · obtain rfl := Host.Outcome.next.inj ((if_pos hr).symm.trans h)
      split <;> exact ⟨fun _ => rfl, fun hv _ => hv⟩
    · obtain ⟨u, hview, hcells, hvalid, hword⟩ := clkEdgeTurn_snap (Bool.eq_false_iff.mpr hr) h
      exact ⟨fun hrest => (hcells hrest).trans (snapCells_of_tickView hview),
        fun hv hne => hvalid (hword ▸ hne) ((snapValid_of_tickView hview).trans hv)⟩
  | _ =>
    have hview := takeTurn_tickView rfl h
    exact ⟨fun _ => snapCells_of_tickView hview, fun hv _ => (snapValid_of_tickView hview).trans hv⟩

/-- A step is a turn, from the schedule or the block's own, or nothing. -/
theorem step_eq_takeTurn (h : step s = .next t) :
    t = s ∨ ∃ k q, takeTurn k { s with sched := q } = .next t ∧
      (k = .rstAssert → ∃ rest, s.sched = .rstAssert :: rest) := by
  unfold step at h
  split at h
  · rename_i k rest hk
    exact .inr ⟨k, rest, h, fun e => ⟨rest, e ▸ hk⟩⟩
  · split at h
    · rename_i k hk
      refine .inr ⟨k, s.sched, h, fun e => ?_⟩
      obtain rfl | rfl | rfl := StepClosed.ownTurn_cases hk <;> cases e
    · exact .inl (Host.Outcome.next.inj h).symm

/-- Settles O48: with the lock the host's, no path is where it writes `SNAP`, and an edge of `clk` holds one transition of each
at most; of all transitions only the last one of `ENG_SETSIZE` clears `SNAP_VALID`. -/
theorem hostLockKeepsSnapshot : Obligations.HostLockKeepsSnapshot := by
  unfold Obligations.HostLockKeepsSnapshot
  refine ⟨fun s t hseq hl hreset h a => ?_, fun s t hv h ht => ?_⟩
  · obtain rfl | ⟨k, q, hk, hrst⟩ := step_eq_takeTurn h
    · rfl
    · have hnot : k ≠ .rstAssert := fun e => (hrst e).elim hreset
      have hrest := snapAtRest_of_hostLock hseq hl
      exact byteAt_snap_of_snapCells ((takeTurn_snap hnot hk).1 ⟨hrest.idle, hrest.byCommand⟩) a
  · obtain rfl | ⟨k, q, hk, hrst⟩ := step_eq_takeTurn h
    · rw [hv] at ht; cases ht
    · by_cases hnot : k = .rstAssert
      · exact .inl (hrst hnot)
      · refine .inr (by_contra fun hne => ?_)
        rw [(takeTurn_snap hnot hk).2 hv hne] at ht; cases ht

end Sys2Proof.Machine
end

section
/-! PROOFS. The host's accesses (20 R83-R87): the location each address has, which accesses are rejected, and what an accepted
one reads or writes. -/

namespace Sys2Proof.Machine

open Sys2Proof.Safety

variable {s t : State} {P : Params} {a : Nat} {r : Reg}

/-! ### The location at an address (20 R84) -/

/-- A register stands at an aligned offset of the register file (30 R128). -/
theorem regAt_bounds (h : regAt a = some r) : a < 0x1000 ∧ a % 4 = 0 := by
  unfold regAt at h
  split at h
  all_goals cases h <;> simp

theorem locate_reg (h : regAt a = some r) : locate P a = some (.reg r) := by
  rw [locate, if_pos (regAt_bounds h).1, h]; rfl

theorem locate_snap (hl : P.legal) {i : Nat} (hi : i < P.nmax) : locate P (0x040000 + 4 * i) = some (.snap i) := by
  have hn := nmax_le hl
  rw [locate, if_neg (by omega), if_neg (by omega), if_pos (by omega), entryAt_of_lt (by omega),
    show (0x040000 + 4 * i - 0x040000) / 2 ^ 2 = i by omega]

theorem locate_win (hl : P.legal) {i : Nat} (hi : i < P.nmax) : locate P (0x080000 + 4 * i) = some (.win i) := by
  have hn := nmax_le hl
  rw [locate, if_neg (by omega), if_neg (by omega), if_neg (by omega), if_pos (by omega), entryAt_of_lt (by omega),
    show (0x080000 + 4 * i - 0x080000) / 2 ^ 2 = i by omega]

/-- Which half of an 8-byte entry an address is in. -/
theorem decide_upperHalf {n : Nat} (hn : n % 8 = 0) (b : Bool) : decide ((n + if b then 4 else 0) % 8 = 4) = b := by
  cases b
  · exact decide_eq_false (by simp; omega)
  · exact decide_eq_true (by simp; omega)

theorem locate_tw (hl : P.legal) {k : Nat} (h1 : 1 ≤ k) (hk : k ≤ P.log2Nmax) (sine : Bool)
    (ha : a = 0x0C0000 + 8 * k + if sine then 4 else 0) : locate P a = some (.tw k sine) := by
  have hn := hl.1
  have hsine : decide (a % 8 = 4) = sine := ha ▸ decide_upperHalf (by omega) sine
  have hle : (if sine then 4 else 0) ≤ 4 := by split <;> decide
  rw [locate, if_neg (by omega), if_neg (by omega), if_neg (by omega), if_neg (by omega), if_neg (by omega),
    if_pos (by omega), entryAt_of_lt (by omega), hsine, show (a - 0x0C0008) / 2 ^ 3 + 1 = k by omega]

theorem locate_blk (hl : P.legal) {i : Nat} (hi : i < P.nmax) (im : Bool)
    (ha : a = 0x100000 + 8 * i + if im then 4 else 0) : locate P a = some (.blk i im) := by
  have hn := nmax_le hl
  have him : decide (a % 8 = 4) = im := ha ▸ decide_upperHalf (by omega) im
  have hle : (if im then 4 else 0) ≤ 4 := by split <;> decide
  rw [locate, if_neg (by omega), if_neg (by omega), if_neg (by omega), if_neg (by omega), if_neg (by omega),
    if_neg (by omega), if_neg (by omega), if_pos (by omega), entryAt_of_lt (by omega), him,
    show (a - 0x100000) / 2 ^ 3 = i by omega]

/-! ### Reads (20 R85) -/

theorem exec_busRead_of_target {l : Loc} (h : readTarget s a = some l) :
    exec (.busRead a) s = .next { s with busRdata := s.readLoc l } :=
  execBusRead_eq_next.mpr (.inl ⟨l, h, rfl⟩)

theorem exec_busRead_reg (h : regAt a = some r) {x : Word} (hx : s.readReg r = x) :
    exec (.busRead a) s = .next { s with busRdata := x } :=
  hx ▸ exec_busRead_of_target (readTarget_eq_some.mpr
    ⟨(regAt_bounds h).2, locate_reg h, fun _ _ hl => (by cases hl), fun _ hl => (by cases hl)⟩)

theorem exec_busRead_snap (hl : s.params.legal) {i : Nat} (hi : i < s.params.nmax) :
    exec (.busRead (0x040000 + 4 * i)) s = .next { s with busRdata := s.snapAt i } :=
  exec_busRead_of_target (readTarget_eq_some.mpr
    ⟨by omega, locate_snap hl hi, fun _ _ hl => (by cases hl), fun _ hl => (by cases hl)⟩)

theorem exec_busRead_win (hl : s.params.legal) {i : Nat} (hi : i < s.params.nmax) (hb : s.busy = false) :
    exec (.busRead (0x080000 + 4 * i)) s = .next { s with busRdata := s.winAt i } :=
  exec_busRead_of_target (readTarget_eq_some.mpr
    ⟨by omega, locate_win hl hi, fun _ _ hl => (by cases hl), fun _ _ => hb⟩)

theorem exec_busRead_tw (hl : s.params.legal) {k : Nat} (h1 : 1 ≤ k) (hk : k ≤ s.params.log2Nmax) (sine : Bool)
    (ha : a = 0x0C0000 + 8 * k + if sine then 4 else 0) :
    exec (.busRead a) s = .next { s with busRdata := if sine then (twiddle k).im else (twiddle k).re } :=
  exec_busRead_of_target (readTarget_eq_some.mpr
    ⟨by subst ha; split <;> omega, locate_tw hl h1 hk sine ha, fun _ _ hl => (by cases hl), fun _ hl => (by cases hl)⟩)

theorem exec_busRead_blk (hl : s.params.legal) {i : Nat} (hi : i < s.params.nmax) (ho : s.opened = false)
    (hb : s.busy = false) (im : Bool) (ha : a = 0x100000 + 8 * i + if im then 4 else 0) :
    exec (.busRead a) s = .next { s with busRdata := if im then (s.blkAt i).im else (s.blkAt i).re } :=
  exec_busRead_of_target (readTarget_eq_some.mpr
    ⟨by subst ha; split <;> omega, locate_blk hl hi im ha, fun _ _ _ => ⟨ho, hb⟩, fun _ hl => (by cases hl)⟩)

/-- Settles O43: each address has its location, and a read of it answers that location's word. -/
theorem busReadReturnsLocation : Obligations.BusReadReturnsLocation := by
  unfold Obligations.BusReadReturnsLocation
  intro s hl
  refine ⟨?_, fun i hi => ⟨exec_busRead_snap hl hi, exec_busRead_win hl hi, fun ho hb => ⟨?_, ?_⟩⟩,
    fun k h1 hk => ⟨?_, ?_⟩⟩
  · simp only [List.forall_mem_cons, List.not_mem_nil, false_imp_iff, implies_true, and_true]
    have hctrl : s.readReg .ctrl = if s.skipStale then 1 else 0 := by
      simp only [State.readReg]
      cases s.skipStale <;> rfl
    exact ⟨exec_busRead_reg (r := .param) rfl rfl, exec_busRead_reg (r := .ctrl) rfl hctrl,
      exec_busRead_reg (r := .status) rfl rfl, exec_busRead_reg (r := .cmd) rfl rfl,
      exec_busRead_reg (r := .arg) rfl rfl, exec_busRead_reg (r := .result) rfl rfl,
      exec_busRead_reg (r := .rval) rfl rfl, exec_busRead_reg (r := .err) rfl rfl,
      exec_busRead_reg (r := .irqStatus) rfl rfl, exec_busRead_reg (r := .irqEnable) rfl rfl,
      exec_busRead_reg (r := .tickPeriod) rfl rfl, exec_busRead_reg (r := .engN) rfl rfl,
      exec_busRead_reg (r := .rbCap) rfl rfl, exec_busRead_reg (r := .fftN) rfl rfl,
      exec_busRead_reg (r := .winN) rfl rfl, exec_busRead_reg (r := .rbWcur) rfl rfl,
      exec_busRead_reg (r := .rbRcur) rfl rfl, exec_busRead_reg (r := .rbAcc) rfl rfl,
      exec_busRead_reg (r := .ovlCount) rfl rfl, exec_busRead_reg (r := .tickCount) rfl rfl,
      exec_busRead_reg (r := .snaplock) rfl rfl, exec_busRead_reg (r := .timerCnt) rfl rfl⟩
  · exact exec_busRead_blk hl hi ho hb false rfl
  · exact exec_busRead_blk hl hi ho hb true (by simp; omega)
  · exact exec_busRead_tw hl h1 hk false rfl
  · exact exec_busRead_tw hl h1 hk true (by simp; omega)

/-! ### Rejections (20 R83, 60 R343) -/

theorem inRegisters_of_regAt (h : regAt a = some r) : inRegisters a :=
  ⟨(regAt_some a (regAt_bounds h).2).mp ⟨r, h⟩, (regAt_bounds h).2⟩

/-- The registers of access RO are those that no write reaches (30 R128). -/
theorem readOnlyRegister_iff (h : regAt a = some r) : readOnlyRegister a ↔ r.writable = false := by
  unfold regAt at h
  split at h
  all_goals cases h <;> simp [readOnlyRegister, Reg.writable]

theorem inRegisters_of_readOnly (h : readOnlyRegister a) : inRegisters a := by
  simp only [readOnlyRegister, List.mem_cons, List.not_mem_nil, or_false] at h
  unfold inRegisters
  omega

/-- A read is accepted nowhere exactly where the rule rejects it. -/
theorem readTarget_eq_none_iff (hl : s.params.legal) (b : BitVec 4) : readTarget s a = none ↔ Rejected s false a b := by
  unfold readTarget Rejected
  by_cases ha : a % 4 = 0
  · have hregion := locate_region hl ha
    cases hloc : locate s.params a with
    | none => rw [hloc] at hregion; simp at hregion; simp [ha, hregion]
    | some l =>
      rw [hloc] at hregion
      cases l with
      | blk i im =>
        simp only at hregion
        cases ho : s.opened <;> simp [ha, hregion]
      | _ =>
        simp only at hregion
        simp [ha, hregion]
  · simp [ha]

/-- A write is accepted nowhere exactly where the rule rejects it. -/
theorem writeTarget_eq_none_iff (hl : s.params.legal) (b : BitVec 4) :
    writeTarget s a b = none ↔ Rejected s true a b := by
  unfold writeTarget Rejected
  by_cases ha : a % 4 = 0
  · by_cases hb : b = 0b1111#4
    · have hregion := locate_region hl ha
      cases hloc : locate s.params a with
      | none => rw [hloc] at hregion; simp at hregion; simp [ha, hregion]
      | some l =>
        rw [hloc] at hregion
        cases l with
        | reg r =>
          obtain ⟨hin, hr, hout⟩ := hregion
          simp [ha, hb, hin, hout, readOnlyRegister_iff hr]
        | blk i im =>
          have hro : ¬ readOnlyRegister a := fun h => hregion.2.1 (inRegisters_of_readOnly h)
          simp only at hregion
          cases ho : s.opened <;> simp [ha, hb, hregion, hro]
        | _ =>
          simp only at hregion
          simp [ha, hb, hregion]
    · simp [hb]
  · simp [ha]

theorem regAt_err (h : regAt a = some .err) : a = 0x01C := by
  unfold regAt at h
  split at h
  all_goals cases h <;> rfl

/-- Settles O45: an access is accepted nowhere exactly where the rule rejects it, and only a write of `ERR` clears
`ERR.ACCESS`. -/
theorem busRejectionsFollowRule : Obligations.BusRejectionsFollowRule := by
  unfold Obligations.BusRejectionsFollowRule
  intro s a v b hl _
  refine ⟨fun hrej => ?_, fun hacc => ?_, fun hrej => ?_, fun hacc => ?_⟩
  · exact execBusRead_eq_next.mpr (.inr ⟨(readTarget_eq_none_iff hl 0).mpr hrej, rfl⟩)
  · obtain ⟨l, hl⟩ := Option.ne_none_iff_exists'.mp fun hn => hacc ((readTarget_eq_none_iff hl 0).mp hn)
    exact ⟨_, exec_busRead_of_target hl⟩
  · exact execBusWrite_eq_next.mpr (.inr (.inr ⟨(writeTarget_eq_none_iff hl b).mpr hrej, rfl⟩))
  · obtain ⟨t, ht⟩ := execBusWrite_answers a v b s
    refine ⟨t, ht, fun hne => ?_⟩
    obtain ⟨r, hr, rfl⟩ | ⟨i, im, -, -, -, rfl⟩ | ⟨hn, -⟩ := execBusWrite_eq_next.mp ht
    · have hreg : r ≠ .err := fun he => by
        obtain ⟨ha, -, hloc, -⟩ := writeTarget_eq_some.mp hr
        have hregion := locate_region hl ha
        rw [hloc] at hregion
        exact hne (regAt_err (he ▸ hregion.2.1))
      obtain ⟨_, _, _, _, _, _, _, hw, hbit⟩ | ⟨-, hw⟩ := writeReg_cases s v r
      · rw [hw]; exact hbit hreg
      · rw [hw]
    · rfl
    · exact absurd ((writeTarget_eq_none_iff hl b).mp hn) hacc

/-! ### Writes (20 R86, R87) -/

theorem exec_busWrite_reg (v : Word) (h : regAt a = some r) (hw : r.writable = true) :
    exec (.busWrite a v 0b1111) s = .next (s.writeReg v r) :=
  execBusWrite_eq_next.mpr (.inl ⟨r, writeTarget_eq_some.mpr
    ⟨(regAt_bounds h).2, rfl, locate_reg h, .inr ⟨r, rfl, hw⟩⟩, rfl⟩)

theorem exec_busWrite_blk (hl : s.params.legal) {i : Nat} (hi : i < s.params.nmax) (ho : s.opened = false)
    (hb : s.busy = false) (im : Bool) (v : Word) (ha : a = 0x100000 + 8 * i + if im then 4 else 0) :
    exec (.busWrite a v 0b1111) s = .next (s.setBlkWord i im v) :=
  execBusWrite_eq_next.mpr (.inr (.inl ⟨i, im, writeTarget_eq_some.mpr
    ⟨by subst ha; split <;> omega, rfl, locate_blk hl hi im ha, .inl ⟨i, im, rfl, ho, hb⟩⟩, ho, hb, rfl⟩))

/-- The bytes of `BLK` beside the half of a Sample that is written. -/
theorem byteAt_setBlkWord_outside (i : Nat) (im : Bool) (v : Word) (x : Nat)
    (hx : x < (8 * i + if im then 4 else 0) ∨ (8 * i + if im then 4 else 0) + 4 ≤ x) :
    (s.setBlkWord i im v).byteAt .blk x = s.byteAt .blk x := by
  rw [State.byteAt_of_write (s := s) (t := s.setBlkWord i im v) (id := .blk)
    (a := 8 * i + if im then 4 else 0) (bs := bytesOfWord v) rfl rfl, if_neg (by rw [length_bytesOfWord]; omega)]

/-- Settles O46: each register has its rule of `writeReg`, and a write of `BLK` replaces four bytes of one Sample. -/
theorem busWriteActsOnLocation : Obligations.BusWriteActsOnLocation := by
  unfold Obligations.BusWriteActsOnLocation
  intro s v
  have hperiod : s.writeReg v .tickPeriod = { s with tickPeriod := if v.toNat = 0 then 1 else v } := by
    have hzero : v = 0 ↔ v.toNat = 0 := BitVec.toNat_eq
    simp only [State.writeReg, hzero]
  refine ⟨exec_busWrite_reg v (r := .ctrl) rfl rfl, exec_busWrite_reg v (r := .arg) rfl rfl,
    exec_busWrite_reg v (r := .err) rfl rfl, exec_busWrite_reg v (r := .irqStatus) rfl rfl,
    exec_busWrite_reg v (r := .irqEnable) rfl rfl,
    (exec_busWrite_reg v (r := .tickPeriod) rfl rfl).trans (congrArg Host.Outcome.next hperiod),
    fun i hi hl ho hb => ⟨?re, ?im⟩⟩
  case re =>
    refine ⟨_, exec_busWrite_blk hl hi ho hb false v rfl, ?_, fun x hx => ?_, rfl⟩
    · simp [State.blkAt_setBlkWord]
    · exact byteAt_setBlkWord_outside i false v x hx
  case im =>
    refine ⟨_, exec_busWrite_blk hl hi ho hb true v (by simp; omega), ?_, fun x hx => ?_, rfl⟩
    · simp [State.blkAt_setBlkWord]
    · exact byteAt_setBlkWord_outside i true v x (by simp; omega)

/-! ### An access while a command is in progress (20 R96) -/

/-- Every host access while `BUSY = 1`: `BLK` is out of reach, so it is a read, a rejection or a write of a register. -/
theorem hostAccess_of_busy {i : Instr} (hi : (∃ a, i = .busRead a) ∨ ∃ a v b, i = .busWrite a v b) (hb : s.busy = true)
    (h : exec i s = .next t) :
    ∃ c x e q m p o d, t = { s with
      skipStale := c, arg := x, err := e, irqStatus := q, irqEnable := m, tickPeriod := p, lockOwner := o
      busRdata := d } := by
  obtain ⟨a, rfl⟩ | ⟨a, v, b, rfl⟩ := hi
  · obtain ⟨l, -, rfl⟩ | ⟨-, rfl⟩ := execBusRead_eq_next.mp h <;> exact ⟨_, _, _, _, _, _, _, _, rfl⟩
  · obtain ⟨r, -, rfl⟩ | ⟨-, -, -, -, hidle, -⟩ | ⟨-, rfl⟩ := execBusWrite_eq_next.mp h
    · obtain ⟨c, x, e, q, m, p, o, hw, -⟩ | ⟨hidle, -⟩ := writeReg_cases s v r
      · exact ⟨c, x, e, q, m, p, o, s.busRdata, hw⟩
      · rw [hb] at hidle; cases hidle
    · rw [hb] at hidle; cases hidle
    · exact ⟨_, _, _, _, _, _, _, _, rfl⟩

/-- Settles O11: none of the fields that a host access changes while `BUSY = 1` belongs to the command. -/
theorem hostAccessKeepsCommandInProgress : Obligations.HostAccessKeepsCommandInProgress := by
  unfold Obligations.HostAccessKeepsCommandInProgress
  intro i s t hi hb h
  obtain ⟨c, x, e, q, m, p, o, d, rfl⟩ := hostAccess_of_busy hi hb h
  exact ⟨hb, rfl, rfl, rfl, rfl, rfl, rfl, rfl, rfl, rfl, rfl, rfl, rfl, rfl, rfl, rfl⟩

end Sys2Proof.Machine
end

section
/-! PROOFS. The two channels of the producer port (20 R91, 43 R320-R323): a beat and an overload update are taken in either
order, cross in either order, and are seen by the host in either order. -/

namespace Sys2Proof.Machine

open Sys2Proof.Safety

variable {s t u : State} {rest : List Turn}

/-! ### Taken in either order -/

/-- The producer domain's overload registers (10 R40, R44), written. -/
def State.setOverload (b : Bool) (c g : Nat) (s : State) : State := { s with ovlW := b, ovlWcnt := c, ovlG := g }

/-- What an overload update looks at and changes. -/
def State.overloadView (s : State) : Params × Bool × Bool × Nat × Nat × Nat :=
  (s.params, s.inReset, s.ovlW, s.ovlWcnt, s.ovlG, s.ovlCnt)

theorem settleBeats_setOverload (b : Bool) (c g : Nat) (s : State) :
    settleBeats (s.setOverload b c g) = (settleBeats s).setOverload b c g := by
  rw [settleBeats_eq, settleBeats_eq]
  by_cases h : s.clrReq = true
  · rw [if_pos h, if_pos (show (s.setOverload b c g).clrReq = true from h)]
  · rw [if_neg h, if_neg (show ¬ (s.setOverload b c g).clrReq = true from h)]
    rfl

/-- A `PUT` neither looks at the overload channel nor changes it. -/
theorem exec_put_setOverload {re im : F32} (h : exec (.put re im) s = .next t) (b : Bool) (c g : Nat) :
    exec (.put re im) (s.setOverload b c g) = .next (t.setOverload b c g) := by
  obtain ⟨hn, rfl⟩ | ⟨hn, u, hu, rfl⟩ := exec_put_eq_next.mp h
  · exact exec_put_eq_next.mpr (.inl ⟨hn, rfl⟩)
  · refine exec_put_eq_next.mpr (.inr ⟨hn, u.setOverload b c g, acceptBeat_eq_next.mpr ?_,
      settleBeats_setOverload b c g u⟩)
    obtain ⟨hcap, rfl⟩ | ⟨hcap, hroom, rfl⟩ := acceptBeat_eq_next.mp hu
    · exact .inl ⟨hcap, rfl⟩
    · exact .inr ⟨hcap, hroom, rfl⟩

theorem exec_put_overloadView {re im : F32} (h : exec (.put re im) s = .next t) : t.overloadView = s.overloadView := by
  obtain ⟨-, rfl⟩ | ⟨-, u, hu, rfl⟩ := exec_put_eq_next.mp h
  · rfl
  · obtain ⟨a, g, w, q, c, hsettle⟩ := settleBeats_frame u
    rw [hsettle]
    obtain ⟨-, rfl⟩ | ⟨-, -, rfl⟩ := acceptBeat_eq_next.mp hu <;> rfl

theorem overloadView_eq (h : u.overloadView = s.overloadView) :
    u.params = s.params ∧ u.inReset = s.inReset ∧ u.ovlW = s.ovlW ∧ u.ovlWcnt = s.ovlWcnt ∧ u.ovlG = s.ovlG ∧
      u.ovlCnt = s.ovlCnt := by
  simpa only [State.overloadView, Prod.mk.injEq] using h

/-- An overload update neither looks at the sample channel nor changes it: it does the same in every state whose overload
channel stands alike. -/
theorem exec_ovlset_uniform {b : Bool} (h : exec (.ovlset b) s = .next t) :
    ∃ b' c g, ∀ u : State, u.overloadView = s.overloadView → exec (.ovlset b) u = .next (u.setOverload b' c g) := by
  obtain ⟨hr, -⟩ | ⟨hr, ⟨hb, -⟩ | ⟨hb, hroom, -⟩⟩ := exec_ovlset_eq_next.mp h
  · refine ⟨s.ovlW, s.ovlWcnt, s.ovlG, fun u hu => ?_⟩
    obtain ⟨hp, hru, hw, hc, hg, -⟩ := overloadView_eq hu
    refine exec_ovlset_eq_next.mpr (.inl ⟨hru.trans hr, ?_⟩)
    rw [State.setOverload, ← hw, ← hc, ← hg]
  · refine ⟨s.ovlW, s.ovlWcnt, s.ovlG, fun u hu => ?_⟩
    obtain ⟨hp, hru, hw, hc, hg, -⟩ := overloadView_eq hu
    refine exec_ovlset_eq_next.mpr (.inr ⟨hru.trans hr, .inl ⟨hb.trans hw.symm, ?_⟩⟩)
    rw [State.setOverload, ← hw, ← hc, ← hg]
  · refine ⟨b, counterNext s.params.cw s.ovlWcnt, gray (counterNext s.params.cw s.ovlWcnt), fun u hu => ?_⟩
    obtain ⟨hp, hru, hw, hc, hg, hcnt⟩ := overloadView_eq hu
    refine exec_ovlset_eq_next.mpr (.inr ⟨hru.trans hr, .inr ⟨hw ▸ hb, ?_, ?_⟩⟩)
    · rw [State.changesInFlight, hp, hc, hcnt]; exact hroom
    · rw [State.setOverload, hp, hc]

theorem put_ovlset_commute {re im : F32} {b : Bool} :
    andThen (exec (.put re im) s) (exec (.ovlset b)) = .next t ↔
      andThen (exec (.ovlset b) s) (exec (.put re im)) = .next t := by
  simp only [andThen_eq_next]
  constructor
  · rintro ⟨u, hput, hovl⟩
    obtain ⟨b', c, g, hall⟩ := exec_ovlset_uniform hovl
    obtain rfl := Host.Outcome.next.inj ((hall u rfl).symm.trans hovl)
    exact ⟨_, hall s (exec_put_overloadView hput).symm, exec_put_setOverload hput b' c g⟩
  · rintro ⟨u, hovl, hput⟩
    obtain ⟨b', c, g, hall⟩ := exec_ovlset_uniform hovl
    obtain rfl := Host.Outcome.next.inj ((hall s rfl).symm.trans hovl)
    have hback : exec (.put re im) s = .next (t.setOverload s.ovlW s.ovlWcnt s.ovlG) :=
      exec_put_setOverload hput s.ovlW s.ovlWcnt s.ovlG
    have hforth := (exec_put_setOverload hback b' c g).symm.trans hput
    exact ⟨_, hback, (hall _ (exec_put_overloadView hback)).trans hforth⟩

/-! ### Crossing in either order -/

theorem counterNext_ne_self {cw c : Nat} (hcw : 0 < cw) (hc : c < 2 ^ cw) : counterNext cw c ≠ c := by
  have hbound : 2 ^ 1 ≤ 2 ^ cw := Nat.pow_le_pow_right (by decide) hcw
  rw [counterNext_of_lt hc]
  split <;> omega

theorem counterDelta_next_self {cw c : Nat} (hcw : 0 < cw) (hc : c < 2 ^ cw) :
    counterDelta cw (counterNext cw c) c = 1 := by
  have hbound : 2 ^ 1 ≤ 2 ^ cw := Nat.pow_le_pow_right (by decide) hcw
  rw [counterDelta_next hc hc (by rw [counterDelta_self]; omega), counterDelta_self]

theorem counterDelta_ne_zero {cw a b : Nat} (ha : a < 2 ^ cw) (hb : b < 2 ^ cw) (h : a ≠ b) :
    counterDelta cw a b ≠ 0 := by
  rw [counterDelta_of_lt ha hb]
  split <;> omega

/-- A crossing turn: it moves its channel, unless the core domain is in reset (70 R380). -/
theorem step_crossTurn {k : Turn} {cross : State → State} (hk : ∀ s, takeTurn k s = crossTurn cross s)
    (hs : s.sched = k :: rest) :
    step s = .next (if s.rstC then { s with sched := rest } else cross { s with sched := rest }) := by
  rw [step, hs]
  simp only [hk, crossTurn]

/-- The crossing of one beat, in a good state (40 R172). -/
theorem step_beatCross (hs : s.sched = .beatCross :: rest) (hr : s.rstC = false) (hc : s.clrReq = false)
    (hne : s.wptrW ≠ s.wsyncQ) (hi : Inv s) :
    step s = .next { s with
      sched := rest, rbWcur := counterNext s.params.cw s.wsyncQ, wsyncQ := counterNext s.params.cw s.wsyncQ
      rbAcc := min s.rbCap (s.rbAcc + 1), rbGate := decide (min s.rbCap (s.rbAcc + 1) = s.rbCap)
      wsync := passOn (gray s.wsyncQ) (gray (counterNext s.params.cw s.wsyncQ)) s.wsync } := by
  obtain ⟨-, -, hptr, hseen⟩ := hi.cursors
  obtain ⟨-, -, -, hcw, -⟩ := hi.legal
  have hflight : ¬ (s.clrReq = true ∨ ({ s with sched := rest } : State).beatsInFlight = 0) := by
    rw [hc]
    exact fun h => h.elim Bool.false_ne_true (counterDelta_ne_zero hptr hseen hne)
  rw [step_crossTurn (fun _ => rfl) hs, if_neg (by simp [hr]), crossOneBeat_eq, if_neg hflight,
    counterDelta_next_self (by omega) hseen]

/-- The crossing of one overload change, in a good state (43 R321). -/
theorem step_overloadCross (hs : s.sched = .overloadCross :: rest) (hr : s.rstC = false) (hne : s.ovlWcnt ≠ s.ovlCnt)
    (hi : Inv s) :
    step s = .next { s with
      sched := rest, ovlCnt := counterNext s.params.cw s.ovlCnt, irqStatus := s.irqStatus ||| 2#2
      ovlSync := passOn (gray s.ovlCnt) (gray (counterNext s.params.cw s.ovlCnt)) s.ovlSync } := by
  obtain ⟨hsent, hseen⟩ := hi.counters
  have hflight : ({ s with sched := rest } : State).changesInFlight ≠ 0 := counterDelta_ne_zero hsent hseen hne
  rw [step_crossTurn (fun _ => rfl) hs, if_neg (by simp [hr]), crossOneChange_eq, if_neg hflight]

/-- The state with other turns to come (log 2). -/
def State.withSched (s : State) (q : List Turn) : State := { s with sched := q }

theorem crossOneBeat_withSched (s : State) (q : List Turn) :
    crossOneBeat (s.withSched q) = (crossOneBeat s).withSched q := by
  rw [crossOneBeat_eq, crossOneBeat_eq s]
  by_cases h : s.clrReq = true ∨ s.beatsInFlight = 0
  · rw [if_pos h, if_pos (show (s.withSched q).clrReq = true ∨ (s.withSched q).beatsInFlight = 0 from h)]
  · rw [if_neg h, if_neg (show ¬ ((s.withSched q).clrReq = true ∨ (s.withSched q).beatsInFlight = 0) from h)]
    rfl

theorem crossOneChange_withSched (s : State) (q : List Turn) :
    crossOneChange (s.withSched q) = (crossOneChange s).withSched q := by
  rw [crossOneChange_eq, crossOneChange_eq s]
  by_cases h : s.changesInFlight = 0
  · rw [if_pos h, if_pos (show (s.withSched q).changesInFlight = 0 from h)]
  · rw [if_neg h, if_neg (show ¬ (s.withSched q).changesInFlight = 0 from h)]
    rfl

theorem crossOneBeat_rstC (s : State) : (crossOneBeat s).rstC = s.rstC := by
  rw [crossOneBeat_eq]; split <;> rfl

theorem crossOneChange_rstC (s : State) : (crossOneChange s).rstC = s.rstC := by
  rw [crossOneChange_eq]; split <;> rfl

/-- Two crossing turns, one after the other. -/
theorem stepTimes_crossTurns {k l : Turn} {f g : State → State} (hk : ∀ s, takeTurn k s = crossTurn f s)
    (hl : ∀ s, takeTurn l s = crossTurn g s) (hf : ∀ s q, f (s.withSched q) = (f s).withSched q)
    (hrst : ∀ s, (f s).rstC = s.rstC) (s : State) :
    stepTimes 2 (s.withSched [k, l]) = .next (if s.rstC then s.withSched [] else g ((f s).withSched [])) := by
  have hfirst : step (s.withSched [k, l]) = .next (if s.rstC then s.withSched [l] else (f s).withSched [l]) := by
    rw [← hf]; exact step_crossTurn hk rfl
  rw [stepTimes, hfirst, andThen_next, stepTimes]
  by_cases hr : s.rstC = true
  · rw [if_pos hr, if_pos hr, step_crossTurn hl rfl, if_pos (show (s.withSched [l]).rstC = true from hr)]
    rfl
  · have hr' : ¬ ((f s).withSched [l]).rstC = true := fun h => hr ((hrst s).symm.trans h)
    rw [if_neg hr, if_neg hr, step_crossTurn hl rfl, if_neg hr']
    rfl

/-- The two crossings as turns, in either order. -/
theorem crossTurns_commute (s : State) :
    stepTimes 2 (s.withSched [.beatCross, .overloadCross]) =
      stepTimes 2 (s.withSched [.overloadCross, .beatCross]) := by
  rw [stepTimes_crossTurns (fun _ => rfl) (fun _ => rfl) crossOneBeat_withSched crossOneBeat_rstC,
    stepTimes_crossTurns (fun _ => rfl) (fun _ => rfl) crossOneChange_withSched crossOneChange_rstC,
    crossOneChange_withSched, crossOneBeat_withSched, crossOneBeat_crossOneChange]

/-! ### Seen in either order (43 R323) -/

/-- `wr_clk` runs, out of reset, and nothing of a freeze is under way: an edge of `wr_clk` is the two channels'
alone. -/
structure Unfrozen (s : State) : Prop where
  runs : s.wrRuns = true
  inReset : s.inReset = false
  request : s.freezeReq = false
  frozen : s.frozen = false
  chain : ∀ r ∈ s.reqSync, r = false

theorem unfrozen_of_running (h : Running s) : Unfrozen s := by
  obtain ⟨hnone, -, hruns⟩ := freeze_idle_iff.mp h.idle
  obtain ⟨hreq, hfrozen, -, -, hchain⟩ := noHandshake_iff.mp hnone
  have hready := h.ready
  simp only [State.sReady, hfrozen, Bool.not_false, Bool.true_and, Bool.not_eq_true'] at hready
  exact ⟨hruns, hready, hreq, hfrozen, hchain⟩

theorem producerEdge_of_unfrozen (h : Unfrozen s) : producerEdge s = s := by
  obtain ⟨-, hreset, hreq, hfrozen, hchain⟩ := h
  have hrep : s.reqSync = List.replicate s.reqSync.length false := List.eq_replicate_of_mem hchain
  have hout : syncOut false s.reqSync = false := by
    rw [hrep]; cases s.reqSync.length with
    | zero => rfl
    | succ n => exact syncOut_append_replicate false false [] n
  have hshift : shiftIn s.freezeReq s.reqSync = s.reqSync := by rw [hreq, hrep, shiftIn_replicate]
  have hw : s.rstW = false := by simp only [State.inReset, Bool.or_eq_false_iff] at hreset; exact hreset.1
  have hhandshake : producerHandshake s = { s with reqSync := shiftIn s.freezeReq s.reqSync } := by
    unfold producerHandshake
    simp only [hout, Bool.false_and, Bool.false_eq_true, if_false]
    rw [if_neg (by simp [hfrozen])]
  rw [producerEdge, if_neg (by simp [hw]), hhandshake, hshift]

/-- An edge of `wr_clk` at which the sample channel alone is offered something. -/
theorem wrEdgeTurn_of_beat {x : Sample} (h : Unfrozen s) (hb : s.beatQ = [⟨true, x.re, x.im⟩])
    (ha : acceptBeat x { s with beatQ := [] } = .next t) (ht : Unfrozen t) (hto : t.ovlQ = []) :
    wrEdgeTurn s = .next t := by
  have hready : s.sReady = true := by rw [State.sReady, h.frozen, h.inReset]; rfl
  have hsample : sampleEdge s = .next t := by
    simp only [sampleEdge, hb, hready, Bool.not_true, Bool.false_eq_true, if_false, if_true]
    exact ha
  have hovl : overloadEdge t = .next t := by rw [overloadEdge, hto]
  rw [wrEdgeTurn, h.runs, hsample, andThen_next, hovl, andThen_next, producerEdge_of_unfrozen ht]
  rfl

/-- An edge of `wr_clk` at which the overload channel alone is offered something. -/
theorem wrEdgeTurn_of_update {b : Bool} (h : Unfrozen s) (hb : s.beatQ = []) (ho : s.ovlQ = [⟨true, b⟩])
    (hu : exec (.ovlset b) { s with ovlQ := [] } = .next t) (ht : Unfrozen t) : wrEdgeTurn s = .next t := by
  have hsample : sampleEdge s = .next s := by rw [sampleEdge, hb]
  have hovl : overloadEdge s = .next t := by rw [overloadEdge, ho]; exact hu
  rw [wrEdgeTurn, h.runs, hsample, andThen_next, hovl, andThen_next, producerEdge_of_unfrozen ht]
  rfl

/-- A beat taken in the producer domain (40 R170). -/
def beatTaken (x : Sample) (s : State) : State :=
  { s.setRbmem (ringIndex s.rbCap s.wptrW) x with
    wptrW := counterNext s.params.cw s.wptrW, wptrG := gray (counterNext s.params.cw s.wptrW) }

/-- A changed flag taken in the producer domain (43 R320). -/
def changeTaken (b : Bool) (s : State) : State :=
  s.setOverload b (counterNext s.params.cw s.ovlWcnt) (gray (counterNext s.params.cw s.ovlWcnt))

/-- A producer that waits for nothing: all it offered has been taken and has crossed. -/
structure ChannelsIdle (s : State) : Prop where
  inv : Inv s
  settled : Settled s
  unfrozen : Unfrozen s
  core : s.rstC = false
  beats : s.beatQ = []
  updates : s.ovlQ = []
  changes : s.ovlCnt = s.ovlWcnt

theorem channelsIdle_withSched (h : ChannelsIdle s) (q : List Turn) : ChannelsIdle (s.withSched q) :=
  { h with inv := { h.inv with }, settled := { h.settled with }, unfrozen := { h.unfrozen with } }

/-- One event more is within the rate bound (40 R173). -/
theorem rate_bound {cw : Nat} (hcw : 2 ≤ cw) : 0 + 1 < 2 ^ (cw - 1) := by
  have hbound : 2 ^ 1 ≤ 2 ^ (cw - 1) := Nat.pow_le_pow_right (by decide) (by omega)
  omega

theorem two_le_cw (h : Inv s) : 2 ≤ s.params.cw := by
  obtain ⟨-, -, -, hcw, -⟩ := h.legal
  omega

theorem acceptBeat_of_idle (h : ChannelsIdle s) (x : Sample) : acceptBeat x s = .next (beatTaken x s) := by
  have hnone : s.beatsInFlight = 0 := by
    rw [State.beatsInFlight, h.settled.pointer, h.settled.seen, counterDelta_self]
  exact acceptBeat_eq_next.mpr
    (.inr ⟨(ispow2_pos h.inv.cap.1).ne', .inr (hnone ▸ rate_bound (two_le_cw h.inv)), rfl⟩)

theorem overloadUpdate_of_change (hcw : 2 ≤ s.params.cw) (hc : s.ovlCnt = s.ovlWcnt) {b : Bool} (hb : b ≠ s.ovlW) :
    overloadUpdate b s = .next (changeTaken b s) := by
  have hnone : s.changesInFlight = 0 := by rw [State.changesInFlight, hc, counterDelta_self]
  exact overloadUpdate_eq_next.mpr (.inr ⟨hb, hnone ▸ rate_bound hcw, rfl⟩)

theorem exec_ovlset_of_change (hr : s.inReset = false) (hcw : 2 ≤ s.params.cw) (hc : s.ovlCnt = s.ovlWcnt) {b : Bool}
    (hb : b ≠ s.ovlW) : exec (.ovlset b) s = .next (changeTaken b s) :=
  (if_neg (by simp [hr])).trans (overloadUpdate_of_change hcw hc hb)

theorem hostRun_access {i : Instr} {todo : List Action} {reads : List Word} (hk : s.takes i = true)
    (hp : s.present i = .next t) (ts : List Bool) :
    hostRun (true :: ts) ⟨s, .access i :: todo, reads⟩ = hostRun ts ⟨t, todo, readsAfter i t reads⟩ := by
  simp only [hostRun, hostMove, hk, hp, if_true, Bool.not_true, Bool.false_eq_true, if_false]

theorem hostRun_step {todo : List Action} {reads : List Word} (h : step s = .next t) (ts : List Bool) :
    hostRun (false :: ts) ⟨s, todo, reads⟩ = hostRun ts ⟨t, todo, reads⟩ := by
  simp only [hostRun, blockMove, h, Bool.false_eq_true, if_false]

/-- A beat is offered, and taken at the next edge of `wr_clk`. -/
theorem hostRun_beat (h : ChannelsIdle s) (x : Sample) (todo : List Action) (reads : List Word) (ts : List Bool) :
    hostRun (true :: false :: ts) ⟨s.withSched (.wrEdge :: rest), .access (.put x.re x.im) :: todo, reads⟩ =
      hostRun ts ⟨(beatTaken x s).withSched rest, todo, reads⟩ := by
  have hoffer : (s.withSched (.wrEdge :: rest)).present (.put x.re x.im) =
      .next { s with sched := .wrEdge :: rest, beatQ := [⟨true, x.re, x.im⟩] } := by
    rw [State.present, show (s.withSched (.wrEdge :: rest)).beatQ = [] from h.beats]; rfl
  have hplain : ({ s with sched := rest, beatQ := [] } : State) = s.withSched rest := by rw [← h.beats]; rfl
  have htake : acceptBeat x { s with sched := rest, beatQ := [] } = .next ((beatTaken x s).withSched rest) := by
    rw [hplain, acceptBeat_of_idle (channelsIdle_withSched h rest)]; rfl
  have hedge : step { s with sched := .wrEdge :: rest, beatQ := [⟨true, x.re, x.im⟩] } =
      .next ((beatTaken x s).withSched rest) :=
    wrEdgeTurn_of_beat (s := { s with sched := rest, beatQ := [⟨true, x.re, x.im⟩] }) { h.unfrozen with } rfl htake
      { h.unfrozen with } h.updates
  rw [hostRun_access rfl hoffer, hostRun_step hedge]
  rfl

/-- A changed flag is offered, and taken at the next edge of `wr_clk`. -/
theorem hostRun_change (h : Unfrozen s) (hbeats : s.beatQ = []) (hupdates : s.ovlQ = []) (hcw : 2 ≤ s.params.cw)
    (hc : s.ovlCnt = s.ovlWcnt) {b : Bool} (hb : b ≠ s.ovlW) (todo : List Action) (reads : List Word) (ts : List Bool) :
    hostRun (true :: false :: ts) ⟨s.withSched (.wrEdge :: rest), .access (.ovlset b) :: todo, reads⟩ =
      hostRun ts ⟨(changeTaken b s).withSched rest, todo, reads⟩ := by
  have htakes : (s.withSched (.wrEdge :: rest)).takes (.ovlset b) = true := by
    rw [State.takes, show (s.withSched (.wrEdge :: rest)).beatQ = [] from hbeats]; rfl
  have hoffer : (s.withSched (.wrEdge :: rest)).present (.ovlset b) =
      .next { s with sched := .wrEdge :: rest, ovlQ := [⟨true, b⟩] } := by
    rw [State.present, show (s.withSched (.wrEdge :: rest)).ovlQ = [] from hupdates]; rfl
  have hplain : ({ s with sched := rest, ovlQ := [] } : State) = s.withSched rest := by rw [← hupdates]; rfl
  have htake : exec (.ovlset b) { s with sched := rest, ovlQ := [] } = .next ((changeTaken b s).withSched rest) := by
    rw [hplain, exec_ovlset_of_change (s := s.withSched rest) h.inReset hcw hc hb]; rfl
  have hedge : step { s with sched := .wrEdge :: rest, ovlQ := [⟨true, b⟩] } =
      .next ((changeTaken b s).withSched rest) :=
    wrEdgeTurn_of_update (s := { s with sched := rest, ovlQ := [⟨true, b⟩] }) { h with } hbeats rfl htake { h with }
  rw [hostRun_access htakes hoffer, hostRun_step hedge]
  rfl

/-- An `INGEST` of one sample and a changed flag, its two offers taken at two edges of `wr_clk`. -/
theorem hostRun_ingest (h : ChannelsIdle s) (x : Sample) {b : Bool} (hb : b ≠ s.ovlW) (ts : List Bool) :
    hostRun (true :: false :: true :: false :: ts)
      ⟨s.withSched (.wrEdge :: .wrEdge :: rest), (Pseudo.ingest [x] b).expand, []⟩ =
      hostRun ts ⟨(changeTaken b (beatTaken x s)).withSched rest, [], []⟩ :=
  (hostRun_beat h x [.access (.ovlset b)] [] (true :: false :: ts)).trans
    (hostRun_change (s := beatTaken x s) { h.unfrozen with } h.beats h.updates
      (show 2 ≤ s.params.cw from two_le_cw h.inv) h.changes hb [] [] ts)

/-- A beat and a changed flag are taken, and have not crossed. -/
structure BothUnderWay (s : State) : Prop where
  inv : Inv s
  core : s.rstC = false
  running : s.clrReq = false
  beat : s.wptrW ≠ s.wsyncQ
  change : s.ovlWcnt ≠ s.ovlCnt

theorem bothUnderWay_of_ingest (h : ChannelsIdle s) (x : Sample) {b : Bool} (hb : b ≠ s.ovlW) (q : List Turn) :
    BothUnderWay ((changeTaken b (beatTaken x s)).withSched q) where
  inv := by
    have hbeat : Safety.Inv (beatTaken x s) := inv_acceptBeat h.inv (acceptBeat_of_idle h x)
    have hboth : Safety.Inv (changeTaken b (beatTaken x s)) :=
      inv_overloadUpdate hbeat (overloadUpdate_of_change (two_le_cw hbeat) h.changes hb)
    exact { hboth with }
  core := h.core
  running := h.settled.running
  beat := by
    have hseen : s.wsyncQ = s.wptrW := h.settled.seen.trans h.settled.pointer.symm
    have hne := counterNext_ne_self (by have := two_le_cw h.inv; omega) h.inv.cursors.2.2.1
    exact hseen ▸ hne
  change := by
    have hne := counterNext_ne_self (by have := two_le_cw h.inv; omega) h.inv.counters.1
    exact h.changes ▸ hne

/-- What the host sees of the two channels: the overload counter, the write cursor and the count of samples. -/
def State.seenChannels (s : State) : Nat × Nat × Nat := (s.ovlCnt, s.rbWcur, s.rbAcc)

/-- The change crosses first: then the sample channel is as before. -/
theorem step_change_then_beat (h : BothUnderWay s) (hs : s.sched = [.overloadCross, .beatCross]) :
    ∃ u t, step s = .next u ∧ step u = .next t ∧
      u.seenChannels = (counterNext s.params.cw s.ovlCnt, s.rbWcur, s.rbAcc) ∧
      t.seenChannels =
        (counterNext s.params.cw s.ovlCnt, counterNext s.params.cw s.wsyncQ, min s.rbCap (s.rbAcc + 1)) := by
  have hchange := step_overloadCross hs h.core h.change h.inv
  have hinv := stepKeepsUnitInvariants _ _ h.inv hchange
  exact ⟨_, _, hchange, step_beatCross rfl h.core h.running h.beat hinv, rfl, rfl⟩

/-- The beat crosses first: then the overload channel is as before. -/
theorem step_beat_then_change (h : BothUnderWay s) (hs : s.sched = [.beatCross, .overloadCross]) :
    ∃ u t, step s = .next u ∧ step u = .next t ∧
      u.seenChannels = (s.ovlCnt, counterNext s.params.cw s.wsyncQ, min s.rbCap (s.rbAcc + 1)) ∧
      t.seenChannels =
        (counterNext s.params.cw s.ovlCnt, counterNext s.params.cw s.wsyncQ, min s.rbCap (s.rbAcc + 1)) := by
  have hbeat := step_beatCross hs h.core h.running h.beat h.inv
  have hinv := stepKeepsUnitInvariants _ _ h.inv hbeat
  exact ⟨_, _, hbeat, step_overloadCross rfl h.core h.change hinv, rfl, rfl⟩

/-- The flag is the parity of the counter (43 R322). -/
theorem ovl_of_seenChannels {c w a : Nat} (h : s.seenChannels = (c, w, a)) :
    s.ovl = c.testBit 0 ∧ s.rbWcur = w ∧ s.rbAcc = a := by
  simp only [State.seenChannels, Prod.mk.injEq] at h
  exact ⟨congrArg (·.testBit 0) h.1, h.2⟩

theorem testBit_changed (h : ChannelsIdle s) {b : Bool} (hb : b ≠ s.ovlW) :
    (counterNext s.params.cw s.ovlCnt).testBit 0 = b := by
  have hcw := two_le_cw h.inv
  rw [testBit_zero_counterNext (by omega), h.changes, ← h.inv.parity]
  exact (Bool.eq_not_of_ne hb).symm

/-- Settles O53: neither channel's registers enter the other's transitions, so the two may be taken and cross in either order,
and the host sees whichever crosses first. -/
theorem producerChannelsCommute : Obligations.ProducerChannelsCommute := by
  unfold Obligations.ProducerChannelsCommute
  refine ⟨fun s t re im b => put_ovlset_commute, fun s rest hr => ⟨fun hs hc hne hi => step_beatCross hs hr hc hne hi,
    fun hs hne hi => step_overloadCross hs hr hne hi⟩, crossTurns_commute, ?_⟩
  intro s x b hi hset hrun hr hbeats hupdates hc hb
  have h : ChannelsIdle s := ⟨hi, hset, unfrozen_of_running hrun, hr, hbeats, hupdates, hc⟩
  have hnew := testBit_changed h hb
  have hold : s.ovlCnt.testBit 0 = s.ovlW := by rw [hc, hi.parity]
  constructor
  · obtain ⟨u, t, hu, ht, hseen, hlast⟩ := step_change_then_beat (bothUnderWay_of_ingest h x hb _) rfl
    obtain ⟨hflag, hcur, hacc⟩ := ovl_of_seenChannels hseen
    obtain ⟨hflag', hcur', hacc'⟩ := ovl_of_seenChannels hlast
    refine ⟨⟨u, [], []⟩, (hostRun_ingest h x hb [false]).trans (hostRun_step hu []), rfl, hflag.trans hnew, hcur, hacc,
      t, ht, hflag'.trans hnew, ?_, hacc'⟩
    rw [← hset.seen]; exact hcur'
  · obtain ⟨u, t, hu, ht, hseen, hlast⟩ := step_beat_then_change (bothUnderWay_of_ingest h x hb _) rfl
    obtain ⟨hflag, hcur, hacc⟩ := ovl_of_seenChannels hseen
    obtain ⟨hflag', hcur', hacc'⟩ := ovl_of_seenChannels hlast
    refine ⟨⟨u, [], []⟩, (hostRun_ingest h x hb [false]).trans (hostRun_step hu []), rfl, hflag.trans hold, ?_, hacc,
      t, ht, hflag'.trans hnew, ?_, hacc'⟩
    · rw [← hset.seen]; exact hcur
    · rw [← hset.seen]; exact hcur'

end Sys2Proof.Machine
end

section
/-! PROOFS. The decoder and the encoder agree (30 R122, R123, R139): a command word is its three fields, the decoder accepts a
word exactly if a row of the opcode map has its opcode, and the encoder gives that row's word back. -/

namespace Sys2Proof.Machine

open Sys2Proof.Safety

variable {w : Word} {i : Instr}

/-! ### The fields of a command word (30 R122) -/

/-- A word whose reserved bits are 0 is its opcode and its flag. -/
theorem commandWord_fields (h : reservedField w = 0) : commandWord (opField w) (fField w) = w := by
  refine BitVec.eq_of_getLsbD_eq fun k hk => ?_
  have hreserved : 9 ≤ k → w.getLsbD k = false := fun h9 => by
    have hbit := congrArg (fun x : BitVec 23 => x.getLsbD (k - 9)) h
    simpa [reservedField, show 9 + (k - 9) = k by omega, show k - 9 < 23 by omega] using hbit
  rw [commandWord, BitVec.getLsbD_append]
  split
  · simp [opField, *]
  · rw [BitVec.getLsbD_append]
    split
    · obtain rfl : k = 8 := by omega
      simp [fField]
    · rw [hreserved (by omega)]; simp

/-! ### The opcode map (30 R123) -/

/-- The words that decode, and what to: a row has the opcode, the reserved bits are 0, and only `FFT_PROCESS` takes the flag. -/
theorem decodeWord_eq_ok (h : decodeWord w = .ok i) :
    reservedField w = 0 ∧
      ∃ r ∈ opTable, r.op = opField w ∧ (fField w = true → r.op = 0x21) ∧ i = r.cmd (fField w) := by
  unfold decodeWord at h
  split at h
  · cases h
  · rename_i hres
    split at h
    · cases h
    · rename_i r hr
      have hop : r.op = opField w := by simpa using List.find?_some hr
      split at h
      · cases h
      · rename_i hflag
        exact ⟨not_not.mp hres, r, List.mem_of_find?_eq_some hr, hop,
          fun hf => by_contra fun hne => hflag ⟨hf, hop ▸ hne⟩, (Except.ok.inj h).symm⟩

/-- The three checks of the decoder, and no others, make a word illegal. -/
theorem decodeWord_error_iff :
    (∃ e, decodeWord w = .error e) ↔
      reservedField w ≠ 0 ∨ opField w ∉ opTable.map (·.op) ∨ (fField w = true ∧ opField w ≠ 0x21) := by
  unfold decodeWord
  split
  · rename_i hres
    exact ⟨fun _ => .inl hres, fun _ => ⟨_, rfl⟩⟩
  · rename_i hres
    split
    · rename_i hnone
      have hop : opField w ∉ opTable.map (·.op) := by simpa [List.find?_eq_none] using hnone
      simp [hop]
    · rename_i r hr
      have hop : opField w ∈ opTable.map (·.op) :=
        List.mem_map.mpr ⟨r, List.mem_of_find?_eq_some hr, by simpa using List.find?_some hr⟩
      split <;> simp_all

/-- The encoder writes each row's word, the flag where the row takes one. -/
theorem encode_row : ∀ r ∈ opTable, ∀ f, (f = true → r.op = 0x21) → encode (r.cmd f) = .command (commandWord r.op f) := by
  decide

theorem wf_row : ∀ r ∈ opTable, ∀ f, (r.cmd f).wf = true := by decide

/-- What a word decodes to is encoded as that word. -/
theorem encode_of_decodeWord (h : decodeWord w = .ok i) : encode i = .command w := by
  obtain ⟨hres, r, hr, hop, hflag, rfl⟩ := decodeWord_eq_ok h
  rw [encode_row r hr _ hflag, hop, commandWord_fields hres]

theorem wf_of_decodeWord (h : decodeWord w = .ok i) : i.wf = true := by
  obtain ⟨-, r, hr, -, -, rfl⟩ := decodeWord_eq_ok h
  exact wf_row r hr _

/-! ### The ports (30 R139) -/

/-- An address of the bus space is kept by the 21 wires that carry it (20 R80). -/
theorem toNat_busAddr {addr : Nat} (h : addr < busSpace) : (BitVec.ofNat 21 addr).toNat = addr := by
  rw [BitVec.toNat_ofNat]; exact Nat.mod_eq_of_lt h

theorem decode_encode (h : i.wf = true) : decode (encode i) = .ok i := by
  cases i with
  | fftProcess fwd => cases fwd <;> rfl
  | busRead addr =>
    rw [show decode (encode (.busRead addr)) = .ok (.busRead (BitVec.ofNat 21 addr).toNat) from rfl,
      toNat_busAddr (of_decide_eq_true h)]
  | busWrite addr v b =>
    rw [show decode (encode (.busWrite addr v b)) = .ok (.busWrite (BitVec.ofNat 21 addr).toNat v b) from rfl,
      toNat_busAddr (of_decide_eq_true h)]
  | _ => rfl

/-- A bus port that decodes shows a well-formed access, and a write is encoded as what the port shows. -/
theorem encode_of_decodeBus {b : BusSignals} (h : decodeBus b = .ok i) :
    i.wf = true ∧ (b.write = true → encode i = .bus b) := by
  obtain ⟨valid, write, addr, wdata, wstrb⟩ := b
  cases valid with
  | false => cases h
  | true =>
    cases write with
    | false =>
      obtain rfl := Except.ok.inj h
      exact ⟨decide_eq_true addr.isLt, fun hw => absurd hw Bool.false_ne_true⟩
    | true =>
      obtain rfl := Except.ok.inj h
      exact ⟨decide_eq_true addr.isLt, fun _ => by simp [encode]⟩

theorem encode_of_decodeSample {p : SampleSignals} (h : decodeSample p = .ok i) : encode i = .sample p := by
  obtain ⟨hv, rfl⟩ := decodeSample_eq_ok h
  rw [encode, ← hv]

theorem encode_of_decodeOverload {o : OverloadSignals} (h : decodeOverload o = .ok i) : encode i = .overload o := by
  obtain ⟨hv, rfl⟩ := decodeOverload_eq_ok h
  rw [encode, ← hv]

/-- Settles O1: a word that decodes is the opcode and flag of its row, and a port's record is the operands of its
transaction. -/
theorem decodeAndEncodeAgree : Obligations.DecodeAndEncodeAgree := by
  unfold Obligations.DecodeAndEncodeAgree
  exact ⟨fun _ => decode_encode,
    fun _ _ h => ⟨encode_of_decodeWord h, decodeWord_isCommand h, wf_of_decodeWord h⟩,
    fun _ _ => encode_of_decodeBus, fun _ _ => encode_of_decodeSample, fun _ _ => encode_of_decodeOverload⟩

/-- The command path ends an illegal word with `ILLEGAL_CMD`. -/
theorem commandTurn_of_error {s : State} {e : DecodeError} (hr : s.rstC = false) (hi : s.initBusy = false)
    (hb : s.busy = true) (h : decodeWord s.curWord = .error e) : commandTurn s = .next (ended s .illegalCmd 0) := by
  rw [commandTurn, if_neg (by simp [hr, hi, hb]), h, fail_eq_ended]

/-- Settles O2: the rows by evaluation, the illegal words by the decoder's three checks. -/
theorem commandWordMap : Obligations.CommandWordMap := by
  unfold Obligations.CommandWordMap
  exact ⟨by decide, fun _ => decodeWord_error_iff, fun _ _ => commandTurn_of_error⟩

/-- Settles O3: each encoding by evaluation. -/
theorem specEncodingsDecode : Obligations.SpecEncodingsDecode := by
  unfold Obligations.SpecEncodingsDecode
  decide

end Sys2Proof.Machine
end

section
/-! PROOFS. The words of `STATUS`, `RESULT` and `PARAM` (30 R125, R127, R130, R131). Each is an `or` of fields, a field being
the bits of its element moved to its place; a field shows in its own bits and in no others. -/

namespace Sys2Proof.Machine

/-! ### A field of a register -/

/-- The bits `x` of a register from bit `k` on. -/
def fieldAt {n : Nat} (k : Nat) (x : BitVec n) : Word := BitVec.zeroExtend 32 x <<< k

variable {n : Nat} (x : BitVec n)

theorem getLsbD_fieldAt (k j : Nat) :
    (fieldAt k x).getLsbD j = (decide (j < 32) && decide (k ≤ j) && x.getLsbD (j - k)) := by
  rw [fieldAt, BitVec.getLsbD_shiftLeft, BitVec.getLsbD_setWidth]
  by_cases hj : j < 32
  · simp only [hj, show j - k < 32 by omega, ← not_lt, decide_true, decide_not, Bool.true_and]
  · simp only [hj, decide_false, Bool.false_and]

@[simp] theorem extractLsb'_fieldAt_same {k : Nat} (h : k + n ≤ 32) : (fieldAt k x).extractLsb' k n = x := by
  refine BitVec.eq_of_getLsbD_eq fun j hj => ?_
  rw [BitVec.getLsbD_extractLsb', getLsbD_fieldAt]
  simp [hj, show k + j < 32 by omega]

@[simp] theorem extractLsb'_fieldAt_other {k a m : Nat} (h : a + m ≤ k ∨ k + n ≤ a) :
    (fieldAt k x).extractLsb' a m = 0 := by
  refine BitVec.eq_of_getLsbD_eq fun j hj => ?_
  have hout : k ≤ a + j → x.getLsbD (a + j - k) = false := fun _ => BitVec.getLsbD_of_ge _ _ (by omega)
  rw [BitVec.getLsbD_extractLsb', getLsbD_fieldAt]
  by_cases hk : k ≤ a + j
  · simp [hout hk]
  · simp [hk]

/-! ### The three registers as fields -/

variable (s : State) (P : Params)

/-- The two bits of `LOCK_OWNER` (30 R130). -/
def LockOwner.bits : LockOwner → BitVec 2
  | .none => 0
  | .host => 1
  | .engine => 2

/-- The four bits of a reason code (30 R127). -/
def Reason.bits : Reason → BitVec 4
  | .ok => 0
  | .configZero => 1
  | .configRange => 2
  | .sizeMismatch => 3
  | .notReady => 4
  | .wrongState => 5
  | .illegalCmd => 6

theorem LockOwner.code_eq (o : LockOwner) : o.code = BitVec.zeroExtend 32 o.bits := by cases o <;> rfl

theorem Reason.code_eq (r : Reason) : r.code = fieldAt 0 r.bits := by cases r <;> rfl

theorem bitWord_eq (b : Bool) : bitWord b = fieldAt 0 (BitVec.ofBool b) := by cases b <;> rfl

theorem statusWord_eq :
    s.statusWord = fieldAt 0 (BitVec.ofBool s.busy) ||| fieldAt 1 (BitVec.ofBool s.opened) |||
      fieldAt 2 (BitVec.ofBool s.rbGate) ||| fieldAt 3 (BitVec.ofBool s.snapValid) |||
      fieldAt 4 (BitVec.ofBool (decide (s.tickStage ≠ .idle))) ||| fieldAt 5 (BitVec.ofBool s.ovl) |||
      fieldAt 6 (BitVec.ofBool s.closing) ||| fieldAt 7 (BitVec.ofBool s.initBusy) ||| fieldAt 8 s.lockOwner.bits := by
  rw [State.statusWord, bitWord_eq s.busy, LockOwner.code_eq]
  rfl

theorem resultWord_eq : s.resultWord = fieldAt 0 s.resReason.bits ||| fieldAt 8 s.resOpcode := by
  rw [State.resultWord, Reason.code_eq]
  rfl

theorem paramWord_eq :
    paramWord P = fieldAt 0 (BitVec.ofNat 5 P.log2Nmax) ||| fieldAt 8 (BitVec.ofNat 6 P.cw) ||| fieldAt 24 1#8 := by
  simp [paramWord, fieldAt]

/-- Settles O44: the fields of a register do not meet, so each shows its element and the bits between them are 0. -/
theorem statusResultParamFields : Obligations.StatusResultParamFields := by
  unfold Obligations.StatusResultParamFields
  intro s
  refine ⟨?status, ?result, fun hl => ?param⟩
  case status =>
    rw [statusWord_eq]
    simp only [BitVec.getLsbD_or, getLsbD_fieldAt]
    cases s.lockOwner <;> simp [BitVec.extractLsb'_or, State.ovl, LockOwner.bits]
  case result =>
    rw [resultWord_eq]
    cases s.resReason <;> simp [BitVec.extractLsb'_or, Reason.bits]
  case param =>
    obtain ⟨hlog, -, -, -, hcw, -⟩ := hl
    have hlog' : s.params.log2Nmax < 32 := by omega
    have hcw' : s.params.cw < 64 := by omega
    rw [paramWord_eq]
    simp [BitVec.extractLsb'_or, hlog', hcw']

end Sys2Proof.Machine
end

section
/-! PROOFS. A write of `CMD` issues a command or is an overrun (30 R121, 60 R342); a write of `SNAPLOCK` requests or releases the
lock (43 R315). -/

namespace Sys2Proof.Machine

variable {s : State}

theorem issueCommand_idle (hb : s.busy = false) (v : Word) :
    issueCommand v s = { s with curWord := v, curArg := s.arg, busy := true, cmdPhase := .start } :=
  if_neg (by simp [hb])

theorem issueCommand_busy (hb : s.busy = true) (v : Word) : issueCommand v s = { s with err := s.err ||| 1#2 } :=
  if_pos hb

/-- A test-and-set for bit 0 = 1, a release of the host's own lock for bit 0 = 0. -/
theorem lockWrite_eq (v : Word) (s : State) :
    lockWrite v s = { s with
      lockOwner :=
        if v.getLsbD 0 then (if s.lockOwner = .none then .host else s.lockOwner)
        else (if s.lockOwner = .host then .none else s.lockOwner) } := by
  unfold lockWrite
  split <;> split <;> rfl

/-- Settles O47: the two registers have their rules, and the lock's is a table of its owner and the bit written. -/
theorem cmdAndSnaplockWritesAct : Obligations.CmdAndSnaplockWritesAct := by
  unfold Obligations.CmdAndSnaplockWritesAct
  intro s v
  refine ⟨fun hb => ?idle, fun hb => ?busy, ?lock⟩
  case idle => rw [exec_busWrite_reg v (r := .cmd) rfl rfl, State.writeReg, issueCommand_idle hb]
  case busy => rw [exec_busWrite_reg v (r := .cmd) rfl rfl, State.writeReg, issueCommand_busy hb]
  case lock =>
    rw [exec_busWrite_reg v (r := .snaplock) rfl rfl, State.writeReg, lockWrite_eq]
    cases v.getLsbD 0 <;> cases s.lockOwner <;> rfl

end Sys2Proof.Machine
end

section
/-! PROOFS. A turn of one of the two engine paths (43 R270): what a step with the turn in the schedule is, and what it is with an
empty schedule, where the block takes its own next work (log 2). -/

namespace Sys2Proof.Machine

open Sys2Proof.Safety

variable {s : State} {i : Instr} {k : Turn} {rest : List Turn}

theorem step_scheduled (h : s.sched = k :: rest) : step s = takeTurn k { s with sched := rest } := by rw [step, h]

theorem step_own (h : s.sched = []) (hk : ownTurn s = some k) : step s = takeTurn k s := by rw [step, h, hk]

theorem commandTurn_of_ok (hr : s.rstC = false) (hi : s.initBusy = false) (hb : s.busy = true)
    (hd : decodeWord s.curWord = .ok i) : commandTurn s = exec i s := by
  rw [commandTurn, if_neg (by simp [hr, hi, hb]), hd]

theorem tickTurn_of_timer (hr : s.rstC = false) (hc : s.tickByCmd = false) : tickTurn s = tickStep s :=
  if_neg (by simp [hr, hc])

theorem ownTurn_tick (hr : s.rstC = false) (hi : s.initBusy = false) (he : s.tickEnabled = true)
    (hc : s.tickByCmd = false) : ownTurn s = some .tick := by
  simp [ownTurn, hr, hi, he, hc]

theorem ownTurn_command (hr : s.rstC = false) (hi : s.initBusy = false)
    (ht : s.tickEnabled = false ∨ s.tickByCmd = true) (hb : s.busy = true) : ownTurn s = some .command := by
  have hno : (s.tickEnabled && !s.tickByCmd) = false := by
    rcases ht with h | h <;> simp [h]
  simp [ownTurn, hr, hi, hno, hb]

/-- Settles O4: the turn comes from the schedule or is the block's own, and is the path's transition. -/
theorem stepRunsLatchedCommand : Obligations.StepRunsLatchedCommand := by
  unfold Obligations.StepRunsLatchedCommand
  refine ⟨fun s i hr hi hb hd => ⟨fun rest h => ?_, fun h ht => ?_⟩, fun s hr hc => ⟨fun rest h => ?_, fun h hi he => ?_⟩⟩
  · exact (step_scheduled h).trans (commandTurn_of_ok hr hi hb hd)
  · exact (step_own h (ownTurn_command hr hi ht hb)).trans (commandTurn_of_ok hr hi hb hd)
  · exact (step_scheduled h).trans (tickTurn_of_timer hr hc)
  · exact (step_own h (ownTurn_tick hr hi he hc)).trans (tickTurn_of_timer hr hc)

end Sys2Proof.Machine
end

section
/-! PROOFS. What no command writes, and what only some do (30 R124, 10 R43, 20 R92, 43 R317): a view of the state for each group of
fields, and every case of `CommandTo` leaves it. -/

namespace Sys2Proof.Machine

open Sys2Proof.Safety

variable {s t : State} {i : Instr}

/-! ### The views -/

/-- The latched command and the host's own registers. -/
def State.hostView (s : State) : Word × Word × Word × BitVec 2 × BitVec 2 × Word × Bool × Word :=
  (s.curWord, s.curArg, s.arg, s.err, s.irqEnable, s.tickPeriod, s.skipStale, s.busRdata)

/-- The ring memory, the parameters, the overload counters and the producer's half of the handshake. -/
def State.producerView (s : State) : Memory × Params × Bool × Nat × Nat × Bool × Bool :=
  (s.rbmem, s.params, s.ovlW, s.ovlWcnt, s.ovlCnt, s.frozen, s.freezeAck)

/-- The tick's state and what a tick raises and counts. -/
def State.tickResult (s : State) : BitVec 2 × Word × TickStage × Bool :=
  (s.irqStatus, s.tickCount, s.tickStage, s.drainOk)

/-- The snapshot and its lock. -/
def State.lockView (s : State) : Memory × LockOwner := (s.snap, s.lockOwner)

/-- The two views that every command leaves. -/
def State.keptView (s : State) := (s.hostView, s.producerView)

/-- All of these: what settling the crossing and ending a command leave, but for `SNAP_VALID`. -/
def State.frameView (s : State) := (s.keptView, s.tickResult, s.lockView)

theorem settleBeats_frameView (s : State) : (settleBeats s).frameView = s.frameView := by
  obtain ⟨a, g, w, q, c, h⟩ := settleBeats_frame s
  rw [h]; rfl

/-! ### The tick path -/

/-- A stage of the tick path leaves the host's registers and the producer's half. -/
theorem tickStep_keptView (h : tickStep s = .next t) : t.keptView = s.keptView := by
  rcases tickStep_eq_next.mp h with ⟨-, rfl⟩ | ⟨-, -, -, hd⟩ | ⟨-, -, rfl⟩ | ⟨-, rfl⟩ | ⟨-, rfl⟩ | ⟨-, rfl⟩ |
    ⟨-, -, rfl⟩ | ⟨-, -, rfl⟩ | ⟨i, -, rfl⟩ | ⟨-, rfl⟩
  · rfl
  · obtain hf | ⟨-, rfl⟩ := freezeTo_or_wait hd
    · refine freezeTo_view State.keptView hf (congrArg Prod.fst (settleBeats_frameView s)) (fun _ => rfl) fun u => ?_
      obtain ⟨k, p, h⟩ := afterDrain_frame true (drain u)
      rw [h]; rfl
    · rfl
  · obtain ⟨k, p, h⟩ := afterDrain_frame false s
    rw [h]; rfl
  · split <;> rfl
  · split <;> rfl
  · rfl
  · rfl
  · rfl
  · rfl
  · obtain ⟨k, p, h⟩ := publish_frame s
    rw [h]; rfl

/-! ### The commands -/

/-- What a transition of the command `i` from `s` to `t` leaves. -/
structure CommandLeaves (i : Instr) (s t : State) : Prop where
  kept : t.keptView = s.keptView
  tick : i ≠ .tickOnce → t.tickResult = s.tickResult
  lock : i ≠ .tickOnce → i ≠ .logpow → t.lockView = s.lockView
  valid : i ≠ .tickOnce → i ≠ .logpow → i ≠ .engSetsize → t.snapValid = s.snapValid

theorem commandLeaves_of_view (h : t.frameView = s.frameView) (hv : i ≠ .engSetsize → t.snapValid = s.snapValid) :
    CommandLeaves i s t where
  kept := congrArg Prod.fst h
  tick _ := congrArg (·.2.1) h
  lock _ _ := congrArg (·.2.2) h
  valid _ _ := hv

/-- A resize or a drain under the freeze leaves the views that it leaves when the producer is frozen already. -/
theorem frameView_of_freezeTo {body : State → State} (h : FreezeTo s body t)
    (hb : ∀ u, (body u).frameView = u.frameView) : t.frameView = s.frameView :=
  freezeTo_view State.frameView h (settleBeats_frameView s) (fun _ => rfl) hb

theorem snapValid_of_freezeTo {body : State → State} (h : FreezeTo s body t)
    (hb : ∀ u, (body u).snapValid = u.snapValid) : t.snapValid = s.snapValid :=
  freezeTo_view State.snapValid h (snapValid_of_tickView (settleBeats_tickView s)) (fun _ => rfl) hb

theorem command_leaves (h : CommandTo s i t) : CommandLeaves i s t := by
  cases h with
  | resize _ _ hf =>
    exact commandLeaves_of_view (frameView_of_freezeTo hf fun _ => rfl) fun _ => snapValid_of_freezeTo hf fun _ => rfl
  | readall _ _ _ hf =>
    exact commandLeaves_of_view (frameView_of_freezeTo hf fun _ => rfl) fun _ => snapValid_of_freezeTo hf fun _ => rfl
  | engDone _ _ hf =>
    exact commandLeaves_of_view (frameView_of_freezeTo hf fun _ => rfl) fun hne => absurd rfl hne
  | tickRuns _ _ ht =>
    exact ⟨tickStep_keptView ht, fun hne => absurd rfl hne, fun hne => absurd rfl hne, fun hne => absurd rfl hne⟩
  | tickStart | tickDone =>
    exact ⟨rfl, fun hne => absurd rfl hne, fun hne => absurd rfl hne, fun hne => absurd rfl hne⟩
  | lockTaken | logEntry | logDone =>
    exact ⟨rfl, fun _ => rfl, fun _ hne => absurd rfl hne, fun _ hne => absurd rfl hne⟩
  | _ => exact commandLeaves_of_view rfl fun _ => rfl

/-- Settles O10: every transition of `CommandTo` leaves the views that the statement writes out. -/
theorem commandsFrame : Obligations.CommandsFrame := by
  unfold Obligations.CommandsFrame
  intro i s t hi h
  obtain ⟨hkept, htick, hlock, hvalid⟩ := command_leaves (command_cases hi h)
  simp only [State.keptView, State.hostView, State.producerView, State.tickResult, State.lockView, Prod.mk.injEq]
    at hkept htick hlock
  obtain ⟨⟨hword, hcarg, harg, herr, henable, hperiod, hskip, hdata⟩, hmem, hparams, hovl⟩ := hkept
  obtain ⟨hw, hwcnt, hcnt, hfrozen, hack⟩ := hovl
  refine ⟨⟨hword, hcarg, harg, herr, henable, hperiod, hskip, hmem, hparams, hw, hwcnt, hcnt, hfrozen, hack, hdata⟩,
    fun hne => ?_⟩
  obtain ⟨hirq, hcount, hstage, hok⟩ := htick hne
  refine ⟨hirq, hcount, hstage, hok, fun hl => ?_⟩
  obtain ⟨hsnap, howner⟩ := hlock hne hl
  exact ⟨hsnap, howner, hvalid hne hl⟩

end Sys2Proof.Machine
end

section
/-! PROOFS. The ports' turns and an edge of `wr_clk` (30 R139, 40 R170-R176, 43 R320). An edge is the sample channel, then the
overload channel, then the producer's half of the handshake; each channel has one lemma that says what it takes. -/

namespace Sys2Proof.Machine

open Sys2Proof.Safety

variable {s : State} {i : Instr} {rest : List Turn}

/-! ### One transaction at a port -/

theorem hostTurn_of_offer {b : BusSignals} {q : List BusSignals} (hq : s.busQ = b :: q) (hd : decodeBus b = .ok i) :
    hostTurn s = if s.inReset then .next s else exec i { s with busQ := q } := by
  simp only [hostTurn, hq, hd]

theorem beatTurn_of_offer {p : SampleSignals} {q : List SampleSignals} (hq : s.beatQ = p :: q)
    (hd : decodeSample p = .ok i) :
    beatTurn s = if s.wrRuns && s.sReady then exec i { s with beatQ := q } else .next s := by
  simp only [beatTurn, hq, hd]
  cases s.wrRuns <;> rfl

theorem overloadTurn_of_offer {o : OverloadSignals} {q : List OverloadSignals} (hq : s.ovlQ = o :: q)
    (hd : decodeOverload o = .ok i) :
    overloadTurn s = if s.wrRuns then exec i { s with ovlQ := q } else .next s := by
  simp only [overloadTurn, overloadEdge, hq, hd]
  cases s.wrRuns <;> rfl

/-! ### The sample channel at an edge of `wr_clk` (40 R160, R170, R175) -/

variable {p : SampleSignals} {q : List SampleSignals}

/-- Within the bound of log 7 a beat goes into the ring. -/
theorem sampleEdge_accepts (hq : s.beatQ = p :: q) (hv : p.valid = true) (hr : s.sReady = true) (hc : s.rbCap ≠ 0)
    (hroom : s.clrReq = true ∨ s.beatsInFlight + 1 < 2 ^ (s.params.cw - 1)) :
    sampleEdge s = .next (beatTaken ⟨p.re, p.im⟩ { s with beatQ := q }) := by
  simp only [sampleEdge, hq, hv, hr, Bool.not_true, Bool.false_eq_true, if_false, if_true]
  exact acceptBeat_eq_next.mpr (.inr ⟨hc, hroom, rfl⟩)

/-- A beat is held while `s_ready = 0`, and goes nowhere with a capacity of 0. -/
theorem sampleEdge_holds (hq : s.beatQ = p :: q) (hv : p.valid = true) (h : s.sReady = false ∨ s.rbCap = 0) :
    sampleEdge s = .next { s with beatQ := if s.sReady then q else p :: q } := by
  simp only [sampleEdge, hq, hv, Bool.not_true, Bool.false_eq_true, if_false]
  cases hr : s.sReady with
  | false => rw [if_neg Bool.false_ne_true, if_neg Bool.false_ne_true, ← hq]
  | true =>
    have hc : s.rbCap = 0 := h.resolve_left (by simp [hr])
    exact acceptBeat_eq_next.mpr (.inl ⟨hc, rfl⟩)

theorem sampleEdge_idle (h : ∀ p q, s.beatQ = p :: q → p.valid = false) :
    sampleEdge s = .next { s with beatQ := s.beatQ.tail } := by
  cases hq : s.beatQ with
  | nil =>
    have hnone : ({ s with beatQ := [] } : State) = s := by rw [← hq]
    rw [List.tail_nil, hnone, sampleEdge, hq]
  | cons p q => simp only [sampleEdge, hq, h p q hq, Bool.not_false, if_true, List.tail_cons]

/-- The state with other values of what the sample channel writes: its queue, the pointer with its gray code, the ring. -/
def State.withSample (s : State) (q : List SampleSignals) (w g : Nat) (m : Memory) : State :=
  { s with beatQ := q, wptrW := w, wptrG := g, rbmem := m }

/-- Within the bound of log 7 the sample channel always answers. -/
theorem sampleEdge_frame (hroom : s.clrReq = true ∨ s.beatsInFlight + 1 < 2 ^ (s.params.cw - 1)) :
    ∃ q w g m, sampleEdge s = .next (s.withSample q w g m) := by
  by_cases hidle : ∀ p q, s.beatQ = p :: q → p.valid = false
  · exact ⟨_, _, _, _, sampleEdge_idle hidle⟩
  · push Not at hidle
    obtain ⟨p, q, hq, hv⟩ := hidle
    have hv : p.valid = true := Bool.eq_true_of_not_eq_false hv
    by_cases h : s.sReady = false ∨ s.rbCap = 0
    · exact ⟨_, _, _, _, sampleEdge_holds hq hv h⟩
    · push Not at h
      exact ⟨_, _, _, _, sampleEdge_accepts hq hv (Bool.eq_true_of_not_eq_false h.1) h.2 hroom⟩

theorem rbmemAt_beatTaken (x : Sample) (s : State) (i : Nat) :
    (beatTaken x s).rbmemAt i = if i = ringIndex s.rbCap s.wptrW then x else s.rbmemAt i :=
  State.rbmemAt_setRbmem s _ i x

/-- The bytes of `RBMEM` beside the slot that is written. -/
theorem byteAt_beatTaken_outside (x : Sample) (s : State) (a : Nat)
    (ha : a < 8 * ringIndex s.rbCap s.wptrW ∨ 8 * ringIndex s.rbCap s.wptrW + 8 ≤ a) :
    (beatTaken x s).byteAt .rbmem a = s.byteAt .rbmem a := by
  rw [State.byteAt_of_write (s := s) (t := beatTaken x s) (id := .rbmem) (a := 8 * ringIndex s.rbCap s.wptrW)
    (bs := sampleBytes x) rfl rfl, if_neg (by rw [length_sampleBytes]; omega)]

/-! ### The overload channel at an edge of `wr_clk` (43 R320) -/

variable {o : OverloadSignals} {ovls : List OverloadSignals}

/-- Within the bound of log 7 a change is counted. -/
theorem overloadEdge_counts (hq : s.ovlQ = o :: ovls) (hv : o.valid = true) (hne : o.value ≠ s.ovlW)
    (hr : s.inReset = false) (hroom : s.changesInFlight + 1 < 2 ^ (s.params.cw - 1)) :
    overloadEdge s = .next (changeTaken o.value { s with ovlQ := ovls }) := by
  simp only [overloadEdge, hq, decodeOverload, hv, if_true]
  exact exec_ovlset_eq_next.mpr (.inr ⟨hr, .inr ⟨hne, hroom, rfl⟩⟩)

theorem overloadEdge_drops (h : ∀ o q, s.ovlQ = o :: q → o.valid = false ∨ o.value = s.ovlW)
    (hr : s.inReset = false) : overloadEdge s = .next { s with ovlQ := s.ovlQ.tail } := by
  cases hq : s.ovlQ with
  | nil =>
    have hnone : ({ s with ovlQ := [] } : State) = s := by rw [← hq]
    rw [List.tail_nil, hnone, overloadEdge, hq]
  | cons o ovls =>
    cases hv : o.valid with
    | false => simp [overloadEdge, hq, decodeOverload, hv]
    | true =>
      have hsame : o.value = s.ovlW := (h o ovls hq).resolve_left (by simp [hv])
      simp only [overloadEdge, hq, decodeOverload, hv, if_true, List.tail_cons]
      exact exec_ovlset_eq_next.mpr (.inr ⟨hr, .inl ⟨hsame, rfl⟩⟩)

/-- Within the bound of log 7 the overload channel always answers, and it takes what it is offered. -/
theorem overloadEdge_frame (hr : s.inReset = false) (hroom : s.changesInFlight + 1 < 2 ^ (s.params.cw - 1)) :
    ∃ b c g, overloadEdge s = .next (({ s with ovlQ := s.ovlQ.tail } : State).setOverload b c g) := by
  by_cases hdrop : ∀ o q, s.ovlQ = o :: q → o.valid = false ∨ o.value = s.ovlW
  · exact ⟨_, _, _, overloadEdge_drops hdrop hr⟩
  · push Not at hdrop
    obtain ⟨o, ovls, hq, hv, hne⟩ := hdrop
    rw [overloadEdge_counts hq (Bool.eq_true_of_not_eq_false hv) hne hr hroom, hq]
    exact ⟨_, _, _, rfl⟩

/-! ### The producer's half of the handshake -/

/-- `FROZEN` follows the synchronised request, and a freeze for a resize clears the pointer (40 R171, R176). -/
theorem producerHandshake_eq (s : State) :
    producerHandshake s = { s with
      frozen := syncOut false s.reqSync
      freezeAck := if syncOut false s.reqSync = s.frozen then s.freezeAck else syncOut false s.reqSync
      wptrW := if syncOut false s.reqSync && !s.frozen && s.clrReq then 0 else s.wptrW
      wptrG := if syncOut false s.reqSync && !s.frozen && s.clrReq then 0 else s.wptrG
      reqSync := shiftIn s.freezeReq s.reqSync } := by
  unfold producerHandshake
  cases hreq : syncOut false s.reqSync <;> cases hf : s.frozen <;> cases hc : s.clrReq <;> simp [hf, hc]

/-! ### The step -/

theorem step_wrEdge_stopped (hs : s.sched = .wrEdge :: rest) (hw : s.wrRuns = false) :
    step s = .next { s with sched := rest } :=
  (step_scheduled hs).trans (if_pos (by simp [hw]))

/-- An edge of a running `wr_clk` out of reset: the two channels, and then the handshake. -/
theorem step_wrEdge_running {v u : State} (hs : s.sched = .wrEdge :: rest) (hw : s.wrRuns = true)
    (hv : sampleEdge { s with sched := rest } = .next v) (hu : overloadEdge v = .next u) (hr : u.rstW = false) :
    step s = .next (producerHandshake u) := by
  rw [step_scheduled hs, takeTurn, wrEdgeTurn, if_neg (by simp [hw]), hv, andThen_next, hu, andThen_next, producerEdge,
    if_neg (by simp [hr])]

/-- Settles O5: a port's turn is its transaction; an edge of `wr_clk` is the two channels, each with its cases, and then the
handshake. -/
theorem stepRunsOfferedTransactions : Obligations.StepRunsOfferedTransactions := by
  unfold Obligations.StepRunsOfferedTransactions
  refine ⟨fun s i rest => ⟨fun b q h hq hd => ?_, fun p q h hq hd => ?_, fun o q h hq hd => ?_⟩,
    fun s rest h hw hr hroom hroomO => ?edge, fun s rest h hw => step_wrEdge_stopped h hw, producerHandshake_eq⟩
  · exact (step_scheduled h).trans (hostTurn_of_offer (s := { s with sched := rest }) hq hd)
  · exact (step_scheduled h).trans (beatTurn_of_offer (s := { s with sched := rest }) hq hd)
  · exact (step_scheduled h).trans (overloadTurn_of_offer (s := { s with sched := rest }) hq hd)
  case edge =>
    obtain ⟨q, w, g, m, hv⟩ := sampleEdge_frame (s := { s with sched := rest }) hroom
    obtain ⟨b, c, k, hu⟩ := overloadEdge_frame (s := ({ s with sched := rest } : State).withSample q w g m) hr hroomO
    have hrst : s.rstW = false := (Bool.or_eq_false_iff.mp hr).1
    refine ⟨_, step_wrEdge_running h hw hv hu hrst, fun p beats hq hvalid hready hcap => ?accepts,
      fun p beats hq hvalid hno => ?holds, fun hidle => ?idle, fun o ovls hq hvalid hne => ?counts, fun hdrop => ?drops, rfl⟩
    case accepts =>
      have hbeat := Host.Outcome.next.inj (hv.symm.trans (sampleEdge_accepts hq hvalid hready hcap hroom))
      refine ⟨congrArg State.beatQ hbeat, congrArg State.wptrW hbeat, congrArg State.wptrG hbeat, fun i => ?_,
        fun a ha => ?_⟩
      · exact (congrArg (State.rbmemAt · i) hbeat).trans (rbmemAt_beatTaken _ _ i)
      · exact (congrArg (State.byteAt · .rbmem a) hbeat).trans (byteAt_beatTaken_outside _ _ a ha)
    case holds =>
      have hbeat := Host.Outcome.next.inj (hv.symm.trans (sampleEdge_holds hq hvalid hno))
      exact ⟨(congrArg State.beatQ hbeat :), (congrArg State.wptrW hbeat :), (congrArg State.wptrG hbeat :),
        (congrArg State.rbmem hbeat :)⟩
    case idle =>
      have hbeat := Host.Outcome.next.inj (hv.symm.trans (sampleEdge_idle hidle))
      exact ⟨(congrArg State.beatQ hbeat :), (congrArg State.wptrW hbeat :), (congrArg State.wptrG hbeat :),
        (congrArg State.rbmem hbeat :)⟩
    case counts =>
      have hovl := Host.Outcome.next.inj (hu.symm.trans (overloadEdge_counts hq hvalid hne hr hroomO))
      exact ⟨(congrArg State.ovlW hovl :), (congrArg State.ovlWcnt hovl :), (congrArg State.ovlG hovl :)⟩
    case drops =>
      have hovl := Host.Outcome.next.inj (hu.symm.trans (overloadEdge_drops hdrop hr))
      exact ⟨(congrArg State.ovlW hovl :), (congrArg State.ovlWcnt hovl :), (congrArg State.ovlG hovl :)⟩

end Sys2Proof.Machine
end

section
/-! PROOFS. The ring index of a cursor (40 R151), the two queries (40 R156, 43 R274), and the gray code (40 R174): its
inverse bit by bit, and the one bit in which the codes of successive values differ. -/

namespace Sys2Proof.Machine

open Sys2Proof.Safety

/-! ### The ring index (40 R151) -/

theorem ringIndex_eq_mod {cap : Nat} (h : ispow2 cap = true) (c : Nat) : ringIndex cap c = c % cap := by
  obtain ⟨k, rfl⟩ := ispow2_iff.mp h
  exact Nat.and_two_pow_sub_one_eq_mod c k

/-- A capacity within `NMAX` divides the range of the cursors (00 R6). -/
theorem cap_dvd_two_pow_cw {P : Params} {cap : Nat} (hP : P.legal) (h : ispow2 cap = true) (hmax : cap ≤ P.nmax) :
    cap ∣ 2 ^ P.cw := by
  obtain ⟨-, -, -, hcw, -⟩ := hP
  obtain ⟨k, rfl⟩ := ispow2_iff.mp h
  have hk : k ≤ P.log2Nmax := (Nat.pow_le_pow_iff_right (by decide)).mp hmax
  exact Nat.pow_dvd_pow 2 (by omega)

/-- Settles O12: the index is a remainder, and a power of two within `NMAX` divides `2^CW`. -/
theorem ringIndexIsModulo : Obligations.RingIndexIsModulo := by
  unfold Obligations.RingIndexIsModulo
  intro P cap c hP hcap hmax
  obtain ⟨m, hm⟩ := cap_dvd_two_pow_cw hP hcap hmax
  rw [ringIndex_eq_mod hcap, ringIndex_eq_mod hcap, hm, Nat.add_mul_mod_self_left]
  exact ⟨rfl, rfl⟩

/-! ### The queries (40 R156, 43 R274) -/

theorem bitWord_eq_ite (b : Bool) : bitWord b = if b then 1 else 0 := by cases b <;> rfl

/-- Settles O16: each query ends at once with its flag. -/
theorem queriesReturnTheirFlag : Obligations.QueriesReturnTheirFlag := by
  unfold Obligations.QueriesReturnTheirFlag
  refine ⟨rfl, rfl, fun s => ⟨?_, ?_⟩⟩
  · rw [← bitWord_eq_ite]; rfl
  · rw [← bitWord_eq_ite]; rfl

/-! ### The gray code (40 R174) -/

/-- The inverse has its top bit from the bit above it and the code's top bit, and below that it is the inverse of the rest. -/
theorem testBit_grayInverse_succ (k : Nat) (above : Bool) (g i : Nat) :
    (grayInverse (k + 1) above g).testBit i =
      if i < k then (grayInverse k (above ^^ g.testBit k) g).testBit i
      else (above ^^ g.testBit k).toNat.testBit (i - k) := by
  rw [grayInverse, Nat.mul_comm, Nat.testBit_two_pow_mul_add _ (grayInverse_lt _ _ _)]

theorem testBit_grayInverse_top (k : Nat) (above : Bool) (g : Nat) :
    (grayInverse (k + 1) above g).testBit k = (above ^^ g.testBit k) := by
  rw [testBit_grayInverse_succ, if_neg (Nat.lt_irrefl k), Nat.sub_self]
  cases above ^^ g.testBit k <;> rfl

/-- Below the top each bit of the inverse comes from the one above it: `b[i] = b[i+1] ^ g[i]`. -/
theorem testBit_grayInverse_below {k i : Nat} (h : i < k) (above : Bool) (g : Nat) :
    (grayInverse (k + 1) above g).testBit i = ((grayInverse (k + 1) above g).testBit (i + 1) ^^ g.testBit i) := by
  induction k generalizing above with
  | zero => omega
  | succ k ih =>
    rw [testBit_grayInverse_succ, if_pos h]
    obtain rfl | hlt := Nat.eq_or_lt_of_le (Nat.le_of_lt_succ h)
    · rw [testBit_grayInverse_top, testBit_grayInverse_top]
    · rw [testBit_grayInverse_succ (k + 1), if_pos (Nat.succ_lt_succ hlt), ih hlt]

theorem gray_lt {cw b : Nat} (h : b < 2 ^ cw) : gray b < 2 ^ cw :=
  Nat.xor_lt_two_pow h (Nat.lt_of_le_of_lt (Nat.shiftRight_le b 1) h)

/-- The code is linear over exclusive or. -/
theorem gray_xor (a b : Nat) : gray a ^^^ gray b = gray (a ^^^ b) := by
  refine Nat.eq_of_testBit_eq fun i => ?_
  simp only [Nat.testBit_xor, testBit_gray]
  cases a.testBit i <;> cases b.testBit i <;> cases a.testBit (i + 1) <;> cases b.testBit (i + 1) <;> rfl

theorem gray_two_pow_sub_one (k : Nat) : gray (2 ^ (k + 1) - 1) = 2 ^ k := by
  refine Nat.eq_of_testBit_eq fun i => ?_
  simp only [testBit_gray, Nat.testBit_two_pow_sub_one, Nat.testBit_two_pow]
  obtain h | rfl | h := Nat.lt_trichotomy i k
  · simp [show i < k + 1 by omega, h, show k ≠ i by omega]
  · simp
  · simp [show ¬ i < k + 1 by omega, show ¬ i < k by omega, show k ≠ i by omega]

/-- Counting on by one modulo `2^(cw+1)` flips a run of the lowest bits. -/
theorem xor_counterNext (cw : Nat) {b : Nat} (h : b < 2 ^ (cw + 1)) :
    ∃ k ≤ cw, b ^^^ counterNext (cw + 1) b = 2 ^ (k + 1) - 1 := by
  induction cw generalizing b with
  | zero =>
    have hb : b < 2 := h
    interval_cases b <;> exact ⟨0, Nat.le_refl 0, rfl⟩
  | succ cw ih =>
    obtain ⟨m, rfl | rfl⟩ := Nat.even_or_odd' b
    · have hnext : counterNext (cw + 2) (2 * m) = Nat.bit true m :=
        Nat.mod_eq_of_lt (by rw [Nat.pow_succ'] at h ⊢; omega)
      refine ⟨0, Nat.zero_le _, ?_⟩
      rw [hnext, ← Nat.bit_false_apply, Nat.xor_bit, Nat.xor_self]
      rfl
    · have hnext : counterNext (cw + 2) (2 * m + 1) = Nat.bit false (counterNext (cw + 1) m) := by
        rw [counterNext, Nat.pow_succ', Nat.add_assoc, ← Nat.mul_succ, Nat.mul_mod_mul_left]
        rfl
      obtain ⟨k, hk, hxor⟩ := ih (b := m) (by omega)
      refine ⟨k + 1, by omega, ?_⟩
      rw [hnext, ← Nat.bit_true_apply, Nat.xor_bit, hxor, Nat.pow_succ' (n := k + 1)]
      have hpos := Nat.two_pow_pos (k + 1)
      show 2 * (2 ^ (k + 1) - 1) + 1 = 2 * 2 ^ (k + 1) - 1
      omega

/-- Settles O19: the inverse goes down from the top bit, the code is linear over exclusive or, and counting on by one flips a
run of the lowest bits, whose code is a single bit. -/
theorem grayCodeRoundTrip : Obligations.GrayCodeRoundTrip := by
  unfold Obligations.GrayCodeRoundTrip
  refine ⟨fun _ => rfl, fun cw g => ⟨?top, fun i hi => testBit_grayInverse_below hi false g⟩,
    fun cw b hb => ⟨gray_lt hb, gray2bin_gray hb⟩, fun cw b hcw hb => ?next, fun cw hcw => ?wrap, by decide⟩
  case top => rw [gray2bin, testBit_grayInverse_top, Bool.false_xor]
  case next =>
    obtain ⟨n, rfl⟩ : ∃ n, cw = n + 1 := ⟨cw - 1, by omega⟩
    obtain ⟨k, hk, hxor⟩ := xor_counterNext n hb
    refine ⟨k, by omega, ?_⟩
    rw [gray_xor, ← counterNext, hxor, gray_two_pow_sub_one]
  case wrap =>
    obtain ⟨n, rfl⟩ : ∃ n, cw = n + 1 := ⟨cw - 1, by omega⟩
    rw [gray_zero, Nat.xor_zero, gray_two_pow_sub_one, Nat.add_sub_cancel]

end Sys2Proof.Machine
end

section
/-! PROOFS. `PUT` (40 R160, R161, R172, R175, R176): what a beat does in any state that takes it, and with no other beat under
way the pseudocode of 40 R160. -/

namespace Sys2Proof.Machine

open Sys2Proof.Safety

variable {s t : State}

/-- A beat that the producer takes within the bound of log 7 is accepted, and then all that is under way crosses. -/
theorem exec_put_taken {re im : F32} (hr : s.sReady = true) (hc : s.rbCap ≠ 0)
    (hroom : s.clrReq = true ∨ s.beatsInFlight + 1 < 2 ^ (s.params.cw - 1)) :
    exec (.put re im) s = .next (settleBeats (beatTaken ⟨re, im⟩ s)) :=
  exec_put_eq_next.mpr (.inr ⟨by simp [hr, hc], _, acceptBeat_eq_next.mpr (.inr ⟨hc, hroom, rfl⟩), rfl⟩)

/-- Settling leaves the ring memory. -/
theorem byteAt_settleBeats (s : State) (a : Nat) : (settleBeats s).byteAt .rbmem a = s.byteAt .rbmem a := by
  obtain ⟨acc, g, w, q, c, h⟩ := settleBeats_frame s
  rw [h]; rfl

theorem rbmemAt_settleBeats (s : State) (i : Nat) : (settleBeats s).rbmemAt i = s.rbmemAt i := by
  obtain ⟨acc, g, w, q, c, h⟩ := settleBeats_frame s
  rw [h]; rfl

/-- The state after a `PUT` that found no other beat under way (40 R160). -/
def putDone (x : Sample) (s : State) : State :=
  { s.setRbmem (ringIndex s.rbCap s.rbWcur) x with
    rbWcur := counterNext s.params.cw s.rbWcur, rbAcc := min s.rbCap (s.rbAcc + 1)
    rbGate := decide (min s.rbCap (s.rbAcc + 1) = s.rbCap)
    wptrW := counterNext s.params.cw s.rbWcur, wptrG := gray (counterNext s.params.cw s.rbWcur)
    wsync := List.replicate s.params.syncStages (gray (counterNext s.params.cw s.rbWcur))
    wsyncQ := counterNext s.params.cw s.rbWcur }

/-- With no other beat under way, one beat crosses. -/
theorem settleBeats_beatTaken (hs : Settled s) (hcw : 0 < s.params.cw) (hw : s.rbWcur < 2 ^ s.params.cw) (x : Sample) :
    settleBeats (beatTaken x s) = putDone x s := by
  have hone : counterDelta s.params.cw (counterNext s.params.cw s.rbWcur) s.rbWcur = 1 := counterDelta_next_self hcw hw
  have hrun : ¬ (beatTaken x s).clrReq = true := by simp [beatTaken, hs.running]
  rw [settleBeats_eq, if_neg hrun]
  simp only [beatTaken, putDone, State.setRbmem, hs.pointer, hs.seen, hone]

/-- With no other beat under way, one beat is within the bound of log 7. -/
theorem room_of_settled (hs : Settled s) (hcw : 2 ≤ s.params.cw) : s.beatsInFlight + 1 < 2 ^ (s.params.cw - 1) := by
  rw [State.beatsInFlight, hs.pointer, hs.seen, counterDelta_self]
  exact rate_bound hcw

theorem exec_put_settled (hr : s.sReady = true) (hc : s.rbCap ≠ 0) (hcw : 2 ≤ s.params.cw) (hs : Settled s)
    (hw : s.rbWcur < 2 ^ s.params.cw) (x : Sample) : exec (.put x.re x.im) s = .next (putDone x s) := by
  rw [exec_put_taken hr hc (.inr (room_of_settled hs hcw)), settleBeats_beatTaken hs (by omega) hw]

theorem rbmemAt_putDone (x : Sample) (s : State) (i : Nat) :
    (putDone x s).rbmemAt i = if i = ringIndex s.rbCap s.rbWcur then x else s.rbmemAt i :=
  State.rbmemAt_setRbmem s _ i x

/-- Settles O18: a beat that is not held is accepted and settled; with no other beat under way that is `putDone`. -/
theorem putWritesSlotAtCursor : Obligations.PutWritesSlotAtCursor := by
  unfold Obligations.PutWritesSlotAtCursor
  intro s re im
  refine ⟨fun hheld => exec_put_eq_next.mpr (.inl ⟨hheld, rfl⟩), fun hr hc hP hs hw => ?alone, fun hr hc hroom => ?others⟩
  case alone =>
    obtain ⟨-, -, -, hcw, -⟩ := hP
    refine ⟨_, exec_put_settled hr hc (by omega) hs hw ⟨re, im⟩, rbmemAt_putDone ⟨re, im⟩ s, fun a ha => ?_, rfl⟩
    have hbeat := byteAt_beatTaken_outside ⟨re, im⟩ s a (hs.pointer ▸ ha)
    rw [← settleBeats_beatTaken hs (by omega) hw, byteAt_settleBeats, hbeat]
  case others =>
    refine ⟨_, exec_put_taken hr hc hroom, fun i => ?_, fun a ha => ?_, ?_⟩
    · rw [rbmemAt_settleBeats, rbmemAt_beatTaken]
    · rw [byteAt_settleBeats, byteAt_beatTaken_outside _ _ _ ha]
    · by_cases hclr : s.clrReq = true
      · rw [settleBeats_eq, if_pos (show (beatTaken ⟨re, im⟩ s).clrReq = true from hclr)]
        exact (if_pos hclr).symm
      · rw [settleBeats_eq, if_neg (show ¬ (beatTaken ⟨re, im⟩ s).clrReq = true from hclr)]
        exact (if_neg hclr).symm

end Sys2Proof.Machine
end

section
/-! PROOFS. A burst of `PUT`s (40 R155, R160, R164) and the drain (40 R154, R171): the invariant of a burst says where the cursor
and the count stand and which slots hold its latest beats, and a drain copies the slots in that order. -/

namespace Sys2Proof.Machine

open Sys2Proof.Safety

variable {s t : State} {xs : List Sample}

/-! ### The length check -/

/-- A command on a block fails as 60 R341 says. -/
theorem lengthFailures_of_withLength {i : Instr} {n : Nat} {body : State → Host.Outcome State Fault Refusal}
    (h : exec i s = withLength n s body) : LengthFailures i n s := by
  refine ⟨fun ho => ?_, fun ho hn => ?_⟩
  · rw [h, withLength, whileClosed_opened ho]
  · rw [h, withLength, whileClosed_closed ho]
    exact if_pos hn

theorem withLength_accepted {n : Nat} {body : State → Host.Outcome State Fault Refusal} (h : LengthAccepted s n) :
    withLength n s body = body s := by
  obtain ⟨ho, hn⟩ := h
  rw [withLength, whileClosed_closed ho]
  exact if_neg (not_not.mpr hn)

/-! ### The drain -/

theorem blkAt_drain {j : Nat} (hj : j < s.rbCap) :
    (drain s).blkAt j = s.rbmemAt (ringIndex s.rbCap (s.rbWcur + j)) :=
  (blkAt_setBlock_range s s.rbCap _ j).trans (if_pos hj)

theorem byteAt_drain_outside {a : Nat} (ha : 8 * s.rbCap ≤ a) : (drain s).byteAt .blk a = s.byteAt .blk a :=
  State.byteAt_setBlock_outside s _ a (by simpa using ha)

theorem exec_rbReadall_eq (s : State) :
    exec .rbReadall s = withLength s.rbCap s fun s =>
      if s.rbGate = false then .next (s.fail .notReady) else withFreeze s fun t => (drain t).finish .ok 1 := rfl

/-- An accepted `RB_READALL` with the gate up is a drain under the freeze. -/
theorem exec_rbReadall_accepted (h : LengthAccepted s s.rbCap) (hg : s.rbGate = true) :
    exec .rbReadall s = withFreeze s fun t => ended (drain t) .ok 1 := by
  rw [exec_rbReadall_eq, withLength_accepted h]
  exact if_neg (by simp [hg])

/-- Taken as one transition: every accepted beat crosses, and then the drain. -/
theorem exec_rbReadall_idle (h : LengthAccepted s s.rbCap) (hg : s.rbGate = true) (hf : s.freeze = .idle) :
    exec .rbReadall s = .next (ended (drain (settleBeats s)) .ok 1) := by
  rw [exec_rbReadall_accepted h hg, withFreeze_idle hf]

/-- Settles O14: the command is its checks and then a settling and a drain, which overwrites the count and the gate. -/
theorem rbReadallDrainsRing : Obligations.RbReadallDrainsRing := by
  unfold Obligations.RbReadallDrainsRing
  refine ⟨rfl, fun s => ⟨lengthFailures_of_withLength (exec_rbReadall_eq s), fun h hg => ?notReady,
    fun h hg hf => ?drained⟩⟩
  case notReady =>
    rw [exec_rbReadall_eq, withLength_accepted h]
    exact if_pos hg
  case drained =>
    have hsettled := settleBeats_eq s
    rw [if_neg (by simp [(freeze_idle_requests hf).2])] at hsettled
    refine ⟨_, exec_rbReadall_idle h hg hf, ?_⟩
    rw [hsettled]
    exact ⟨fun j hj => blkAt_drain hj, fun a ha => byteAt_drain_outside ha, rfl⟩

/-! ### A burst of beats -/

/-- A good state in which the producer runs and no beat is under way. -/
structure Streaming (s : State) : Prop where
  inv : Inv s
  settled : Settled s
  running : Running s

theorem Streaming.cap_pos (h : Streaming s) : 0 < s.rbCap := ispow2_pos h.inv.cap.1

theorem exec_put_streaming (h : Streaming s) (x : Sample) : exec (.put x.re x.im) s = .next (putDone x s) :=
  exec_put_settled h.running.ready h.cap_pos.ne' (two_le_cw h.inv) h.settled h.inv.cursors.1 x

theorem streaming_putDone (h : Streaming s) (x : Sample) : Streaming (putDone x s) where
  inv := by
    have hbeat : acceptBeat x s = .next (beatTaken x s) :=
      acceptBeat_eq_next.mpr (.inr ⟨h.cap_pos.ne', .inr (room_of_settled h.settled (two_le_cw h.inv)), rfl⟩)
    rw [← settleBeats_beatTaken h.settled (by have := two_le_cw h.inv; omega) h.inv.cursors.1]
    exact inv_settleBeats (inv_acceptBeat h.inv hbeat)
  settled := ⟨rfl, rfl, rfl, rfl, h.settled.running⟩
  running := ⟨h.running.ready, h.running.idle⟩

theorem putAll_append (xs ys : List Sample) (s : State) :
    putAll (xs ++ ys) s = andThen (putAll xs s) (putAll ys) := by
  induction xs generalizing s with
  | nil => rfl
  | cons x xs ih =>
    rw [List.cons_append, putAll, putAll]
    cases exec (.put x.re x.im) s with
    | next t => exact ih t
    | fault _ | refused _ => rfl

/-- What no beat changes and a drain depends on. -/
def State.ringSetup (s : State) : Params × Nat × Bool × Word := (s.params, s.rbCap, s.opened, s.curArg)

/-- Where the beats `xs`, taken from `s` on, leave the ring buffer. -/
structure Burst (s : State) (xs : List Sample) (t : State) : Prop where
  streaming : Streaming t
  setup : t.ringSetup = s.ringSetup
  cursor : t.rbWcur = (s.rbWcur + xs.length) % 2 ^ s.params.cw
  acc : t.rbAcc = min s.rbCap (s.rbAcc + xs.length)
  /-- the latest beats, as many as the capacity, are in their slots -/
  slots : ∀ i x, xs[i]? = some x → xs.length ≤ i + s.rbCap → t.rbmemAt ((s.rbWcur + i) % s.rbCap) = x

theorem ringSetup_eq (h : t.ringSetup = s.ringSetup) :
    t.params = s.params ∧ t.rbCap = s.rbCap ∧ t.opened = s.opened ∧ t.curArg = s.curArg := by
  simpa only [State.ringSetup, Prod.mk.injEq] using h

/-- The slot of a cursor does not see the cursor's wrap (40 R151). -/
theorem ringIndex_mod_two_pow (h : Inv s) (c j : Nat) :
    ringIndex s.rbCap (c % 2 ^ s.params.cw + j) = (c + j) % s.rbCap := by
  rw [ringIndex_eq_mod h.cap.1, Nat.add_mod, Nat.mod_mod_of_dvd c (cap_dvd_two_pow_cw h.legal h.cap.1 h.cap.2),
    ← Nat.add_mod]

theorem Burst.slot (h : Burst s xs t) (j : Nat) :
    ringIndex t.rbCap (t.rbWcur + j) = (s.rbWcur + xs.length + j) % s.rbCap := by
  obtain ⟨hparams, hcap, -, -⟩ := ringSetup_eq h.setup
  rw [h.cursor, ← hparams, ringIndex_mod_two_pow h.streaming.inv, hcap]

theorem burst_nil (h : Streaming s) : Burst s [] s where
  streaming := h
  setup := rfl
  cursor := (Nat.mod_eq_of_lt h.inv.cursors.1).symm
  acc := (Nat.min_eq_right h.inv.acc).symm
  slots _ _ hx := nomatch hx

/-- One beat more goes to the next slot, which is none of those before it within a capacity. -/
theorem burst_snoc (h : Burst s xs t) (x : Sample) : Burst s (xs ++ [x]) (putDone x t) := by
  obtain ⟨hparams, hcap, -, -⟩ := ringSetup_eq h.setup
  refine ⟨streaming_putDone h.streaming x, h.setup, ?cursor, ?acc, fun i y hy hlate => ?slots⟩
  case cursor =>
    show counterNext t.params.cw t.rbWcur = _
    rw [counterNext, h.cursor, hparams, Nat.mod_add_mod, List.length_append]
    rfl
  case acc =>
    show min t.rbCap (t.rbAcc + 1) = _
    rw [h.acc, hcap, List.length_append, List.length_singleton]
    omega
  case slots =>
    have hpos := hcap ▸ h.streaming.cap_pos
    rw [List.length_append, List.length_singleton] at hlate
    rw [rbmemAt_putDone, show ringIndex t.rbCap t.rbWcur = _ from h.slot 0, Nat.add_zero]
    obtain hlt | rfl | hgt := Nat.lt_trichotomy i xs.length
    · have hother : (s.rbWcur + i) % s.rbCap ≠ (s.rbWcur + xs.length) % s.rbCap := fun he => by
        have hdvd : s.rbCap ∣ xs.length - i := by
          have := (Nat.modEq_iff_dvd' (by omega)).mp he
          rwa [Nat.add_sub_add_left] at this
        have := Nat.le_of_dvd (by omega) hdvd
        omega
      rw [if_neg hother]
      exact h.slots i y (by rwa [List.getElem?_append_left hlt] at hy) (by omega)
    · rw [if_pos rfl]
      simpa using hy
    · rw [List.getElem?_eq_none (by simp; omega)] at hy
      cases hy

/-- A burst from a good state with no beat under way. -/
theorem putAll_burst (h : Streaming s) (xs : List Sample) : ∃ t, putAll xs s = .next t ∧ Burst s xs t := by
  induction xs using List.reverseRecOn with
  | nil => exact ⟨s, rfl, burst_nil h⟩
  | append_singleton xs x ih =>
    obtain ⟨t, ht, hburst⟩ := ih
    refine ⟨putDone x t, ?_, burst_snoc hburst x⟩
    rw [putAll_append, ht, andThen_next, putAll, exec_put_streaming hburst.streaming, andThen_next, putAll]

/-- The gate is up exactly from the beat on that fills the ring (40 R164). -/
theorem Burst.gate_iff (h : Burst s xs t) : t.rbGate = true ↔ s.rbCap - s.rbAcc ≤ xs.length := by
  obtain ⟨-, hcap, -, -⟩ := ringSetup_eq h.setup
  rw [h.streaming.inv.gate, decide_eq_true_iff, h.acc, hcap]
  omega

/-- Settles O17: the gate and the count after a burst. -/
theorem gateRisesAtCapacity : Obligations.GateRisesAtCapacity := by
  unfold Obligations.GateRisesAtCapacity
  intro s xs hi hs hr _
  obtain ⟨t, ht, hburst⟩ := putAll_burst ⟨hi, hs, hr⟩ xs
  exact ⟨t, ht, hburst.gate_iff, hburst.acc⟩

/-- Settles O15: a burst of at least a capacity raises the gate, and the drain reads the slots of its last beats in their
order. -/
theorem drainedBlockIsLatestBeats : Obligations.DrainedBlockIsLatestBeats := by
  unfold Obligations.DrainedBlockIsLatestBeats
  intro s xs hi hs hr hlen hlong
  obtain ⟨u, hu, hburst⟩ := putAll_burst ⟨hi, hs, hr⟩ xs
  obtain ⟨-, hcap, hopened, harg⟩ := ringSetup_eq hburst.setup
  obtain ⟨-, hread⟩ := rbReadallDrainsRing
  have haccepted : LengthAccepted u u.rbCap := ⟨hopened.trans hlen.1, by rw [harg, hcap]; exact hlen.2⟩
  obtain ⟨t, ht, hblk, -, hstate⟩ :=
    (hread u).2.2 haccepted (hburst.gate_iff.mpr (by omega)) hburst.streaming.running.idle
  refine ⟨u, t, hu, ht, by rw [hstate]; rfl, by rw [hstate]; rfl, fun j hj => ?_⟩
  have hx : xs[xs.length - s.rbCap + j]? = some (xs[xs.length - s.rbCap + j]'(by omega)) := List.getElem?_eq_getElem _
  rw [hblk j (hcap ▸ hj), hburst.streaming.settled.pointer, hburst.slot, hx,
    ← hburst.slots _ _ hx (by omega), show s.rbWcur + xs.length + j = s.rbWcur + (xs.length - s.rbCap + j) + s.rbCap by
      omega, Nat.add_mod_right]

end Sys2Proof.Machine
end

section
/-! PROOFS. Under a freeze the ring memory is stable (40 R171, R175): only an accepted beat writes it, and a frozen producer
accepts none. A lemma per turn says that the other agents leave it. -/

namespace Sys2Proof.Machine

open Sys2Proof.Safety

variable {s t : State}

theorem hostTurn_rbmem (h : hostTurn s = .next t) : t.rbmem = s.rbmem := by
  unfold hostTurn at h
  split at h
  · obtain rfl := Host.Outcome.next.inj h; rfl
  split at h
  · obtain rfl := Host.Outcome.next.inj h; rfl
  split at h
  · rename_i hi
    obtain ⟨a, rfl⟩ | ⟨a, v, w, rfl⟩ := decodeBus_eq_ok hi
    · obtain ⟨_, -, rfl⟩ | ⟨-, rfl⟩ := execBusRead_eq_next.mp h <;> rfl
    · obtain ⟨r, -, rfl⟩ | ⟨_, _, -, -, -, rfl⟩ | ⟨-, rfl⟩ := execBusWrite_eq_next.mp h
      · obtain ⟨_, _, _, _, _, _, _, hw, -⟩ | ⟨-, hw⟩ := writeReg_cases { s with busQ := _ } v r <;> rw [hw]
      · rfl
      · rfl
  · obtain rfl := Host.Outcome.next.inj h; rfl

theorem rbmem_of_keptView (h : t.keptView = s.keptView) : t.rbmem = s.rbmem := congrArg (·.2.1) h

theorem commandTurn_rbmem (h : commandTurn s = .next t) : t.rbmem = s.rbmem := by
  unfold commandTurn at h
  split at h
  · obtain rfl := Host.Outcome.next.inj h; rfl
  split at h
  · rename_i i hi
    exact rbmem_of_keptView (command_leaves (command_cases (decodeWord_isCommand hi) h)).kept
  · obtain rfl := Host.Outcome.next.inj h; rfl

theorem tickTurn_rbmem (h : tickTurn s = .next t) : t.rbmem = s.rbmem := by
  unfold tickTurn at h
  split at h
  · obtain rfl := Host.Outcome.next.inj h; rfl
  · exact rbmem_of_keptView (tickStep_keptView h)

theorem initTurn_rbmem (h : initTurn s = .next t) : t.rbmem = s.rbmem := by
  obtain ⟨m, n, b, c, rfl⟩ := initTurn_frame h
  rfl

theorem requestFreeze_rbmem (clr : Bool) (s : State) : (requestFreeze clr s).rbmem = s.rbmem := by
  unfold requestFreeze
  split
  · rfl
  · split <;> rfl

theorem freezeTurn_rbmem (h : freezeTurn s = .next t) : t.rbmem = s.rbmem := by
  unfold freezeTurn at h
  split at h
  · obtain rfl := Host.Outcome.next.inj h; rfl
  split at h
  · obtain rfl := Host.Outcome.next.inj h; exact requestFreeze_rbmem _ s
  · obtain rfl := Host.Outcome.next.inj h; rfl

theorem clkEdgeTurn_rbmem {host command tick : Bool} (h : clkEdgeTurn host command tick s = .next t) :
    t.rbmem = s.rbmem := by
  by_cases hr : s.rstC = true
  · obtain rfl := Host.Outcome.next.inj ((if_pos hr).symm.trans h)
    split <;> rfl
  · obtain ⟨u, v, w, hu, hv, hw, rfl⟩ := (clkEdgeTurn_eq_next (Bool.eq_false_iff.mpr hr)).mp h
    obtain ⟨a, g, c, q, y, hcross⟩ := crossBeats_frame s
    obtain ⟨n, k, b, p, htimer⟩ := timerEdge_frame (s.opened && !s.closing) (crossOverload w)
    have hhost : u.rbmem = s.rbmem := by
      rw [hcross] at hu
      split at hu
      · have hsame := hostTurn_rbmem hu
        exact hsame
      · obtain rfl := Host.Outcome.next.inj hu; rfl
    have hcommand : v.rbmem = u.rbmem := by
      split at hv
      · split at hv
        · exact initTurn_rbmem hv
        · exact commandTurn_rbmem hv
      · obtain rfl := Host.Outcome.next.inj hv; rfl
    have htick : w.rbmem = v.rbmem := by
      split at hw
      · exact tickTurn_rbmem hw
      · obtain rfl := Host.Outcome.next.inj hw; rfl
    have hend : (coreHandshake (timerEdge (s.opened && !s.closing) (crossOverload w))).rbmem = w.rbmem := by
      rw [htimer, crossOverload_frame]; rfl
    exact hend.trans (htick.trans (hcommand.trans hhost))

theorem overloadEdge_rbmem (h : overloadEdge s = .next t) : t.rbmem = s.rbmem := by
  unfold overloadEdge at h
  split at h
  · obtain rfl := Host.Outcome.next.inj h; rfl
  split at h
  · rename_i hi
    obtain ⟨-, rfl⟩ := decodeOverload_eq_ok hi
    obtain ⟨-, rfl⟩ | ⟨-, ⟨-, rfl⟩ | ⟨-, -, rfl⟩⟩ := exec_ovlset_eq_next.mp h <;> rfl
  · obtain rfl := Host.Outcome.next.inj h; rfl

theorem producerEdge_rbmem (s : State) : (producerEdge s).rbmem = s.rbmem := by
  unfold producerEdge
  split
  · split <;> rfl
  · rw [producerHandshake_eq]

/-! ### The two turns that take beats -/

theorem sReady_of_frozen (hf : s.frozen = true) : s.sReady = false := by rw [State.sReady, hf]; rfl

theorem beatTurn_rbmem_of_frozen (hf : s.frozen = true) (h : beatTurn s = .next t) : t.rbmem = s.rbmem := by
  unfold beatTurn at h
  split at h
  · obtain rfl := Host.Outcome.next.inj h; rfl
  split at h
  · obtain rfl := Host.Outcome.next.inj h; rfl
  split at h
  · rw [sReady_of_frozen hf] at h
    obtain rfl := Host.Outcome.next.inj h; rfl
  · obtain rfl := Host.Outcome.next.inj h; rfl

theorem sampleEdge_rbmem_of_frozen (hf : s.frozen = true) (h : sampleEdge s = .next t) : t.rbmem = s.rbmem := by
  unfold sampleEdge at h
  split at h
  · obtain rfl := Host.Outcome.next.inj h; rfl
  split at h
  · obtain rfl := Host.Outcome.next.inj h; rfl
  · rw [sReady_of_frozen hf] at h
    obtain rfl := Host.Outcome.next.inj h; rfl

theorem wrEdgeTurn_rbmem_of_frozen (hf : s.frozen = true) (h : wrEdgeTurn s = .next t) : t.rbmem = s.rbmem := by
  unfold wrEdgeTurn at h
  split at h
  · obtain rfl := Host.Outcome.next.inj h; rfl
  · obtain ⟨v, hv, h⟩ := andThen_eq_next.mp h
    obtain ⟨w, hw, hv⟩ := andThen_eq_next.mp hv
    obtain rfl := Host.Outcome.next.inj h
    exact (producerEdge_rbmem v).trans ((overloadEdge_rbmem hv).trans (sampleEdge_rbmem_of_frozen hf hw))

theorem crossTurn_rbmem {cross : State → State} (hc : ∀ s, (cross s).rbmem = s.rbmem)
    (h : crossTurn cross s = .next t) : t.rbmem = s.rbmem := by
  obtain rfl := Host.Outcome.next.inj h
  split
  · rfl
  · exact hc s

/-- Every turn short of a reset leaves the ring memory of a frozen producer. -/
theorem takeTurn_rbmem_of_frozen {k : Turn} (hf : s.frozen = true) (hk : k ≠ .rstAssert)
    (h : takeTurn k s = .next t) : t.rbmem = s.rbmem := by
  cases k with
  | host => exact hostTurn_rbmem h
  | beat => exact beatTurn_rbmem_of_frozen hf h
  | overload =>
    simp only [takeTurn, overloadTurn] at h
    split at h
    · obtain rfl := Host.Outcome.next.inj h; rfl
    · exact overloadEdge_rbmem h
  | command => exact commandTurn_rbmem h
  | tick => exact tickTurn_rbmem h
  | init => exact initTurn_rbmem h
  | freeze => exact freezeTurn_rbmem h
  | wrEdge => exact wrEdgeTurn_rbmem_of_frozen hf h
  | clkEdge => exact clkEdgeTurn_rbmem h
  | beatCross => exact crossTurn_rbmem (fun s => by rw [crossOneBeat_eq]; split <;> rfl) h
  | overloadCross => exact crossTurn_rbmem (fun s => by rw [crossOneChange_eq]; split <;> rfl) h
  | wrStop | wrStart | rstRelease => obtain rfl := Host.Outcome.next.inj h; rfl
  | rstAssert => exact absurd rfl hk

theorem step_rbmem_of_frozen (hf : s.frozen = true) (hreset : ∀ rest, s.sched ≠ .rstAssert :: rest)
    (h : step s = .next t) : t.rbmem = s.rbmem := by
  obtain rfl | ⟨k, q, hk, hrst⟩ := step_eq_takeTurn h
  · rfl
  · have hnot : k ≠ .rstAssert := fun e => (hrst e).elim hreset
    have hsame := takeTurn_rbmem_of_frozen (s := { s with sched := q }) hf hnot hk
    exact hsame

end Sys2Proof.Machine
end

section
/-! PROOFS. The four operations that need the freeze (40 R154, R171, R176; 43 R271, R305): each waits while the handshake is under
way, and acts at its linearization point. -/

namespace Sys2Proof.Machine

open Sys2Proof.Safety

variable {s t : State} {c i : Nat}

theorem withFreeze_waiting {body : State → State} (h : s.freeze = .waiting) : withFreeze s body = .next s := by
  rw [withFreeze, h]

theorem withFreeze_held {body : State → State} (h : s.freeze = .held) :
    withFreeze s body = .next (body s).releaseFreeze := by rw [withFreeze, h]

/-- The last transition of `ENG_SETSIZE` (43 R271; log 5). -/
theorem exec_engSetsize_last (hp : s.cmdPhase = .winFill c i) (hi : c ≤ i) :
    exec .engSetsize s = withFreeze s fun t => ended (sizeEngine c t) .ok (BitVec.ofNat 32 c) := by
  simp only [exec, execEngSetsize, hp, windowStep]
  exact if_neg (Nat.not_lt.mpr hi)

/-- A tick's drain that passes its check (43 R305). -/
theorem tickStep_drain (ht : s.tickStage = .drain) (hn : s.rbCap = s.engN) (hg : s.rbGate = true) :
    tickStep s = withFreeze s fun t => afterDrain true (drain t) := by
  simp only [tickStep, ht]
  exact if_pos ⟨hn, hg⟩

theorem freeze_waits (hf : s.freeze = .waiting) :
    (LengthAccepted s s.rbCap → s.rbGate = true → exec .rbReadall s = .next s) ∧
    (∀ c, SizeAccepted s c → exec .rbResize s = .next s) ∧
    (∀ c i, s.cmdPhase = .winFill c i → c ≤ i → exec .engSetsize s = .next s) ∧
    (s.tickStage = .drain → s.rbCap = s.engN → s.rbGate = true → tickStep s = .next s) := by
  refine ⟨fun h hg => ?_, fun c h => ?_, fun c i hp hi => ?_, fun ht hn hg => ?_⟩
  · rw [exec_rbReadall_accepted h hg, withFreeze_waiting hf]
  · rw [exec_rbResize_eq, withSize_accepted h, withFreeze_waiting hf]
  · rw [exec_engSetsize_last hp hi, withFreeze_waiting hf]
  · rw [tickStep_drain ht hn hg, withFreeze_waiting hf]

theorem exec_rbReadall_held (h : LengthAccepted s s.rbCap) (hg : s.rbGate = true) (hf : s.freeze = .held) :
    exec .rbReadall s = .next (ended (drain s) .ok 1).releaseFreeze := by
  rw [exec_rbReadall_accepted h hg, withFreeze_held hf]

theorem exec_rbResize_held (h : SizeAccepted s c) (hf : s.freeze = .held) :
    exec .rbResize s = .next (ended (resizeRing c s) .ok (BitVec.ofNat 32 c)).releaseFreeze := by
  rw [exec_rbResize_eq, withSize_accepted h, withFreeze_held hf]
  rfl

end Sys2Proof.Machine
end

section
/-! PROOFS. A stopped `wr_clk` (70 R394; log 19). With no acknowledgement up nothing freezes the producer, so what needs a freeze
waits; and no step brings an acknowledgement, or ends the need, while the clock stays stopped. -/

namespace Sys2Proof.Machine

open Sys2Proof.Safety

variable {s t : State} {i : Instr}

/-! ### No acknowledgement -/

theorem waiting_of_producerStopped (h : ProducerStopped s) : s.freeze = .waiting := by
  cases hf : s.freeze with
  | waiting => rfl
  | idle =>
    obtain ⟨-, -, hruns⟩ := freeze_idle_iff.mp hf
    exact absurd (h.stopped.symm.trans hruns) Bool.false_ne_true
  | held =>
    obtain ⟨-, hcount⟩ := freeze_held_iff.mp hf
    rw [h.count] at hcount
    omega

theorem not_freezeTo_of_waiting {body : State → State} (h : s.freeze = .waiting) : ¬ FreezeTo s body t := by
  rintro (⟨hf, -⟩ | ⟨hf, -⟩) <;> rw [h] at hf <;> cases hf

theorem not_wrRuns (h : ProducerStopped s) : ¬ s.wrRuns = true := by rw [h.stopped]; exact Bool.false_ne_true

theorem producerStopped_afterDrain (h : ProducerStopped s) (ok : Bool) : ProducerStopped (afterDrain ok s) := by
  obtain ⟨k, p, hframe⟩ := afterDrain_frame ok s
  rw [hframe]; exact { h with }

theorem producerStopped_tickStep (h : ProducerStopped s) (ht : tickStep s = .next t) : ProducerStopped t := by
  rcases tickStep_eq_next.mp ht with ⟨-, rfl⟩ | ⟨-, -, -, hd⟩ | ⟨-, -, rfl⟩ | ⟨-, rfl⟩ | ⟨-, rfl⟩ | ⟨-, rfl⟩ |
    ⟨-, -, rfl⟩ | ⟨-, -, rfl⟩ | ⟨i, -, rfl⟩ | ⟨-, rfl⟩
  · exact h
  · obtain hf | ⟨-, rfl⟩ := freezeTo_or_wait hd
    · exact absurd hf (not_freezeTo_of_waiting (waiting_of_producerStopped h))
    · exact h
  · exact producerStopped_afterDrain h false
  · split <;> exact { h with }
  · split <;> exact { h with }
  · exact { h with }
  · exact { h with }
  · exact h
  · exact { h with }
  · obtain ⟨k, p, hframe⟩ := publish_frame s
    rw [hframe]; exact { h with }

theorem producerStopped_commandTo (h : ProducerStopped s) (hc : CommandTo s i t) : ProducerStopped t := by
  cases hc with
  | resize _ _ hf | readall _ _ _ hf | engDone _ _ hf =>
    exact absurd hf (not_freezeTo_of_waiting (waiting_of_producerStopped h))
  | tickRuns _ _ ht => exact producerStopped_tickStep h ht
  | freezeWait | closeWaits | lockWait => exact h
  | _ => exact { h with }

/-- A synchroniser that holds one value shows it. -/
theorem syncOut_of_forall {α : Type} {d : α} {chain : List α} (h : ∀ b ∈ chain, b = d) : syncOut d chain = d := by
  obtain he | hm := List.mem_cons.mp (List.getLastD_mem_cons (l := chain) (a := d))
  · exact he
  · exact h _ hm

theorem forall_mem_shiftIn {α : Type} {v d : α} {chain : List α} (hv : v = d) (h : ∀ b ∈ chain, b = d) :
    ∀ b ∈ shiftIn v chain, b = d := fun b hb =>
  (List.mem_cons.mp (List.mem_of_mem_dropLast hb)).elim (·.trans hv) (h b)

/-- The acknowledgement is low on its whole way, so no edge of `clk` counts one. -/
theorem producerStopped_coreHandshake (h : ProducerStopped s) : ProducerStopped (coreHandshake s) where
  stopped := h.stopped
  thawed := h.thawed
  ack := h.ack
  chain := forall_mem_shiftIn h.ack h.chain
  count := by
    show (if s.freezeReq && syncOut false s.ackSync then s.settleCnt + 1 else s.settleCnt) = 0
    rw [syncOut_of_forall h.chain, Bool.and_false, h.count]
    rfl

theorem producerStopped_requestFreeze (h : ProducerStopped s) (clr : Bool) : ProducerStopped (requestFreeze clr s) := by
  unfold requestFreeze
  split
  · exact h
  split
  · exact { h with }
  · exact { h with count := rfl }

theorem producerStopped_writeReg (h : ProducerStopped s) (v : Word) (r : Reg) : ProducerStopped (s.writeReg v r) := by
  obtain ⟨_, _, _, _, _, _, _, hw, -⟩ | ⟨-, hw⟩ := writeReg_cases s v r <;> rw [hw] <;> exact { h with }

theorem producerStopped_takeCursor (h : ProducerStopped s) (w : Nat) : ProducerStopped (takeCursor w s) := by
  rw [takeCursor_eq]; split
  · exact h
  · exact { h with }

/-- While the clock stays stopped no acknowledgement comes. -/
theorem producerStopped_stepClosed : StepClosed ProducerStopped where
  queues _ _ _ _ _ h := { h with }
  command _ _ _ h _ _ _ _ hc := producerStopped_commandTo h hc
  illegal _ _ h _ _ _ _ := { h with }
  tick _ _ h _ _ ht := producerStopped_tickStep h ht
  init _ h _ _ _ := { h with }
  initDone _ h _ _ _ := { h with }
  read _ _ _ h _ hr := by obtain ⟨_, -, rfl⟩ | ⟨-, rfl⟩ := execBusRead_eq_next.mp hr <;> exact { h with }
  write _ _ _ _ _ h _ hw := by
    obtain ⟨r, -, rfl⟩ | ⟨_, _, -, -, -, rfl⟩ | ⟨-, rfl⟩ := execBusWrite_eq_next.mp hw
    · exact producerStopped_writeReg h _ r
    · exact { h with }
    · exact { h with }
  accept _ _ _ h hw _ _ := absurd hw (not_wrRuns h)
  settle _ h hw _ := absurd hw (not_wrRuns h)
  overload _ _ _ h hw _ _ := absurd hw (not_wrRuns h)
  producer _ h hw _ := absurd hw (not_wrRuns h)
  cross _ h _ := { producerStopped_takeCursor h _ with }
  overloadCross s h _ := by rw [crossOverload_frame]; exact { h with }
  beatOne s h _ := by rw [crossOneBeat_eq]; split; exacts [h, { h with }]
  changeOne s h _ := by rw [crossOneChange_eq]; split; exacts [h, { h with }]
  timer s c h _ := by
    obtain ⟨n, k, b, p, hframe⟩ := timerEdge_frame c s
    rw [hframe]; exact { h with }
  core _ h _ := producerStopped_coreHandshake h
  request _ c h _ := producerStopped_requestFreeze h c
  wrStop _ h := { h with stopped := rfl }
  releaseRst _ h := { h with }
  leaveW _ h hw := absurd hw (not_wrRuns h)
  leaveC _ h := { h with }

/-! ### The two ways to hang -/

/-- From `s` to `t` the engine's paths, the sizes and the latched command stand still, and the gate does not fall. -/
structure SameEngine (s t : State) : Prop where
  params : t.params = s.params := by rfl
  cap : t.rbCap = s.rbCap := by rfl
  size : t.engN = s.engN := by rfl
  stage : t.tickStage = s.tickStage := by rfl
  opened : t.opened = s.opened := by rfl
  init : t.initBusy = s.initBusy := by rfl
  busy : t.busy = s.busy := by rfl
  phase : t.cmdPhase = s.cmdPhase := by rfl
  word : t.curWord = s.curWord := by rfl
  arg : t.curArg = s.curArg := by rfl
  gate : s.rbGate = true → t.rbGate = true := by exact id

/-- Beats that cross leave a full ring full (10 R33, 40 R172). -/
theorem takeCursor_sameEngine (hi : Inv s) (w : Nat) : SameEngine s (takeCursor w s) := by
  have hgate : s.rbGate = true → (takeCursor w s).rbGate = true := fun hg => by
    rw [hi.gate, decide_eq_true_iff] at hg
    rw [takeCursor_eq]
    split
    · rw [hi.gate, hg]; exact decide_eq_true rfl
    · simp [hg]
  have hframe := takeCursor_eq w s
  split at hframe
  · rw [hframe]; exact {}
  · refine ⟨?_, ?_, ?_, ?_, ?_, ?_, ?_, ?_, ?_, ?_, hgate⟩ <;> rw [hframe]

/-- The timer does not move an engine that is Closed. -/
theorem timerEdge_closed (ho : s.opened = false) (c : Bool) : timerEdge c s = s := by
  rw [timerEdge, if_neg (by simp [ho])]

/-- While a tick runs an expiry is only noted (43 R301). -/
theorem timerEdge_sameEngine (ht : s.tickStage ≠ .idle) (c : Bool) : SameEngine s (timerEdge c s) := by
  unfold timerEdge
  rw [if_neg ht]
  split
  · split <;> exact {}
  · exact {}

/-- `H` survives whatever does not freeze the producer. -/
structure HangClosed (H : State → Prop) : Prop where
  same : ∀ {s t : State}, H s → SameEngine s t → H t
  /-- the initialisation is over -/
  init : ∀ {s : State}, H s → s.initBusy = false
  /-- a write of `CMD` while no command is in progress -/
  issue : ∀ {s : State} (v : Word), H s → s.busy = false →
    H { s with curWord := v, curArg := s.arg, busy := true, cmdPhase := .start }
  command : ∀ {s t : State} {i : Instr}, H s → s.freeze = .waiting → decodeWord s.curWord = .ok i → CommandTo s i t → H t
  illegal : ∀ {s : State} {e : DecodeError}, H s → decodeWord s.curWord = .error e → H (s.fail .illegalCmd)
  tick : ∀ {s t : State}, H s → s.freeze = .waiting → tickStep s = .next t → H t
  timer : ∀ {s : State} (c : Bool), H s → H (timerEdge c s)

theorem HangClosed.writeReg {H : State → Prop} (c : HangClosed H) (h : H s) (v : Word) (r : Reg) : H (s.writeReg v r) := by
  obtain ⟨_, _, _, _, _, _, _, hw, -⟩ | ⟨hb, hw⟩ := writeReg_cases s v r
  · rw [hw]; exact c.same h {}
  · rw [hw]; exact c.issue v h hb

/-- Two properties that every elementary transition keeps are kept together. -/
theorem StepClosed.and {P Q : State → Prop} (p : StepClosed P) (q : StepClosed Q) : StepClosed fun s => P s ∧ Q s where
  queues _ _ _ _ _ h := ⟨p.queues _ _ _ _ _ h.1, q.queues _ _ _ _ _ h.2⟩
  command _ _ _ h hr hi hb hd hc := ⟨p.command _ _ _ h.1 hr hi hb hd hc, q.command _ _ _ h.2 hr hi hb hd hc⟩
  illegal _ _ h hr hi hb hd := ⟨p.illegal _ _ h.1 hr hi hb hd, q.illegal _ _ h.2 hr hi hb hd⟩
  tick _ _ h hr hb ht := ⟨p.tick _ _ h.1 hr hb ht, q.tick _ _ h.2 hr hb ht⟩
  init _ h hr hi hn := ⟨p.init _ h.1 hr hi hn, q.init _ h.2 hr hi hn⟩
  initDone _ h hr hi hn := ⟨p.initDone _ h.1 hr hi hn, q.initDone _ h.2 hr hi hn⟩
  read _ _ _ h hr he := ⟨p.read _ _ _ h.1 hr he, q.read _ _ _ h.2 hr he⟩
  write _ _ _ _ _ h hr he := ⟨p.write _ _ _ _ _ h.1 hr he, q.write _ _ _ _ _ h.2 hr he⟩
  accept _ _ _ h hw hr ha := ⟨p.accept _ _ _ h.1 hw hr ha, q.accept _ _ _ h.2 hw hr ha⟩
  settle _ h hw hr := ⟨p.settle _ h.1 hw hr, q.settle _ h.2 hw hr⟩
  overload _ _ _ h hw hr ho := ⟨p.overload _ _ _ h.1 hw hr ho, q.overload _ _ _ h.2 hw hr ho⟩
  producer _ h hw hr := ⟨p.producer _ h.1 hw hr, q.producer _ h.2 hw hr⟩
  cross _ h hr := ⟨p.cross _ h.1 hr, q.cross _ h.2 hr⟩
  overloadCross _ h hr := ⟨p.overloadCross _ h.1 hr, q.overloadCross _ h.2 hr⟩
  beatOne _ h hr := ⟨p.beatOne _ h.1 hr, q.beatOne _ h.2 hr⟩
  changeOne _ h hr := ⟨p.changeOne _ h.1 hr, q.changeOne _ h.2 hr⟩
  timer _ c h hr := ⟨p.timer _ c h.1 hr, q.timer _ c h.2 hr⟩
  core _ h hr := ⟨p.core _ h.1 hr, q.core _ h.2 hr⟩
  request _ c h hr := ⟨p.request _ c h.1 hr, q.request _ c h.2 hr⟩
  wrStop _ h := ⟨p.wrStop _ h.1, q.wrStop _ h.2⟩
  releaseRst _ h := ⟨p.releaseRst _ h.1, q.releaseRst _ h.2⟩
  leaveW _ h hw := ⟨p.leaveW _ h.1 hw, q.leaveW _ h.2 hw⟩
  leaveC _ h := ⟨p.leaveC _ h.1, q.leaveC _ h.2⟩

/-- A good state with the clock stopped. -/
theorem stopped_stepClosed : StepClosed fun s => Safety.Inv s ∧ ProducerStopped s :=
  inv_stepClosed.and producerStopped_stepClosed

/-- With the clock stopped, what only a freeze could end is kept by every step. -/
theorem HangClosed.stepClosed {H : State → Prop} (c : HangClosed H) :
    StepClosed fun s => (Safety.Inv s ∧ ProducerStopped s) ∧ H s where
  queues _ _ _ _ _ h := ⟨stopped_stepClosed.queues _ _ _ _ _ h.1, c.same h.2 {}⟩
  command _ _ _ h hr hi hb hd hc :=
    ⟨stopped_stepClosed.command _ _ _ h.1 hr hi hb hd hc, c.command h.2 (waiting_of_producerStopped h.1.2) hd hc⟩
  illegal _ _ h hr hi hb hd := ⟨stopped_stepClosed.illegal _ _ h.1 hr hi hb hd, c.illegal h.2 hd⟩
  tick _ _ h hr hb ht :=
    ⟨stopped_stepClosed.tick _ _ h.1 hr hb ht, c.tick h.2 (waiting_of_producerStopped h.1.2) ht⟩
  init _ h _ hi _ := absurd ((c.init h.2).symm.trans hi) Bool.false_ne_true
  initDone _ h _ hi _ := absurd ((c.init h.2).symm.trans hi) Bool.false_ne_true
  read _ _ _ h hr he := by
    refine ⟨stopped_stepClosed.read _ _ _ h.1 hr he, ?_⟩
    obtain ⟨_, -, rfl⟩ | ⟨-, rfl⟩ := execBusRead_eq_next.mp he <;> exact c.same h.2 {}
  write _ _ _ _ _ h hr he := by
    refine ⟨stopped_stepClosed.write _ _ _ _ _ h.1 hr he, ?_⟩
    obtain ⟨r, -, rfl⟩ | ⟨_, _, -, -, -, rfl⟩ | ⟨-, rfl⟩ := execBusWrite_eq_next.mp he
    · exact c.writeReg h.2 _ r
    · exact c.same h.2 {}
    · exact c.same h.2 {}
  accept _ _ _ h hw _ _ := absurd hw (not_wrRuns h.1.2)
  settle _ h hw _ := absurd hw (not_wrRuns h.1.2)
  overload _ _ _ h hw _ _ := absurd hw (not_wrRuns h.1.2)
  producer _ h hw _ := absurd hw (not_wrRuns h.1.2)
  cross _ h hr := ⟨stopped_stepClosed.cross _ h.1 hr, c.same h.2 { takeCursor_sameEngine h.1.1 _ with }⟩
  overloadCross s h hr := by
    refine ⟨stopped_stepClosed.overloadCross _ h.1 hr, ?_⟩
    rw [crossOverload_frame]; exact c.same h.2 {}
  beatOne s h hr := by
    refine ⟨stopped_stepClosed.beatOne _ h.1 hr, ?_⟩
    unfold crossOneBeat
    split
    · exact h.2
    · exact c.same h.2 { takeCursor_sameEngine h.1.1 _ with }
  changeOne s h hr := by
    refine ⟨stopped_stepClosed.changeOne _ h.1 hr, ?_⟩
    rw [crossOneChange_eq]
    split
    · exact h.2
    · exact c.same h.2 {}
  timer _ k h hr := ⟨stopped_stepClosed.timer _ k h.1 hr, c.timer k h.2⟩
  core _ h hr := ⟨stopped_stepClosed.core _ h.1 hr, c.same h.2 {}⟩
  request _ k h hr := by
    refine ⟨stopped_stepClosed.request _ k h.1 hr, ?_⟩
    unfold requestFreeze
    split
    · exact h.2
    · split <;> exact c.same h.2 {}
  wrStop _ h := ⟨stopped_stepClosed.wrStop _ h.1, c.same h.2 {}⟩
  releaseRst _ h := ⟨stopped_stepClosed.releaseRst _ h.1, c.same h.2 {}⟩
  leaveW _ h hw := absurd hw (not_wrRuns h.1.2)
  leaveC _ h := ⟨stopped_stepClosed.leaveC _ h.1, c.same h.2 {}⟩

/-- A tick's drain that needs the freeze, while Open or as the tick of `TICK_ONCE` (43 R270). -/
structure DrainHangs (s : State) : Prop where
  stage : s.tickStage = .drain
  size : s.rbCap = s.engN
  gate : s.rbGate = true
  init : s.initBusy = false
  owner : s.opened = true ∨ (s.cmdPhase = .tickWait ∧ s.busy = true ∧ decodeWord s.curWord = .ok .tickOnce)

/-- A command whose next transition needs the freeze, while Closed and with no tick running. -/
structure CommandHangs (s : State) : Prop where
  stage : s.tickStage = .idle
  busy : s.busy = true
  init : s.initBusy = false
  closed : s.opened = false
  needs : (decodeWord s.curWord = .ok .rbReadall ∧ LengthAccepted s s.rbCap ∧ s.rbGate = true) ∨
    (decodeWord s.curWord = .ok .rbResize ∧ ∃ c, SizeAccepted s c) ∨
    (decodeWord s.curWord = .ok .engSetsize ∧ ∃ c i, s.cmdPhase = .winFill c i ∧ c ≤ i)

/-- What needs the freeze is a tick's drain or a command, and not both (43 R270, R275). -/
theorem needsFreeze_cases (h : Sequencer s) (hn : NeedsFreeze s) : DrainHangs s ∨ CommandHangs s := by
  obtain ⟨ht, hsize, hg⟩ | ⟨hb, hi, ho, hneeds⟩ := hn
  · refine .inl ⟨ht, hsize, hg, ?_, (h.running (by simp [ht])).imp_right fun hp => ?_⟩
    · refine Bool.eq_false_iff.mpr fun hinit => ?_
      obtain ⟨-, -, hidle⟩ := h.initial hinit
      rw [ht] at hidle; cases hidle
    · exact ⟨hp, (h.begun (by simp [hp])).1, (h.ticking hp).1⟩
  · refine .inr ⟨by_contra fun ht => ?_, hb, hi, ho, hneeds⟩
    obtain hopen | hp := h.running ht
    · exact absurd (ho.symm.trans hopen) Bool.false_ne_true
    · obtain ⟨hd, -⟩ := h.ticking hp
      obtain ⟨hd', -⟩ | ⟨hd', -⟩ | ⟨hd', -⟩ := hneeds <;> rw [hd] at hd' <;> cases hd'

theorem DrainHangs.needsFreeze (h : DrainHangs s) : NeedsFreeze s := .inl ⟨h.stage, h.size, h.gate⟩

theorem CommandHangs.needsFreeze (h : CommandHangs s) : NeedsFreeze s := .inr ⟨h.busy, h.init, h.closed, h.needs⟩

theorem DrainHangs.tickStep_eq (h : DrainHangs s) (hf : s.freeze = .waiting) (ht : tickStep s = .next t) : s = t := by
  obtain ⟨-, -, -, hwait⟩ := freeze_waits hf
  exact Host.Outcome.next.inj ((hwait h.stage h.size h.gate).symm.trans ht)

/-- No command ends a tick that hangs: while Open none reaches it, and the command of its own tick waits with it. -/
theorem DrainHangs.command (h : DrainHangs s) (hf : s.freeze = .waiting) (hd : decodeWord s.curWord = .ok i)
    (hc : CommandTo s i t) : DrainHangs t := by
  have hnot : s.tickStage ≠ .idle := by rw [h.stage]; exact TickStage.noConfusion
  obtain ho | ⟨hp, hb, hd'⟩ := h.owner
  · cases hc with
    | resize _ _ hf' | readall _ _ _ hf' | engDone _ _ hf' => exact absurd hf' (not_freezeTo_of_waiting hf)
    | tickRuns _ _ ht => exact h.tickStep_eq hf ht ▸ h
    | openFirst ho' => exact absurd (ho'.symm.trans ho) Bool.false_ne_true
    | tickStart _ ho' => exact absurd (ho'.symm.trans ho) Bool.false_ne_true
    | closeDone _ ht | tickDone _ ht => exact absurd ht hnot
    | freezeWait | closeWaits | lockWait => exact h
    | _ => exact { h with owner := .inl ho }
  · obtain rfl := Except.ok.inj (hd.symm.trans hd')
    cases hc with
    | wrongState _ ho => exact { h with owner := .inl ho }
    | freezeWait => exact h
    | tickStart hp' => exact absurd hp hp'
    | tickRuns _ _ ht => exact h.tickStep_eq hf ht ▸ h
    | tickDone _ ht => exact absurd ht hnot
    | sizeError hi | sizeMismatch hi => cases hi
    | fillStart hi | fill hi => simp at hi

theorem DrainHangs.same (h : DrainHangs s) (hs : SameEngine s t) : DrainHangs t where
  stage := hs.stage.trans h.stage
  size := hs.cap.trans (h.size.trans hs.size.symm)
  gate := hs.gate h.gate
  init := hs.init.trans h.init
  owner := by rw [hs.opened, hs.phase, hs.busy, hs.word]; exact h.owner

theorem drainHangs_hangClosed : HangClosed DrainHangs where
  same h hs := h.same hs
  init h := h.init
  issue v h hb := by
    obtain ho | ⟨-, hbusy, -⟩ := h.owner
    · exact { h with owner := .inl ho }
    · exact absurd (hb.symm.trans hbusy) Bool.false_ne_true
  command h hf hd hc := h.command hf hd hc
  illegal h he := by
    obtain ho | ⟨-, -, hd⟩ := h.owner
    · exact { h with owner := .inl ho }
    · rw [he] at hd; cases hd
  tick h hf ht := h.tickStep_eq hf ht ▸ h
  timer c h := h.same (timerEdge_sameEngine (by rw [h.stage]; exact TickStage.noConfusion) c)

/-- A command that needs the freeze does nothing without it: its checks pass, and its effect waits. -/
theorem CommandHangs.command_eq (h : CommandHangs s) (hf : s.freeze = .waiting) (hd : decodeWord s.curWord = .ok i)
    (hc : CommandTo s i t) : t = s := by
  have hclosed : ¬ s.opened = true := by rw [h.closed]; exact Bool.false_ne_true
  obtain ⟨hd', ⟨-, hlen⟩, hg⟩ | ⟨hd', c, -, h0, rfl, hmax⟩ | ⟨hd', c, k, hp, hk⟩ := h.needs <;>
    obtain rfl := Except.ok.inj (hd.symm.trans hd')
  · cases hc with
    | freezeWait => rfl
    | wrongState _ ho => exact absurd ho hclosed
    | sizeMismatch hi _ hne => exact absurd (Option.some.inj hi ▸ hlen) hne
    | notReady _ _ hg' => exact absurd (hg'.symm.trans hg) Bool.false_ne_true
    | readall _ _ _ hf' => exact absurd hf' (not_freezeTo_of_waiting hf)
    | sizeError hi => cases hi
    | fillStart hi | fill hi => simp at hi
  · cases hc with
    | freezeWait => rfl
    | wrongState _ ho => exact absurd ho hclosed
    | sizeError _ _ he =>
      have hok : sizeRequest s.params s.argNat = .ok _ := sizeRequest_ok.mpr ⟨h0, hmax, rfl⟩
      rw [hok] at he; cases he
    | resize _ _ hf' => exact absurd hf' (not_freezeTo_of_waiting hf)
    | sizeMismatch hi => cases hi
    | fillStart hi | fill hi => simp at hi
  · cases hc with
    | freezeWait => rfl
    | wrongState _ ho => exact absurd ho hclosed
    | sizeError _ _ _ hnot => exact absurd hp (hnot (.inr rfl) c k)
    | fillStart _ _ _ hnot => exact absurd hp (hnot c k)
    | fill _ hp' hlt =>
      rw [hp] at hp'
      cases hp'
      omega
    | engDone _ _ hf' => exact absurd hf' (not_freezeTo_of_waiting hf)
    | sizeMismatch hi => cases hi

theorem CommandHangs.same (h : CommandHangs s) (hs : SameEngine s t) : CommandHangs t where
  stage := hs.stage.trans h.stage
  busy := hs.busy.trans h.busy
  init := hs.init.trans h.init
  closed := hs.opened.trans h.closed
  needs := by
    simp only [LengthAccepted, SizeAccepted, hs.word, hs.opened, hs.arg, hs.cap, hs.params, hs.phase]
    exact h.needs.imp_left fun ⟨hd, hlen, hg⟩ => ⟨hd, hlen, hs.gate hg⟩

theorem commandHangs_hangClosed : HangClosed CommandHangs where
  same h hs := h.same hs
  init h := h.init
  issue v h hb := absurd (hb.symm.trans h.busy) Bool.false_ne_true
  command h hf hd hc := h.command_eq hf hd hc ▸ h
  illegal h he := by
    obtain ⟨hd, -⟩ | ⟨hd, -⟩ | ⟨hd, -⟩ := h.needs <;> rw [he] at hd <;> cases hd
  tick {s t} h _ ht := by
    have hidle : tickStep s = .next s := by simp only [tickStep, h.stage]
    exact Host.Outcome.next.inj (hidle.symm.trans ht) ▸ h
  timer c h := by rw [timerEdge_closed h.closed]; exact h

/-- A step of a block that hangs on the stopped clock, short of the clock's start and of a reset. -/
theorem HangClosed.step {H : State → Prop} (c : HangClosed H) (hi : Inv s) (hp : ProducerStopped s) (h : H s)
    (hstep : step s = .next t) (hstart : ∀ rest, s.sched ≠ .wrStart :: rest)
    (hreset : ∀ rest, s.sched ≠ .rstAssert :: rest) : ProducerStopped t ∧ H t := by
  obtain ⟨⟨-, hp'⟩, h'⟩ := c.stepClosed.step ⟨⟨hi, hp⟩, h⟩ (fun rest e => absurd e (hstart rest))
    (fun rest e => absurd e (hreset rest)) hstep
  exact ⟨hp', h'⟩

/-- Settles O21: only an accepted beat writes the ring; the four operations wait, and act when the freeze is held; and with
the clock stopped what needs the freeze, a tick's drain or a command, is kept by every step. -/
theorem freezeHandshakeGuardsRing : Obligations.FreezeHandshakeGuardsRing := by
  unfold Obligations.FreezeHandshakeGuardsRing
  refine ⟨fun s t hf h hreset => step_rbmem_of_frozen hf hreset h, fun s => freeze_waits, fun s hf => ?held,
    fun s t hp => ⟨waiting_of_producerStopped hp, fun hi hseq hn hstep hstart hreset => ?stopped⟩⟩
  case held =>
    refine ⟨fun h hg => ?readall, fun ht hn hg => ?tick, fun c h => exec_rbResize_held h hf, fun c i hp hi => ?size⟩
    case readall =>
      exact ⟨_, exec_rbReadall_held h hg hf, fun j hj => blkAt_drain hj, fun a ha => byteAt_drain_outside ha, rfl⟩
    case tick =>
      refine ⟨_, (tickStep_drain ht hn hg).trans (withFreeze_held hf), fun j hj => ?_, rfl⟩
      exact blkAt_drain hj
    case size => exact (exec_engSetsize_last hp hi).trans (withFreeze_held hf)
  case stopped =>
    obtain h | h := needsFreeze_cases hseq hn
    · obtain ⟨hp', h'⟩ := drainHangs_hangClosed.step hi hp h hstep hstart hreset
      exact ⟨hp', h'.needsFreeze, fun _ => h'.stage, fun hne => absurd h.stage hne⟩
    · obtain ⟨hp', h'⟩ := commandHangs_hangClosed.step hi hp h hstep hstart hreset
      exact ⟨hp', h'.needsFreeze, fun hd => by (rw [h.stage] at hd; cases hd), fun _ => h'.busy⟩

end Sys2Proof.Machine
end

section
/-! PROOFS. The freeze handshake edge by edge (40 R171, R176): a run of edges of `wr_clk` in which the producer answers the request,
and runs of edges of `clk` in which the core domain sees the answer and counts. -/

namespace Sys2Proof.Machine

open Sys2Proof.Safety

variable {s t u : State} {rest : List Turn} {n : Nat} {v : Bool}

/-! ### Runs of turns -/

theorem stepTimes_add (m n : Nat) (s : State) : stepTimes (m + n) s = andThen (stepTimes m s) (stepTimes n) := by
  induction m generalizing s with
  | zero => rw [Nat.zero_add]; rfl
  | succ m ih =>
    rw [Nat.succ_add, stepTimes, stepTimes]
    cases step s with
    | next t => exact ih t
    | fault _ | refused _ => rfl

theorem stepTimes_trans {m : Nat} (h : stepTimes m s = .next t) (h' : stepTimes n t = .next u) :
    stepTimes (m + n) s = .next u := by
  rw [stepTimes_add, h, andThen_next, h']

theorem stepTimes_one (h : step s = .next t) : stepTimes 1 s = .next t := by
  rw [stepTimes, h, andThen_next, stepTimes]

/-- A run of `n` equal turns: `J i` holds after `i` of them. -/
theorem stepTimes_turns {k : Turn} {J : Nat → State → Prop}
    (hstep : ∀ i < n, ∀ u q, J i u → u.sched = k :: q → ∃ t, step u = .next t ∧ t.sched = q ∧ J (i + 1) t)
    (h : J 0 s) (hs : s.sched = List.replicate n k ++ rest) :
    ∃ t, stepTimes n s = .next t ∧ t.sched = rest ∧ J n t := by
  induction n generalizing s J with
  | zero => exact ⟨s, rfl, hs, h⟩
  | succ n ih =>
    obtain ⟨u, hu, hsched, hJ⟩ := hstep 0 (Nat.succ_pos n) s _ h hs
    obtain ⟨t, ht, hrest, hlast⟩ :=
      ih (J := fun i => J (i + 1)) (fun i hi => hstep (i + 1) (Nat.succ_lt_succ hi)) hJ hsched
    exact ⟨t, by rw [stepTimes, hu, andThen_next, ht], hrest, hlast⟩

/-- A synchroniser of which `i` flip-flops show the new value. -/
theorem syncOut_partly {i : Nat} (hi : i < n) (d old new : Bool) :
    syncOut d (List.replicate i new ++ List.replicate (n - i) old) = old := by
  obtain ⟨j, hj⟩ : ∃ j, n - i = j + 1 := ⟨n - i - 1, by omega⟩
  rw [hj, syncOut_append_replicate]

theorem shiftIn_partly {i : Nat} (hi : i < n) (old new : Bool) :
    shiftIn new (List.replicate i new ++ List.replicate (n - i) old) =
      List.replicate (i + 1) new ++ List.replicate (n - (i + 1)) old := by
  obtain ⟨j, hj⟩ : ∃ j, n - i = j + 1 := ⟨n - i - 1, by omega⟩
  rw [hj, shiftIn_replicate_append, show n - (i + 1) = j by omega]

theorem syncOut_replicate (hn : 0 < n) (d v : Bool) : syncOut d (List.replicate n v) = v := by
  simpa using syncOut_partly hn d v v

/-! ### Edges of `wr_clk` -/

/-- Edges of `wr_clk` take place, no overload update is offered, and no beat can be more than the block bears (log 7). -/
structure ProducerReady (s : State) : Prop where
  runs : s.wrRuns = true
  inReset : s.inReset = false
  updates : s.ovlQ = []
  safe : s.frozen = true ∨ s.clrReq = true ∨ s.beatQ = []

/-- What `k` edges leave of the offered beats, of the pointer with its gray code and of the ring: nothing is taken from a frozen
producer or an empty channel, and one record at each edge otherwise. -/
structure SampleEdges (s : State) (k : Nat) (q : List SampleSignals) (w g : Nat) (m : Memory) : Prop where
  ring : s.frozen = true ∨ s.beatQ = [] → w = s.wptrW ∧ g = s.wptrG ∧ m = s.rbmem
  queue : s.frozen = false → q = s.beatQ.drop k

theorem sampleEdge_ready (h : ProducerReady s) :
    ∃ q w g m, sampleEdge s = .next (s.withSample q w g m) ∧ SampleEdges s 1 q w g m := by
  by_cases hidle : ∀ p q, s.beatQ = p :: q → p.valid = false
  · exact ⟨_, _, _, _, sampleEdge_idle hidle, fun _ => ⟨rfl, rfl, rfl⟩, fun _ => List.drop_one.symm⟩
  · push Not at hidle
    obtain ⟨p, q, hq, hv⟩ := hidle
    have hv : p.valid = true := Bool.eq_true_of_not_eq_false hv
    cases hf : s.frozen with
    | true =>
      exact ⟨_, _, _, _, sampleEdge_holds hq hv (.inl (sReady_of_frozen hf)), fun _ => ⟨rfl, rfl, rfl⟩,
        fun hnot => absurd (hnot.symm.trans hf) Bool.false_ne_true⟩
    | false =>
      have hready : s.sReady = true := by rw [State.sReady, hf, h.inReset]; rfl
      have hdrop : q = s.beatQ.drop 1 := by rw [hq]; rfl
      by_cases hc : s.rbCap = 0
      · refine ⟨_, _, _, _, sampleEdge_holds hq hv (.inr hc), fun _ => ⟨rfl, rfl, rfl⟩, fun _ => ?_⟩
        rw [hready]; exact hdrop
      · have hclr : s.clrReq = true := by
          obtain hfrozen | hclr | hnone := h.safe
          · exact absurd (hf.symm.trans hfrozen) Bool.false_ne_true
          · exact hclr
          · rw [hq] at hnone; cases hnone
        refine ⟨_, _, _, _, sampleEdge_accepts hq hv hready hc (.inl hclr), fun hno => ?_, fun _ => hdrop⟩
        obtain hfrozen | hnone := hno
        · exact absurd (hf.symm.trans hfrozen) Bool.false_ne_true
        · rw [hq] at hnone; cases hnone

/-- An edge of `wr_clk` is the sample channel and the handshake. -/
theorem step_wrEdge_ready (h : ProducerReady s) (hs : s.sched = .wrEdge :: rest) :
    ∃ q w g m, step s = .next (producerHandshake ((s.withSched rest).withSample q w g m)) ∧
      SampleEdges s 1 q w g m := by
  obtain ⟨q, w, g, m, hsample, hleft⟩ := sampleEdge_ready (s := s.withSched rest) { h with }
  have hovl : overloadEdge ((s.withSched rest).withSample q w g m) = .next ((s.withSched rest).withSample q w g m) := by
    rw [overloadEdge, show ((s.withSched rest).withSample q w g m).ovlQ = [] from h.updates]
  have hrst : s.rstW = false := (Bool.or_eq_false_iff.mp h.inReset).1
  exact ⟨q, w, g, m, step_wrEdge_running hs h.runs hsample hovl hrst, { hleft with }⟩

/-- While the synchronised request agrees with `FROZEN` the handshake only moves its synchroniser on. -/
theorem producerHandshake_agrees (h : syncOut false s.reqSync = s.frozen) :
    producerHandshake s = { s with reqSync := shiftIn s.freezeReq s.reqSync } := by
  have hnot : (s.frozen && !s.frozen && s.clrReq) = false := by cases s.frozen <;> rfl
  rw [producerHandshake_eq, h, hnot, if_pos rfl]
  rfl

/-- Otherwise the producer follows the request, and a freeze for a resize clears its pointer. -/
theorem producerHandshake_follows (h : syncOut false s.reqSync = v) (hf : s.frozen = !v) :
    producerHandshake s = { s with
      frozen := v, freezeAck := v, wptrW := if v && s.clrReq then 0 else s.wptrW
      wptrG := if v && s.clrReq then 0 else s.wptrG, reqSync := shiftIn s.freezeReq s.reqSync } := by
  rw [producerHandshake_eq, h, hf]
  cases v <;> rfl

/-- The producer's registers while the request `v` is on its way through `i` flip-flops. -/
def State.requested (s : State) (q : List SampleSignals) (w g : Nat) (m : Memory) (v : Bool) (i : Nat) : State :=
  { s.withSample q w g m with reqSync := List.replicate i v ++ List.replicate (s.params.syncStages - i) (!v) }

/-- The producer's registers once it has followed the request `v`. -/
def State.followed (s : State) (q : List SampleSignals) (w g : Nat) (m : Memory) (v : Bool) : State :=
  { s.withSample q (if v && s.clrReq then 0 else w) (if v && s.clrReq then 0 else g) m with
    frozen := v, freezeAck := v, reqSync := List.replicate s.params.syncStages v }

/-- The request `v` is up, and the producer has seen nothing of it. -/
structure Requesting (s : State) (v : Bool) : Prop where
  ready : ProducerReady s
  stages : 0 < s.params.syncStages
  request : s.freezeReq = v
  frozen : s.frozen = !v
  ack : s.freezeAck = !v
  chain : s.reqSync = List.replicate s.params.syncStages (!v)

theorem producerReady_requested (h : ProducerReady s) {q : List SampleSignals} {w g i : Nat} {m : Memory}
    (hq : SampleEdges s i q w g m) : ProducerReady ((s.requested q w g m v i).withSched rest) where
  runs := h.runs
  inReset := h.inReset
  updates := h.updates
  safe := by
    cases hf : s.frozen with
    | true => exact .inl hf
    | false =>
      refine h.safe.imp_right (Or.imp_right fun hnone => ?_)
      have hdrop := hq.queue hf
      rw [hnone, List.drop_nil] at hdrop
      exact hdrop

theorem sampleEdges_succ {q q' : List SampleSignals} {w g w' g' i : Nat} {m m' : Memory} (hq : SampleEdges s i q w g m)
    (hq' : SampleEdges ((s.requested q w g m v i).withSched rest) 1 q' w' g' m') : SampleEdges s (i + 1) q' w' g' m' where
  ring hno := by
    obtain ⟨rfl, rfl, rfl⟩ := hq.ring hno
    cases hf : s.frozen with
    | true => exact hq'.ring (.inl hf)
    | false =>
      have hnone : s.beatQ = [] := hno.resolve_left (by simp [hf])
      have hdrop : q = [] := by rw [hq.queue hf, hnone, List.drop_nil]
      exact hq'.ring (.inr hdrop)
  queue hf := by
    have hdrop := hq'.queue hf
    rw [hdrop, show ((s.requested q w g m v i).withSched rest).beatQ = q from rfl, hq.queue hf, List.drop_drop]

/-- The sample channel's part of an edge while the request is on its way. -/
theorem step_requested (h : Requesting s v) {q : List SampleSignals} {w g i : Nat} {m : Memory}
    (hq : SampleEdges s i q w g m) :
    ∃ q' w' g' m', step ((s.requested q w g m v i).withSched (.wrEdge :: rest)) =
        .next (producerHandshake ((s.requested q' w' g' m' v i).withSched rest)) ∧
      SampleEdges s (i + 1) q' w' g' m' := by
  obtain ⟨q', w', g', m', hedge, hq'⟩ := step_wrEdge_ready (rest := rest) (producerReady_requested h.ready hq) rfl
  exact ⟨q', w', g', m', hedge, sampleEdges_succ hq hq'⟩

theorem producerHandshake_requested (h : Requesting s v) {i : Nat} (hi : i < s.params.syncStages)
    (q : List SampleSignals) (w g : Nat) (m : Memory) :
    producerHandshake ((s.requested q w g m v i).withSched rest) =
      (s.requested q w g m v (i + 1)).withSched rest := by
  have hout : syncOut false ((s.requested q w g m v i).withSched rest).reqSync = s.frozen :=
    (syncOut_partly hi false (!v) v).trans h.frozen.symm
  have hshift := shiftIn_partly hi (!v) v
  rw [producerHandshake_agrees hout]
  simp only [State.requested, State.withSample, State.withSched, h.request, hshift]

theorem producerHandshake_arrived (h : Requesting s v) (q : List SampleSignals) (w g : Nat) (m : Memory) :
    producerHandshake ((s.requested q w g m v s.params.syncStages).withSched rest) =
      (s.followed q w g m v).withSched rest := by
  have hchain : ((s.requested q w g m v s.params.syncStages).withSched rest).reqSync =
      List.replicate s.params.syncStages v := by
    simp only [State.requested, State.withSched, Nat.sub_self, List.replicate_zero, List.append_nil]
  have hout : syncOut false ((s.requested q w g m v s.params.syncStages).withSched rest).reqSync = v := by
    rw [hchain, syncOut_replicate h.stages]
  rw [producerHandshake_follows hout h.frozen, hchain]
  simp only [State.requested, State.followed, State.withSample, State.withSched, h.request, shiftIn_replicate]

/-- The request `v` has been on its way for `i` edges. -/
def RequestedAfter (s : State) (v : Bool) (i : Nat) (t : State) : Prop :=
  ∃ q w g m, t = (s.requested q w g m v i).withSched t.sched ∧ SampleEdges s i q w g m

theorem step_requestedAfter (h : Requesting s v) {i : Nat} (hi : i < s.params.syncStages) (hu : RequestedAfter s v i u)
    (hs : u.sched = .wrEdge :: rest) : ∃ t, step u = .next t ∧ t.sched = rest ∧ RequestedAfter s v (i + 1) t := by
  obtain ⟨q, w, g, m, hstate, hq⟩ := hu
  obtain ⟨q', w', g', m', hedge, hq'⟩ := step_requested (rest := rest) h hq
  rw [producerHandshake_requested h hi, ← hs, ← hstate] at hedge
  exact ⟨_, hedge, rfl, q', w', g', m', rfl, hq'⟩

theorem requestedAfter_zero (h : Requesting s v) : RequestedAfter s v 0 s := by
  refine ⟨s.beatQ, s.wptrW, s.wptrG, s.rbmem, ?_, fun _ => ⟨rfl, rfl, rfl⟩, fun _ => rfl⟩
  rw [State.requested, List.replicate_zero, List.nil_append, Nat.sub_zero, ← h.chain]
  rfl

/-- The edges that the request needs to come through, and one more, at which the producer follows it (40 R171, R176). -/
theorem producer_follows (h : Requesting s v)
    (hs : s.sched = List.replicate (s.params.syncStages + 1) .wrEdge ++ rest) :
    ∃ q w g m, stepTimes (s.params.syncStages + 1) s = .next ((s.followed q w g m v).withSched rest) ∧
      SampleEdges s (s.params.syncStages + 1) q w g m := by
  have hsplit : s.sched = List.replicate s.params.syncStages .wrEdge ++ .wrEdge :: rest := by
    rw [hs, List.replicate_succ', List.append_assoc, List.singleton_append]
  obtain ⟨t, ht, hsched, q, w, g, m, hlast, hq⟩ :=
    stepTimes_turns (fun i hi u ts hu hts => step_requestedAfter h hi hu hts) (requestedAfter_zero h) hsplit
  obtain ⟨q', w', g', m', hedge, hq'⟩ := step_requested (rest := rest) h hq
  rw [producerHandshake_arrived h, ← hsched, ← hlast] at hedge
  exact ⟨q', w', g', m', stepTimes_trans ht (stepTimes_one hedge), hq'⟩

end Sys2Proof.Machine
end

section
/-! PROOFS. Edges of `clk` with no transition on them (40 R171, R172), while no beat is to be counted: the core domain's half of the
handshake moves on, and beside it only the overload channel. -/

namespace Sys2Proof.Machine

open Sys2Proof.Safety

variable {s t u : State} {rest : List Turn} {n : Nat} {v : Bool}

/-- No beat is under way, and the count and the gate agree with the capacity. -/
structure Quiet (s : State) : Prop where
  settled : Settled s
  core : CoreAgrees s
  cursor : s.rbWcur < 2 ^ s.params.cw

/-- The core domain is out of reset and Closed, and no edge of `clk` counts a beat. -/
structure CoreReady (s : State) : Prop where
  reset : s.rstC = false
  closed : s.opened = false
  stages : 0 < s.params.syncStages
  quiet : s.clrReq = true ∨ Quiet s

/-- What an edge of `clk` writes then: the beats' synchroniser, the overload channel, the handshake. -/
def State.atCore (s : State) (c : List Nat) (oc : Nat) (os : List Nat) (irq : BitVec 2) (k : Nat) (a : List Bool) :
    State :=
  { s with wsync := c, ovlCnt := oc, ovlSync := os, irqStatus := irq, settleCnt := k, ackSync := a }

/-- The crossing of the beats is suspended, or it has nothing to do. -/
theorem crossBeats_ready (h : CoreReady s) :
    ∃ c, crossBeats s = { s with wsync := c } ∧ (s.clrReq = false → c = s.wsync) := by
  obtain hclr | hquiet := h.quiet
  · refine ⟨shiftIn s.wptrG s.wsync, ?_, fun hrun => absurd (hrun.symm.trans hclr) Bool.false_ne_true⟩
    rw [crossBeats, takeCursor, if_pos hclr]
  · obtain ⟨hs, hcore, hcur⟩ := hquiet
    obtain ⟨n, hn⟩ : ∃ n, s.params.syncStages = n + 1 := ⟨s.params.syncStages - 1, by have := h.stages; omega⟩
    have hcross : Crossing s (n + 1) 0 :=
      { core := hcore
        pointer := by rw [hs.pointer]; exact hcur
        image := by rw [hs.seen]; exact hcur
        code := by rw [hs.code, hs.pointer]
        chain := by rw [hs.chain, hs.code, hn, List.replicate_zero, List.append_nil]
        stages := hn.symm }
    refine ⟨s.wsync, ?_, fun _ => rfl⟩
    exact (crossBeats_of_new hcross).trans
      (settleBeats_settled hcore (hs.pointer.trans hs.seen.symm) (by rw [hs.chain, hs.code]))

/-- One such edge. -/
theorem step_clkEdge_ready (h : CoreReady s) (hs : s.sched = .clkEdge false false false :: rest) :
    ∃ c oc os irq, step s = .next ((s.atCore c oc os irq
        (if s.freezeReq && syncOut false s.ackSync then s.settleCnt + 1 else s.settleCnt)
        (shiftIn s.freezeAck s.ackSync)).withSched rest) ∧ (s.clrReq = false → c = s.wsync) := by
  obtain ⟨c, hcross, hsame⟩ := crossBeats_ready (s := s.withSched rest)
    ⟨h.reset, h.closed, h.stages, h.quiet.imp_right fun hq => ⟨{ hq.settled with }, { hq.core with }, hq.cursor⟩⟩
  have hedge : clkEdgeTurn false false false (s.withSched rest) =
      .next (coreHandshake (crossOverload (crossBeats (s.withSched rest)))) := by
    refine (clkEdgeTurn_eq_next (s := s.withSched rest) h.reset).mpr ⟨_, _, _, rfl, rfl, rfl, ?_⟩
    have hclosed : (crossOverload (crossBeats (s.withSched rest))).opened = false := by
      rw [hcross, crossOverload_frame]; exact h.closed
    rw [timerEdge_closed hclosed]
  rw [hcross, crossOverload_frame] at hedge
  exact ⟨c, _, _, _, (step_scheduled hs).trans hedge, hsame⟩

/-- After `i` edges of `clk` the count stands at `f i` and the synchroniser at `g i`. -/
def CoreAfter (s : State) (f : Nat → Nat) (g : Nat → List Bool) (i : Nat) (t : State) : Prop :=
  ∃ c oc os irq, t = (s.atCore c oc os irq (f i) (g i)).withSched t.sched ∧ (s.clrReq = false → c = s.wsync)

theorem coreReady_atCore (h : CoreReady s) {c : List Nat} (hc : s.clrReq = false → c = s.wsync) (oc : Nat) (os : List Nat)
    (irq : BitVec 2) (k : Nat) (a : List Bool) : CoreReady ((s.atCore c oc os irq k a).withSched rest) where
  reset := h.reset
  closed := h.closed
  stages := h.stages
  quiet := by
    refine h.quiet.imp_right fun hq => ⟨{ hq.settled with chain := ?_ }, { hq.core with }, hq.cursor⟩
    exact (hc hq.settled.running).trans hq.settled.chain

/-- A run of edges of `clk`, by what one of them does to the handshake. -/
theorem core_edges {f : Nat → Nat} {g : Nat → List Bool} (h : CoreReady s) (hf : f 0 = s.settleCnt) (hg : g 0 = s.ackSync)
    (hfs : ∀ i < n, f (i + 1) = if s.freezeReq && syncOut false (g i) then f i + 1 else f i)
    (hgs : ∀ i < n, g (i + 1) = shiftIn s.freezeAck (g i))
    (hs : s.sched = List.replicate n (.clkEdge false false false) ++ rest) :
    ∃ c oc os irq, stepTimes n s = .next ((s.atCore c oc os irq (f n) (g n)).withSched rest) ∧
      (s.clrReq = false → c = s.wsync) := by
  have hstep : ∀ i < n, ∀ u ts, CoreAfter s f g i u → u.sched = .clkEdge false false false :: ts →
      ∃ t, step u = .next t ∧ t.sched = ts ∧ CoreAfter s f g (i + 1) t := by
    rintro i hi u ts ⟨c, oc, os, irq, hu, hc⟩ hts
    rw [hts] at hu
    subst hu
    obtain ⟨c', oc', os', irq', hedge, hc'⟩ := step_clkEdge_ready (coreReady_atCore h hc oc os irq (f i) (g i)) rfl
    refine ⟨_, hedge, rfl, c', oc', os', irq', ?_, fun hrun => (hc' hrun).trans (hc hrun)⟩
    rw [hfs i hi, hgs i hi]
    rfl
  have hstart : CoreAfter s f g 0 s := ⟨s.wsync, s.ovlCnt, s.ovlSync, s.irqStatus, by rw [hf, hg]; rfl, fun _ => rfl⟩
  obtain ⟨t, ht, hsched, c, oc, os, irq, hlast, hc⟩ := stepTimes_turns hstep hstart hs
  rw [hsched] at hlast
  exact ⟨c, oc, os, irq, hlast ▸ ht, hc⟩

/-- The acknowledgement `v` comes through to the core domain; meanwhile nothing is counted. -/
theorem core_sees (h : CoreReady s) (ha : s.freezeAck = v) (hc : s.ackSync = List.replicate s.params.syncStages (!v))
    (hr : s.freezeReq = v) (hs : s.sched = List.replicate s.params.syncStages (.clkEdge false false false) ++ rest) :
    ∃ c oc os irq, stepTimes s.params.syncStages s =
        .next ((s.atCore c oc os irq s.settleCnt (List.replicate s.params.syncStages v)).withSched rest) ∧
      (s.clrReq = false → c = s.wsync) := by
  have hrun := core_edges (f := fun _ => s.settleCnt)
    (g := fun i => List.replicate i v ++ List.replicate (s.params.syncStages - i) (!v)) h rfl hc.symm
    (fun i hi => by rw [syncOut_partly hi, hr, Bool.and_not_self]; rfl) (fun i hi => by rw [ha, shiftIn_partly hi]) hs
  simpa only [Nat.sub_self, List.replicate_zero, List.append_nil] using hrun

/-- The edges that follow are counted (40 R171). -/
theorem core_counts (h : CoreReady s) (ha : s.freezeAck = true) (hc : s.ackSync = List.replicate s.params.syncStages true)
    (hr : s.freezeReq = true) (hs : s.sched = List.replicate n (.clkEdge false false false) ++ rest) :
    ∃ c oc os irq, stepTimes n s = .next ((s.atCore c oc os irq (s.settleCnt + n) s.ackSync).withSched rest) ∧
      (s.clrReq = false → c = s.wsync) :=
  core_edges (f := fun i => s.settleCnt + i) (g := fun _ => s.ackSync) h rfl rfl
    (fun i _ => by rw [hc, syncOut_replicate h.stages, hr]; rfl) (fun i _ => by rw [ha, hc, shiftIn_replicate]) hs

end Sys2Proof.Machine
end

section
/-! PROOFS. The handshake from the request to the freeze, and from the release to the next one (40 R171, R176), with the drain or the
resize between them. -/

namespace Sys2Proof.Machine

open Sys2Proof.Safety

variable {s t u : State} {rest : List Turn} {c : Nat}

/-! ### The request -/

theorem step_freeze {clr : Bool} (hs : s.sched = .freeze :: rest) (hr : s.rstC = false)
    (hp : pendingFreeze s = some clr) : step s = .next (requestFreeze clr (s.withSched rest)) := by
  have hp' : pendingFreeze (s.withSched rest) = some clr := hp
  refine (step_scheduled hs).trans ((if_neg (show ¬ (s.withSched rest).rstC = true by simp [State.withSched, hr])).trans ?_)
  rw [show ({ s with sched := rest } : State) = s.withSched rest from rfl, hp']

/-- The command `i` is latched and performs its next transition while Closed and with no tick running. -/
structure Latched (s : State) (i : Instr) : Prop where
  init : s.initBusy = false
  busy : s.busy = true
  tick : s.tickStage = .idle
  closed : s.opened = false
  word : decodeWord s.curWord = .ok i

/-- Then the freeze that the engine needs is the command's. -/
theorem pendingFreeze_latched {i : Instr} (h : Latched s i) : pendingFreeze s = freezeForCommand s i := by
  rw [pendingFreeze, if_neg (by simp [h.tick]), if_pos (by simp [h.busy, h.init, h.closed]), h.word]

theorem freezeForCommand_rbReadall (h : LengthAccepted s s.rbCap) (hg : s.rbGate = true) :
    freezeForCommand s .rbReadall = some false := if_pos ⟨h.2, hg⟩

theorem freezeForCommand_rbResize (h : SizeAccepted s c) : freezeForCommand s .rbResize = some true := by
  obtain ⟨-, h0, rfl, hmax⟩ := h
  have hok : sizeRequest s.params s.argNat = .ok _ := sizeRequest_ok.mpr ⟨h0, hmax, rfl⟩
  rw [freezeForCommand, hok]

theorem requestFreeze_raises {clr : Bool} (hn : s.noHandshake = true) (hc : clr = true → s.clrReq = true) :
    requestFreeze clr s = { s with freezeReq := true, settleCnt := 0 } := by
  rw [requestFreeze, if_neg (by simp [hn]), if_neg (by cases clr <;> simp_all)]

theorem requestFreeze_clears (hn : s.noHandshake = true) (hc : s.clrReq = false) :
    requestFreeze true s = { s with clrReq := true } := by
  rw [requestFreeze, if_neg (by simp [hn]), if_pos (by simp [hc])]

/-- The request of a freeze, raised (40 R171). -/
def State.asked (s : State) : State := { s with freezeReq := true, settleCnt := 0 }

theorem step_asks {clr : Bool} (hs : s.sched = .freeze :: rest) (hr : s.rstC = false) (hp : pendingFreeze s = some clr)
    (hn : s.noHandshake = true) (hc : clr = true → s.clrReq = true) : step s = .next (s.withSched rest).asked := by
  rw [step_freeze hs hr hp, requestFreeze_raises (s := s.withSched rest) hn hc]
  rfl

theorem step_clears (hs : s.sched = .freeze :: rest) (hr : s.rstC = false) (hp : pendingFreeze s = some true)
    (hn : s.noHandshake = true) (hc : s.clrReq = false) : step s = .next { s.withSched rest with clrReq := true } := by
  rw [step_freeze hs hr hp, requestFreeze_clears (s := s.withSched rest) hn hc]

/-- Nothing of a handshake is under way, and edges of both clocks take place. -/
structure Unasked (s : State) : Prop where
  ready : ProducerReady s
  core : CoreReady s
  none : s.noHandshake = true
  reqLength : s.reqSync.length = s.params.syncStages
  ackLength : s.ackSync.length = s.params.syncStages

theorem Unasked.ackSync_eq (h : Unasked s) : s.ackSync = List.replicate s.params.syncStages false := by
  obtain ⟨-, -, -, hack, -⟩ := noHandshake_iff.mp h.none
  rw [← h.ackLength]
  exact List.eq_replicate_of_mem hack

theorem Unasked.requesting (h : Unasked s) : Requesting s.asked true := by
  obtain ⟨-, hfrozen, hack, -, hreq⟩ := noHandshake_iff.mp h.none
  refine ⟨{ h.ready with }, h.core.stages, rfl, hfrozen, hack, ?_⟩
  rw [show s.asked.params.syncStages = s.reqSync.length from h.reqLength.symm]
  exact List.eq_replicate_of_mem hreq

/-! ### From the request to the freeze -/

/-- With the pointer where it was, or the crossing suspended, the core domain has nothing to count after the answer either. -/
theorem coreReady_followed (hp : ProducerReady s) (h : CoreReady s) {q : List SampleSignals} {w g k : Nat} {m : Memory}
    {v : Bool} (hq : SampleEdges s k q w g m) : CoreReady ((s.followed q w g m v).withSched rest) where
  reset := h.reset
  closed := h.closed
  stages := h.stages
  quiet := by
    cases hclr : s.clrReq with
    | true => exact .inl hclr
    | false =>
      obtain ⟨hs, hcore, hcur⟩ := h.quiet.resolve_left (by simp [hclr])
      obtain ⟨rfl, rfl, rfl⟩ := hq.ring (hp.safe.imp_right fun h => h.resolve_left (by simp [hclr]))
      have hnot : (v && s.clrReq) = false := by rw [hclr, Bool.and_false]
      refine .inr ⟨{ hs with pointer := ?_, code := ?_ }, { hcore with }, hcur⟩
      · simp only [State.followed, State.withSample, State.withSched, hnot, Bool.false_eq_true, if_false]
        exact hs.pointer
      · simp only [State.followed, State.withSample, State.withSched, hnot, Bool.false_eq_true, if_false]
        exact hs.code

/-- The edges of `clk` from the answer to the linearization point (40 R171). -/
theorem core_settles (h : CoreReady s) (ha : s.freezeAck = true) (hr : s.freezeReq = true) (h0 : s.settleCnt = 0)
    (hc : s.ackSync = List.replicate s.params.syncStages false)
    (hs : s.sched = List.replicate (2 * s.params.syncStages + 1) (.clkEdge false false false) ++ rest) :
    ∃ x oc os irq, stepTimes (2 * s.params.syncStages + 1) s =
        .next ((s.atCore x oc os irq (s.params.syncStages + 1) (List.replicate s.params.syncStages true)).withSched rest) ∧
      (s.clrReq = false → x = s.wsync) := by
  rw [show 2 * s.params.syncStages + 1 = s.params.syncStages + (s.params.syncStages + 1) by omega] at hs ⊢
  rw [List.replicate_add, List.append_assoc] at hs
  obtain ⟨x, oc, os, irq, hsee, hx⟩ := core_sees (v := true) h ha hc hr hs
  obtain ⟨x', oc', os', irq', hcount, hx'⟩ := core_counts (rest := rest)
    (coreReady_atCore (rest := List.replicate (s.params.syncStages + 1) (.clkEdge false false false) ++ rest) h hx oc os irq
      s.settleCnt (List.replicate s.params.syncStages true)) ha rfl hr rfl
  refine ⟨x', oc', os', irq', (stepTimes_trans hsee hcount).trans ?_, fun hrun => (hx' hrun).trans (hx hrun)⟩
  simp only [State.atCore, State.withSched, h0, Nat.zero_add]

/-- The freeze is held: the producer is frozen, and the core domain has counted the edges it waits (40 R171). -/
structure Held (s : State) : Prop where
  ready : ProducerReady s
  core : CoreReady s
  request : s.freezeReq = true
  count : s.settleCnt = s.params.syncStages + 1
  frozen : s.frozen = true
  ack : s.freezeAck = true
  reqChain : s.reqSync = List.replicate s.params.syncStages true
  ackChain : s.ackSync = List.replicate s.params.syncStages true

theorem Held.freeze_eq (h : Held s) : s.freeze = .held := freeze_held_iff.mpr ⟨h.request, h.count.ge⟩

theorem CoreReady.withSched (h : CoreReady s) (ts : List Turn) : CoreReady (s.withSched ts) :=
  { h with quiet := h.quiet.imp_right fun hq => ⟨{ hq.settled with }, { hq.core with }, hq.cursor⟩ }

theorem Held.withSched (h : Held s) (ts : List Turn) : Held (s.withSched ts) :=
  { h with
    ready := { h.ready with }
    core := h.core.withSched ts }

/-- The latched command, the engine's flags, and the ring buffer as the core domain holds it: what a handshake leaves. -/
def State.commandView (s : State) : (Params × Nat × Bool × Word) × (Bool × Bool × TickStage × Word) × Nat × Nat × Bool :=
  (s.ringSetup, (s.initBusy, s.busy, s.tickStage, s.curWord), s.rbWcur, s.rbAcc, s.rbGate)

theorem commandView_eq (h : t.commandView = s.commandView) :
    t.ringSetup = s.ringSetup ∧
      (t.initBusy = s.initBusy ∧ t.busy = s.busy ∧ t.tickStage = s.tickStage ∧ t.curWord = s.curWord) ∧
      t.rbWcur = s.rbWcur ∧ t.rbAcc = s.rbAcc ∧ t.rbGate = s.rbGate := by
  simpa only [State.commandView, Prod.mk.injEq] using h

theorem commandView_params (h : t.commandView = s.commandView) : t.params = s.params :=
  (ringSetup_eq (commandView_eq h).1).1

theorem Latched.congr {i : Instr} (h : Latched s i) (hv : t.commandView = s.commandView) : Latched t i := by
  obtain ⟨hsetup, ⟨hinit, hbusy, htick, hword⟩, -⟩ := commandView_eq hv
  obtain ⟨-, -, hopened, -⟩ := ringSetup_eq hsetup
  exact ⟨hinit.trans h.init, hbusy.trans h.busy, htick.trans h.tick, hopened.trans h.closed, by rw [hword, h.word]⟩

theorem lengthAccepted_congr (h : LengthAccepted s s.rbCap) (hv : t.commandView = s.commandView) :
    LengthAccepted t t.rbCap := by
  obtain ⟨-, hcap, hopened, harg⟩ := ringSetup_eq (commandView_eq hv).1
  rwa [LengthAccepted, hcap, hopened, harg]

theorem sizeAccepted_congr (h : SizeAccepted s c) (hv : t.commandView = s.commandView) : SizeAccepted t c := by
  obtain ⟨hparams, -, hopened, harg⟩ := ringSetup_eq (commandView_eq hv).1
  rwa [SizeAccepted, hparams, hopened, harg]

/-- The ring as the producer domain holds it: its pointer, its memory with what the unwritten bytes hold, and whether a resize
suspends the crossing. -/
def State.ringView (s : State) : Nat × Memory × Nat × Bool := (s.wptrW, s.rbmem, s.epoch, s.clrReq)

theorem ringView_eq (h : t.ringView = s.ringView) :
    t.wptrW = s.wptrW ∧ t.rbmem = s.rbmem ∧ t.epoch = s.epoch ∧ t.clrReq = s.clrReq := by
  simpa only [State.ringView, Prod.mk.injEq] using h

/-- A freeze carried out: the producer answers the request, in `r`, and the core domain settles, in `b` (40 R171, R176). -/
theorem freeze_granted (h : Unasked s)
    (hs : s.sched = List.replicate (s.params.syncStages + 1) .wrEdge ++
      (List.replicate (2 * s.params.syncStages + 1) (.clkEdge false false false) ++ rest)) :
    ∃ r b q w g m, stepTimes (s.params.syncStages + 1) s.asked = .next r ∧
      r = (s.asked.followed q w g m true).withSched r.sched ∧ SampleEdges s (s.params.syncStages + 1) q w g m ∧
      stepTimes (2 * s.params.syncStages + 1) r = .next b ∧ b.sched = rest ∧ Held b ∧ b.commandView = s.commandView ∧
      (s.clrReq = false → b.ringView = s.ringView) := by
  obtain ⟨q, w, g, m, hfollow, hq⟩ := producer_follows h.requesting hs
  have hcore : CoreReady s.asked :=
    { h.core with quiet := h.core.quiet.imp_right fun hq => ⟨{ hq.settled with }, { hq.core with }, hq.cursor⟩ }
  have hready := coreReady_followed (rest := List.replicate (2 * s.params.syncStages + 1) (.clkEdge false false false) ++ rest)
    (v := true) h.requesting.ready hcore hq
  obtain ⟨x, oc, os, irq, hsettle, hx⟩ := core_settles (rest := rest) hready rfl rfl rfl h.ackSync_eq rfl
  refine ⟨_, _, q, w, g, m, hfollow, rfl, { hq with }, hsettle, rfl, ?held, rfl, fun hrun => ?ring⟩
  case held =>
    exact
      { ready := ⟨h.ready.runs, h.ready.inReset, h.ready.updates, .inl rfl⟩
        core := coreReady_atCore hready hx oc os irq _ _
        request := rfl
        count := rfl
        frozen := rfl
        ack := rfl
        reqChain := rfl
        ackChain := rfl }
  case ring =>
    obtain ⟨hw, -, hm⟩ := hq.ring (h.ready.safe.imp_right fun hsafe => hsafe.resolve_left (by simp [hrun]))
    have hclear : (true && s.asked.clrReq) = false := hrun
    simp only [State.ringView, State.atCore, State.followed, State.withSample, State.withSched, hclear, hw, hm,
      Bool.false_eq_true, if_false]
    rfl

/-! ### From the release to the next freeze -/

/-- What the producer's half of the handshake sees and holds. -/
def State.handshakeView (s : State) : Params × (Bool × Bool × List OverloadSignals) × Bool × Bool × List Bool × List Bool :=
  (s.params, (s.wrRuns, s.inReset, s.ovlQ), s.frozen, s.freezeAck, s.reqSync, s.ackSync)

/-- The operation has been performed and the request dropped (40 R171). -/
structure Released (s : State) : Prop where
  requesting : Requesting s false
  core : CoreReady s
  suspended : s.clrReq = false
  ackChain : s.ackSync = List.replicate s.params.syncStages true

theorem released_of_held (h : Held s) (hv : t.handshakeView = s.handshakeView) (hc : CoreReady t.releaseFreeze) :
    Released t.releaseFreeze := by
  simp only [State.handshakeView, Prod.mk.injEq] at hv
  obtain ⟨hparams, ⟨hruns, hreset, hovl⟩, hfrozen, hack, hreq, hsync⟩ := hv
  refine ⟨⟨⟨hruns.trans h.ready.runs, hreset.trans h.ready.inReset, hovl.trans h.ready.updates,
    .inl (hfrozen.trans h.frozen)⟩, hc.stages, rfl, hfrozen.trans h.frozen, hack.trans h.ack, ?_⟩, hc, rfl, ?_⟩
  · show t.reqSync = List.replicate t.params.syncStages true
    rw [hreq, h.reqChain, hparams]
  · show t.ackSync = List.replicate t.params.syncStages true
    rw [hsync, h.ackChain, hparams]

/-- The producer has followed the release; the core domain has seen nothing of it. -/
structure Thawed (s : State) : Prop where
  core : CoreReady s
  runs : s.wrRuns = true
  request : s.freezeReq = false
  frozen : s.frozen = false
  ack : s.freezeAck = false
  reqChain : ∀ b ∈ s.reqSync, b = false
  suspended : s.clrReq = false
  ackChain : s.ackSync = List.replicate s.params.syncStages true

/-- Once the core domain has seen the release, a new freeze may begin. -/
theorem thawed_completes (h : Thawed s)
    (hs : s.sched = List.replicate s.params.syncStages (.clkEdge false false false)) :
    ∃ v, stepTimes s.params.syncStages s = .next v ∧ v.freeze = .idle ∧ v.rbAcc = s.rbAcc := by
  obtain ⟨x, oc, os, irq, hsee, -⟩ :=
    core_sees (v := false) (rest := []) h.core h.ack h.ackChain h.request (by rw [hs, List.append_nil])
  refine ⟨_, hsee, freeze_idle_iff.mpr ⟨noHandshake_iff.mpr ?_, h.suspended, h.runs⟩, rfl⟩
  exact ⟨h.request, h.frozen, h.ack, fun _ => List.eq_of_mem_replicate, h.reqChain⟩

/-- The release carried out: the producer runs again, and a new freeze may begin (40 R171). -/
theorem release_completes (h : Released s)
    (hs : s.sched = List.replicate (s.params.syncStages + 1) .wrEdge ++
      List.replicate s.params.syncStages (.clkEdge false false false)) :
    ∃ u v, stepTimes (s.params.syncStages + 1) s = .next u ∧ u.frozen = false ∧ u.freezeAck = false ∧ u.sReady = true ∧
      u.wptrW = s.wptrW ∧ stepTimes s.params.syncStages u = .next v ∧ v.freeze = .idle ∧ v.rbAcc = s.rbAcc := by
  obtain ⟨q, w, g, m, hfollow, hq⟩ := producer_follows h.requesting hs
  obtain ⟨rfl, -, -⟩ := hq.ring (.inl h.requesting.frozen)
  have hthawed : Thawed ((s.followed q s.wptrW g m false).withSched
      (List.replicate s.params.syncStages (.clkEdge false false false))) :=
    { core := coreReady_followed h.requesting.ready h.core hq
      runs := h.requesting.ready.runs
      request := h.requesting.request
      frozen := rfl
      ack := rfl
      reqChain := fun _ => List.eq_of_mem_replicate
      suspended := h.suspended
      ackChain := h.ackChain }
  obtain ⟨v, hv, hidle, hacc⟩ := thawed_completes hthawed rfl
  have hready : ((s.followed q s.wptrW g m false).withSched
      (List.replicate s.params.syncStages (.clkEdge false false false))).sReady = true := by
    show (!false && !s.inReset) = true
    rw [h.requesting.ready.inReset]; rfl
  exact ⟨_, v, hfollow, rfl, rfl, hready, rfl, hv, hidle, hacc⟩

/-! ### The two commands -/

/-- A good state with a latched command, in which no freeze is under way and no overload update is offered. -/
structure AboutToRun (s : State) (i : Instr) : Prop where
  inv : Inv s
  running : Running s
  inReset : s.inReset = false
  latched : Latched s i
  updates : s.ovlQ = []

theorem AboutToRun.rstC_eq {i : Instr} (h : AboutToRun s i) : s.rstC = false := (Bool.or_eq_false_iff.mp h.inReset).2

theorem AboutToRun.stages_pos {i : Instr} (h : AboutToRun s i) : 0 < s.params.syncStages := by
  obtain ⟨-, -, -, -, -, hstages, -⟩ := h.inv.legal
  omega

theorem AboutToRun.noHandshake {i : Instr} (h : AboutToRun s i) : s.noHandshake = true :=
  (freeze_idle_iff.mp h.running.idle).1

theorem AboutToRun.unasked {i : Instr} (h : AboutToRun s i) (hsafe : s.clrReq = true ∨ s.beatQ = [])
    (hq : s.clrReq = true ∨ Quiet s) : Unasked s := by
  obtain ⟨-, -, hreq, hack⟩ := h.inv.chains
  exact
    { ready := ⟨(freeze_idle_iff.mp h.running.idle).2.2, h.inReset, h.updates, .inr hsafe⟩
      core := ⟨h.rstC_eq, h.latched.closed, h.stages_pos, hq⟩
      none := h.noHandshake
      reqLength := hreq
      ackLength := hack }

theorem Unasked.withSched (h : Unasked s) (ts : List Turn) : Unasked (s.withSched ts) where
  ready := { h.ready with }
  core := h.core.withSched ts
  none := h.none
  reqLength := h.reqLength
  ackLength := h.ackLength

theorem quiet_of_settled (hi : Inv s) (hs : Settled s) : Quiet s :=
  ⟨hs, ⟨hs.running, hs.seen.symm, hi.acc, hi.gate⟩, hi.cursors.1⟩

/-- The command's turn, wherever the handshake stands. -/
theorem step_command {i : Instr} (hs : s.sched = .command :: rest) (hr : s.rstC = false) (h : Latched s i) :
    step s = exec i (s.withSched rest) :=
  (step_scheduled hs).trans (commandTurn_of_ok (s := s.withSched rest) hr h.init h.busy h.word)

/-- `RB_READALL` at its linearization point, and what follows it: the ring is drained and the request dropped. -/
theorem readall_at_held (h : Held s) (hlen : LengthAccepted s s.rbCap) (hg : s.rbGate = true) (hclr : s.clrReq = false)
    (hcap : ispow2 s.rbCap = true) :
    exec .rbReadall s = .next (ended (drain s) .ok 1).releaseFreeze ∧ Released (ended (drain s) .ok 1).releaseFreeze := by
  obtain ⟨hs, hcore, hcur⟩ := h.core.quiet.resolve_left (by simp [hclr])
  refine ⟨exec_rbReadall_held hlen hg h.freeze_eq,
    released_of_held h rfl ⟨h.core.reset, h.core.closed, h.core.stages, .inr ?_⟩⟩
  exact ⟨{ hs with running := rfl }, ⟨rfl, hcore.cursor, Nat.zero_le _, gate_of_empty hcap⟩, hcur⟩

/-- `RB_RESIZE` at its linearization point: the ring is empty and the pointers are clear on both sides. -/
theorem resize_at_held (h : Held s) (hsize : SizeAccepted s c) :
    exec .rbResize s = .next (ended (resizeRing c s) .ok (BitVec.ofNat 32 c)).releaseFreeze ∧
      Released (ended (resizeRing c s) .ok (BitVec.ofNat 32 c)).releaseFreeze := by
  have hcap : ispow2 c = true := by
    obtain ⟨-, -, rfl, -⟩ := hsize
    exact ispow2_roundup _
  refine ⟨exec_rbResize_held hsize h.freeze_eq,
    released_of_held h rfl ⟨h.core.reset, h.core.closed, h.core.stages, .inr ?_⟩⟩
  refine ⟨⟨rfl, rfl, gray_zero.symm, ?_, rfl⟩, ⟨rfl, rfl, Nat.zero_le _, gate_of_empty hcap⟩, Nat.two_pow_pos _⟩
  show List.replicate s.params.syncStages 0 = List.replicate s.params.syncStages (gray 0)
  rw [gray_zero]

/-- The turns that carry a release out. -/
def releaseTurns (n : Nat) : List Turn :=
  List.replicate (n + 1) .wrEdge ++ List.replicate n (.clkEdge false false false)

/-- The turns from a request to the release that follows it. -/
def handshakeTurns (n : Nat) : List Turn :=
  List.replicate (n + 1) .wrEdge ++
    (List.replicate (2 * n + 1) (.clkEdge false false false) ++ .command :: releaseTurns n)

/-- The linearization point of the drain and the release after it. -/
theorem readall_release (h : Held s) (hs : s.sched = .command :: releaseTurns s.params.syncStages)
    (hl : Latched s .rbReadall) (hlen : LengthAccepted s s.rbCap) (hg : s.rbGate = true) (hclr : s.clrReq = false)
    (hcap : ispow2 s.rbCap = true) :
    ∃ t u v, step s = .next t ∧ t.frozen = true ∧ t.freezeReq = false ∧
      t.busy = false ∧ t.resReason = .ok ∧ t.rval = 1 ∧ t.rbGate = false ∧ t.rbAcc = 0 ∧ t.rbRcur = s.rbWcur ∧
      (∀ j < s.rbCap, t.blkAt j = s.rbmemAt (ringIndex s.rbCap (s.rbWcur + j))) ∧
      stepTimes (s.params.syncStages + 1) t = .next u ∧ u.frozen = false ∧ u.freezeAck = false ∧ u.sReady = true ∧
      u.wptrW = s.wptrW ∧ stepTimes s.params.syncStages u = .next v ∧ v.freeze = .idle := by
  obtain ⟨hexec, hreleased⟩ := readall_at_held (h.withSched (releaseTurns s.params.syncStages)) hlen hg hclr hcap
  obtain ⟨u, v, hu, hfrozen, hack, hready, hptr, hv, hidle, -⟩ := release_completes hreleased rfl
  exact ⟨_, u, v, (step_command hs h.core.reset hl).trans hexec, h.frozen, rfl, rfl, rfl, rfl, rfl, rfl, rfl,
    fun j hj => blkAt_drain (s := s.withSched _) hj, hu, hfrozen, hack, hready, hptr, hv, hidle⟩

/-- The linearization point of the resize and the release after it. -/
theorem resize_release (h : Held s) (hs : s.sched = .command :: releaseTurns s.params.syncStages)
    (hl : Latched s .rbResize) (hsize : SizeAccepted s c) :
    ∃ t u v, step s = .next t ∧ t.frozen = true ∧ t.freezeReq = false ∧ t.clrReq = false ∧
      t.busy = false ∧ t.resReason = .ok ∧ t.rval = BitVec.ofNat 32 c ∧ t.rbCap = c ∧ t.rbWcur = 0 ∧ t.rbRcur = 0 ∧
      t.rbAcc = 0 ∧ t.rbGate = false ∧
      stepTimes (s.params.syncStages + 1) t = .next u ∧ u.frozen = false ∧ u.freezeAck = false ∧ u.sReady = true ∧
      u.wptrW = 0 ∧ stepTimes s.params.syncStages u = .next v ∧ v.freeze = .idle ∧ v.rbAcc = 0 := by
  obtain ⟨hexec, hreleased⟩ := resize_at_held (h.withSched (releaseTurns s.params.syncStages)) hsize
  obtain ⟨u, v, hu, hfrozen, hack, hready, hptr, hv, hidle, hacc⟩ := release_completes hreleased rfl
  exact ⟨_, u, v, (step_command hs h.core.reset hl).trans hexec, h.frozen, rfl, rfl, rfl, rfl, rfl, rfl, rfl, rfl,
    rfl, rfl, hu, hfrozen, hack, hready, hptr, hv, hidle, hacc⟩

/-- The drain edge by edge. -/
theorem readall_handshake (h : AboutToRun s .rbReadall) (hset : Settled s) (hlen : LengthAccepted s s.rbCap)
    (hg : s.rbGate = true) (hbeats : s.beatQ = []) (hs : s.sched = .freeze :: handshakeTurns s.params.syncStages) :
    ∃ t u v, stepTimes (3 * s.params.syncStages + 4) s = .next t ∧ t.frozen = true ∧ t.freezeReq = false ∧
      t.busy = false ∧ t.resReason = .ok ∧ t.rval = 1 ∧ t.rbGate = false ∧ t.rbAcc = 0 ∧ t.rbRcur = s.rbWcur ∧
      (∀ j < s.rbCap, t.blkAt j = s.rbmemAt (ringIndex s.rbCap (s.rbWcur + j))) ∧
      stepTimes (s.params.syncStages + 1) t = .next u ∧ u.frozen = false ∧ u.freezeAck = false ∧ u.sReady = true ∧
      u.wptrW = s.wptrW ∧ stepTimes s.params.syncStages u = .next v ∧ v.freeze = .idle := by
  obtain ⟨hpow, -⟩ := h.inv.cap
  have hpending : pendingFreeze s = some false :=
    (pendingFreeze_latched h.latched).trans (freezeForCommand_rbReadall hlen hg)
  have hask := step_asks hs h.rstC_eq hpending h.noHandshake (by simp)
  have hunasked := (h.unasked (.inr hbeats) (.inr (quiet_of_settled h.inv hset))).withSched
    (handshakeTurns s.params.syncStages)
  obtain ⟨r, b, -, -, -, -, hfollow, -, -, hsettle, hsched, hheld, hview, hring⟩ := freeze_granted hunasked rfl
  have hview : b.commandView = s.commandView := hview
  have hring : b.ringView = s.ringView := hring hset.running
  obtain ⟨hsetup, -, hcur, -, hgate⟩ := commandView_eq hview
  obtain ⟨hparams, hcap, -, -⟩ := ringSetup_eq hsetup
  obtain ⟨hptr, hmem, hepoch, hclr⟩ := ringView_eq hring
  have hrb : ∀ i, b.rbmemAt i = s.rbmemAt i := State.sampleAt_congr (id := .rbmem) hmem hepoch
  obtain ⟨t, u, v, hstep, hrelease⟩ := readall_release hheld (by rw [hsched, hparams]) (h.latched.congr hview)
    (lengthAccepted_congr hlen hview) (hgate.trans hg) (hclr.trans hset.running) (by rwa [hcap])
  simp only [hparams, hcap, hcur, hptr, hrb] at hrelease
  refine ⟨t, u, v, ?_, hrelease⟩
  rw [show 3 * s.params.syncStages + 4 = 1 + (s.params.syncStages + 1 + (2 * s.params.syncStages + 1 + 1)) by omega]
  exact stepTimes_trans (stepTimes_one hask) (stepTimes_trans hfollow (stepTimes_trans hsettle (stepTimes_one hstep)))

/-- An edge of `clk` before the request. -/
theorem unasked_clkEdge (h : Unasked s) (hs : s.sched = .clkEdge false false false :: rest) :
    ∃ p, step s = .next p ∧ p.sched = rest ∧ Unasked p ∧ p.clrReq = s.clrReq ∧ p.beatQ = s.beatQ ∧
      p.commandView = s.commandView := by
  obtain ⟨hreq, hfrozen, hack, hacks, hreqs⟩ := noHandshake_iff.mp h.none
  obtain ⟨x, oc, os, irq, hedge, hx⟩ := step_clkEdge_ready h.core hs
  refine ⟨_, hedge, rfl, ⟨{ h.ready with }, coreReady_atCore h.core hx oc os irq _ _, ?_, h.reqLength,
    (length_shiftIn _ _).trans h.ackLength⟩, rfl, rfl, rfl⟩
  exact noHandshake_iff.mpr ⟨hreq, hfrozen, hack, forall_mem_shiftIn hack hacks, hreqs⟩

/-- The freeze of a resize from its request on: freezing clears the producer's pointer, and the core domain's half of the ring
stands still until the linearization point (40 R153, R176). -/
theorem resize_freeze (h : Unasked s) (hclr : s.clrReq = true)
    (hs : s.sched = handshakeTurns s.params.syncStages) :
    ∃ r b, stepTimes (s.params.syncStages + 1) s.asked = .next r ∧ r.frozen = true ∧ r.freezeAck = true ∧
      r.sReady = false ∧ r.wptrW = 0 ∧ r.wptrG = 0 ∧ r.beatQ = s.beatQ.drop (s.params.syncStages + 1) ∧
      r.rbCap = s.rbCap ∧ r.rbWcur = s.rbWcur ∧ r.rbAcc = s.rbAcc ∧
      stepTimes (2 * s.params.syncStages + 1) r = .next b ∧ b.sched = .command :: releaseTurns s.params.syncStages ∧
      Held b ∧ b.commandView = s.commandView := by
  obtain ⟨-, hfrozen, -⟩ := noHandshake_iff.mp h.none
  obtain ⟨r, b, q, w, g, m, hfollow, hr, hq, hsettle, hsched, hheld, hview, -⟩ := freeze_granted h hs
  have hclear : (if true && s.asked.clrReq then 0 else w) = 0 ∧ (if true && s.asked.clrReq then 0 else g) = 0 := by
    have hboth : (true && s.asked.clrReq) = true := hclr
    rw [hboth]; exact ⟨rfl, rfl⟩
  have hrf : r.frozen = true := congrArg State.frozen hr
  exact ⟨r, b, hfollow, hrf, congrArg State.freezeAck hr, sReady_of_frozen hrf, (congrArg State.wptrW hr).trans hclear.1,
    (congrArg State.wptrG hr).trans hclear.2, (congrArg State.beatQ hr).trans (hq.queue hfrozen),
    (congrArg State.rbCap hr :), (congrArg State.rbWcur hr :), (congrArg State.rbAcc hr :), hsettle, hsched, hheld, hview⟩

/-- The resize edge by edge. -/
theorem resize_handshake (h : AboutToRun s .rbResize) (hsize : SizeAccepted s c)
    (hs : s.sched = .freeze :: .clkEdge false false false :: .freeze :: handshakeTurns s.params.syncStages) :
    ∃ p q r t u v, stepTimes 2 s = .next p ∧ p.clrReq = true ∧ p.freezeReq = false ∧
      step p = .next q ∧ q.clrReq = true ∧ q.freezeReq = true ∧
      stepTimes (s.params.syncStages + 1) q = .next r ∧ r.frozen = true ∧ r.freezeAck = true ∧ r.sReady = false ∧
      r.wptrW = 0 ∧ r.wptrG = 0 ∧ r.beatQ = s.beatQ.drop (s.params.syncStages + 1) ∧ r.rbCap = s.rbCap ∧
      r.rbWcur = p.rbWcur ∧ r.rbAcc = p.rbAcc ∧
      stepTimes (2 * s.params.syncStages + 2) r = .next t ∧ t.frozen = true ∧ t.freezeReq = false ∧ t.clrReq = false ∧
      t.busy = false ∧ t.resReason = .ok ∧ t.rval = BitVec.ofNat 32 c ∧ t.rbCap = c ∧ t.rbWcur = 0 ∧ t.rbRcur = 0 ∧
      t.rbAcc = 0 ∧ t.rbGate = false ∧
      stepTimes (s.params.syncStages + 1) t = .next u ∧ u.frozen = false ∧ u.freezeAck = false ∧ u.sReady = true ∧
      u.wptrW = 0 ∧ stepTimes s.params.syncStages u = .next v ∧ v.freeze = .idle ∧ v.rbAcc = 0 := by
  have hpending : pendingFreeze s = some true :=
    (pendingFreeze_latched h.latched).trans (freezeForCommand_rbResize hsize)
  have hclear := step_clears hs h.rstC_eq hpending h.noHandshake (freeze_idle_requests h.running.idle).2
  obtain ⟨-, -, hreqLen, hackLen⟩ := h.inv.chains
  have hunasked : Unasked { s.withSched (.clkEdge false false false :: .freeze :: handshakeTurns s.params.syncStages) with
      clrReq := true } :=
    { ready := ⟨(freeze_idle_iff.mp h.running.idle).2.2, h.inReset, h.updates, .inr (.inl rfl)⟩
      core := ⟨h.rstC_eq, h.latched.closed, h.stages_pos, .inl rfl⟩
      none := h.noHandshake
      reqLength := hreqLen
      ackLength := hackLen }
  obtain ⟨p, hedge, hsched, hp, hclr, hbeats, hview⟩ := unasked_clkEdge hunasked rfl
  have hview : p.commandView = s.commandView := hview
  have hbeats : p.beatQ = s.beatQ := hbeats
  obtain ⟨hparams, hcap, -, -⟩ := ringSetup_eq (commandView_eq hview).1
  obtain ⟨hpreq, -⟩ := noHandshake_iff.mp hp.none
  have hppending : pendingFreeze p = some true :=
    (pendingFreeze_latched (h.latched.congr hview)).trans (freezeForCommand_rbResize (sizeAccepted_congr hsize hview))
  have hask := step_asks hsched hp.core.reset hppending hp.none (fun _ => hclr)
  rw [← hparams] at hask ⊢
  obtain ⟨r, b, hfollow, hfrozen, hack, hready, hptr, hcode, hqueue, hrcap, hrcur, hracc, hsettle, hbsched, hheld, hbview⟩ :=
    resize_freeze (hp.withSched (handshakeTurns p.params.syncStages)) hclr rfl
  have hbview : b.commandView = s.commandView := Eq.trans hbview hview
  obtain ⟨t, u, v, hstep, hrelease⟩ := resize_release hheld (by rw [hbsched, commandView_params hbview, ← hparams]; rfl)
    (h.latched.congr hbview) (sizeAccepted_congr hsize hbview)
  rw [commandView_params hbview, ← hparams] at hrelease
  have hfirst : stepTimes 2 s = .next p := stepTimes_trans (m := 1) (n := 1) (stepTimes_one hclear) (stepTimes_one hedge)
  have hlast : stepTimes (2 * p.params.syncStages + 2) r = .next t :=
    stepTimes_trans (m := 2 * p.params.syncStages + 1) (n := 1) hsettle (stepTimes_one hstep)
  have hqueue : r.beatQ = s.beatQ.drop (p.params.syncStages + 1) := hqueue.trans (by rw [← hbeats]; rfl)
  have hrcap : r.rbCap = s.rbCap := Eq.trans hrcap hcap
  exact ⟨p, _, r, t, u, v, hfirst, hclr, hpreq, hask, hclr, rfl, hfollow,
    hfrozen, hack, hready, hptr, hcode, hqueue, hrcap, hrcur, hracc, hlast, hrelease⟩

/-- The schedule of a handshake as the obligation writes it. -/
theorem handshakeTurns_eq (n : Nat) :
    List.replicate (n + 1) .wrEdge ++ List.replicate (2 * n + 1) (.clkEdge false false false) ++
      .command :: (List.replicate (n + 1) .wrEdge ++ List.replicate n (.clkEdge false false false)) = handshakeTurns n :=
  List.append_assoc ..

/-- Settles O22: the request, the edges of `wr_clk` that carry it and freeze the producer, the edges of `clk` that carry the
acknowledgement and the pointer, the linearization point and the release are runs of their own, joined edge by edge. A resize
raises `CLR_REQ` and takes an edge of `clk` before its request, and freezing then clears the producer's pointer. -/
theorem handshakeEdgesReachTheDrain : Obligations.HandshakeEdgesReachTheDrain := by
  unfold Obligations.HandshakeEdgesReachTheDrain
  simp only [handshakeTurns_eq]
  exact ⟨fun s hi hset hrun hreset hinit hb hphase ht hd hlen hg hbeats hovl hs =>
      readall_handshake ⟨hi, hrun, hreset, ⟨hinit, hb, ht, hlen.1, hd⟩, hovl⟩ hset hlen hg hbeats hs,
    fun s c hi hrun hreset hinit hb hphase ht hd hsize hovl hs =>
      resize_handshake ⟨hi, hrun, hreset, ⟨hinit, hb, ht, hsize.1, hd⟩, hovl⟩ hsize hs⟩

end Sys2Proof.Machine
end

section
/-! PROOFS. The bit reversal (41 R206). The recursion takes the lowest digit to the top; that it takes the top digit to the
bottom as well makes it its own inverse. -/

namespace Sys2Proof.Machine

theorem bitRev_lt (L i : Nat) : bitRev L i < 2 ^ L := by
  induction L generalizing i with
  | zero => exact Nat.one_pos
  | succ L ih =>
    have hdigit : i % 2 * 2 ^ L ≤ 1 * 2 ^ L := Nat.mul_le_mul_right _ (by omega)
    have hrest := ih (i / 2)
    rw [bitRev, Nat.pow_succ]
    omega

/-- The top digit goes to the bottom, and the rest is reversed above it. -/
theorem bitRev_succ_top (L : Nat) {e i : Nat} (he : e < 2) (hi : i < 2 ^ L) :
    bitRev (L + 1) (e * 2 ^ L + i) = 2 * bitRev L i + e := by
  induction L generalizing i with
  | zero =>
    obtain rfl : i = 0 := Nat.lt_one_iff.mp hi
    simp [bitRev, Nat.mod_eq_of_lt he]
  | succ L ih =>
    have hlow : (e * 2 ^ (L + 1) + i) % 2 = i % 2 := by rw [Nat.pow_succ, ← Nat.mul_assoc]; omega
    have hhigh : (e * 2 ^ (L + 1) + i) / 2 = e * 2 ^ L + i / 2 := by rw [Nat.pow_succ, ← Nat.mul_assoc]; omega
    rw [bitRev, hlow, hhigh, ih (by omega), bitRev]
    ring

theorem bitRev_bitRev {L i : Nat} (h : i < 2 ^ L) : bitRev L (bitRev L i) = i := by
  induction L generalizing i with
  | zero => exact (Nat.lt_one_iff.mp h).symm
  | succ L ih =>
    calc bitRev (L + 1) (i % 2 * 2 ^ L + bitRev L (i / 2))
      _ = 2 * bitRev L (bitRev L (i / 2)) + i % 2 := bitRev_succ_top L (Nat.mod_lt i (by decide)) (bitRev_lt L _)
      _ = 2 * (i / 2) + i % 2 := by rw [ih (by omega)]
      _ = i := Nat.div_add_mod i 2

theorem bitRev_eq_sum (L i : Nat) :
    bitRev L i = ∑ t ∈ Finset.range L, (i.testBit t).toNat * 2 ^ (L - 1 - t) := by
  induction L generalizing i with
  | zero => rfl
  | succ L ih =>
    rw [bitRev, ih, Finset.sum_range_succ', Nat.toNat_testBit, Nat.add_comm]
    simp [Nat.testBit_succ, Nat.sub_sub, Nat.add_comm]

theorem getElem?_bitRevPermute {α : Type} {L i : Nat} (d : α) {xs : List α} (hlen : xs.length = 2 ^ L) (hi : i < 2 ^ L) :
    (bitRevPermute L d xs)[i]? = xs[bitRev L i]? := by
  have hlt : bitRev L i < xs.length := hlen ▸ bitRev_lt L i
  simp [bitRevPermute, hi, hlt]

/-- Settles O25: the sum by the recursion on the digits, the involution because the reversal takes the top digit to the
bottom. -/
theorem bitReversalIsInvolution : Obligations.BitReversalIsInvolution :=
  ⟨fun L i h => ⟨bitRev_lt L i, bitRev_bitRev h, bitRev_eq_sum L i⟩,
    fun _ _ d _ hlen hi => getElem?_bitRevPermute d hlen hi, fun _ _ => rfl, by decide⟩

end Sys2Proof.Machine
end

section
/-! PROOFS. The butterfly network in exact arithmetic (41 R203, R204). After `t` stages the block is `2^t` parts of `2^(L-t)` places:
part `b` holds, for frequency `rev_t(b)`, the Fourier sum over the places that are equal modulo the size of a part. A stage
halves the parts and doubles the number of terms of each sum, and after the last the sums are whole. -/

namespace Sys2Proof.Machine

section Network

variable {R : Type} [CommRing R]

/-- The exact arithmetic of a commutative ring. -/
def ringArith (R : Type) [CommRing R] : Arith R := ⟨(· + ·), (· - ·), (· * ·), 1⟩

/-! ### The sum over a residue class -/

/-- One term of the Fourier sum of frequency `c` for the root `W`. -/
def dftTerm (W : R) (xs : List R) (c n : Nat) : R := xs.getD n 0 * W ^ (c * n)

/-- The first `k` terms of frequency `c` at the places that are `r` modulo `M`. -/
def partialDft (W : R) (xs : List R) (M k c r : Nat) : R := ∑ q ∈ Finset.range k, dftTerm W xs c (q * M + r)

theorem sum_range_two_mul (n : Nat) (f : Nat → R) :
    ∑ q ∈ Finset.range (2 * n), f q = ∑ q ∈ Finset.range n, (f (2 * q) + f (2 * q + 1)) := by
  induction n with
  | zero => rfl
  | succ n ih => rw [Nat.mul_succ, Finset.sum_range_succ, Finset.sum_range_succ, ih, Finset.sum_range_succ, add_assoc]

variable {W : R} {xs : List R}

/-- The places that are `r` modulo `H` are those that are `r` and those that are `r + H` modulo `2H`. -/
theorem partialDft_add (H k c r : Nat) :
    partialDft W xs (2 * H) k c r + partialDft W xs (2 * H) k c (r + H) = partialDft W xs H (2 * k) c r := by
  rw [partialDft, partialDft, partialDft, sum_range_two_mul, ← Finset.sum_add_distrib]
  refine Finset.sum_congr rfl fun q _ => ?_
  congr 2 <;> ring

/-- Adding `k` to the frequency changes the sign of every other term, where `k·H` is half a turn, and multiplies all by
`W^(k·r)`. -/
theorem partialDft_sub_mul {H k : Nat} (hhalf : W ^ (k * H) = -1) (c r : Nat) :
    (partialDft W xs (2 * H) k c r - partialDft W xs (2 * H) k c (r + H)) * (W ^ k) ^ r =
      partialDft W xs H (2 * k) (k + c) r := by
  rw [partialDft, partialDft, partialDft, sum_range_two_mul, ← Finset.sum_sub_distrib, Finset.sum_mul]
  refine Finset.sum_congr rfl fun q _ => ?_
  have hpow : ∀ j, W ^ ((k + c) * (j * H + r)) = (-1) ^ j * W ^ (c * (j * H + r)) * (W ^ k) ^ r := fun j => by
    rw [← hhalf]; ring
  have heven : q * (2 * H) + r = 2 * q * H + r := by ring
  have hodd : q * (2 * H) + (r + H) = (2 * q + 1) * H + r := by ring
  rw [heven, hodd]
  simp only [dftTerm, hpow, (even_two_mul q).neg_one_pow, (odd_two_mul_add_one q).neg_one_pow]
  ring

/-! ### The stages -/

@[simp] theorem length_fftStages {α : Type} (A : Arith α) (wm : Nat → α) (L t : Nat) (xs : List α) :
    (fftStages A wm L t xs).length = xs.length := by
  induction t with
  | zero => rfl
  | succ t ih => simp [fftStages, fftStage, ih]

variable {wm : Nat → R}

/-- Squaring takes each factor to that of the ROM entry before it. -/
theorem factor_pow (hsq : ∀ k, wm (k + 1) ^ 2 = wm k) (k t : Nat) : wm (k + t) ^ 2 ^ t = wm k := by
  induction t with
  | zero => simp
  | succ t ih => rw [Nat.pow_succ', pow_mul, ← Nat.add_assoc, hsq, ih]

/-- A stage with half-span `H` splits part `b` into the sums of its frequency and those of the frequency `k` above it. -/
theorem fftStage_splits {w : R} {ys : List R} {H k c b r : Nat} (hw : w = W ^ k) (hhalf : W ^ (k * H) = -1) (hr : r < H)
    (hpart : ∀ i < 2 * H, ys[b * (2 * H) + i]? = some (partialDft W xs (2 * H) k c i)) :
    (fftStage (ringArith R) w H ys)[2 * b * H + r]? = some (partialDft W xs H (2 * k) c r) ∧
      (fftStage (ringArith R) w H ys)[(2 * b + 1) * H + r]? = some (partialDft W xs H (2 * k) (k + c) r) := by
  have hhigh := hpart (r + H) (by omega)
  rw [← Nat.add_assoc] at hhigh
  obtain ⟨hsum, hdiff⟩ := fftStage_butterfly (ringArith R) w hr (Nat.mul_mod_left b _) (hpart r (by omega)) hhigh
  rw [show 2 * b * H + r = b * (2 * H) + r by ring, show (2 * b + 1) * H + r = b * (2 * H) + r + H by ring, hsum, hdiff,
    ← partialDft_add, ← partialDft_sub_mul hhalf, ← hw]
  simp [ringArith, mul_right_iterate]

theorem getElem?_fftStages (hsq : ∀ k, wm (k + 1) ^ 2 = wm k) (hhalf : wm 1 = -1) {L t b r : Nat}
    (hlen : xs.length = 2 ^ L) (ht : t ≤ L) (hb : b < 2 ^ t) (hr : r < 2 ^ (L - t)) :
    (fftStages (ringArith R) wm L t xs)[b * 2 ^ (L - t) + r]? =
      some (partialDft (wm L) xs (2 ^ (L - t)) (2 ^ t) (bitRev t b) r) := by
  induction t generalizing b r with
  | zero =>
    obtain rfl : b = 0 := Nat.lt_one_iff.mp hb
    have hlt : r < xs.length := hlen ▸ hr
    simp [fftStages, partialDft, dftTerm, bitRev, hlt]
  | succ t ih =>
    obtain ⟨j, rfl⟩ : ∃ j, L = j + 1 + t := ⟨L - (t + 1), by omega⟩
    have hspan : (2 ^ (j + 1 + t)) >>> (t + 1) = 2 ^ j := by
      rw [Nat.shiftRight_eq_div_pow, Nat.pow_div ht (by decide)]; congr 1; omega
    have hfactor : wm (j + 1) = wm (j + 1 + t) ^ 2 ^ t := (factor_pow hsq (j + 1) t).symm
    have hturn : wm (j + 1 + t) ^ (2 ^ t * 2 ^ j) = -1 := by
      rw [pow_mul, ← hfactor, Nat.add_comm j, factor_pow hsq, hhalf]
    simp only [show j + 1 + t - (t + 1) = j by omega] at hr ⊢
    simp only [Nat.add_sub_cancel, Nat.pow_succ' (n := j)] at ih
    rw [fftStages, hspan, Nat.add_sub_cancel, bitRev, Nat.pow_succ' (n := t)]
    obtain ⟨hsum, hdiff⟩ := fftStage_splits hfactor hturn hr (fun i hi => ih (by omega) (show b / 2 < 2 ^ t by omega) hi)
    rcases Nat.even_or_odd' b with ⟨p, rfl | rfl⟩
    · simpa using hsum
    · have hp : (2 * p + 1) / 2 = p := by omega
      simpa [hp] using hdiff

/-- The network gives the whole Fourier sum of each frequency. -/
theorem getElem?_fftNetwork (hsq : ∀ k, wm (k + 1) ^ 2 = wm k) (hhalf : wm 1 = -1) {L m : Nat} (hlen : xs.length = 2 ^ L)
    (hm : m < 2 ^ L) :
    (fftNetwork (ringArith R) wm L xs)[m]? = some (∑ n ∈ Finset.range (2 ^ L), dftTerm (wm L) xs m n) := by
  have hstages := getElem?_fftStages hsq hhalf hlen (Nat.le_refl L) (bitRev_lt L m) (r := 0) (by simp)
  rw [fftNetwork, getElem?_bitRevPermute _ (by simpa using hlen) hm]
  simpa [partialDft, bitRev_bitRev hm] using hstages

end Network

/-! ### The complex factors -/

/-- The exact factor of ROM entry `k`: the `2^k`-th part of a turn, backward for the forward direction (41 R205). -/
noncomputable def turnPart (fwd : Bool) (k : Nat) : ℂ :=
  Complex.exp ((if fwd then -1 else 1) * (2 * (Real.pi : ℂ) * Complex.I) / 2 ^ k)

theorem turnPart_sq (fwd : Bool) (k : Nat) : turnPart fwd (k + 1) ^ 2 = turnPart fwd k := by
  rw [turnPart, turnPart, ← Complex.exp_nat_mul, pow_succ]
  congr 1
  push_cast
  ring

theorem turnPart_one (fwd : Bool) : turnPart fwd 1 = -1 := by
  have hturn : 2 * (Real.pi : ℂ) * Complex.I / 2 ^ 1 = Real.pi * Complex.I := by ring
  rw [turnPart, mul_div_assoc, hturn]
  cases fwd <;> simp [Complex.exp_neg]

theorem turnPart_pow (fwd : Bool) (L m n : Nat) :
    turnPart fwd L ^ (m * n) =
      Complex.exp ((if fwd then -1 else 1) * (2 * (Real.pi : ℂ) * Complex.I) * ((m : ℂ) * (n : ℂ)) / 2 ^ L) := by
  rw [turnPart, ← Complex.exp_nat_mul]
  congr 1
  push_cast
  ring

/-- Settles O24: the network in a commutative ring, whose factors are the complex roots of unity. -/
theorem networkComputesDft : Obligations.NetworkComputesDft := by
  unfold Obligations.NetworkComputesDft
  intro fwd L xs hlen sgn A wm m hm
  refine (getElem?_fftNetwork (turnPart_sq fwd) (turnPart_one fwd) hlen hm).trans ?_
  simp only [dftTerm, turnPart_pow, sgn]

end Sys2Proof.Machine
end

section
/-! PROOFS. The transform commands (41 R201, R202). -/

namespace Sys2Proof.Machine

open Sys2Proof.Safety

variable {s : State}

theorem length_fftCore {n : Nat} (h : ispow2 n = true) (fwd : Bool) (xs : List Sample) : (fftCore n fwd xs).length = n := by
  cases fwd <;> simp [fftCore, fftNetwork, bitRevPermute, ispow2_log2 h]

theorem exec_fftSetsize_eq (s : State) :
    exec .fftSetsize s = withSize s fun c s => .next ({ s with fftN := c }.finish .ok (BitVec.ofNat 32 c)) := rfl

theorem exec_fftProcess_eq (fwd : Bool) (s : State) :
    exec (.fftProcess fwd) s =
      withLength s.fftN s fun s => .next ((transformBlock s.fftN fwd s).finish .ok 0) := rfl

/-- The transform of the first `n` Samples replaces just those. -/
theorem blkAt_transformBlock {n i : Nat} (h : ispow2 n = true) (fwd : Bool) (hi : i < n) :
    some ((transformBlock n fwd s).blkAt i) = (fftCore n fwd (s.block n))[i]? := by
  have hlt : i < (fftCore n fwd (s.block n)).length := (length_fftCore h fwd _).symm ▸ hi
  rw [transformBlock, State.blkAt_setBlock, List.getElem?_eq_getElem hlt, Option.getD_some]

theorem byteAt_transformBlock_outside {n a : Nat} (h : ispow2 n = true) (fwd : Bool) (ha : 8 * n ≤ a) :
    (transformBlock n fwd s).byteAt .blk a = s.byteAt .blk a :=
  State.byteAt_setBlock_outside s _ a (by rwa [length_fftCore h])

/-- Settles O23: each command is its checks and then its one update, and the transform has as many Samples as it reads. -/
theorem fftCommandsSizeAndTransform : Obligations.FftCommandsSizeAndTransform := by
  unfold Obligations.FftCommandsSizeAndTransform
  refine ⟨rfl, rfl, rfl, fun s => ⟨sizeFailures_of_withSize (exec_fftSetsize_eq s), fun c h => ?setsize⟩,
    fun fwd s => ⟨lengthFailures_of_withLength (exec_fftProcess_eq fwd s), fun hlen hpow => ?process⟩⟩
  case setsize => rw [exec_fftSetsize_eq, withSize_accepted h, finish_eq_ended]
  case process =>
    refine ⟨ended (transformBlock s.fftN fwd s) .ok 0, ?_, fun i hi => blkAt_transformBlock hpow fwd hi,
      fun a ha => byteAt_transformBlock_outside hpow fwd ha, rfl⟩
    rw [exec_fftProcess_eq, withLength_accepted hlen, finish_eq_ended]

end Sys2Proof.Machine
end

section
/-! PROOFS. Canonical NaNs (41 R222): an operation answers `QNAN` or a pattern that is no NaN, since a rounded result and a signed
infinity or zero lie below the NaNs. -/

namespace Sys2Proof.Machine

/-- If the pattern is a NaN, it is `QNAN`. -/
def CanonicalNaN (r : F32) : Prop := F32.isNaN r = true → r = qnan

theorem canonicalNaN_qnan : CanonicalNaN qnan := fun _ => rfl

theorem canonicalNaN_of_not_nan {r : F32} (h : F32.isNaN r = false) : CanonicalNaN r := fun h' => absurd h' (by simp [h])

theorem canonicalNaN_of_inf {r : F32} (h : F32.isInf r = true) : CanonicalNaN r :=
  canonicalNaN_of_not_nan (F32.not_nan_of_inf h).1

theorem canonicalNaN_withSign (neg : Bool) {m : Nat} (h : m ≤ 0x7F800000) : CanonicalNaN (withSign neg m) :=
  canonicalNaN_of_not_nan (isNaN_withSign h)

theorem canonicalNaN_roundInt (q : Nat) (z : Int) : CanonicalNaN (roundInt q z) :=
  canonicalNaN_of_not_nan (isNaN_roundInt q z)

theorem canonicalNaN_fadd (a b : F32) : CanonicalNaN (fadd a b) := by
  simp only [fadd]
  split_ifs with hnan ha hopposite hb hzero
  · exact canonicalNaN_qnan
  · exact canonicalNaN_qnan
  · exact canonicalNaN_of_inf ha
  · exact canonicalNaN_of_inf hb
  · exact canonicalNaN_withSign _ (Nat.zero_le _)
  · exact canonicalNaN_roundInt _ _

theorem canonicalNaN_fmul (a b : F32) : CanonicalNaN (fmul a b) := by
  unfold fmul
  split_ifs
  · exact canonicalNaN_qnan
  · exact canonicalNaN_qnan
  · exact canonicalNaN_withSign _ (Nat.le_refl _)
  · exact canonicalNaN_withSign _ (roundMag_le _ _)

theorem canonicalNaN_roundEnclosed (lo hi : Int) (upper : Bool) : CanonicalNaN (roundEnclosed lo hi upper) := by
  unfold roundEnclosed
  split_ifs <;> exact canonicalNaN_roundInt _ _

theorem canonicalNaN_ln (a : F32) : CanonicalNaN (ln a) := by
  unfold ln
  split_ifs
  · exact canonicalNaN_qnan
  · exact canonicalNaN_of_not_nan (by decide)
  · exact canonicalNaN_qnan
  · exact canonicalNaN_of_not_nan (by decide)
  · exact canonicalNaN_of_not_nan (by decide)
  · exact canonicalNaN_roundEnclosed _ _ _

/-! ### What gives a NaN -/

variable {a b : F32}

theorem fadd_nan (h : F32.isNaN a = true ∨ F32.isNaN b = true) : fadd a b = qnan := if_pos (by simpa using h)

theorem fsub_nan (h : F32.isNaN a = true ∨ F32.isNaN b = true) : fsub a b = qnan := fadd_nan (by simpa using h)

theorem fmul_nan (h : F32.isNaN a = true ∨ F32.isNaN b = true) : fmul a b = qnan := if_pos (by simpa using h)

theorem ln_nan (h : F32.isNaN a = true) : ln a = qnan := if_pos h

theorem F32.not_nan_of_zero (h : F32.isZero b = true) : F32.isNaN b = false := by
  simp only [F32.isZero, Bool.and_eq_true, beq_iff_eq] at h
  simp [F32.isNaN, h]

theorem fmul_inf_zero (ha : F32.isInf a = true) (hb : F32.isZero b = true) : fmul a b = qnan ∧ fmul b a = qnan := by
  simp [fmul, ha, hb, (F32.not_nan_of_inf ha).1, F32.not_nan_of_zero hb]

theorem fsub_inf_self (ha : F32.isInf a = true) : fsub a a = qnan := by
  simp [fsub, fadd, ha, (F32.not_nan_of_inf ha).1]

/-- Settles O27: the operations' own cases, each `QNAN` or below the NaNs. -/
theorem nanResultsAreCanonical : Obligations.NanResultsAreCanonical := by
  unfold Obligations.NanResultsAreCanonical
  refine ⟨fun a b r hr => ?_, fun a b h => ⟨fadd_nan h, fsub_nan h, fmul_nan h⟩, fun a h => ln_nan h,
    fun a b ha hb => fmul_inf_zero ha hb, fun a ha => fsub_inf_self ha⟩
  simp only [List.mem_cons, List.not_mem_nil, or_false] at hr
  rcases hr with rfl | rfl | rfl | rfl
  · exact canonicalNaN_fadd a b
  · exact canonicalNaN_fadd a (fneg b)
  · exact canonicalNaN_fmul a b
  · exact canonicalNaN_ln a

/-! ### Signed zeros (41 R225) -/

theorem fsub_self (h : F32.isNaN a = false) (h' : F32.isInf a = false) : fsub a a = 0x00000000 := by
  rw [fsub_finite h h' h h', Int.sub_self, if_pos rfl, Bool.and_not_self]
  rfl

/-- A product that is no NaN is a sign and 31 bits, an infinity at most. -/
theorem sign_fmul (h : F32.isNaN (fmul a b) = false) : F32.sign (fmul a b) = (F32.sign a != F32.sign b) := by
  have hqnan : F32.isNaN qnan ≠ false := by decide
  unfold fmul at h ⊢
  split_ifs at h ⊢
  · exact absurd h hqnan
  · exact absurd h hqnan
  · exact sign_withSign (by decide)
  · exact sign_withSign (Nat.lt_of_le_of_lt (roundMag_le _ _) (by decide))

/-- Settles O28: an exact zero difference, the sign that a product is built with, and two evaluations of the model. -/
theorem signedZerosFollowIeee : Obligations.SignedZerosFollowIeee := by
  unfold Obligations.SignedZerosFollowIeee
  exact ⟨fun x h h' => fsub_self h h', by decide +kernel, by decide +kernel, fun a b h => sign_fmul h, by decide +kernel⟩

end Sys2Proof.Machine
end

section
/-! PROOFS. The transform of size 1 (41 R210): the network of no stages moves its Sample, and the forward scale is 1.0, by which a
product is exact. -/

namespace Sys2Proof.Machine

/-! ### An exact value rounds to itself -/

theorem roundNearestEven_mul_two_pow (r k : Nat) : roundNearestEven (r * 2 ^ k) k = r := by
  have hdiv : r * 2 ^ k / 2 ^ k = r := Nat.mul_div_cancel r (Nat.two_pow_pos k)
  rw [roundNearestEven_eq, Nat.mul_mod_left, hdiv]
  exact if_neg (by have := Nat.two_pow_pos k; omega)

theorem log2_mul_two_pow {r : Nat} (hr : r ≠ 0) (k : Nat) : (r * 2 ^ k).log2 = r.log2 + k := by
  induction k with
  | zero => simp
  | succ k ih =>
    rw [Nat.pow_succ, ← Nat.mul_assoc, Nat.log2_eq_log_two, Nat.log_mul_base (by decide) (by positivity),
      ← Nat.log2_eq_log_two, ih, Nat.add_assoc]

/-- A significand `r` at the place `u`, where the last place of the exact value is its own. -/
theorem roundMag_exact {q u r : Nat} (hq : 149 ≤ q) (hr : r < 2 ^ 24) (hu : u = 0 ∨ 2 ^ 23 ≤ r)
    (hfin : u * 2 ^ 23 + r ≤ 0x7F800000) : roundMag q (r * 2 ^ (u + (q - 149))) = u * 2 ^ 23 + r := by
  have hplace : lastPlace q (r * 2 ^ (u + (q - 149))) = u := by
    rcases Nat.eq_zero_or_pos r with rfl | hpos
    · simp [lastPlace]; omega
    · have hlog : r.log2 < 24 := (Nat.log2_lt (by omega)).mpr hr
      have hlow : u = 0 ∨ 23 ≤ r.log2 := hu.imp_right fun h => (Nat.le_log2 (by omega)).mpr h
      rw [lastPlace, log2_mul_two_pow (by omega)]
      omega
  rw [roundMag_eq, roundedSignif, hplace, roundNearestEven_mul_two_pow]
  omega

theorem F32.expo_lt_of_finite {x : F32} (hn : F32.isNaN x = false) (hi : F32.isInf x = false) : F32.expo x < 255 := by
  have hlt : F32.expo x < 2 ^ 8 := (x.extractLsb' 23 8).isLt
  have hne : F32.expo x ≠ 255 := fun h => by
    rw [← Bool.not_eq_true, F32.isNaN_iff, not_and_not_right] at hn
    exact Bool.eq_false_iff.mp hi ((F32.isInf_iff x).mpr ⟨h, hn h⟩)
  omega

/-- The place of a pattern's last bit and its significand, hidden bit included, are its lower 31 bits. -/
theorem F32.place_signif (x : F32) :
    (max (F32.expo x) 1 - 1 = 0 ∨ 2 ^ 23 ≤ F32.signif x) ∧
      (max (F32.expo x) 1 - 1) * 2 ^ 23 + F32.signif x = F32.expo x * 2 ^ 23 + F32.frac x := by
  unfold F32.signif
  split <;> omega

/-- The magnitude of a finite pattern rounds to the 31 bits it has. -/
theorem roundMag_mag {q : Nat} (hq : 149 ≤ q) {x : F32} (hn : F32.isNaN x = false) (hi : F32.isInf x = false) :
    roundMag q (F32.mag x * 2 ^ (q - 149)) = F32.expo x * 2 ^ 23 + F32.frac x := by
  have hexpo := F32.expo_lt_of_finite hn hi
  have hfrac := F32.frac_lt x
  obtain ⟨hplace, hbits⟩ := F32.place_signif x
  rw [F32.mag, Nat.mul_assoc, ← Nat.pow_add, roundMag_exact hq (F32.signif_lt x) hplace (by omega), hbits]

/-- A product by 1.0 is exact, but a NaN becomes `QNAN`. -/
theorem fmul_one (x : F32) : fmul x 0x3F800000 = if F32.isNaN x then 0x7FC00000 else x := by
  have hone : F32.isNaN 0x3F800000 = false ∧ F32.isInf 0x3F800000 = false ∧ F32.isZero 0x3F800000 = false ∧
      F32.sign 0x3F800000 = false := by decide
  obtain ⟨hone, hone', hzero, hsign⟩ := hone
  cases hn : F32.isNaN x with
  | true => exact fmul_nan (.inl hn)
  | false =>
    cases hi : F32.isInf x with
    | true =>
      have hx := F32.eq_of_isInf hi
      rw [(fmul_inf hi hone hzero).2, hsign]
      cases hs : F32.sign x <;> rw [hs] at hx <;> exact hx.symm
    | false =>
      have hmag : F32.mag 0x3F800000 = 2 ^ (298 - 149) := by decide +kernel
      rw [fmul_finite hn hi hone hone', Int.natAbs_mul, F32.natAbs_fix, F32.natAbs_fix, hmag,
        roundMag_mag (by decide) hn hi, hsign, Bool.bne_false]
      exact (F32.eq_withSign x).symm

/-! ### The transform -/

theorem fftNetwork_zero {α : Type} (A : Arith α) (wm : Nat → α) (x : α) : fftNetwork A wm 0 [x] = [x] := rfl

/-- Settles O26: with no stages the network moves its Sample, and the forward scale 1.0 keeps all but a NaN. -/
theorem sizeOneTransformIsIdentity : Obligations.SizeOneTransformIsIdentity := by
  unfold Obligations.SizeOneTransformIsIdentity
  intro x
  have hlog : Nat.log2 1 = 0 := rfl
  constructor
  · have hscale : scaleFactor 0 = 0x3F800000 := by decide
    simp only [fftCore, hlog, fftNetwork_zero, hscale, if_true, List.map_cons, List.map_nil, scaleSample, fmul_one]
  · simp [fftCore, hlog, fftNetwork_zero]

end Sys2Proof.Machine
end

section
/-! PROOFS. The symmetry and the ends of a window table (42 R244, R245). An angle is folded into the upper half turn, and so is its
reflection, to one place; at the angle 0 every cosine is 1. -/

namespace Sys2Proof.Machine

variable {n i k : Nat}

/-! ### Folded angles -/

/-- `j` of `d` parts of a turn, folded into the upper half turn. -/
def foldTurn (j d : Nat) : Nat := min (j % d) (d - j % d)

theorem foldTurn_le (j d : Nat) : 2 * foldTurn j d ≤ d := by
  unfold foldTurn; omega

/-- Two angles that make whole turns together fold to one. -/
theorem foldTurn_reflect {a b d : Nat} (hd : d ≠ 0) (h : a + b = d * k) : foldTurn a d = foldTurn b d := by
  have ha := Nat.mod_lt a (Nat.pos_of_ne_zero hd)
  have hb := Nat.mod_lt b (Nat.pos_of_ne_zero hd)
  have hsum : (a % d + b % d) % d = 0 := by rw [← Nat.add_mod, h, Nat.mul_mod_right]
  have hcases : a % d + b % d = 0 ∨ a % d + b % d = d := (Nat.eq_zero_or_pos _).imp_right fun hpos =>
    Nat.eq_of_dvd_of_lt_two_mul hpos.ne' (Nat.dvd_of_mod_eq_zero hsum) (by omega)
  unfold foldTurn
  omega

theorem cosTurn_at_zero (j : Nat) : cosTurn j 0 = 2 ^ encBits := if_pos rfl

theorem cosTurn_eq {j d : Nat} (hd : d ≠ 0) : cosTurn j d = cosSum (2 * foldTurn j d * piFix.toNat / d) 45 := if_neg hd

theorem cosTurn_zero (d : Nat) : cosTurn 0 d = 2 ^ encBits := by
  have hsum : cosSum 0 45 = 2 ^ encBits := by decide +kernel
  rcases eq_or_ne d 0 with rfl | hd
  · exact cosTurn_at_zero 0
  · rw [cosTurn_eq hd, foldTurn, Nat.zero_mod, Nat.zero_min, Nat.mul_zero, Nat.zero_mul, Nat.zero_div, hsum]

theorem cosTurn_reflect {a b d : Nat} (h : a + b = d * k) : cosTurn a d = cosTurn b d := by
  rcases eq_or_ne d 0 with rfl | hd
  · rw [cosTurn_at_zero, cosTurn_at_zero]
  · rw [cosTurn_eq hd, cosTurn_eq hd, foldTurn_reflect hd h]

/-! ### The coefficients -/

theorem wcoefBounds_reflect (h : i < n) : wcoefBounds n i = wcoefBounds n (n - 1 - i) := by
  have h1 : cosTurn i (n - 1) = cosTurn (n - 1 - i) (n - 1) := cosTurn_reflect (k := 1) (by omega)
  have h2 : cosTurn (2 * i) (n - 1) = cosTurn (2 * (n - 1 - i)) (n - 1) := cosTurn_reflect (k := 2) (by omega)
  have h3 : cosTurn (3 * i) (n - 1) = cosTurn (3 * (n - 1 - i)) (n - 1) := cosTurn_reflect (k := 3) (by omega)
  simp only [wcoefBounds, h1, h2, h3]

theorem wcoef_reflect (h : i < n) : wcoef n i = wcoef n (n - 1 - i) := by
  have hmin : min (n - 1 - i) (n - 1 - (n - 1 - i)) = min i (n - 1 - i) := by omega
  rw [wcoef, wcoef, ← wcoefBounds_reflect h, hmin]

theorem roundEnclosed_eq {lo hi : Int} (h : roundInt encBits lo = roundInt encBits hi) (upper : Bool) :
    roundEnclosed lo hi upper = roundInt encBits lo := if_pos h

/-- The coefficient at the angle 0, `RN(0.00006)` (42 R244). -/
theorem wcoef_zero (n : Nat) : wcoef n 0 = 0x387BA882 := by
  have hbounds : wcoefBounds n 0 = wcoefBounds 1 0 := by simp only [wcoefBounds, Nat.mul_zero, cosTurn_zero]
  have hlow : roundInt encBits (wcoefBounds 1 0).1 = 0x387BA882 := by decide +kernel
  have hhigh : roundInt encBits (wcoefBounds 1 0).2 = 0x387BA882 := by decide +kernel
  rw [wcoef, hbounds, roundEnclosed_eq (hlow.trans hhigh.symm), hlow]

theorem wcoef_last (h : 1 ≤ n) : wcoef n (n - 1) = 0x387BA882 := by
  rw [wcoef_reflect (by omega), Nat.sub_self, wcoef_zero]

/-- Settles O30: an angle and its reflection fold to one, and at the angle 0 the enclosure is one constant. -/
theorem windowCoefficientsAreSymmetric : Obligations.WindowCoefficientsAreSymmetric := by
  unfold Obligations.WindowCoefficientsAreSymmetric
  exact ⟨fun n i => wcoef_reflect, wcoef_zero 1, wcoef_zero 2, wcoef_last (n := 2) (by decide),
    fun n h => ⟨wcoef_zero n, wcoef_last h⟩⟩

end Sys2Proof.Machine
end

section
/-! PROOFS. The series of the enclosures (42 R242; log 9): `π` and the cosine. Each alternates, so its sum errs by at most the
first term left out, and by one unit for each term that is rounded down. -/

namespace Sys2Proof.Machine

/-! ### Alternating sums of rounded terms -/

/-- A quotient rounded down errs by at most one unit. -/
theorem abs_natDiv_sub_le (a b : Nat) : |((a / b : Nat) : ℝ) - (a : ℝ) / b| ≤ 1 := by
  have hle : ((a / b : Nat) : ℝ) ≤ (a : ℝ) / b := Nat.cast_div_le
  have hlt : (a : ℝ) / b < (a / b : Nat) + 1 := by
    rw [← Nat.floor_div_eq_div (K := ℝ)]; exact Nat.lt_floor_add_one _
  rw [abs_le]
  constructor <;> linarith

section AlternatingSum

variable {F : Nat → Int} {u : Nat → Nat} {f : Nat → ℝ} {q : Nat}

/-- An integer sum with alternating signs errs by at most one unit per rounded term. -/
theorem abs_roundedSum_sub_le (h0 : F 0 = 0) (hstep : ∀ j, F (j + 1) = if j % 2 = 0 then F j + u j else F j - u j)
    (hterm : ∀ j, |(u j : ℝ) - 2 ^ q * f j| ≤ 1) (k : Nat) :
    |(F k : ℝ) - 2 ^ q * ∑ j ∈ Finset.range k, (-1) ^ j * f j| ≤ k := by
  induction k with
  | zero => simp [h0]
  | succ k ih =>
    have hsigned : (F (k + 1) : ℝ) = F k + (-1) ^ k * u k := by
      rw [hstep]
      rcases Nat.even_or_odd k with h | h
      · rw [if_pos (Nat.even_iff.mp h), h.neg_one_pow]; push_cast; ring
      · rw [if_neg (by rw [Nat.odd_iff.mp h]; decide), h.neg_one_pow]; push_cast; ring
    have hsplit : (F (k + 1) : ℝ) - 2 ^ q * ∑ j ∈ Finset.range (k + 1), (-1) ^ j * f j =
        (F k - 2 ^ q * ∑ j ∈ Finset.range k, (-1) ^ j * f j) + (-1) ^ k * (u k - 2 ^ q * f k) := by
      rw [hsigned, Finset.sum_range_succ]; ring
    have hlast : |(-1) ^ k * ((u k : ℝ) - 2 ^ q * f k)| ≤ 1 := by simpa [abs_mul] using hterm k
    rw [hsplit, Nat.cast_succ]
    exact (abs_add_le _ _).trans (add_le_add ih hlast)

/-- Against the whole series it errs by the rest of the series as well. -/
theorem abs_roundedSeries_sub_le {x e : ℝ} {k : Nat} (h0 : F 0 = 0)
    (hstep : ∀ j, F (j + 1) = if j % 2 = 0 then F j + u j else F j - u j) (hterm : ∀ j, |(u j : ℝ) - 2 ^ q * f j| ≤ 1)
    (hseries : |x - ∑ j ∈ Finset.range k, (-1) ^ j * f j| ≤ e) : |(F k : ℝ) - 2 ^ q * x| ≤ k + 2 ^ q * e := by
  have hscaled : |(2 : ℝ) ^ q * ∑ j ∈ Finset.range k, (-1) ^ j * f j - 2 ^ q * x| ≤ 2 ^ q * e := by
    rw [← mul_sub, abs_mul, abs_sub_comm, abs_of_pos (by positivity)]
    exact mul_le_mul_of_nonneg_left hseries (by positivity)
  exact (abs_sub_le _ _ _).trans (add_le_add (abs_roundedSum_sub_le h0 hstep hterm k) hscaled)

end AlternatingSum

/-! ### `π` -/

theorem arctan_series {y : ℝ} (h0 : 0 ≤ y) (h1 : y < 1) (k : Nat) :
    |Real.arctan y - ∑ j ∈ Finset.range k, (-1) ^ j * (y ^ (2 * j + 1) / (2 * j + 1 : Nat))| ≤
      y ^ (2 * k + 1) / (2 * k + 1 : Nat) := by
  have hsum := Real.hasSum_arctan (x := y) (by rwa [Real.norm_of_nonneg h0])
  simp only [mul_div_assoc] at hsum
  have hsummable : Summable fun j : Nat => y ^ (2 * j + 1) / ((2 * j + 1 : Nat) : ℝ) := by
    refine hsum.summable.norm.congr fun j => ?_
    rw [norm_mul, norm_pow, norm_neg, norm_one, one_pow, one_mul, Real.norm_of_nonneg (by positivity)]
  have hanti : Antitone fun j : Nat => y ^ (2 * j + 1) / ((2 * j + 1 : Nat) : ℝ) := fun i j hij =>
    div_le_div₀ (by positivity) (pow_le_pow_of_le_one h0 h1.le (by omega)) (by positivity) (by gcongr)
  have := alternating_series_error_bound _ hanti hsummable k
  rwa [hsum.tsum_eq] at this

theorem abs_arctanSum_sub_le {x : Nat} (hx : 1 < x) (k : Nat) :
    |(arctanSum x k : ℝ) - 2 ^ encBits * Real.arctan (x : ℝ)⁻¹| ≤
      k + 2 ^ encBits * ((x : ℝ)⁻¹ ^ (2 * k + 1) / (2 * k + 1 : Nat)) := by
  have hx' : (1 : ℝ) < x := by exact_mod_cast hx
  refine abs_roundedSeries_sub_le (F := arctanSum x)
    (u := fun j => 2 ^ encBits / ((2 * j + 1) * x ^ (2 * j + 1))) rfl (fun j => rfl) (fun j => ?_)
    (arctan_series (by positivity) (inv_lt_one_of_one_lt₀ hx') k)
  have hterm : (2 : ℝ) ^ encBits * ((x : ℝ)⁻¹ ^ (2 * j + 1) / (2 * j + 1 : Nat)) =
      (2 ^ encBits : Nat) / ((2 * j + 1) * x ^ (2 * j + 1) : Nat) := by
    push_cast
    rw [inv_pow]
    field_simp
  rw [hterm]
  exact abs_natDiv_sub_le _ _

theorem piFix_nonneg : 0 ≤ piFix := by decide +kernel

/-- Machin's formula in units of 2^-160. -/
theorem abs_piFix_sub_le : |(piFix : ℝ) - 2 ^ encBits * Real.pi| ≤ 708 := by
  have h5 := abs_arctanSum_sub_le (x := 5) (by decide) 40
  have h239 := abs_arctanSum_sub_le (x := 239) (by decide) 12
  have hmachin := Real.four_mul_arctan_inv_5_sub_arctan_inv_239
  have htail5 : (2 : ℝ) ^ encBits * ((5 : Nat) : ℝ)⁻¹ ^ (2 * 40 + 1) / (2 * 40 + 1 : Nat) ≤ 1 := by norm_num [encBits]
  have htail239 : (2 : ℝ) ^ encBits * ((239 : Nat) : ℝ)⁻¹ ^ (2 * 12 + 1) / (2 * 12 + 1 : Nat) ≤ 1 := by norm_num [encBits]
  rw [← mul_div_assoc] at h5 h239
  have hpi : Real.pi = 4 * (4 * Real.arctan (5 : Nat)⁻¹ - Real.arctan (239 : Nat)⁻¹) := by
    push_cast; linarith
  rw [abs_le] at h5 h239 ⊢
  rw [hpi, piFix]
  push_cast at *
  constructor <;> linarith

/-! ### Cosines -/

/-- The terms of the cosine's series fall from the second on. -/
theorem cos_term_succ_le {y : ℝ} (h : y ^ 2 ≤ 12) (j : Nat) :
    y ^ (2 * (j + 1 + 1)) / (2 * (j + 1 + 1)).factorial ≤ y ^ (2 * (j + 1)) / (2 * (j + 1)).factorial := by
  have hfac : ((2 * (j + 1 + 1)).factorial : ℝ) = (2 * j + 4) * (2 * j + 3) * (2 * (j + 1)).factorial := by
    rw [show 2 * (j + 1 + 1) = 2 * (j + 1) + 1 + 1 by ring, Nat.factorial_succ, Nat.factorial_succ]
    push_cast
    ring
  have hden : y ^ 2 ≤ (2 * j + 4) * (2 * j + 3) := by
    have : (0 : ℝ) ≤ j := j.cast_nonneg
    nlinarith
  have hpow : 0 ≤ y ^ (2 * (j + 1)) := by rw [pow_mul]; positivity
  rw [hfac, show 2 * (j + 1 + 1) = 2 + 2 * (j + 1) by ring, pow_add, mul_div_mul_comm]
  exact mul_le_of_le_one_left (by positivity) (div_le_one_of_le₀ hden (by positivity))

theorem cos_series {y : ℝ} (h : y ^ 2 ≤ 12) (k : Nat) :
    |Real.cos y - ∑ j ∈ Finset.range (k + 1), (-1) ^ j * (y ^ (2 * j) / (2 * j).factorial)| ≤
      y ^ (2 * (k + 1)) / (2 * (k + 1)).factorial := by
  have hsum := Real.hasSum_cos y
  simp only [mul_div_assoc] at hsum
  -- the series without its first term alternates, with the opposite signs
  have hrest : HasSum (fun j : Nat => (-1) ^ j * (y ^ (2 * (j + 1)) / ((2 * (j + 1)).factorial : ℝ))) (1 - Real.cos y) := by
    have := ((hasSum_nat_add_iff' 1).mpr hsum).neg
    simpa [pow_succ] using this
  have hsummable : Summable fun j : Nat => y ^ (2 * (j + 1)) / ((2 * (j + 1)).factorial : ℝ) :=
    hrest.summable.norm.congr fun j => by
      have hpow : 0 ≤ y ^ (2 * (j + 1)) := by rw [pow_mul]; positivity
      rw [norm_mul, norm_pow, norm_neg, norm_one, one_pow, one_mul, Real.norm_of_nonneg (by positivity)]
  have hbound := alternating_series_error_bound _ (antitone_nat_of_succ_le (cos_term_succ_le h)) hsummable k
  have hfirst : ∑ j ∈ Finset.range (k + 1), (-1) ^ j * (y ^ (2 * j) / ((2 * j).factorial : ℝ)) =
      1 - ∑ j ∈ Finset.range k, (-1) ^ j * (y ^ (2 * (j + 1)) / ((2 * (j + 1)).factorial : ℝ)) := by
    rw [Finset.sum_range_succ', sub_eq_neg_add, ← Finset.sum_neg_distrib]
    simp [pow_succ]
  rw [hrest.tsum_eq] at hbound
  rwa [hfirst, abs_sub_comm, sub_right_comm]

theorem abs_cosSum_sub_le {t : Nat} (h : ((t : ℝ) / 2 ^ encBits) ^ 2 ≤ 12) :
    |(cosSum t 45 : ℝ) - 2 ^ encBits * Real.cos (t / 2 ^ encBits)| ≤ 46 := by
  have hterm : ∀ j : Nat, (2 : ℝ) ^ encBits * (((t : ℝ) / 2 ^ encBits) ^ (2 * j) / (2 * j).factorial) =
      (2 ^ encBits * t ^ (2 * j) : Nat) / (2 ^ (2 * j * encBits) * (2 * j).factorial : Nat) := fun j => by
    rw [div_pow, ← pow_mul, mul_comm encBits]
    push_cast
    rw [div_div, mul_div_assoc]
  have hsum := abs_roundedSeries_sub_le (F := cosSum t)
    (u := fun j => 2 ^ encBits * t ^ (2 * j) / (2 ^ (2 * j * encBits) * (2 * j).factorial)) rfl (fun j => rfl)
    (fun j => by rw [hterm]; exact abs_natDiv_sub_le _ _) (cos_series h 44)
  have htail : (2 : ℝ) ^ encBits * (((t : ℝ) / 2 ^ encBits) ^ (2 * (44 + 1)) / (2 * (44 + 1)).factorial) ≤ 1 := by
    have hpow : ((t : ℝ) / 2 ^ encBits) ^ (2 * (44 + 1)) ≤ 12 ^ 45 := by
      rw [pow_mul]; exact pow_le_pow_left₀ (by positivity) h 45
    calc _ ≤ (2 : ℝ) ^ encBits * (12 ^ 45 / (2 * (44 + 1)).factorial) := by gcongr
      _ ≤ 1 := by norm_num [encBits, Nat.factorial]
  refine hsum.trans ?_
  push_cast at htail ⊢
  linarith

end Sys2Proof.Machine
end

section
/-! PROOFS. The enclosure of a window coefficient holds the exact value (42 R242; log 9). The angle carries the error of `π` into
the cosine, which changes no faster than its angle; and the exact value stays between that at the angle 0 and 1, away from 0 and
from the infinities. -/

namespace Sys2Proof.Machine

/-! ### The cosine of an angle -/

theorem cos_foldTurn (j : Nat) {d : Nat} (hd : d ≠ 0) :
    Real.cos (2 * Real.pi * foldTurn j d / d) = Real.cos (2 * Real.pi * j / d) := by
  have hd' : (d : ℝ) ≠ 0 := by exact_mod_cast hd
  have hturns : 2 * Real.pi * j / d = 2 * Real.pi * (j % d : Nat) / d + (j / d : Nat) * (2 * Real.pi) := by
    have hj : (j : ℝ) = d * (j / d : Nat) + (j % d : Nat) := by exact_mod_cast (Nat.div_add_mod j d).symm
    rw [hj]
    field_simp
    ring
  rw [hturns, Real.cos_add_nat_mul_two_pi, foldTurn]
  rcases min_choice (j % d) (d - j % d) with h | h <;> rw [h]
  have hback : 2 * Real.pi * (d - j % d : Nat) / d = 2 * Real.pi - 2 * Real.pi * (j % d : Nat) / d := by
    rw [Nat.cast_sub (Nat.mod_lt j (Nat.pos_of_ne_zero hd)).le]
    field_simp
  rw [hback, Real.cos_two_pi_sub]

/-- A folded angle in units of 2^-160, rounded down, with the error of `π` in it. -/
theorem abs_angle_sub_le {m d : Nat} (hd : d ≠ 0) (hm : 2 * m ≤ d) :
    |((2 * m * piFix.toNat / d : Nat) : ℝ) - 2 ^ encBits * (2 * Real.pi * m / d)| ≤ 709 := by
  have hpi := abs_piFix_sub_le
  have hd' : (0 : ℝ) < d := by exact_mod_cast Nat.pos_of_ne_zero hd
  have hnat : (piFix.toNat : ℝ) = piFix := by exact_mod_cast Int.toNat_of_nonneg piFix_nonneg
  have hround := abs_natDiv_sub_le (2 * m * piFix.toNat) d
  have hfrac : ((2 * m : Nat) : ℝ) / d ≤ 1 := div_le_one_of_le₀ (by exact_mod_cast hm) hd'.le
  have hscaled : |((2 * m * piFix.toNat : Nat) : ℝ) / d - 2 ^ encBits * (2 * Real.pi * m / d)| ≤ 708 := by
    have hfactor : ((2 * m * piFix.toNat : Nat) : ℝ) / d - 2 ^ encBits * (2 * Real.pi * m / d) =
        ((2 * m : Nat) : ℝ) / d * (piFix - 2 ^ encBits * Real.pi) := by
      push_cast
      rw [hnat]
      ring
    rw [hfactor, abs_mul, abs_of_nonneg (by positivity)]
    exact (mul_le_of_le_one_left (abs_nonneg _) hfrac).trans hpi
  linarith [abs_sub_le ((2 * m * piFix.toNat / d : Nat) : ℝ) (((2 * m * piFix.toNat : Nat) : ℝ) / d)
    (2 ^ encBits * (2 * Real.pi * m / d))]

theorem angle_le_pi {m d : Nat} (hm : 2 * m ≤ d) : 2 * Real.pi * m / d ≤ Real.pi := by
  have hm' : (2 : ℝ) * m ≤ d := by exact_mod_cast hm
  exact div_le_of_le_mul₀ d.cast_nonneg Real.pi_pos.le (by nlinarith [Real.pi_pos])

theorem abs_cosTurn_sub_le (j d : Nat) :
    |(cosTurn j d : ℝ) - 2 ^ encBits * Real.cos (2 * Real.pi * j / d)| ≤ cosSlack := by
  rcases eq_or_ne d 0 with rfl | hd
  · simp [cosTurn_at_zero]
  · rw [cosTurn_eq hd, ← cos_foldTurn j hd]
    generalize hm : foldTurn j d = m
    have hle : 2 * m ≤ d := hm ▸ foldTurn_le j d
    have hangle := abs_angle_sub_le hd hle
    have hα := angle_le_pi hle
    generalize 2 * m * piFix.toNat / d = t at hangle
    generalize 2 * Real.pi * m / d = α at hangle hα ⊢
    have hunits : (0 : ℝ) < 2 ^ encBits := by positivity
    have hnear : 2 ^ encBits * |(t : ℝ) / 2 ^ encBits - α| ≤ 709 := by
      rw [← abs_of_pos hunits, ← abs_mul, abs_of_pos hunits, mul_sub, mul_div_cancel₀ _ hunits.ne']
      exact hangle
    have hsq : ((t : ℝ) / 2 ^ encBits) ^ 2 ≤ 12 := by
      have hwide : (t : ℝ) / 2 ^ encBits - α ≤ 0.1 := by
        refine (le_abs_self _).trans (le_of_mul_le_mul_left (hnear.trans ?_) hunits)
        norm_num [encBits]
      exact (pow_le_pow_left₀ (by positivity) (b := 3.25) (by linarith [Real.pi_lt_d2]) 2).trans (by norm_num)
    have hsum := abs_cosSum_sub_le hsq
    have hcos : |(2 : ℝ) ^ encBits * Real.cos (t / 2 ^ encBits) - 2 ^ encBits * Real.cos α| ≤ 709 := by
      rw [← mul_sub, abs_mul, abs_of_pos hunits]
      exact (mul_le_mul_of_nonneg_left (Real.abs_cos_sub_cos_le _ _) hunits.le).trans hnear
    have := (abs_sub_le _ _ _).trans (add_le_add hsum hcos)
    exact this.trans (by norm_num [cosSlack])

/-! ### The window coefficient -/

/-- The exact value of 42 R242 at an angle. -/
noncomputable def blackmanHarris (θ : ℝ) : ℝ :=
  0.35875 - 0.48829 * Real.cos θ + 0.14128 * Real.cos (2 * θ) - 0.01168 * Real.cos (3 * θ)

/-- The exact value lies between its value at the angle 0 and 1. -/
theorem blackmanHarris_bounds (θ : ℝ) : 0.00006 ≤ blackmanHarris θ ∧ blackmanHarris θ ≤ 1 := by
  have h1 := Real.neg_one_le_cos θ
  have h1' := Real.cos_le_one θ
  constructor
  · rw [blackmanHarris, Real.cos_two_mul, Real.cos_three_mul]
    generalize Real.cos θ = c at *
    have hfactor : 0 ≤ (1 - c) * (0.21741 - 0.23584 * c + 0.04672 * c ^ 2) :=
      mul_nonneg (by linarith) (by nlinarith)
    linarith
  · have h2 := Real.cos_le_one (2 * θ)
    have h3 := Real.neg_one_le_cos (3 * θ)
    rw [blackmanHarris]
    linarith

theorem wcoefBounds_enclose (n i : Nat) :
    ((wcoefBounds n i).1 : ℝ) ≤ 2 ^ encBits * blackmanHarris (2 * Real.pi * i / (n - 1 : Nat)) ∧
      2 ^ encBits * blackmanHarris (2 * Real.pi * i / (n - 1 : Nat)) ≤ (wcoefBounds n i).2 := by
  have h1 := abs_cosTurn_sub_le i (n - 1)
  have h2 := abs_cosTurn_sub_le (2 * i) (n - 1)
  have h3 := abs_cosTurn_sub_le (3 * i) (n - 1)
  have hmul : ∀ k : Nat, 2 * Real.pi * (k * i : Nat) / (n - 1 : Nat) = k * (2 * Real.pi * i / (n - 1 : Nat)) := fun k => by
    push_cast; ring
  rw [hmul] at h2 h3
  rw [abs_le] at h1 h2 h3
  rw [blackmanHarris]
  simp only [wcoefBounds]
  generalize cosTurn i (n - 1) = c1 at *
  generalize cosTurn (2 * i) (n - 1) = c2 at *
  generalize cosTurn (3 * i) (n - 1) = c3 at *
  generalize hv : (35875 * 2 ^ encBits - 48829 * c1 + 14128 * c2 - 1168 * c3 : Int) = v
  generalize hs : ((48829 + 14128 + 1168) * cosSlack : Int) = slack
  have hlow : (v - slack) / 10 ^ 5 * 10 ^ 5 ≤ v - slack := Int.ediv_mul_le _ (by decide)
  have hhigh : v + slack ≤ ((v + slack) / 10 ^ 5 + 1) * 10 ^ 5 := (Int.lt_ediv_add_one_mul_self _ (by decide)).le
  generalize (v - slack) / 10 ^ 5 = lo at *
  generalize (v + slack) / 10 ^ 5 + 1 = hi at *
  rify at hv hs hlow hhigh
  constructor <;> linarith

theorem wcoefBounds_width (n i : Nat) : (wcoefBounds n i).2 ≤ (wcoefBounds n i).1 + 1316 := by
  simp only [wcoefBounds, cosSlack]
  omega

theorem wcoefBounds_positive (n i : Nat) :
    0 < (wcoefBounds n i).1 ∧ (wcoefBounds n i).1 ≤ 2 ^ encBits ∧ 0 < (wcoefBounds n i).2 := by
  obtain ⟨hlow, hhigh⟩ := wcoefBounds_enclose n i
  obtain ⟨hleast, hgreatest⟩ := blackmanHarris_bounds (2 * Real.pi * i / (n - 1 : Nat))
  have hwidth := wcoefBounds_width n i
  have hunits : (0 : ℝ) ≤ 2 ^ encBits := by positivity
  have hfar : (1316 : ℝ) < (wcoefBounds n i).2 :=
    calc (1316 : ℝ) < 2 ^ encBits * 0.00006 := by norm_num [encBits]
      _ ≤ _ := mul_le_mul_of_nonneg_left hleast hunits
      _ ≤ _ := hhigh
  have hone : ((wcoefBounds n i).1 : ℝ) ≤ 2 ^ encBits := hlow.trans (mul_le_of_le_one_right hunits hgreatest)
  have hfar' : 1316 < (wcoefBounds n i).2 := by exact_mod_cast hfar
  exact ⟨by omega, by exact_mod_cast hone, by omega⟩

theorem wcoef_nearest {n i : Nat}
    (hround : roundInt encBits (wcoefBounds n i).1 = roundInt encBits (wcoefBounds n i).2) (y : F32) :
    |(F32.fix (wcoef n i) : ℝ) / 2 ^ 149 - blackmanHarris (2 * Real.pi * i / (n - 1 : Nat))| ≤
      |(F32.fix y : ℝ) / 2 ^ 149 - blackmanHarris (2 * Real.pi * i / (n - 1 : Nat))| := by
  obtain ⟨hlow, hhigh⟩ := wcoefBounds_enclose n i
  obtain ⟨hpos, hle, hpos'⟩ := wcoefBounds_positive n i
  have hcoef : wcoef n i = roundInt encBits (wcoefBounds n i).1 := roundEnclosed_eq hround _
  have hfinite : F32.isInf (roundInt encBits (wcoefBounds n i).1) = false := by
    rw [← Bool.not_eq_true, isInf_roundInt (by decide) hpos.ne']
    simp only [encBits] at hle ⊢
    omega
  rw [hcoef]
  exact nearest_of_enclosed (by decide) hpos.ne' hpos'.ne' hlow hhigh rfl hround.symm hfinite y

/-- The angle of 42 R242; a table of size 1 has only the angle 0 (42 R244). -/
theorem window_angle {n i : Nat} (h : i < n) :
    (if n = 1 then 0 else 2 * Real.pi * i / (n - 1)) = 2 * Real.pi * i / (n - 1 : Nat) := by
  rw [Nat.cast_pred (by omega)]
  split
  · subst n; simp
  · rfl

/-- Settles O31: the enclosure holds the exact value, and a pattern to which both its ends round is nearest. -/
theorem windowCoefficientIsNearest : Obligations.WindowCoefficientIsNearest := by
  unfold Obligations.WindowCoefficientIsNearest
  intro n i h
  rw [window_angle h]
  obtain ⟨hlow, hhigh⟩ := wcoefBounds_enclose n i
  exact ⟨hlow, hhigh, fun hround y _ _ => wcoef_nearest hround y⟩

end Sys2Proof.Machine
end

section
/-! PROOFS. The window commands (42 R241, R246). The coefficients computed so far are a function of their number, and each
transition adds one. -/

namespace Sys2Proof.Machine

open Sys2Proof.Safety

variable {s : State} {c k m : Nat}

/-! ### The window product (42 R246) -/

theorem exec_winProcess_eq (s : State) :
    exec .winProcess s = withLength s.winN s fun s => .next ((windowBlock s.winN s).finish .ok 0) := rfl

theorem blkAt_windowBlock {n i : Nat} (hi : i < n) :
    (windowBlock n s).blkAt i = ⟨fmul (s.blkAt i).re (s.winAt i), fmul (s.blkAt i).im (s.winAt i)⟩ := by
  simp [windowBlock, hi, scaleSample]

theorem byteAt_windowBlock_outside {n a : Nat} (ha : 8 * n ≤ a) :
    (windowBlock n s).byteAt .blk a = s.byteAt .blk a :=
  State.byteAt_setBlock_outside s _ a (by simpa using ha)

/-- Settles O33: the command is its checks and then the product of the block, which has as many Samples as it reads. -/
theorem winProcessMultipliesBlock : Obligations.WinProcessMultipliesBlock := by
  unfold Obligations.WinProcessMultipliesBlock
  refine ⟨rfl, fun s => ⟨lengthFailures_of_withLength (exec_winProcess_eq s), fun hlen => ?_⟩⟩
  refine ⟨ended (windowBlock s.winN s) .ok 0, ?_, fun i hi => blkAt_windowBlock hi,
    fun a ha => byteAt_windowBlock_outside ha, rfl⟩
  rw [exec_winProcess_eq, withLength_accepted hlen, finish_eq_ended]

/-! ### The coefficients computed so far -/

/-- The state once the first `k` coefficients of size `c` are in `WIN`. -/
def filled (c : Nat) : Nat → State → State
  | 0, s => s
  | k + 1, s => fillWindow c k (filled c k s)

/-- Only `WIN` is written. -/
theorem filled_eq (c k : Nat) (s : State) : filled c k s = { s with win := (filled c k s).win } := by
  induction k with
  | zero => rfl
  | succ k ih => rw [filled, ih]; rfl

theorem winAt_fillWindow_same (c i : Nat) (s : State) : (fillWindow c i s).winAt i = wcoef c i := by simp [fillWindow]

theorem byteAt_fillWindow_outside {i a : Nat} (ha : a < 4 * i ∨ 4 * i + 4 ≤ a) :
    (fillWindow c i s).byteAt .win a = s.byteAt .win a := by
  rw [State.byteAt_of_write (s := s) (t := fillWindow c i s) (id := .win) (a := 4 * i) (bs := bytesOfWord (wcoef c i)) rfl rfl,
    if_neg (by rw [length_bytesOfWord]; omega)]

theorem winAt_filled (c : Nat) (s : State) {i : Nat} (hi : i < k) : (filled c k s).winAt i = wcoef c i := by
  induction k with
  | zero => omega
  | succ k ih =>
    rw [filled, fillWindow, State.winAt_setWin]
    split
    · subst i; rfl
    · exact ih (by omega)

theorem byteAt_filled_outside (c : Nat) (s : State) {a : Nat} (ha : 4 * k ≤ a) :
    (filled c k s).byteAt .win a = s.byteAt .win a := by
  induction k with
  | zero => rfl
  | succ k ih => rw [filled, byteAt_fillWindow_outside (by omega), ih (by omega)]

/-- The state of a command that computes the table of size `c`, before the transition for coefficient `k`. -/
def filling (c k : Nat) (s : State) : State := { filled c k s with cmdPhase := .winFill c k }

/-- A command that computes one coefficient per transition fills the table from `k` on. -/
theorem execTimes_filling {i : Instr}
    (hfill : ∀ t : State, ∀ k, t.cmdPhase = .winFill c k → k < c →
      exec i t = .next { fillWindow c k t with cmdPhase := .winFill c (k + 1) })
    (n : Nat) (hk : k + m ≤ c) :
    execTimes i (m + n) (filling c k s) = execTimes i n (filling c (k + m) s) := by
  induction m generalizing k with
  | zero => rw [Nat.zero_add, Nat.add_zero]
  | succ m ih =>
    have hnext : exec i (filling c k s) = .next (filling c (k + 1) s) := hfill _ k rfl (by omega)
    rw [Nat.succ_add, execTimes, hnext, andThen_next, ih (by omega), Nat.add_right_comm, Nat.add_assoc]

/-! ### `WIN_SETSIZE` (42 R241) -/

theorem exec_winSetsize_start (hp : s.cmdPhase = .start) :
    exec .winSetsize s = withSize s fun c s => .next { s with cmdPhase := .winFill c 0 } := by
  simp only [exec, execWinSetsize, hp]

theorem exec_winSetsize_fill (hp : s.cmdPhase = .winFill c k) (hk : k < c) :
    exec .winSetsize s = .next { fillWindow c k s with cmdPhase := .winFill c (k + 1) } := by
  simp only [exec, execWinSetsize, hp]
  exact windowStep_eq_next.mpr (.inl ⟨hk, rfl⟩)

theorem exec_winSetsize_last (hp : s.cmdPhase = .winFill c k) (hk : c ≤ k) :
    exec .winSetsize s = .next (ended { s with winN := c } .ok (BitVec.ofNat 32 c)) := by
  simp only [exec, execWinSetsize, hp]
  exact windowStep_eq_next.mpr (.inr ⟨hk, rfl⟩)

theorem execTimes_winSetsize (hp : s.cmdPhase = .start) (h : SizeAccepted s c) :
    execTimes .winSetsize (c + 2) s = .next (ended { filled c c s with winN := c } .ok (BitVec.ofNat 32 c)) := by
  have hfirst : exec .winSetsize s = .next (filling c 0 s) := by
    rw [exec_winSetsize_start hp, withSize_accepted h, filling, filled]
  have hfill := execTimes_filling (s := s) (fun _ _ => exec_winSetsize_fill) 1 (Nat.le_of_eq (Nat.zero_add c))
  rw [execTimes, hfirst, andThen_next, hfill, Nat.zero_add, execTimes, exec_winSetsize_last rfl (Nat.le_refl c)]
  rfl

/-- Settles O32: the transitions one by one, and their run by induction on the coefficients computed. -/
theorem winSetsizeComputesTable : Obligations.WinSetsizeComputesTable := by
  unfold Obligations.WinSetsizeComputesTable
  refine ⟨rfl, fun s hp => ⟨sizeFailures_of_withSize (exec_winSetsize_start hp), fun c h => ⟨?first, ?run⟩⟩,
    fun s c i hp => ⟨fun hi => ?fill, fun hi => exec_winSetsize_last hp hi⟩⟩
  case first => rw [exec_winSetsize_start hp, withSize_accepted h]
  case run =>
    refine ⟨_, execTimes_winSetsize hp h, fun i hi => winAt_filled c s hi,
      fun a ha => byteAt_filled_outside c s ha,
      congrArg (fun u : State => ended { u with winN := c } .ok (BitVec.ofNat 32 c)) (filled_eq c c s)⟩
  case fill =>
    exact ⟨_, exec_winSetsize_fill hp hi, winAt_fillWindow_same c i s, fun a ha => byteAt_fillWindow_outside ha, rfl⟩

end Sys2Proof.Machine
end

section
/-! PROOFS. What ties the engine paths, the lifecycle and the snapshot lock together is kept by every elementary transition, hence by
every step (43 R270, R273, R275, R300, R310, R313). The invariant reads a few fields only; a command ends from a phase in which
nothing is held, and the tick path moves in stages in which no `LOGPOW` runs. -/

namespace Sys2Proof.Machine

open Sys2Proof.Safety

variable {s t : State} {i : Instr}

/-! ### The fields the invariant reads -/

/-- The command in progress and the initialisation. -/
def State.progressView (s : State) : CmdPhase × Bool × Bool × Word := (s.cmdPhase, s.busy, s.initBusy, s.curWord)

/-- All the fields `Sequencer` reads. -/
def State.sequencerView (s : State) : (CmdPhase × Bool × Bool × Word) × Bool × Bool × TickStage × Bool × Bool × LockOwner :=
  (s.progressView, s.opened, s.closing, s.tickStage, s.tickByCmd, s.tickPending, s.lockOwner)

theorem sequencer_congr (h : Sequencer s) (hv : t.sequencerView = s.sequencerView) : Sequencer t := by
  simp only [State.sequencerView, State.progressView, Prod.mk.injEq] at hv
  obtain ⟨⟨hphase, hbusy, hinit, hword⟩, hopen, hclosing, hstage, hby, hpending, hlock⟩ := hv
  constructor
  case begun => rw [hphase, hbusy, hinit]; exact h.begun
  case initial => rw [hinit, hbusy, hopen, hstage]; exact h.initial
  case filling => rw [hphase, hword, hopen]; exact h.filling
  case logging => rw [hphase, hword, hopen, hstage]; exact h.logging
  case ticking => rw [hphase, hword, hopen]; exact h.ticking
  case leaving => rw [hphase, hword, hopen]; exact h.leaving
  case closing => rw [hclosing, hphase]; exact h.closing
  case byCommand => rw [hby, hphase]; exact h.byCommand
  case running => rw [hstage, hopen, hphase]; exact h.running
  case pending => rw [hpending, hopen, hclosing]; exact h.pending
  case lock => rw [hlock, hstage, hphase]; exact h.lock

theorem settleBeats_sequencerView (s : State) : (settleBeats s).sequencerView = s.sequencerView := by
  obtain ⟨a, g, w, q, c, h⟩ := settleBeats_frame s
  rw [h]; rfl

/-- An operation under the freeze keeps the invariant if it does in every state that agrees on what the invariant reads. -/
theorem sequencer_freezeTo {body : State → State} (h : Sequencer s) (hf : FreezeTo s body t)
    (hbody : ∀ u, Sequencer u → u.sequencerView = s.sequencerView → Sequencer (body u)) : Sequencer t := by
  obtain ⟨-, rfl⟩ | ⟨-, rfl⟩ := hf
  · have hv := settleBeats_sequencerView s
    exact hbody _ (sequencer_congr h hv) hv
  · exact sequencer_congr (hbody s h rfl) rfl

/-! ### What a command holds -/

/-- The initialisation is over, and no command holds the lock, has a tick of its own or closes the engine. -/
structure Unheld (s : State) : Prop where
  begun : s.initBusy = false
  closing : s.closing = false
  byCommand : s.tickByCmd = false
  running : s.tickStage ≠ .idle → s.opened = true
  pending : s.tickPending = true → s.opened = true
  lock : s.lockOwner = .engine ↔ tickHoldsLock s.tickStage = true

theorem commandHoldsLock_iff {p : CmdPhase} : commandHoldsLock p = true ↔ ∃ k, p = .logFill k := by
  cases p <;> simp [commandHoldsLock]

theorem unheld_of_phase (h : Sequencer s) (hi : s.initBusy = false) (hlog : ∀ k, s.cmdPhase ≠ .logFill k)
    (htick : s.cmdPhase ≠ .tickWait) (hclose : s.cmdPhase ≠ .closeWait) : Unheld s where
  begun := hi
  closing := h.closing.trans (decide_eq_false hclose)
  byCommand := h.byCommand.trans (decide_eq_false htick)
  running ht := (h.running ht).resolve_right htick
  pending hp := (h.pending hp).1
  lock := by
    have hfree : ¬ commandHoldsLock s.cmdPhase = true := fun hc => (commandHoldsLock_iff.mp hc).elim hlog
    rw [h.lock, or_iff_left hfree]

theorem unheld_of_start (h : Sequencer s) (hi : s.initBusy = false) (hp : s.cmdPhase = .start) : Unheld s :=
  unheld_of_phase h hi (by simp [hp]) (by simp [hp]) (by simp [hp])

theorem phase_ne_logFill (h : Sequencer s) (hd : decodeWord s.curWord ≠ .ok .logpow) (k : Nat) :
    s.cmdPhase ≠ .logFill k := fun hp => hd (h.logging k hp).1

theorem phase_ne_tickWait (h : Sequencer s) (hd : decodeWord s.curWord ≠ .ok .tickOnce) : s.cmdPhase ≠ .tickWait :=
  fun hp => hd (h.ticking hp).1

theorem phase_ne_closeWait (h : Sequencer s) (hd : decodeWord s.curWord ≠ .ok .closeEng) : s.cmdPhase ≠ .closeWait :=
  fun hp => hd (h.leaving hp).1

/-- The word of a command other than the three that hold something says that nothing is held. -/
theorem unheld_of_word (h : Sequencer s) (hi : s.initBusy = false) (hd : decodeWord s.curWord = .ok i)
    (hlog : i ≠ .logpow) (htick : i ≠ .tickOnce) (hclose : i ≠ .closeEng) : Unheld s :=
  unheld_of_phase h hi (phase_ne_logFill h (by simpa [hd] using hlog)) (phase_ne_tickWait h (by simpa [hd] using htick))
    (phase_ne_closeWait h (by simpa [hd] using hclose))

/-- While Open only `CLOSE` waits between its transitions (43 R280). -/
theorem phase_of_opened (h : Sequencer s) (ho : s.opened = true) : s.cmdPhase = .start ∨ s.cmdPhase = .closeWait := by
  have hopen : ¬ s.opened = false := by simp [ho]
  cases hp : s.cmdPhase with
  | start => exact .inl rfl
  | closeWait => exact .inr rfl
  | winFill c k => exact absurd (h.filling c k hp).2 hopen
  | logFill k => exact absurd (h.logging k hp).2.1 hopen
  | tickWait => exact absurd (h.ticking hp).2 hopen

/-- While Closed no tick runs but `TICK_ONCE`'s, and none is pending (43 R270, R301). -/
theorem tick_of_closed (h : Sequencer s) (ho : s.opened = false) (hp : s.cmdPhase ≠ .tickWait) :
    s.tickStage = .idle ∧ s.tickPending = false := by
  have hclosed : ¬ s.opened = true := by simp [ho]
  exact ⟨by_contra fun ht => (h.running ht).elim hclosed hp, Bool.eq_false_iff.mpr fun hpend => hclosed (h.pending hpend).1⟩

/-! ### The phases of a command -/

theorem sequencer_of_start (h : Unheld s) (hp : s.cmdPhase = .start) : Sequencer s where
  begun hne := absurd hp hne
  initial hb := by rw [h.begun] at hb; cases hb
  filling _ _ hw := by rw [hp] at hw; cases hw
  logging _ hw := by rw [hp] at hw; cases hw
  ticking hw := by rw [hp] at hw; cases hw
  leaving hw := by rw [hp] at hw; cases hw
  closing := by rw [h.closing, hp]; rfl
  byCommand := by rw [h.byCommand, hp]; rfl
  running ht := .inl (h.running ht)
  pending hpend := ⟨h.pending hpend, h.closing⟩
  lock := by rw [h.lock, hp]; simp [commandHoldsLock]

theorem sequencer_finish (h : Unheld s) (r : Reason) (v : Word) : Sequencer (s.finish r v) :=
  sequencer_of_start { h with } rfl

/-- A coefficient is computed next. -/
theorem sequencer_winFill (h : Unheld s) (hb : s.busy = true)
    (hd : decodeWord s.curWord = .ok .winSetsize ∨ decodeWord s.curWord = .ok .engSetsize) (ho : s.opened = false)
    (c k : Nat) : Sequencer { s with cmdPhase := .winFill c k } where
  begun _ := ⟨hb, h.begun⟩
  initial hb := by rw [h.begun] at hb; cases hb
  filling _ _ _ := ⟨hd, ho⟩
  logging _ hw := by cases hw
  ticking hw := by cases hw
  leaving hw := by cases hw
  closing := h.closing
  byCommand := h.byCommand
  running ht := .inl (h.running ht)
  pending hpend := ⟨h.pending hpend, h.closing⟩
  lock := by rw [h.lock]; simp [commandHoldsLock]

/-- An entry of the snapshot is computed next, under the lock (43 R277). -/
theorem sequencer_logFill (h : Unheld { s with lockOwner := .none }) (hb : s.busy = true)
    (hd : decodeWord s.curWord = .ok .logpow) (ho : s.opened = false) (ht : s.tickStage = .idle) (k : Nat) :
    Sequencer { s with lockOwner := .engine, cmdPhase := .logFill k } where
  begun _ := ⟨hb, h.begun⟩
  initial hb := by rw [h.begun] at hb; cases hb
  filling _ _ hw := by cases hw
  logging _ _ := ⟨hd, ho, ht⟩
  ticking hw := by cases hw
  leaving hw := by cases hw
  closing := h.closing
  byCommand := h.byCommand
  running hne := absurd ht hne
  pending hpend := ⟨h.pending hpend, h.closing⟩
  lock := by simp [commandHoldsLock]

/-- Without its lock, `LOGPOW` holds nothing. -/
theorem unheld_of_logFill {k : Nat} (h : Sequencer s) (hi : s.initBusy = false) (hp : s.cmdPhase = .logFill k) :
    Unheld { s with lockOwner := .none } := by
  obtain ⟨-, ho, ht⟩ := h.logging k hp
  obtain ⟨-, hpend⟩ := tick_of_closed h ho (by simp [hp])
  exact
    { begun := hi
      closing := by rw [h.closing, hp]; rfl
      byCommand := by rw [h.byCommand, hp]; rfl
      running := fun hne => absurd ht hne
      pending := fun hpend' => by rw [hpend] at hpend'; cases hpend'
      lock := by simp [ht, tickHoldsLock] }

/-- `TICK_ONCE` starts its tick (43 R275). -/
theorem sequencer_tickStart (h : Unheld s) (hb : s.busy = true)
    (hd : decodeWord s.curWord = .ok .tickOnce) (ho : s.opened = false) :
    Sequencer { s with tickByCmd := true, tickStage := .drain, cmdPhase := .tickWait } where
  begun _ := ⟨hb, h.begun⟩
  initial hb := by rw [h.begun] at hb; cases hb
  filling _ _ hw := by cases hw
  logging _ hw := by cases hw
  ticking _ := ⟨hd, ho⟩
  leaving hw := by cases hw
  closing := h.closing
  byCommand := rfl
  running _ := .inr rfl
  pending hpend := ⟨h.pending hpend, h.closing⟩
  lock := by
    have hidle : s.tickStage = .idle := by_contra fun ht => by rw [h.running ht] at ho; cases ho
    rw [h.lock, hidle]
    simp [tickHoldsLock, commandHoldsLock]

/-- `CLOSE` stops the timer and waits for the tick (43 R273). -/
theorem sequencer_closeStart (h : Unheld s) (hb : s.busy = true)
    (hd : decodeWord s.curWord = .ok .closeEng) (ho : s.opened = true) :
    Sequencer { s with closing := true, tickPending := false, cmdPhase := .closeWait } where
  begun _ := ⟨hb, h.begun⟩
  initial hb := by rw [h.begun] at hb; cases hb
  filling _ _ hw := by cases hw
  logging _ hw := by cases hw
  ticking hw := by cases hw
  leaving _ := ⟨hd, ho⟩
  closing := rfl
  byCommand := h.byCommand
  running _ := .inl ho
  pending hpend := by cases hpend
  lock := by rw [h.lock]; simp [commandHoldsLock]

/-! ### The tick path -/

/-- A tick and `LOGPOW` never run at once. -/
theorem lock_of_tick (h : Sequencer s) (ht : s.tickStage ≠ .idle) :
    commandHoldsLock s.cmdPhase = false ∧ (s.lockOwner = .engine ↔ tickHoldsLock s.tickStage = true) := by
  have hfree : ¬ commandHoldsLock s.cmdPhase = true := fun hc => by
    obtain ⟨k, hp⟩ := commandHoldsLock_iff.mp hc
    exact ht (h.logging k hp).2.2
  exact ⟨Bool.eq_false_iff.mpr hfree, by rw [h.lock, or_iff_left hfree]⟩

/-- The tick path moves on: it owns the lock in the stages that write the snapshot (43 R310, R312). -/
theorem sequencer_tickPath {k : TickStage} {p : Bool} {o : LockOwner} (h : Sequencer s) (ht : s.tickStage ≠ .idle)
    (hp : p = true → s.tickPending = true) (ho : o = .engine ↔ tickHoldsLock k = true) :
    Sequencer { s with tickStage := k, tickPending := p, lockOwner := o } where
  begun := h.begun
  initial hb := absurd (h.initial hb).2.2 ht
  filling := h.filling
  logging i hw := absurd (h.logging i hw).2.2 ht
  ticking := h.ticking
  leaving := h.leaving
  closing := h.closing
  byCommand := h.byCommand
  running _ := h.running ht
  pending hpend := h.pending (hp hpend)
  lock := by rw [ho, (lock_of_tick h ht).1]; simp

/-- A stage that neither takes nor releases the lock. -/
theorem sequencer_tickStage {k : TickStage} {p : Bool} (h : Sequencer s) (ht : s.tickStage ≠ .idle)
    (hp : p = true → s.tickPending = true) (hk : tickHoldsLock k = tickHoldsLock s.tickStage) :
    Sequencer { s with tickStage := k, tickPending := p } :=
  sequencer_tickPath h ht hp (hk ▸ (lock_of_tick h ht).2)

/-- The end of a tick goes to a stage without the lock, and makes no tick pending (43 R313). -/
theorem tickEnd_stage (s : State) :
    ∃ k p, tickEnd s = { s with tickStage := k, tickPending := p } ∧ tickHoldsLock k = false ∧
      (p = true → s.tickPending = true) := by
  rw [tickEnd_eq]
  split
  · exact ⟨.drain, false, rfl, rfl, fun h => nomatch h⟩
  · exact ⟨.idle, s.tickPending, rfl, rfl, id⟩

theorem sequencer_afterDrain (h : Sequencer s) (ht : s.tickStage = .drain) (ok : Bool) : Sequencer (afterDrain ok s) := by
  have hne : s.tickStage ≠ .idle := by simp [ht]
  unfold afterDrain
  split
  · obtain ⟨k, p, hend, hk, hp⟩ := tickEnd_stage { s with drainOk := ok }
    rw [hend]
    exact sequencer_congr (sequencer_tickStage h hne hp (by rw [hk, ht]; rfl)) rfl
  · exact sequencer_congr (sequencer_tickStage h hne id (k := .window) (by rw [ht]; rfl)) rfl

theorem sequencer_publish (h : Sequencer s) (ht : s.tickStage = .publish) : Sequencer (publish s) := by
  unfold publish
  obtain ⟨k, p, hend, hk, hp⟩ := tickEnd_stage
    ({ s with lockOwner := .none, snapValid := true, tickCount := s.tickCount + 1 }).raiseSpec
  rw [hend]
  exact sequencer_congr (sequencer_tickPath h (by simp [ht]) hp (o := .none) (by simp [hk])) rfl

theorem sequencer_tickStep (h : Sequencer s) (hstep : tickStep s = .next t) : Sequencer t := by
  rcases tickStep_eq_next.mp hstep with ⟨-, rfl⟩ | ⟨ht, -, -, hd⟩ | ⟨ht, -, rfl⟩ | ⟨ht, rfl⟩ | ⟨ht, rfl⟩ | ⟨ht, rfl⟩ |
    ⟨ht, -, rfl⟩ | ⟨-, -, rfl⟩ | ⟨i, ht, rfl⟩ | ⟨ht, rfl⟩
  · exact h
  · obtain hf | ⟨-, rfl⟩ := freezeTo_or_wait hd
    · refine sequencer_freezeTo h hf fun u hu hv => ?_
      have hdrained : Sequencer (drain u) := sequencer_congr hu rfl
      have hstage : u.tickStage = s.tickStage := congrArg (·.2.2.2.1) hv
      exact sequencer_afterDrain hdrained (hstage.trans ht) true
    · exact h
  · exact sequencer_afterDrain h ht false
  · refine sequencer_congr (sequencer_tickStage h (by simp [ht]) id (k := .fft) (by rw [ht]; rfl)) ?_
    split <;> rfl
  · refine sequencer_congr (sequencer_tickStage h (by simp [ht]) id (k := .shift) (by rw [ht]; rfl)) ?_
    split <;> rfl
  · exact sequencer_congr (sequencer_tickStage h (by simp [ht]) id (k := .lock) (by rw [ht]; rfl)) rfl
  · exact sequencer_tickPath h (by simp [ht]) id (by simp [tickHoldsLock])
  · exact h
  · refine sequencer_congr (sequencer_tickStage h (by simp [ht]) id
      (k := if i + 1 < s.engN then .log (i + 1) else .publish) ?_) rfl
    rw [ht]
    split <;> rfl
  · exact sequencer_publish h ht

/-- The timer starts a tick, or makes one pending, only while Open and not closing (43 R301). -/
theorem sequencer_timerEdge (h : Sequencer s) (c : Bool) : Sequencer (timerEdge c s) := by
  unfold timerEdge
  split
  · rename_i hcount
    simp only [Bool.and_eq_true, Bool.not_eq_true'] at hcount
    obtain ⟨⟨-, ho⟩, hc⟩ := hcount
    have hp : s.cmdPhase = .start := (phase_of_opened h ho).resolve_right fun hp => by
      rw [h.closing, hp] at hc; cases hc
    have hi : s.initBusy = false := Bool.eq_false_iff.mpr fun hi => by
      rw [(h.initial hi).2.1] at ho; cases ho
    have hu := unheld_of_start h hi hp
    split
    · split
      · rename_i ht
        refine sequencer_of_start ⟨hi, hc, rfl, fun _ => ho, hu.pending, ?_⟩ hp
        rw [hu.lock, ht]
        rfl
      · exact sequencer_of_start { hu with pending := fun _ => ho } hp
    · exact sequencer_congr h rfl
  · exact h

/-! ### The commands -/

/-- A command that ends with its operation under the freeze. -/
theorem sequencer_finish_freezeTo {f : State → State} {v : Word} (h : Sequencer s) (hi : s.initBusy = false)
    (hd : decodeWord s.curWord = .ok i) (hlog : i ≠ .logpow) (htick : i ≠ .tickOnce) (hclose : i ≠ .closeEng)
    (hf : FreezeTo s (fun u => (f u).finish .ok v) t) (hsame : ∀ u, Unheld u → Unheld (f u)) : Sequencer t := by
  refine sequencer_freezeTo h hf fun u hu hv => sequencer_finish (hsame u ?_) _ _
  have hword : u.curWord = s.curWord := congrArg (·.1.2.2.2) hv
  have hinit : u.initBusy = s.initBusy := congrArg (·.1.2.2.1) hv
  exact unheld_of_word hu (hinit.trans hi) (hword ▸ hd) hlog htick hclose

/-- Every transition of the command that the latched word names keeps the invariant. -/
theorem sequencer_commandTo (h : Sequencer s) (hi : s.initBusy = false) (hb : s.busy = true)
    (hd : decodeWord s.curWord = .ok i) (hc : CommandTo s i t) : Sequencer t := by
  cases hc with
  | wrongState hi' ho =>
    have hne : decodeWord s.curWord ≠ .ok .closeEng := by rw [hd]; rintro ⟨⟩; cases hi'
    have hp : s.cmdPhase = .start := (phase_of_opened h ho).resolve_right (phase_ne_closeWait h hne)
    exact sequencer_finish (unheld_of_start h hi hp) _ _
  | sizeError hi' =>
    refine sequencer_finish (unheld_of_word h hi hd ?_ ?_ ?_) _ _ <;> rintro rfl <;> cases hi'
  | sizeMismatch hi' _ _ hp =>
    have hlog : ∀ k, s.cmdPhase ≠ .logFill k := fun k hk =>
      hp (Except.ok.inj (hd.symm.trans (h.logging k hk).1)) k hk
    refine sequencer_finish (unheld_of_phase h hi hlog (phase_ne_tickWait h ?_) (phase_ne_closeWait h ?_)) _ _ <;>
      rw [hd] <;> rintro ⟨⟩ <;> cases hi'
  | freezeWait | closeWaits | lockWait => exact h
  | resize _ _ hf => exact sequencer_finish_freezeTo h hi hd (by simp) (by simp) (by simp) hf fun _ hu => { hu with }
  | readall _ _ _ hf => exact sequencer_finish_freezeTo h hi hd (by simp) (by simp) (by simp) hf fun _ hu => { hu with }
  | engDone _ _ hf => exact sequencer_finish_freezeTo h hi hd (by simp) (by simp) (by simp) hf fun _ hu => { hu with }
  | notReady | ready | openAgain | isOpen | fftSize | transform | winDone | product | shift =>
    have hu := unheld_of_word h hi hd (by simp) (by simp) (by simp)
    refine sequencer_finish ?_ _ _
    exact { hu with }
  | openFirst =>
    have hu := unheld_of_word h hi hd (by simp) (by simp) (by simp)
    refine sequencer_finish ?_ _ _
    exact { hu with running := fun _ => rfl, pending := fun _ => rfl }
  | fillStart hi' ho =>
    refine sequencer_winFill (unheld_of_word h hi hd ?_ ?_ ?_) hb (by rcases hi' with rfl | rfl <;> simp [hd]) ho _ _ <;>
      rintro rfl <;> simp at hi'
  | fill hi' hp =>
    obtain ⟨hword, ho⟩ := h.filling _ _ hp
    have hu := unheld_of_phase h hi (by simp [hp]) (by simp [hp]) (by simp [hp])
    exact sequencer_congr (sequencer_winFill hu hb hword ho _ _) rfl
  | closeClosed hp =>
    have hu := unheld_of_phase h hi (phase_ne_logFill h (by simp [hd])) (phase_ne_tickWait h (by simp [hd])) hp
    exact sequencer_finish hu _ _
  | closeStart hp ho =>
    have hu := unheld_of_phase h hi (phase_ne_logFill h (by simp [hd])) (phase_ne_tickWait h (by simp [hd])) hp
    exact sequencer_closeStart hu hb hd ho
  | closeDone hp ht =>
    have hpend : ¬ s.tickPending = true := fun hpend => by
      have hc := (h.pending hpend).2
      rw [h.closing, hp] at hc; cases hc
    refine sequencer_finish ?_ _ _
    refine ⟨hi, rfl, ?_, fun hne => absurd ht hne, fun h' => absurd h' hpend, ?_⟩
    · rw [h.byCommand, hp]; rfl
    · rw [h.lock, hp]; simp [commandHoldsLock]
  | tickStart hp ho =>
    have hu := unheld_of_phase h hi (phase_ne_logFill h (by simp [hd])) hp (phase_ne_closeWait h (by simp [hd]))
    exact sequencer_tickStart hu hb hd ho
  | tickRuns _ _ hstep => exact sequencer_tickStep h hstep
  | tickDone hp ht =>
    refine sequencer_finish ?_ _ _
    refine ⟨hi, ?_, rfl, fun hne => absurd ht hne, fun hpend => (h.pending hpend).1, ?_⟩
    · rw [h.closing, hp]; rfl
    · rw [h.lock, hp]; simp [commandHoldsLock]
  | lockTaken ho _ hp hl =>
    have hu := unheld_of_phase h hi hp (phase_ne_tickWait h (by simp [hd])) (phase_ne_closeWait h (by simp [hd]))
    have ht := (tick_of_closed h ho (phase_ne_tickWait h (by simp [hd]))).1
    exact sequencer_logFill { hu with lock := by simp [ht, tickHoldsLock] } hb hd ho ht 0
  | @logEntry k hp =>
    obtain ⟨hword, ho, ht⟩ := h.logging _ hp
    have howner : s.lockOwner = .engine := h.lock.mpr (.inr (by rw [hp]; rfl))
    refine sequencer_congr (sequencer_logFill (unheld_of_logFill h hi hp) hb hword ho ht (k + 1)) ?_
    simp only [State.sequencerView, ← howner]
    rfl
  | logDone hp =>
    have hu := unheld_of_logFill h hi hp
    refine sequencer_finish ?_ _ _
    exact { hu with }

/-- A word that is no command has begun nothing, so it fails at once (30 R123). -/
theorem sequencer_illegal {e : DecodeError} (h : Sequencer s) (hi : s.initBusy = false)
    (hd : decodeWord s.curWord = .error e) : Sequencer (s.fail .illegalCmd) :=
  sequencer_finish (unheld_of_phase h hi (phase_ne_logFill h (by simp [hd]))
    (phase_ne_tickWait h (by simp [hd])) (phase_ne_closeWait h (by simp [hd]))) _ _

/-- The initialisation ends with no command begun (70 R381). -/
theorem sequencer_initDone (h : Sequencer s) (hi : s.initBusy = true) :
    Sequencer { s with initBusy := false, busy := false } := by
  have hp : s.cmdPhase = .start := by_contra fun hp => by rw [(h.begun hp).2] at hi; cases hi
  exact { h with begun := fun hne => absurd hp hne, initial := fun hb => nomatch hb }

/-! ### The host accesses -/

/-- While no command is in progress, none has begun, nothing is held and the initialisation is over. -/
theorem unheld_of_not_busy (h : Sequencer s) (hb : s.busy = false) : Unheld s := by
  have hp : s.cmdPhase = .start := by_contra fun hp => by rw [(h.begun hp).1] at hb; cases hb
  have hi : s.initBusy = false := Bool.eq_false_iff.mpr fun hi => by rw [(h.initial hi).1] at hb; cases hb
  exact unheld_of_start h hi hp

/-- The host takes the lock only from nobody and gives it back only as its owner, so the engine's ownership is not touched
(43 R315). -/
theorem lockWrite_frame (v : Word) (s : State) :
    ∃ o, lockWrite v s = { s with lockOwner := o } ∧ (o = .engine ↔ s.lockOwner = .engine) := by
  unfold lockWrite
  split <;> split
  · exact ⟨.host, rfl, by simp [*]⟩
  · exact ⟨_, rfl, Iff.rfl⟩
  · exact ⟨.none, rfl, by simp [*]⟩
  · exact ⟨_, rfl, Iff.rfl⟩

theorem sequencer_writeReg (h : Sequencer s) (v : Word) (r : Reg) : Sequencer (s.writeReg v r) := by
  cases r with
  | cmd =>
    simp only [State.writeReg]
    unfold issueCommand
    split
    · exact sequencer_congr h rfl
    · have hu := unheld_of_not_busy h (Bool.eq_false_iff.mpr ‹_›)
      exact sequencer_of_start { hu with } rfl
  | snaplock =>
    obtain ⟨o, hw, ho⟩ := lockWrite_frame v s
    simp only [State.writeReg]
    rw [hw]
    exact { h with lock := ho.trans h.lock }
  | _ => exact sequencer_congr h rfl

/-! ### Every step -/

theorem acceptBeat_sequencerView {x : Sample} (h : acceptBeat x s = .next t) : t.sequencerView = s.sequencerView := by
  obtain ⟨-, rfl⟩ | ⟨-, -, rfl⟩ := acceptBeat_eq_next.mp h <;> rfl

theorem overloadUpdate_sequencerView {b : Bool} (h : overloadUpdate b s = .next t) :
    t.sequencerView = s.sequencerView := by
  obtain ⟨-, rfl⟩ | ⟨-, -, rfl⟩ := overloadUpdate_eq_next.mp h <;> rfl

theorem producerHandshake_sequencerView (s : State) : (producerHandshake s).sequencerView = s.sequencerView := by
  unfold producerHandshake
  simp only
  split
  · split <;> rfl
  · split <;> rfl

theorem crossBeats_sequencerView (s : State) : (crossBeats s).sequencerView = s.sequencerView := by
  obtain ⟨a, g, w, q, c, h⟩ := crossBeats_frame s
  rw [h]; rfl

theorem crossOneBeat_sequencerView (s : State) : (crossOneBeat s).sequencerView = s.sequencerView := by
  rw [crossOneBeat_eq]; split <;> rfl

theorem crossOneChange_sequencerView (s : State) : (crossOneChange s).sequencerView = s.sequencerView := by
  rw [crossOneChange_eq]; split <;> rfl

theorem requestFreeze_sequencerView (c : Bool) (s : State) : (requestFreeze c s).sequencerView = s.sequencerView := by
  unfold requestFreeze
  split
  · rfl
  · split <;> rfl

theorem sequencer_execBusRead {addr : Nat} (h : Sequencer s) (hr : execBusRead addr s = .next t) : Sequencer t := by
  obtain ⟨_, -, rfl⟩ | ⟨-, rfl⟩ := execBusRead_eq_next.mp hr <;> exact sequencer_congr h rfl

theorem sequencer_execBusWrite {addr : Nat} {v : Word} {wstrb : BitVec 4} (h : Sequencer s)
    (hw : execBusWrite addr v wstrb s = .next t) : Sequencer t := by
  obtain ⟨r, -, rfl⟩ | ⟨_, _, -, -, -, rfl⟩ | ⟨-, rfl⟩ := execBusWrite_eq_next.mp hw
  · exact sequencer_writeReg h v r
  · exact sequencer_congr h rfl
  · exact sequencer_congr h rfl

/-- Every elementary transition keeps the invariant. -/
theorem sequencer_stepClosed : StepClosed Sequencer where
  queues _ _ _ _ _ h := sequencer_congr h rfl
  command _ _ _ h _ hi hb hd hc := sequencer_commandTo h hi hb hd hc
  illegal _ _ h _ hi _ hd := sequencer_illegal h hi hd
  tick _ _ h _ _ ht := sequencer_tickStep h ht
  init _ h _ _ _ := sequencer_congr h rfl
  initDone _ h _ hi _ := sequencer_initDone h hi
  read _ _ _ h _ hr := sequencer_execBusRead h hr
  write _ _ _ _ _ h _ hw := sequencer_execBusWrite h hw
  accept _ _ _ h _ _ ha := sequencer_congr h (acceptBeat_sequencerView ha)
  settle s h _ _ := sequencer_congr h (settleBeats_sequencerView s)
  overload _ _ _ h _ _ ho := sequencer_congr h (overloadUpdate_sequencerView ho)
  producer s h _ _ := sequencer_congr h (producerHandshake_sequencerView s)
  cross s h _ := sequencer_congr h (crossBeats_sequencerView s)
  overloadCross s h _ := sequencer_congr h (by rw [crossOverload_frame]; rfl)
  beatOne s h _ := sequencer_congr h (crossOneBeat_sequencerView s)
  changeOne s h _ := sequencer_congr h (crossOneChange_sequencerView s)
  timer _ c h _ := sequencer_timerEdge h c
  core _ h _ := sequencer_congr h rfl
  request s c h _ := sequencer_congr h (requestFreeze_sequencerView c s)
  wrStop _ h := sequencer_congr h rfl
  releaseRst _ h := sequencer_congr h rfl
  leaveW _ h _ := sequencer_congr h rfl
  leaveC _ h := sequencer_congr h rfl

/-- Settles O59: every elementary transition keeps the invariant, the start of `wr_clk` does not touch it, and the fall of `rst_n`
establishes it. -/
theorem stepKeepsSequencer : Obligations.StepKeepsSequencer := by
  unfold Obligations.StepKeepsSequencer
  intro s t h hstep
  exact sequencer_stepClosed.step h (fun _ _ => sequencer_congr h rfl)
    (fun _ _ => sequencer_congr (sequencer_resetWith s.params (s.epoch + 1)) rfl) hstep

end Sys2Proof.Machine
end

section
/-! PROOFS. `ENG_SETSIZE`, `OPEN` and `CLOSE` (43 R271-R273), and the command gate (43 R280): what each command does first, and that of
all the ways a command can answer only the gate's own gives `WRONG_STATE`. -/

namespace Sys2Proof.Machine

open Sys2Proof.Safety

variable {s t : State} {c i : Nat}

/-! ### `ENG_SETSIZE` (43 R271) -/

theorem exec_engSetsize_start (hp : s.cmdPhase = .start) :
    exec .engSetsize s = withSize s fun c s => .next { s with cmdPhase := .winFill c 0 } := by
  simp only [exec, execEngSetsize, hp]

theorem exec_engSetsize_fill (hp : s.cmdPhase = .winFill c i) (hi : i < c) :
    exec .engSetsize s = .next { fillWindow c i s with cmdPhase := .winFill c (i + 1) } := by
  simp only [exec, execEngSetsize, hp]
  exact windowStep_eq_next.mpr (.inl ⟨hi, rfl⟩)

/-- As a resize does, it overwrites everything that settling the crossing changes. -/
theorem sizeEngine_settleBeats (c : Nat) (s : State) : sizeEngine c (settleBeats s) = sizeEngine c s := by
  rw [settleBeats_eq]
  split <;> rfl

theorem exec_engSetsize_idle (hp : s.cmdPhase = .winFill c i) (hi : c ≤ i) (hf : s.freeze = .idle) :
    exec .engSetsize s = .next (ended (sizeEngine c s) .ok (BitVec.ofNat 32 c)) := by
  rw [exec_engSetsize_last hp hi, withFreeze_idle hf, sizeEngine_settleBeats]

/-- Computing coefficients does not touch the handshake. -/
theorem freeze_filling (c k : Nat) (s : State) : (filling c k s).freeze = s.freeze := by
  rw [filling, filled_eq]; rfl

theorem execTimes_engSetsize (hp : s.cmdPhase = .start) (h : SizeAccepted s c) (hf : s.freeze = .idle) :
    execTimes .engSetsize (c + 2) s = .next (ended (sizeEngine c (filled c c s)) .ok (BitVec.ofNat 32 c)) := by
  have hfirst : exec .engSetsize s = .next (filling c 0 s) := by
    rw [exec_engSetsize_start hp, withSize_accepted h, filling, filled]
  have hfill := execTimes_filling (s := s) (fun _ _ => exec_engSetsize_fill) 1 (Nat.le_of_eq (Nat.zero_add c))
  rw [execTimes, hfirst, andThen_next, hfill, Nat.zero_add, execTimes,
    exec_engSetsize_idle rfl (Nat.le_refl c) ((freeze_filling c c s).trans hf)]
  rfl

/-- Settles O34: the transitions one by one, and their run, whose last transition sizes every component. -/
theorem engSetsizeSizesEveryComponent : Obligations.EngSetsizeSizesEveryComponent := by
  unfold Obligations.EngSetsizeSizesEveryComponent
  refine ⟨rfl, fun s hp => ⟨sizeFailures_of_withSize (exec_engSetsize_start hp), fun c h => ⟨?first, fun hf => ?run⟩⟩,
    fun s c i hp => ⟨fun hi => ?fill, fun hi hf => exec_engSetsize_idle hp hi hf⟩⟩
  case first => rw [exec_engSetsize_start hp, withSize_accepted h]
  case run =>
    refine ⟨_, execTimes_engSetsize hp h hf, fun i hi => winAt_filled c s hi, fun a ha => byteAt_filled_outside c s ha, ?_⟩
    exact congrArg (fun u : State => ended (sizeEngine c u) .ok (BitVec.ofNat 32 c)) (filled_eq c c s)
  case fill =>
    exact ⟨_, exec_engSetsize_fill hp hi, winAt_fillWindow_same c i s, fun a ha => byteAt_fillWindow_outside ha, rfl⟩

/-! ### `OPEN` and `CLOSE` (43 R272, R273) -/

theorem exec_openEng_opened (ho : s.opened = true) : exec .openEng s = .next (ended s .ok 1) := by
  simp only [exec, execOpenEng, ho, if_true, finish_eq_ended]
  rfl

theorem exec_openEng_closed (ho : s.opened = false) :
    exec .openEng s = .next (ended { s with opened := true, timerCnt := 0, tickPending := false } .ok 0) := by
  simp only [exec, execOpenEng, ho, finish_eq_ended]
  rfl

theorem exec_closeEng_closed (hp : s.cmdPhase = .start) (ho : s.opened = false) :
    exec .closeEng s = .next (ended s .ok 0) := by
  simp only [exec, execCloseEng, hp, ho]
  rfl

theorem exec_closeEng_opened (hp : s.cmdPhase = .start) (ho : s.opened = true) :
    exec .closeEng s = .next { s with closing := true, tickPending := false, cmdPhase := .closeWait } := by
  simp only [exec, execCloseEng, hp, ho, if_true]

theorem exec_closeEng_wait (hp : s.cmdPhase = .closeWait) (ht : s.tickStage ≠ .idle) : exec .closeEng s = .next s := by
  simp only [exec, execCloseEng, hp, if_neg ht]

theorem exec_closeEng_last (hp : s.cmdPhase = .closeWait) (ht : s.tickStage = .idle) :
    exec .closeEng s = .next (ended { s with opened := false, closing := false, timerCnt := 0 } .ok 1) := by
  simp only [exec, execCloseEng, hp, if_pos ht, finish_eq_ended]

/-- Settles O35: the two commands by the lifecycle state and, for `CLOSE`, by how far it has come. -/
theorem openAndCloseMoveLifecycle : Obligations.OpenAndCloseMoveLifecycle := by
  unfold Obligations.OpenAndCloseMoveLifecycle
  exact ⟨rfl, rfl, fun s => ⟨exec_openEng_opened, exec_openEng_closed, exec_closeEng_closed, exec_closeEng_opened,
    exec_closeEng_wait, exec_closeEng_last⟩⟩

/-! ### The gate (43 R280) -/

theorem exec_tickOnce_start (hp : s.cmdPhase = .start) :
    exec .tickOnce s =
      whileClosed s fun s => .next { s with tickByCmd := true, tickStage := .drain, cmdPhase := .tickWait } := by
  simp only [exec, execTickOnce, hp]

theorem exec_shift_eq (s : State) :
    exec .shift s = withLength s.engN s fun s => .next ((shiftBlock s.engN s).finish .ok 0) := rfl

theorem exec_logpow_start (hp : s.cmdPhase = .start) :
    exec .logpow s = withLength s.engN s fun s =>
      if s.lockOwner = .none then .next { s with lockOwner := .engine, cmdPhase := .logFill 0 } else .next s := by
  simp only [exec, execLogpow, hp]

/-- While Open the gate stands before every other check of a command that may run only while Closed. -/
theorem exec_closedOnly_opened {i : Instr} (hp : s.cmdPhase = .start) (hi : closedOnly i = true) (ho : s.opened = true) :
    exec i s = .next (ended s .wrongState 0) := by
  cases i with
  | rbResize => exact (sizeFailures_of_withSize (exec_rbResize_eq s)).1 ho
  | fftSetsize => exact (sizeFailures_of_withSize (exec_fftSetsize_eq s)).1 ho
  | winSetsize => exact (sizeFailures_of_withSize (exec_winSetsize_start hp)).1 ho
  | engSetsize => exact (sizeFailures_of_withSize (exec_engSetsize_start hp)).1 ho
  | rbReadall => exact (lengthFailures_of_withLength (exec_rbReadall_eq s)).1 ho
  | fftProcess fwd => exact (lengthFailures_of_withLength (exec_fftProcess_eq fwd s)).1 ho
  | winProcess => exact (lengthFailures_of_withLength (exec_winProcess_eq s)).1 ho
  | shift => exact (lengthFailures_of_withLength (exec_shift_eq s)).1 ho
  | logpow => exact (lengthFailures_of_withLength (exec_logpow_start hp)).1 ho
  | tickOnce => exact (exec_tickOnce_start hp).trans (whileClosed_opened ho)
  | _ => cases hi

/-- An operation under the freeze that ends its command with `OK`. -/
theorem resReason_of_freezeTo {f : State → State} {v : Word} (h : FreezeTo s (fun u => (f u).finish .ok v) t) :
    t.resReason = .ok := by
  obtain ⟨-, rfl⟩ | ⟨-, rfl⟩ := h <;> rfl

/-- A command that begins leaves `RESULT.REASON`, or sets it to `OK`, to another failure than `WRONG_STATE`, or is stopped by the
gate. -/
theorem resReason_of_commandTo {i : Instr} (hp : s.cmdPhase = .start) (h : CommandTo s i t) :
    t.resReason = s.resReason ∨ t.resReason ≠ .wrongState ∨ (closedOnly i = true ∧ s.opened = true) := by
  cases h with
  | wrongState hi ho => exact .inr (.inr ⟨hi, ho⟩)
  | sizeError _ _ hr =>
    obtain ⟨-, rfl⟩ | ⟨-, -, rfl⟩ := sizeRequest_error.mp hr <;> exact .inr (.inl (by simp [State.fail]))
  | resize _ _ hf => exact .inr (.inl (by simp [resReason_of_freezeTo hf]))
  | readall _ _ _ hf => exact .inr (.inl (by simp [resReason_of_freezeTo hf]))
  | engDone _ _ hf => exact .inr (.inl (by simp [resReason_of_freezeTo hf]))
  | tickRuns hw => rw [hp] at hw; cases hw
  | freezeWait | fillStart | fill | closeStart | closeWaits | tickStart | lockTaken | lockWait | logEntry => exact .inl rfl
  | _ => exact .inr (.inl (by simp [State.fail]))

/-- Settles O8: the gate is each command's first check, and nothing else gives its reason. -/
theorem closedOnlyCommandGate : Obligations.ClosedOnlyCommandGate := by
  unfold Obligations.ClosedOnlyCommandGate
  intro s hp
  refine ⟨fun i hi ho => exec_closedOnly_opened hp hi ho, fun i t hi hgate h hr => ?_⟩
  obtain hsame | hne | ⟨hc, ho⟩ := resReason_of_commandTo hp (command_cases hi h)
  · exact hsame.symm.trans hr
  · exact absurd hr hne
  · simp [hc, ho] at hgate

end Sys2Proof.Machine
end

section
/-! PROOFS. `SHIFT` (43 R276), `LOGPOW` (43 R277, R311) and the stages of a tick (43 R305-R313), transition by transition. -/

namespace Sys2Proof.Machine

open Sys2Proof.Safety

variable {s t : State} {i k n : Nat}

/-! ### The rotation (43 R276) -/

theorem blkAt_shiftBlock (hi : i < n) : (shiftBlock n s).blkAt i = s.blkAt ((i + n / 2) % n) := by
  have hsource : (i + n / 2) % n < n := Nat.mod_lt _ (by omega)
  rw [shiftBlock, fftShift, blkAt_setBlock_range, if_pos hi, List.getD_eq_getElem?_getD, State.getElem?_block,
    if_pos hsource, Option.getD_some]

theorem byteAt_shiftBlock_outside {a : Nat} (ha : 8 * n ≤ a) : (shiftBlock n s).byteAt .blk a = s.byteAt .blk a :=
  State.byteAt_setBlock_outside s _ a (by simpa [fftShift] using ha)

/-- Two rotations by half the block bring every Sample back; for a block of one there is nothing to rotate. -/
theorem half_turn_twice (hn : ispow2 n = true) (hi : i < n) : ((i + n / 2) % n + n / 2) % n = i := by
  have hhalves : n / 2 + n / 2 = n ∨ n = 1 := by
    obtain ⟨k, rfl⟩ := ispow2_iff.mp hn
    cases k with
    | zero => exact .inr rfl
    | succ k => left; rw [Nat.pow_succ]; omega
  obtain h | rfl := hhalves
  · rw [Nat.mod_add_mod, Nat.add_assoc, h, Nat.add_mod_right, Nat.mod_eq_of_lt hi]
  · omega

theorem exec_shift_accepted (h : LengthAccepted s s.engN) : exec .shift s = .next (ended (shiftBlock s.engN s) .ok 0) := by
  rw [exec_shift_eq, withLength_accepted h, finish_eq_ended]

/-- Settles O39: the rotation is read off Sample by Sample, and the command can follow itself. -/
theorem shiftRotatesByHalf : Obligations.ShiftRotatesByHalf := by
  unfold Obligations.ShiftRotatesByHalf
  refine ⟨rfl, fun s => ⟨lengthFailures_of_withLength (exec_shift_eq s), fun h hpow => ?_⟩⟩
  refine ⟨_, _, exec_shift_accepted h, exec_shift_accepted h, fun i hi => ⟨blkAt_shiftBlock hi, ?_⟩,
    fun a ha => byteAt_shiftBlock_outside ha, rfl⟩
  have hmid : (i + s.engN / 2) % s.engN < s.engN := Nat.mod_lt _ (by omega)
  calc (shiftBlock s.engN (shiftBlock s.engN s)).blkAt i
      = (shiftBlock s.engN s).blkAt ((i + s.engN / 2) % s.engN) := blkAt_shiftBlock hi
    _ = s.blkAt (((i + s.engN / 2) % s.engN + s.engN / 2) % s.engN) := blkAt_shiftBlock hmid
    _ = s.blkAt i := by rw [half_turn_twice hpow hi]

/-! ### The entries of the snapshot computed so far -/

/-- The state once the log powers of the first `k` Samples of the block are in `SNAP`. -/
def logged : Nat → State → State
  | 0, s => s
  | k + 1, s => logEntry k (logged k s)

/-- Only `SNAP` is written. -/
theorem logged_eq (k : Nat) (s : State) : logged k s = { s with snap := (logged k s).snap } := by
  induction k with
  | zero => rfl
  | succ k ih => rw [logged, ih]; rfl

theorem blkAt_logged (k : Nat) (s : State) (i : Nat) : (logged k s).blkAt i = s.blkAt i := by rw [logged_eq]; rfl

theorem snapAt_logEntry_same (i : Nat) (s : State) : (logEntry i s).snapAt i = magLog (s.blkAt i) := by simp [logEntry]

theorem byteAt_logEntry_outside {a : Nat} (ha : a < 4 * i ∨ 4 * i + 4 ≤ a) :
    (logEntry i s).byteAt .snap a = s.byteAt .snap a := by
  rw [State.byteAt_of_write (s := s) (t := logEntry i s) (id := .snap) (a := 4 * i)
    (bs := bytesOfWord (magLog (s.blkAt i))) rfl rfl, if_neg (by rw [length_bytesOfWord]; omega)]

theorem snapAt_logged (s : State) (hi : i < k) : (logged k s).snapAt i = magLog (s.blkAt i) := by
  induction k with
  | zero => omega
  | succ k ih =>
    rw [logged, logEntry, State.snapAt_setSnap, blkAt_logged]
    split
    · subst i; rfl
    · exact ih (by omega)

theorem byteAt_logged_outside (s : State) {a : Nat} (ha : 4 * k ≤ a) : (logged k s).byteAt .snap a = s.byteAt .snap a := by
  induction k with
  | zero => rfl
  | succ k ih => rw [logged, byteAt_logEntry_outside (by omega), ih (by omega)]

/-! ### `LOGPOW` (43 R277, R311) -/

theorem exec_logpow_wait (hp : s.cmdPhase = .start) (h : LengthAccepted s s.engN) (hl : s.lockOwner ≠ .none) :
    exec .logpow s = .next s := by
  rw [exec_logpow_start hp, withLength_accepted h, if_neg hl]

/-- The state of `LOGPOW` before the transition for entry `k`. -/
def logging (k : Nat) (s : State) : State := { logged k s with lockOwner := .engine, cmdPhase := .logFill k }

theorem exec_logpow_lock (hp : s.cmdPhase = .start) (h : LengthAccepted s s.engN) (hl : s.lockOwner = .none) :
    exec .logpow s = .next (logging 0 s) := by
  rw [exec_logpow_start hp, withLength_accepted h, if_pos hl]
  rfl

theorem exec_logpow_fill (hp : s.cmdPhase = .logFill k) (hk : k < s.engN) :
    exec .logpow s = .next { logEntry k s with cmdPhase := .logFill (k + 1) } := by
  simp only [exec, execLogpow, hp, if_pos hk]

theorem exec_logpow_last (hp : s.cmdPhase = .logFill k) (hk : s.engN ≤ k) :
    exec .logpow s = .next (ended { s with lockOwner := .none, snapValid := true } .ok 0) := by
  simp only [exec, execLogpow, hp, if_neg (Nat.not_lt.mpr hk), finish_eq_ended]

theorem exec_logpow_logging (hk : k < s.engN) : exec .logpow (logging k s) = .next (logging (k + 1) s) := by
  have hsize : (logging k s).engN = s.engN := by rw [logging, logged_eq]
  rw [exec_logpow_fill rfl (hsize.symm ▸ hk)]
  rfl

theorem execTimes_logging {m : Nat} (n : Nat) (hk : k + m ≤ s.engN) :
    execTimes .logpow (m + n) (logging k s) = execTimes .logpow n (logging (k + m) s) := by
  induction m generalizing k with
  | zero => rw [Nat.zero_add, Nat.add_zero]
  | succ m ih =>
    rw [Nat.succ_add, execTimes, exec_logpow_logging (by omega), andThen_next, ih (by omega), Nat.add_right_comm,
      Nat.add_assoc]

theorem execTimes_logpow (hp : s.cmdPhase = .start) (h : LengthAccepted s s.engN) (hl : s.lockOwner = .none) :
    execTimes .logpow (s.engN + 2) s =
      .next (ended { logged s.engN s with lockOwner := .none, snapValid := true } .ok 0) := by
  have hsize : (logging s.engN s).engN = s.engN := by rw [logging, logged_eq]
  rw [execTimes, exec_logpow_lock hp h hl, andThen_next, execTimes_logging 1 (Nat.zero_add _).le, Nat.zero_add, execTimes,
    exec_logpow_last rfl hsize.le]
  rfl

/-- Settles O40: the transitions one by one, and their run by induction on the entries computed. -/
theorem logpowWritesSnapshot : Obligations.LogpowWritesSnapshot := by
  unfold Obligations.LogpowWritesSnapshot
  refine ⟨rfl, fun s hp => ⟨lengthFailures_of_withLength (exec_logpow_start hp), fun h hl => exec_logpow_wait hp h hl,
    fun h hl => ⟨exec_logpow_lock hp h hl, ?run⟩⟩, fun s i hp => ⟨fun hi => ?fill, fun hi => exec_logpow_last hp hi⟩⟩
  case run =>
    refine ⟨_, execTimes_logpow hp h hl, fun i hi => snapAt_logged s hi, fun a ha => byteAt_logged_outside s ha, ?_⟩
    calc _ = ended { s with snap := (logged s.engN s).snap, snapValid := true, lockOwner := .none } .ok 0 :=
          congrArg (fun u : State => ended { u with lockOwner := .none, snapValid := true } .ok 0) (logged_eq s.engN s)
      _ = _ := by rw [← hl]; rfl
  case fill =>
    exact ⟨_, exec_logpow_fill hp hi, snapAt_logEntry_same i s, fun a ha => byteAt_logEntry_outside ha, rfl⟩

/-! ### The end of a tick (43 R313) -/

theorem atTickEnd_tickEnd (s : State) : AtTickEnd s (tickEnd s) := by
  unfold AtTickEnd
  rw [tickEnd_eq]
  split <;> exact ⟨rfl, rfl⟩

theorem atTickEnd_publish (s : State) : AtTickEnd s (publish s) :=
  atTickEnd_tickEnd ({ s with lockOwner := .none, snapValid := true, tickCount := s.tickCount + 1 }).raiseSpec

/-! ### The stages of a tick (43 R305-R312) -/

theorem tickStep_idle (ht : s.tickStage = .idle) : tickStep s = .next s := by simp only [tickStep, ht]

theorem tickStep_drain_failed (ht : s.tickStage = .drain) (h : s.rbCap ≠ s.engN ∨ s.rbGate = false) :
    tickStep s = .next (afterDrain false s) := by
  have hno : ¬ (s.rbCap = s.engN ∧ s.rbGate = true) := fun ⟨hn, hg⟩ => by simp [hn, hg] at h
  simp only [tickStep, ht, if_neg hno]

theorem tickStep_window (ht : s.tickStage = .window) (hn : s.winN = s.engN) :
    tickStep s = .next { windowBlock s.engN s with tickStage := .fft } := by
  simp only [tickStep, ht, if_pos hn]

theorem tickStep_window_skipped (ht : s.tickStage = .window) (hn : s.winN ≠ s.engN) :
    tickStep s = .next { s with tickStage := .fft } := by
  simp only [tickStep, ht, if_neg hn]

theorem tickStep_fft (ht : s.tickStage = .fft) (hn : s.fftN = s.engN) :
    tickStep s = .next { transformBlock s.engN true s with tickStage := .shift } := by
  simp only [tickStep, ht, if_pos hn]

theorem tickStep_fft_skipped (ht : s.tickStage = .fft) (hn : s.fftN ≠ s.engN) :
    tickStep s = .next { s with tickStage := .shift } := by
  simp only [tickStep, ht, if_neg hn]

theorem tickStep_shift (ht : s.tickStage = .shift) : tickStep s = .next { shiftBlock s.engN s with tickStage := .lock } := by
  simp only [tickStep, ht]

theorem tickStep_lock (ht : s.tickStage = .lock) (hl : s.lockOwner = .none) :
    tickStep s = .next { s with lockOwner := .engine, tickStage := .log 0 } := by
  simp only [tickStep, ht, if_pos hl]

theorem tickStep_lock_wait (ht : s.tickStage = .lock) (hl : s.lockOwner ≠ .none) : tickStep s = .next s := by
  simp only [tickStep, ht, if_neg hl]

theorem tickStep_log (ht : s.tickStage = .log i) :
    tickStep s = .next { logEntry i s with tickStage := if i + 1 < s.engN then .log (i + 1) else .publish } := by
  simp only [tickStep, ht]

theorem tickStep_publish (ht : s.tickStage = .publish) : tickStep s = .next (publish s) := by simp only [tickStep, ht]

/-- Settles O38: each stage is its equation, and a publication ends the tick in the same transition. -/
theorem tickLocksLogsAndPublishes : Obligations.TickLocksLogsAndPublishes := by
  unfold Obligations.TickLocksLogsAndPublishes
  intro s
  refine ⟨tickStep_lock_wait, tickStep_lock, fun i ht => ?log, fun ht => ?publish, tickStep_idle⟩
  case log => exact ⟨_, tickStep_log ht, snapAt_logEntry_same i s, fun a ha => byteAt_logEntry_outside ha, rfl⟩
  case publish =>
    obtain ⟨k, p, h⟩ := publish_frame s
    exact ⟨publish s, tickStep_publish ht, atTickEnd_publish s, by rw [h]⟩

/-- A drain that succeeds: the block is the ring's, and the window comes next (43 R305). -/
theorem afterDrain_true (s : State) : afterDrain true s = { s with drainOk := true, tickStage := .window } := rfl

theorem tickStep_drain_idle (ht : s.tickStage = .drain) (hn : s.rbCap = s.engN) (hg : s.rbGate = true)
    (hf : s.freeze = .idle) :
    tickStep s = .next { drain (settleBeats s) with drainOk := true, tickStage := .window } := by
  rw [tickStep_drain ht hn hg, withFreeze_idle hf, afterDrain_true]

theorem settleBeats_of_idle (hf : s.freeze = .idle) :
    settleBeats s = { s with
      rbAcc := min s.rbCap (s.rbAcc + counterDelta s.params.cw s.wptrW s.wsyncQ)
      rbGate := decide (min s.rbCap (s.rbAcc + counterDelta s.params.cw s.wptrW s.wsyncQ) = s.rbCap)
      rbWcur := s.wptrW, wsyncQ := s.wptrW, wsync := List.replicate s.params.syncStages s.wptrG } := by
  rw [settleBeats_eq, if_neg (by simp [(freeze_idle_requests hf).2])]

/-- Every accepted beat crosses first, so the drained block ends at the producer's pointer (40 R154, R171; log 10). -/
theorem blkAt_drain_settled {j : Nat} (hf : s.freeze = .idle) (hj : j < s.rbCap) :
    (drain (settleBeats s)).blkAt j = s.rbmemAt (ringIndex s.rbCap (s.wptrW + j)) := by
  rw [settleBeats_of_idle hf]
  exact blkAt_drain hj

theorem byteAt_drain_settled_outside {a : Nat} (hf : s.freeze = .idle) (ha : 8 * s.rbCap ≤ a) :
    (drain (settleBeats s)).byteAt .blk a = s.byteAt .blk a := by
  rw [settleBeats_of_idle hf]
  exact byteAt_drain_outside ha

/-- Settles O37: each stage is its equation, with the block that its operation leaves. -/
theorem tickStagesProcessBlock : Obligations.TickStagesProcessBlock := by
  unfold Obligations.TickStagesProcessBlock
  intro s
  refine ⟨fun ht hn hg hf => ?drained, fun ht hn hg hf => ?held, fun ht h hskip => ?stale, fun ht h hskip => ?skipped,
    fun ht hn => ?window, fun ht hn => ?unwindowed, fun ht hn hpow => ?fft, fun ht hn => ?untransformed, fun ht => ?shift⟩
  case drained =>
    refine ⟨_, tickStep_drain_idle ht hn hg hf, fun j hj => blkAt_drain_settled hf hj,
      fun a ha => byteAt_drain_settled_outside hf ha, ?_⟩
    rw [settleBeats_of_idle hf]
    rfl
  case held =>
    exact ⟨_, (tickStep_drain ht hn hg).trans (withFreeze_held hf), fun j hj => blkAt_drain hj,
      fun a ha => byteAt_drain_outside ha, rfl⟩
  case stale =>
    rw [tickStep_drain_failed ht h, afterDrain, hskip]
    rfl
  case skipped =>
    have hend : afterDrain false s = tickEnd { s with drainOk := false } := by rw [afterDrain, hskip]; rfl
    obtain ⟨k, p, hframe⟩ := tickEnd_frame { s with drainOk := false }
    refine ⟨_, tickStep_drain_failed ht h, ?_⟩
    rw [hend]
    exact ⟨by rw [hframe], atTickEnd_tickEnd { s with drainOk := false }⟩
  case window =>
    exact ⟨_, tickStep_window ht hn, fun i hi => blkAt_windowBlock hi, fun a ha => byteAt_windowBlock_outside ha, rfl⟩
  case unwindowed => exact tickStep_window_skipped ht hn
  case fft =>
    exact ⟨_, tickStep_fft ht hn, fun i hi => blkAt_transformBlock hpow true hi,
      fun a ha => byteAt_transformBlock_outside hpow true ha, rfl⟩
  case untransformed => exact tickStep_fft_skipped ht hn
  case shift =>
    exact ⟨_, tickStep_shift ht, fun i hi => blkAt_shiftBlock hi, fun a ha => byteAt_shiftBlock_outside ha, rfl⟩

end Sys2Proof.Machine
end

section
/-! PROOFS. `TICK_ONCE` (43 R275): while it runs its tick the command path performs the stages, each of which leaves the mark of
the command, and the block goes through the drain, the window, the transform and the rotation before its log powers are taken. -/

namespace Sys2Proof.Machine

open Sys2Proof.Safety

variable {s t u : State} {i k m n : Nat}

/-! ### The transitions of the command -/

/-- The state while `TICK_ONCE` runs its tick, with the stage `k` next. -/
def inTick (k : TickStage) (s : State) : State := { s with tickByCmd := true, tickStage := k, cmdPhase := .tickWait }

theorem exec_tickOnce_first (hp : s.cmdPhase = .start) (ho : s.opened = false) :
    exec .tickOnce s = .next (inTick .drain s) := by
  rw [exec_tickOnce_start hp, whileClosed_closed ho]; rfl

theorem exec_tickOnce_stage (hp : s.cmdPhase = .tickWait) (ht : s.tickStage ≠ .idle) : exec .tickOnce s = tickStep s := by
  simp only [exec, execTickOnce, hp, if_neg ht]

theorem exec_tickOnce_last (hp : s.cmdPhase = .tickWait) (ht : s.tickStage = .idle) :
    exec .tickOnce s = .next (ended { s with tickByCmd := false } .ok (if s.drainOk then 1 else 0)) := by
  simp only [exec, execTickOnce, hp, if_pos ht, finish_eq_ended]
  cases s.drainOk <;> rfl

theorem exec_tickOnce_ok (hp : s.cmdPhase = .tickWait) (ht : s.tickStage = .idle) (hok : s.drainOk = true) :
    exec .tickOnce s = .next (ended { s with tickByCmd := false } .ok 1) := by
  rw [exec_tickOnce_last hp ht, if_pos hok]

/-- A stage of the tick of `TICK_ONCE` is one of its transitions. -/
theorem execTimes_stage {k : TickStage} (hk : k ≠ .idle) (h : tickStep (inTick k s) = .next t) (m : Nat) :
    execTimes .tickOnce (m + 1) (inTick k s) = execTimes .tickOnce m t := by
  rw [execTimes, exec_tickOnce_stage rfl hk, h, andThen_next]

/-! ### The stages -/

/-- The drain taken as one transition, with its report (43 R305). -/
def drained (s : State) : State := { drain (settleBeats s) with drainOk := true }

theorem drained_eq (hf : s.freeze = .idle) :
    drained s = { s with
      blk := (drained s).blk, rbGate := false, rbAcc := 0, rbWcur := s.wptrW, rbRcur := s.wptrW, wsyncQ := s.wptrW
      wsync := List.replicate s.params.syncStages s.wptrG, drainOk := true } := by
  unfold drained
  rw [settleBeats_of_idle hf]
  rfl

theorem inTick_drain (hn : s.rbCap = s.engN) (hg : s.rbGate = true) (hf : s.freeze = .idle) :
    tickStep (inTick .drain s) = .next (inTick .window (drained s)) := by
  have hstep := tickStep_drain_idle (s := inTick .drain s) rfl hn hg hf
  have hsettled := settleBeats_of_idle (s := inTick .drain s) hf
  rw [hstep, hsettled, drained, settleBeats_of_idle hf]
  rfl

theorem inTick_window (hn : s.engN = n) (hw : s.winN = n) :
    tickStep (inTick .window s) = .next (inTick .fft (windowBlock n s)) :=
  hn ▸ tickStep_window (s := inTick .window s) rfl (hw.trans hn.symm)

theorem inTick_fft (hn : s.engN = n) (hf : s.fftN = n) :
    tickStep (inTick .fft s) = .next (inTick .shift (transformBlock n true s)) :=
  hn ▸ tickStep_fft (s := inTick .fft s) rfl (hf.trans hn.symm)

theorem inTick_shift (hn : s.engN = n) : tickStep (inTick .shift s) = .next (inTick .lock (shiftBlock n s)) :=
  hn ▸ tickStep_shift (s := inTick .shift s) rfl

/-- The state once the engine has taken the lock (43 R310). -/
def locked (s : State) : State := { s with lockOwner := .engine }

theorem inTick_lock (hl : s.lockOwner = .none) : tickStep (inTick .lock s) = .next (inTick (.log 0) (locked s)) :=
  tickStep_lock (s := inTick .lock s) rfl hl

theorem inTick_log (i : Nat) (s : State) :
    tickStep (inTick (.log i) s) =
      .next (inTick (if i + 1 < s.engN then .log (i + 1) else .publish) (logEntry i s)) :=
  tickStep_log (s := inTick (.log i) s) rfl

/-- What a publication leaves besides the tick path (43 R312). -/
def published (s : State) : State :=
  { s with lockOwner := .none, snapValid := true, tickCount := s.tickCount + 1, irqStatus := s.irqStatus ||| 1#2 }

theorem inTick_publish (s : State) : tickStep (inTick .publish s) = .next (inTick .idle (published s)) := by
  rw [tickStep_publish (s := inTick .publish s) rfl, publish, tickEnd_eq, if_neg (by simp [inTick])]
  rfl

/-! ### The run -/

/-- The `LOG` stages from entry `k` on take one transition each. -/
theorem execTimes_log (m r : Nat) (hn : s.engN = k + (m + 1)) :
    execTimes .tickOnce (r + (m + 1)) (inTick (.log k) (logged k s)) =
      execTimes .tickOnce r (inTick .publish (logged s.engN s)) := by
  have hsize : (logged k s).engN = s.engN := by rw [logged_eq]
  have hstep := inTick_log k (logged k s)
  rw [← Nat.add_assoc]
  induction m generalizing k with
  | zero =>
    rw [if_neg (by omega)] at hstep
    rw [execTimes_stage (by simp) hstep, hn]
    rfl
  | succ m ih =>
    rw [if_pos (by omega)] at hstep
    rw [execTimes_stage (by simp) hstep]
    exact ih (k := k + 1) (by omega) (by rw [logged_eq]) (inTick_log _ _)

/-- What `DRAIN`, `WINDOW`, `FFT` and `SHIFT` leave where all sizes are `n` (43 R305-R309). -/
def processed (n : Nat) (s : State) : State := shiftBlock n (transformBlock n true (windowBlock n (drained s)))

/-- The stages after the drain write `BLK` alone. -/
theorem processed_eq (n : Nat) (s : State) : processed n s = { drained s with blk := (processed n s).blk } := rfl

theorem processed_frame (n : Nat) (hf : s.freeze = .idle) :
    ∃ b, processed n s = { s with
      blk := b, rbGate := false, rbAcc := 0, rbWcur := s.wptrW, rbRcur := s.wptrW, wsyncQ := s.wptrW
      wsync := List.replicate s.params.syncStages s.wptrG, drainOk := true } := by
  rw [processed_eq, drained_eq hf]
  exact ⟨_, rfl⟩

/-- All sizes are `n`, the ring is full, and neither a handshake nor the lock keeps the tick waiting. -/
structure TickReady (n : Nat) (s : State) : Prop where
  freeze : s.freeze = .idle
  lock : s.lockOwner = .none
  cap : s.rbCap = n
  eng : s.engN = n
  fft : s.fftN = n
  win : s.winN = n
  gate : s.rbGate = true

/-- The first transition and the stages that process the block. -/
theorem execTimes_processed (hp : s.cmdPhase = .start) (ho : s.opened = false) (hr : TickReady n s) (r : Nat) :
    execTimes .tickOnce (r + 5) s = execTimes .tickOnce r (inTick .lock (processed n s)) := by
  obtain ⟨hf, -, hcap, hn, hfft, hwin, hg⟩ := hr
  have hd := drained_eq hf
  have heng : (drained s).engN = n := by rw [hd]; exact hn
  have hwin' : (drained s).winN = n := by rw [hd]; exact hwin
  have hfft' : (drained s).fftN = n := by rw [hd]; exact hfft
  rw [execTimes, exec_tickOnce_first hp ho, andThen_next,
    execTimes_stage (by simp) (inTick_drain (hcap.trans hn.symm) hg hf),
    execTimes_stage (by simp) (inTick_window heng hwin'),
    execTimes_stage (by simp) (inTick_fft (s := windowBlock n (drained s)) heng hfft'),
    execTimes_stage (by simp) (inTick_shift (s := transformBlock n true (windowBlock n (drained s))) heng)]
  rfl

/-- The state once the lock, the entries of `n` Samples, the publication and the command's last transition have followed. -/
def afterTick (n : Nat) (s : State) : State :=
  ended { published (logged n (locked s)) with tickByCmd := false, tickStage := .idle } .ok 1

theorem afterTick_frame (n : Nat) (s : State) :
    ∃ m, afterTick n s = ended
      { s with
        snap := m, lockOwner := .none, snapValid := true, tickCount := s.tickCount + 1
        irqStatus := s.irqStatus ||| 1#2, tickByCmd := false, tickStage := .idle } .ok 1 := by
  unfold afterTick
  rw [logged_eq]
  exact ⟨_, rfl⟩

theorem blkAt_afterTick (n : Nat) (s : State) (i : Nat) : (afterTick n s).blkAt i = s.blkAt i :=
  blkAt_logged n (locked s) i

theorem byteAt_blk_afterTick (n : Nat) (s : State) (a : Nat) : (afterTick n s).byteAt .blk a = s.byteAt .blk a := by
  obtain ⟨m, h⟩ := afterTick_frame n s
  rw [h]; rfl

theorem snapAt_afterTick (s : State) (hi : i < n) : (afterTick n s).snapAt i = magLog (s.blkAt i) :=
  snapAt_logged (locked s) hi

theorem byteAt_snap_afterTick (s : State) {a : Nat} (ha : 4 * n ≤ a) :
    (afterTick n s).byteAt .snap a = s.byteAt .snap a :=
  byteAt_logged_outside (locked s) ha

/-- The lock, the entries, the publication and the last transition (43 R310, R312, R313). -/
theorem execTimes_published (hl : s.lockOwner = .none) (hn : s.engN = n) (hpos : 0 < n) (hok : s.drainOk = true) :
    execTimes .tickOnce (n + 3) (inTick .lock s) = .next (afterTick n s) := by
  obtain ⟨m, rfl⟩ : ∃ m, n = m + 1 := ⟨n - 1, by omega⟩
  have hsize : (locked s).engN = m + 1 := hn
  have hentries := execTimes_log (s := locked s) (k := 0) m 2 (hsize.trans (Nat.zero_add _).symm)
  have hdone : (inTick .idle (published (logged (m + 1) (locked s)))).drainOk = true := by rw [logged_eq]; exact hok
  rw [hsize, execTimes_stage (by simp) (inTick_publish _), execTimes, exec_tickOnce_ok rfl rfl hdone, andThen_next,
    execTimes] at hentries
  rw [show m + 1 + 3 = 2 + (m + 1) + 1 by omega, execTimes_stage (by simp) (inTick_lock hl)]
  exact hentries

/-- The whole run of `TICK_ONCE`. -/
theorem execTimes_tickOnce (hp : s.cmdPhase = .start) (ho : s.opened = false) (hr : TickReady n s) (hpos : 0 < n) :
    execTimes .tickOnce (n + 8) s = .next (afterTick n (processed n s)) := by
  obtain ⟨b, hb⟩ := processed_frame n hr.freeze
  rw [execTimes_processed hp ho hr (n + 3), hb]
  exact execTimes_published hr.lock hr.eng hpos rfl

/-! ### The block that is published -/

/-- The block after as many Samples as it has were written. -/
theorem block_setBlock {xs : List Sample} (h : xs.length = n) : (s.setBlock xs).block n = xs := by
  apply List.ext_getElem?
  intro i
  rw [State.getElem?_block]
  by_cases hi : i < n
  · have hlt : i < xs.length := h ▸ hi
    rw [if_pos hi, State.blkAt_setBlock, List.getElem?_eq_getElem hlt, Option.getD_some]
  · rw [if_neg hi, List.getElem?_eq_none (by omega)]

/-- The drained ring, oldest Sample first (40 R154). -/
def drainedBlock (n : Nat) (s : State) : List Sample := (List.range n).map fun j => s.rbmemAt (ringIndex n (s.wptrW + j))

/-- The drained block times the window (43 R307). -/
def windowedBlock (n : Nat) (s : State) : List Sample :=
  (List.range n).map fun j => scaleSample (s.winAt j) ((drainedBlock n s).getD j ⟨0, 0⟩)

theorem blkAt_drained {j : Nat} (hf : s.freeze = .idle) (hcap : s.rbCap = n) (hj : j < n) :
    (drained s).blkAt j = (drainedBlock n s).getD j ⟨0, 0⟩ := by
  have hblk : (drained s).blkAt j = s.rbmemAt (ringIndex s.rbCap (s.wptrW + j)) := blkAt_drain_settled hf (hcap ▸ hj)
  rw [hblk, hcap]
  simp [drainedBlock, hj]

theorem block_windowed (hf : s.freeze = .idle) (hcap : s.rbCap = n) :
    (windowBlock n (drained s)).block n = windowedBlock n s := by
  have hwin : ∀ i, (drained s).winAt i = s.winAt i := fun i => by rw [drained_eq hf]; rfl
  rw [windowBlock, block_setBlock (by simp), windowedBlock]
  refine List.map_congr_left fun j hj => ?_
  rw [hwin, blkAt_drained hf hcap (List.mem_range.mp hj)]

theorem blkAt_processed (hpow : ispow2 n = true) (hf : s.freeze = .idle) (hcap : s.rbCap = n) (hi : i < n) :
    some ((processed n s).blkAt i) = (fftShift n (fftCore n true (windowedBlock n s)))[i]? := by
  have hlen : ∀ xs, i < (fftShift n xs).length := fun xs => by simpa [fftShift] using hi
  rw [processed, shiftBlock, transformBlock, block_setBlock (length_fftCore hpow _ _), block_windowed hf hcap,
    State.blkAt_setBlock, List.getElem?_eq_getElem (hlen _), Option.getD_some]

theorem byteAt_processed_outside {a : Nat} (hpow : ispow2 n = true) (hf : s.freeze = .idle) (hcap : s.rbCap = n)
    (ha : 8 * n ≤ a) : (processed n s).byteAt .blk a = s.byteAt .blk a := by
  calc (processed n s).byteAt .blk a
      = (transformBlock n true (windowBlock n (drained s))).byteAt .blk a := byteAt_shiftBlock_outside ha
    _ = (windowBlock n (drained s)).byteAt .blk a := byteAt_transformBlock_outside hpow true ha
    _ = (drained s).byteAt .blk a := byteAt_windowBlock_outside ha
    _ = s.byteAt .blk a := byteAt_drain_settled_outside hf (hcap ▸ ha)

/-- Settles O36: the run as its two halves, with the block that the first leaves and the entries that the second adds. -/
theorem tickOncePublishesSpectrum : Obligations.TickOncePublishesSpectrum := by
  unfold Obligations.TickOncePublishesSpectrum
  refine ⟨rfl, fun s hp => ⟨exec_closedOnly_opened hp rfl, exec_tickOnce_first hp⟩,
    fun s hp => ⟨exec_tickOnce_stage hp, exec_tickOnce_last hp⟩, fun s n hp ho hf hl hpow hcap hn hfft hwin hg => ?run⟩
  case run =>
    have hready : TickReady n s := ⟨hf, hl, hcap, hn, hfft, hwin, hg⟩
    obtain ⟨b, hb⟩ := processed_frame n hf
    obtain ⟨m, hm⟩ := afterTick_frame n (processed n s)
    refine ⟨_, execTimes_tickOnce hp ho hready (ispow2_pos hpow), fun i hi => ⟨?_, ?_⟩, fun a ha => ?_, fun a ha => ?_, ?_⟩
    · rw [blkAt_afterTick]; exact blkAt_processed hpow hf hcap hi
    · rw [snapAt_afterTick _ hi, blkAt_afterTick]
    · rw [byteAt_blk_afterTick]; exact byteAt_processed_outside hpow hf hcap ha
    · rw [byteAt_snap_afterTick _ ha, hb]; rfl
    · rw [hm, hb, ← hl]; rfl

end Sys2Proof.Machine
end

section
/-! PROOFS. The overload channel (43 R320-R322): what an update counts, and that the edges of `clk` bring the last count into the
core domain. -/

namespace Sys2Proof.Machine

open Sys2Proof.Safety

variable {s u : State} {i n : Nat} {xs : List Nat}

/-- Settles O50: the cases of an update; the next value of a counter of `CW` bits is its successor modulo `2 ^ CW`. -/
theorem ovlsetCountsChanges : Obligations.OvlsetCountsChanges := by
  unfold Obligations.OvlsetCountsChanges
  refine fun s b => ⟨fun h => exec_ovlset_eq_next.mpr ?_, fun hr hb hroom => ?_⟩
  · by_cases hr : s.inReset = true
    · exact .inl ⟨hr, rfl⟩
    · exact .inr ⟨by simpa using hr, .inl ⟨h.resolve_left hr, rfl⟩⟩
  · exact exec_ovlset_eq_next.mpr (.inr ⟨hr, .inr ⟨hb, hroom, rfl⟩⟩)

/-! ### The crossing of the overload counter -/

/-- The first `i` flip-flops of the synchroniser show the producer's counter, and `xs` stands in those after them. -/
structure OverloadCrossing (s : State) (i : Nat) (xs : List Nat) : Prop where
  counter : s.ovlWcnt < 2 ^ s.params.cw
  code : s.ovlG = gray s.ovlWcnt
  chain : s.ovlSync = List.replicate i s.ovlG ++ xs
  stages : i + xs.length = s.params.syncStages

/-- `u` is `s` once the producer's counter has crossed: the interrupt bit is raised if that changed the core's counter. -/
structure OverloadCrossed (s u : State) : Prop where
  irq : u.irqStatus = s.irqStatus ∨ u.irqStatus = s.irqStatus ||| 2#2
  raised : s.ovlCnt ≠ s.ovlWcnt → u.irqStatus = s.irqStatus ||| 2#2
  frame : u = { s with
    ovlCnt := s.ovlWcnt, ovlSync := List.replicate s.params.syncStages s.ovlG, irqStatus := u.irqStatus }

/-- An edge that sees the producer's counter takes it. -/
theorem overloadCrossed_of_seen (h : OverloadCrossing s i []) (hi : 0 < i) : OverloadCrossed s (crossOverload s) := by
  obtain ⟨hlt, hcode, hchain, hstages⟩ := h
  obtain ⟨j, rfl⟩ : ∃ j, i = j + 1 := ⟨i - 1, by omega⟩
  have hframe := crossOverload_frame s
  have hstages' : s.params.syncStages = j + 1 := by simpa using hstages.symm
  rw [List.append_nil] at hchain
  have hseen : gray2bin s.params.cw (syncOut 0 s.ovlSync) = s.ovlWcnt := by
    rw [hchain, ← List.nil_append (List.replicate (j + 1) _), syncOut_append_replicate, hcode, gray2bin_gray hlt]
  have hshift : shiftIn s.ovlG s.ovlSync = List.replicate s.params.syncStages s.ovlG := by
    rw [hchain, shiftIn_replicate, hstages']
  rw [hseen, hshift] at hframe
  have hirq : (crossOverload s).irqStatus = if s.ovlWcnt ≠ s.ovlCnt then s.irqStatus ||| 2#2 else s.irqStatus := by
    rw [hframe]
  exact
    { irq := by rw [hirq]; split_ifs <;> simp
      raised := fun hne => by rw [hirq, if_pos hne.symm]
      frame := by rw [hirq]; exact hframe }

/-- An edge before that moves the synchroniser on. -/
theorem overloadCrossing_edge {x : Nat} (h : OverloadCrossing s i (xs ++ [x])) :
    OverloadCrossing (crossOverload s) (i + 1) xs := by
  obtain ⟨hlt, hcode, hchain, hstages⟩ := h
  have hshift : shiftIn s.ovlG s.ovlSync = List.replicate (i + 1) s.ovlG ++ xs := by
    rw [hchain, shiftIn, ← List.append_assoc, ← List.cons_append, List.dropLast_concat]
    rfl
  rw [List.length_append] at hstages
  rw [crossOverload_frame, hshift]
  exact ⟨hlt, hcode, rfl, by simpa [Nat.add_right_comm, Nat.add_assoc] using hstages⟩

/-- What is raised before an edge's end stays raised. -/
theorem overloadCrossed_edge (h : OverloadCrossed (crossOverload s) u) : OverloadCrossed s u := by
  obtain ⟨hirq, hraised, hframe⟩ := h
  have hs := crossOverload_frame s
  set c := gray2bin s.params.cw (syncOut 0 s.ovlSync)
  have hcnt : (crossOverload s).ovlCnt = c := by rw [hs]
  have hwcnt : (crossOverload s).ovlWcnt = s.ovlWcnt := by rw [hs]
  have hstatus : (crossOverload s).irqStatus = if c ≠ s.ovlCnt then s.irqStatus ||| 2#2 else s.irqStatus := by rw [hs]
  have hset : s.irqStatus ||| 2#2 ||| 2#2 = s.irqStatus ||| 2#2 := by rw [BitVec.or_assoc, BitVec.or_self]
  rw [hcnt, hwcnt] at hraised
  rw [hstatus] at hirq hraised
  have hframe' : u = { s with
      ovlCnt := s.ovlWcnt, ovlSync := List.replicate s.params.syncStages s.ovlG, irqStatus := u.irqStatus } := by
    rw [hframe, hs]
  by_cases hc : c = s.ovlCnt
  · rw [if_neg (not_not.mpr hc)] at hirq hraised
    exact ⟨hirq, fun hne => hraised (hc ▸ hne), hframe'⟩
  · rw [if_pos hc, hset, or_self] at hirq
    exact ⟨.inr hirq, fun _ => hirq, hframe'⟩

/-- The edges that the synchroniser still needs, and one more, bring the counter across. -/
theorem overloadCrossed_times (hs : 0 < s.params.syncStages) (h : OverloadCrossing s i xs) :
    OverloadCrossed s (crossOverloadTimes (xs.length + 1) s) := by
  induction xs using List.reverseRecOn generalizing s i with
  | nil => exact overloadCrossed_of_seen h (by have := h.stages; simpa [← this] using hs)
  | append_singleton xs x ih =>
    have hparams : (crossOverload s).params = s.params := by rw [crossOverload_frame]
    rw [List.length_append, List.length_singleton, crossOverloadTimes]
    exact overloadCrossed_edge (ih (hparams ▸ hs) (overloadCrossing_edge h))

theorem overloadCrossing_of_inv (h : Inv s) : OverloadCrossing s 0 s.ovlSync where
  counter := h.counters.1
  code := h.codes.2
  chain := rfl
  stages := (Nat.zero_add _).trans h.chains.2.1

/-- With the counter across and nothing else in the synchroniser an edge changes nothing. -/
theorem crossOverload_settled (h : Inv s) (hchain : s.ovlSync = List.replicate s.params.syncStages s.ovlG)
    (hcnt : s.ovlCnt = s.ovlWcnt) : crossOverload s = s := by
  obtain ⟨j, hj⟩ : ∃ j, s.params.syncStages = j + 1 := ⟨s.params.syncStages - 1, by have := h.legal; omega⟩
  have hseen : gray2bin s.params.cw (syncOut 0 s.ovlSync) = s.ovlCnt := by
    rw [hchain, hj, ← List.nil_append (List.replicate (j + 1) _), syncOut_append_replicate, h.codes.2,
      gray2bin_gray h.counters.1, hcnt]
  rw [crossOverload_frame, hseen, if_neg (by simp), hchain, shiftIn_replicate, ← hchain]

theorem crossOverloadTimes_of_fixed (h : crossOverload s = s) (n : Nat) : crossOverloadTimes n s = s := by
  induction n with
  | zero => rfl
  | succ n ih => rw [crossOverloadTimes, h, ih]

/-- Settles O51: by induction on the flip-flops that do not show the producer's counter yet. -/
theorem overloadChangesCross : Obligations.OverloadChangesCross := by
  unfold Obligations.OverloadChangesCross
  intro s h
  have hpos : 0 < s.params.syncStages := by have := h.legal; omega
  have hcrossed := overloadCrossed_times hpos (overloadCrossing_of_inv h)
  rw [h.chains.2.1] at hcrossed
  obtain ⟨hirq, hraised, hframe⟩ := hcrossed
  have hcnt : (crossOverloadTimes (s.params.syncStages + 1) s).ovlCnt = s.ovlWcnt := by rw [hframe]
  refine ⟨hcnt, ?_, hirq, hraised, hframe, fun hchain hseen => ?_⟩
  · rw [State.ovl, hcnt, h.parity]
  · exact crossOverloadTimes_of_fixed (crossOverload_settled h hchain hseen) _

end Sys2Proof.Machine
end

section
/-! PROOFS. The tick timer (43 R300, R301): what the transitions before it on an edge leave of it, what it does at the end of an
edge, and its count over edges alone. -/

namespace Sys2Proof.Machine

open Sys2Proof.Safety

variable {s t u : State} {i : Instr} {q r : Nat}

/-! ### What the transitions on an edge do to the timer -/

/-- The timer and what it counts for. -/
def State.timerView (s : State) : Bool × Bool × Word := (s.opened, s.closing, s.timerCnt)

theorem settleBeats_timerView (s : State) : (settleBeats s).timerView = s.timerView := by
  obtain ⟨a, g, w, q, c, h⟩ := settleBeats_frame s
  rw [h]; rfl

theorem crossBeats_timerView (s : State) : (crossBeats s).timerView = s.timerView := by
  obtain ⟨a, g, w, q, c, h⟩ := crossBeats_frame s
  rw [h]; rfl

theorem writeReg_timerView (s : State) (v : Word) (r : Reg) : (s.writeReg v r).timerView = s.timerView := by
  obtain ⟨_, _, _, _, _, _, _, h, -⟩ | ⟨-, h⟩ := writeReg_cases s v r <;> rw [h] <;> rfl

/-- No host access reaches the timer (30 R134). -/
theorem hostTurn_timerView (h : hostTurn s = .next t) : t.timerView = s.timerView := by
  unfold hostTurn at h
  split at h
  · obtain rfl := Host.Outcome.next.inj h; rfl
  split at h
  · obtain rfl := Host.Outcome.next.inj h; rfl
  split at h
  · rename_i hi
    obtain ⟨a, rfl⟩ | ⟨a, v, w, rfl⟩ := decodeBus_eq_ok hi
    · obtain ⟨_, -, rfl⟩ | ⟨-, rfl⟩ := execBusRead_eq_next.mp h <;> rfl
    · obtain ⟨r, -, rfl⟩ | ⟨_, _, -, -, -, rfl⟩ | ⟨-, rfl⟩ := execBusWrite_eq_next.mp h
      · exact writeReg_timerView _ v r
      · rfl
      · rfl
  · obtain rfl := Host.Outcome.next.inj h; rfl

theorem tickEnd_timerView (s : State) : (tickEnd s).timerView = s.timerView := by
  obtain ⟨k, p, h⟩ := tickEnd_frame s
  rw [h]; rfl

theorem afterDrain_timerView (ok : Bool) (s : State) : (afterDrain ok s).timerView = s.timerView := by
  obtain ⟨k, p, h⟩ := afterDrain_frame ok s
  rw [h]; rfl

theorem tickStep_timerView (h : tickStep s = .next t) : t.timerView = s.timerView := by
  rcases tickStep_eq_next.mp h with ⟨-, rfl⟩ | ⟨-, -, -, hd⟩ | ⟨-, -, rfl⟩ | ⟨-, rfl⟩ | ⟨-, rfl⟩ | ⟨-, rfl⟩ |
    ⟨-, -, rfl⟩ | ⟨-, -, rfl⟩ | ⟨_, -, rfl⟩ | ⟨-, rfl⟩
  · rfl
  · obtain hf | ⟨-, rfl⟩ := freezeTo_or_wait hd
    · exact freezeTo_view State.timerView hf (settleBeats_timerView s) (fun _ => rfl)
        fun u => afterDrain_timerView true (drain u)
    · rfl
  · exact afterDrain_timerView false s
  · simp only [State.timerView]; split <;> rfl
  · simp only [State.timerView]; split <;> rfl
  · rfl
  · rfl
  · rfl
  · rfl
  · exact tickEnd_timerView _

theorem tickTurn_timerView (h : tickTurn s = .next t) : t.timerView = s.timerView := by
  unfold tickTurn at h
  split at h
  · obtain rfl := Host.Outcome.next.inj h; rfl
  · exact tickStep_timerView h

/-- A transition holds the timer, though it may begin to close the engine, or clears it as it opens or closes the engine. -/
def TimerMove (s t : State) : Prop :=
  (t.timerCnt = s.timerCnt ∧ t.opened = s.opened ∧ (t.closing = s.closing ∨ t.closing = true)) ∨
    (t.timerCnt = 0 ∧ t.opened ≠ s.opened)

theorem timerMove_of_view (h : t.timerView = s.timerView) : TimerMove s t :=
  .inl ⟨congrArg (·.2.2) h, congrArg (·.1) h, .inl (congrArg (·.2.1) h)⟩

theorem timerMove_of_views {s' t' : State} (h : TimerMove s t) (hs : s.timerView = s'.timerView)
    (ht : t'.timerView = t.timerView) : TimerMove s' t' := by
  simp only [State.timerView, Prod.mk.injEq] at hs ht
  obtain ⟨ho, hc, hn⟩ := hs
  obtain ⟨ho', hc', hn'⟩ := ht
  simpa only [TimerMove, ho, hc, hn, ho', hc', hn'] using h

theorem timerMove_of_freezeTo {body : State → State} (h : FreezeTo s body t)
    (hb : ∀ u, (body u).timerView = u.timerView) : TimerMove s t :=
  timerMove_of_view (freezeTo_view State.timerView h (settleBeats_timerView s) (fun _ => rfl) hb)

/-- Only `OPEN` and `CLOSE` move the timer (43 R272, R273). -/
theorem timerMove_commandTo (hq : Sequencer s) (h : CommandTo s i t) : TimerMove s t := by
  cases h with
  | resize _ _ hf => exact timerMove_of_freezeTo hf fun _ => rfl
  | readall _ _ _ hf => exact timerMove_of_freezeTo hf fun _ => rfl
  | engDone _ _ hf => exact timerMove_of_freezeTo hf fun _ => rfl
  | openFirst ho => exact .inr ⟨rfl, by simp [State.finish, ho]⟩
  | closeStart _ ho => exact .inl ⟨rfl, rfl, .inr rfl⟩
  | closeDone hp _ => exact .inr ⟨rfl, by simp [State.finish, (hq.leaving hp).2]⟩
  | tickRuns _ _ h => exact timerMove_of_view (tickStep_timerView h)
  | _ => exact timerMove_of_view rfl

theorem commandTurn_timerMove (hq : Sequencer s) (h : commandTurn s = .next t) : TimerMove s t := by
  unfold commandTurn at h
  split at h
  · obtain rfl := Host.Outcome.next.inj h; exact timerMove_of_view rfl
  split at h
  · rename_i hi
    exact timerMove_commandTo hq (command_cases (decodeWord_isCommand hi) h)
  · obtain rfl := Host.Outcome.next.inj h; exact timerMove_of_view rfl

theorem crossOverload_timerView (s : State) : (crossOverload s).timerView = s.timerView := by
  rw [crossOverload_frame]; rfl

/-- The transitions on an edge of `clk` before its timer. -/
theorem clkEdge_timerMove {host command tick : Bool} {v w : State} (hq : Sequencer s) (hr : s.rstC = false)
    (hu : (if host then hostTurn (crossBeats s) else .next (crossBeats s)) = .next u)
    (hv : (if command then (if u.initBusy then initTurn u else commandTurn u) else .next u) = .next v)
    (hw : (if tick then tickTurn v else .next v) = .next w) : TimerMove s (crossOverload w) := by
  have hcross : Sequencer (crossBeats s) := sequencer_stepClosed.cross s hq hr
  have hhost : Sequencer u ∧ u.timerView = s.timerView := by
    split at hu
    · exact ⟨(sequencer_stepClosed.hostTurn hcross hu).1, (hostTurn_timerView hu).trans (crossBeats_timerView s)⟩
    · obtain rfl := Host.Outcome.next.inj hu; exact ⟨hcross, crossBeats_timerView s⟩
  have hcommand : TimerMove u v := by
    split at hv
    · split at hv
      · obtain ⟨_, _, _, _, rfl⟩ := initTurn_frame hv; exact timerMove_of_view rfl
      · exact commandTurn_timerMove hhost.1 hv
    · obtain rfl := Host.Outcome.next.inj hv; exact timerMove_of_view rfl
  have htick : w.timerView = v.timerView := by
    split at hw
    · exact tickTurn_timerView hw
    · obtain rfl := Host.Outcome.next.inj hw; rfl
  exact timerMove_of_views hcommand hhost.2 ((crossOverload_timerView w).trans htick)

/-! ### The timer at the end of an edge -/

theorem timerEdge_holds {c : Bool} (h : c = false ∨ s.opened = false ∨ s.closing = true) : timerEdge c s = s := by
  rw [timerEdge, if_neg]
  obtain h | h | h := h <;> simp [h]

theorem timerEdge_counts (ho : s.opened = true) (hc : s.closing = false)
    (hlt : s.timerCnt.toNat + 1 < s.tickPeriod.toNat) : timerEdge true s = { s with timerCnt := s.timerCnt + 1 } := by
  rw [timerEdge, if_pos (by simp [ho, hc]), if_neg (by omega)]

theorem timerEdge_starts (ho : s.opened = true) (hc : s.closing = false)
    (hle : s.tickPeriod.toNat ≤ s.timerCnt.toNat + 1) (hidle : s.tickStage = .idle) :
    timerEdge true s = { s with timerCnt := 0, tickByCmd := false, tickStage := .drain } := by
  rw [timerEdge, if_pos (by simp [ho, hc]), if_pos hle, if_pos hidle]

theorem timerEdge_pends (ho : s.opened = true) (hc : s.closing = false)
    (hle : s.tickPeriod.toNat ≤ s.timerCnt.toNat + 1) (hbusy : s.tickStage ≠ .idle) :
    timerEdge true s = { s with timerCnt := 0, tickPending := true } := by
  rw [timerEdge, if_pos (by simp [ho, hc]), if_pos hle, if_neg hbusy]

/-- The end of an edge after transitions that left the engine Open: the timer counts, or expires (43 R301). -/
theorem timerEdge_open (ho : s.opened = true) (hc : s.closing = false) :
    (s.tickPeriod.toNat ≤ s.timerCnt.toNat + 1 →
      (timerEdge true s).timerCnt = 0 ∧
        ((timerEdge true s).tickStage = .drain ∧ (timerEdge true s).tickByCmd = false ∨
          (timerEdge true s).tickStage ≠ .idle ∧ (timerEdge true s).tickPending = true)) ∧
    (s.timerCnt.toNat + 1 < s.tickPeriod.toNat → (timerEdge true s).timerCnt = s.timerCnt + 1) := by
  refine ⟨fun hle => ?_, fun hlt => by rw [timerEdge_counts ho hc hlt]⟩
  by_cases hidle : s.tickStage = .idle
  · rw [timerEdge_starts ho hc hle hidle]; exact ⟨rfl, .inl ⟨rfl, rfl⟩⟩
  · rw [timerEdge_pends ho hc hle hidle]; exact ⟨rfl, .inr ⟨hidle, rfl⟩⟩

theorem timerEdge_lifecycle (c : Bool) (s : State) :
    (timerEdge c s).opened = s.opened ∧ (timerEdge c s).closing = s.closing ∧ (timerEdge c s).tickPeriod = s.tickPeriod := by
  obtain ⟨n, k, b, p, h⟩ := timerEdge_frame c s
  rw [h]; exact ⟨rfl, rfl, rfl⟩

/-- The timer after an edge alone (43 R300, R301). -/
theorem timerEdge_alone (ht : t = timerEdge (s.opened && !s.closing) s) :
    (s.opened = true → s.closing = false → s.tickPeriod.toNat ≤ s.timerCnt.toNat + 1 →
      t.timerCnt = 0 ∧
      (s.tickStage = .idle → t.tickStage = .drain ∧ t.tickByCmd = false ∧ t.tickPending = s.tickPending) ∧
      (s.tickStage ≠ .idle → t.tickStage = s.tickStage ∧ t.tickByCmd = s.tickByCmd ∧ t.tickPending = true)) ∧
    (s.opened = true → s.closing = false → s.timerCnt.toNat + 1 < s.tickPeriod.toNat →
      t.timerCnt = s.timerCnt + 1 ∧ t.tickStage = s.tickStage ∧ t.tickByCmd = s.tickByCmd ∧
        t.tickPending = s.tickPending) ∧
    (s.opened = false ∨ s.closing = true →
      t.timerCnt = s.timerCnt ∧ t.tickStage = s.tickStage ∧ t.tickByCmd = s.tickByCmd ∧
        t.tickPending = s.tickPending) := by
  have hcount : s.opened = true → s.closing = false → t = timerEdge true s := fun ho hc => by rw [ht, ho, hc]; rfl
  refine ⟨fun ho hc hle => ⟨?_, fun hidle => ?_, fun hbusy => ?_⟩, fun ho hc hlt => ?_, fun h => ?_⟩
  · rw [hcount ho hc]; exact ((timerEdge_open ho hc).1 hle).1
  · rw [hcount ho hc, timerEdge_starts ho hc hle hidle]; exact ⟨rfl, rfl, rfl⟩
  · rw [hcount ho hc, timerEdge_pends ho hc hle hbusy]; exact ⟨rfl, rfl, rfl⟩
  · rw [hcount ho hc, timerEdge_counts ho hc hlt]; exact ⟨rfl, rfl, rfl, rfl⟩
  · rw [ht, timerEdge_holds (.inr h)]; exact ⟨rfl, rfl, rfl, rfl⟩

/-- The timer after an edge whose transitions move it as `TimerMove` says. -/
theorem timerEdge_after (h : TimerMove s u) (ht : t = timerEdge (s.opened && !s.closing) u) :
    if s.opened = true ∧ s.closing = false ∧ t.opened = true ∧ t.closing = false then
      (t.tickPeriod.toNat ≤ s.timerCnt.toNat + 1 →
        t.timerCnt = 0 ∧ (t.tickStage = .drain ∧ t.tickByCmd = false ∨ t.tickStage ≠ .idle ∧ t.tickPending = true)) ∧
      (s.timerCnt.toNat + 1 < t.tickPeriod.toNat → t.timerCnt = s.timerCnt + 1)
    else t.timerCnt = s.timerCnt ∨ (t.timerCnt = 0 ∧ t.opened ≠ s.opened) := by
  obtain ⟨hopened, hclosing, hperiod⟩ := timerEdge_lifecycle (s.opened && !s.closing) u
  rw [← ht] at hopened hclosing hperiod
  rw [hopened, hclosing, hperiod]
  split_ifs with hopen
  · obtain ⟨ho, hc, ho', hc'⟩ := hopen
    obtain ⟨hn, -, -⟩ | ⟨-, hne⟩ := h
    · rw [ho, hc] at ht
      rw [ht, ← hn]
      exact timerEdge_open ho' hc'
    · exact absurd (ho'.trans ho.symm) hne
  · have hstops : (s.opened && !s.closing) = false ∨ u.opened = false ∨ u.closing = true := by
      by_contra hcounts
      simp only [not_or, Bool.not_eq_false, Bool.not_eq_true, Bool.and_eq_true, Bool.not_eq_true'] at hcounts
      obtain ⟨⟨ho, hc⟩, ho', hc'⟩ := hcounts
      exact hopen ⟨ho, hc, ho', hc'⟩
    rw [ht.trans (timerEdge_holds hstops)]
    exact h.imp (fun h => h.1) id

/-! ### Edges alone -/

/-- All that the timer reads and writes, with what else must hold for the next edge. -/
def State.clockView (s : State) : (Bool × Bool × Word × Word) × (TickStage × Bool × Bool) × Bool × List Turn :=
  ((s.opened, s.closing, s.timerCnt, s.tickPeriod), (s.tickStage, s.tickByCmd, s.tickPending), s.rstC, s.sched)

/-- What the timer does depends on what it reads. -/
theorem timerEdge_congr (c : Bool) (h : t.clockView = s.clockView) :
    (timerEdge c t).clockView = (timerEdge c s).clockView := by
  simp only [State.clockView, Prod.mk.injEq] at h ⊢
  unfold timerEdge
  obtain ⟨⟨ho, hc, hn, hp⟩, ⟨hk, hb, hq⟩, hr, hs⟩ := h
  simp only [ho, hc, hn, hp, hk]
  split_ifs <;> simp [*]

/-- An edge of `clk` with no other transition on it. -/
def edgeAlone (s : State) : State :=
  coreHandshake (timerEdge (s.opened && !s.closing) (crossOverload (crossBeats s)))

theorem step_edgeAlone {rest : List Turn} (hr : s.rstC = false) (hs : s.sched = .clkEdge false false false :: rest) :
    step s = .next (edgeAlone { s with sched := rest }) := by
  rw [step_scheduled hs]
  exact (clkEdgeTurn_eq_next (s := { s with sched := rest }) hr).mpr ⟨_, _, _, rfl, rfl, rfl, rfl⟩

/-- The crossings and the handshake on an edge leave the timer. -/
theorem edgeAlone_clockView (s : State) :
    (edgeAlone s).clockView = (timerEdge (s.opened && !s.closing) s).clockView := by
  refine timerEdge_congr _ (s := s) (t := crossOverload (crossBeats s)) ?_
  obtain ⟨a, g, w, q, c, h⟩ := crossBeats_frame s
  rw [crossOverload_frame, h]
  rfl

/-- The timer after `q` periods and `r` edges from an opening: a tick has started with the first period, and one is pending from
the second on. -/
structure Clocked (q r : Nat) (s : State) : Prop where
  reset : s.rstC = false
  opened : s.opened = true
  closing : s.closing = false
  count : s.timerCnt.toNat = r
  within : r < s.tickPeriod.toNat
  stage : s.tickStage = if q = 0 then .idle else .drain
  pending : s.tickPending = decide (2 ≤ q)

theorem clocked_congr (h : Clocked q r s) (hv : t.clockView = s.clockView) : Clocked q r t := by
  simp only [State.clockView, Prod.mk.injEq] at hv
  obtain ⟨⟨ho, hc, hn, hp⟩, ⟨hk, -, hq⟩, hr, -⟩ := hv
  obtain ⟨h1, h2, h3, h4, h5, h6, h7⟩ := h
  exact ⟨hr.trans h1, ho.trans h2, hc.trans h3, (congrArg BitVec.toNat hn).trans h4, hp ▸ h5, hk.trans h6, hq.trans h7⟩

/-- One more edge is one more in its period, or the end of that. -/
theorem clocked_timerEdge (h : Clocked q r s) :
    if r + 1 < s.tickPeriod.toNat then Clocked q (r + 1) (timerEdge true s) else Clocked (q + 1) 0 (timerEdge true s) := by
  obtain ⟨hr, ho, hc, hn, hp, hk, hq⟩ := h
  split
  · rename_i hlt
    have hcount : (s.timerCnt + 1).toNat = r + 1 := by
      rw [BitVec.toNat_add_of_lt (by have := s.tickPeriod.isLt; simp only [hn]; simp; omega), hn]
      rfl
    rw [timerEdge_counts ho hc (hn ▸ hlt)]
    exact ⟨hr, ho, hc, hcount, hlt, hk, hq⟩
  · rename_i hle
    have hle' : s.tickPeriod.toNat ≤ s.timerCnt.toNat + 1 := by omega
    have hpos : 0 < s.tickPeriod.toNat := by omega
    by_cases hq0 : q = 0
    · rw [timerEdge_starts ho hc hle' (by rw [hk, if_pos hq0])]
      exact ⟨hr, ho, hc, rfl, hpos, by rw [if_neg (by omega)], by rw [hq]; simp [hq0]⟩
    · rw [timerEdge_pends ho hc hle' (by simp [hk, hq0])]
      exact ⟨hr, ho, hc, rfl, hpos, by rw [hk, if_neg hq0, if_neg (by omega)], by simp; omega⟩

/-- `n` edges alone, with `q` periods and `r` edges before them. -/
theorem stepTimes_clocked (n : Nat) (hsched : s.sched = List.replicate n (.clkEdge false false false))
    (h : Clocked q r s) :
    ∃ t q' r', stepTimes n s = .next t ∧ Clocked q' r' t ∧ t.tickPeriod = s.tickPeriod ∧
      s.tickPeriod.toNat * q' + r' = s.tickPeriod.toNat * q + r + n := by
  induction n generalizing s q r with
  | zero => exact ⟨s, q, r, rfl, h, rfl, rfl⟩
  | succ n ih =>
    set s₀ : State := { s with sched := List.replicate n (.clkEdge false false false) } with hs₀
    have hview : (edgeAlone s₀).clockView = (timerEdge true s₀).clockView := by
      rw [edgeAlone_clockView, show (s₀.opened && !s₀.closing) = true by simp [hs₀, h.opened, h.closing]]
    have hedge := clocked_timerEdge (s := s₀) ⟨h.reset, h.opened, h.closing, h.count, h.within, h.stage, h.pending⟩
    have hperiod : (edgeAlone s₀).tickPeriod = s.tickPeriod :=
      (congrArg (·.1.2.2.2) hview).trans (timerEdge_lifecycle true s₀).2.2
    have hrest : (edgeAlone s₀).sched = List.replicate n (.clkEdge false false false) := by
      obtain ⟨m, k, b, p, hf⟩ := timerEdge_frame true s₀
      exact (congrArg (·.2.2.2) hview).trans (by rw [hf])
    rw [stepTimes, step_edgeAlone h.reset hsched, andThen_next]
    split at hedge
    · obtain ⟨t, q', r', ht, hc, hp, hsum⟩ := ih hrest (clocked_congr hedge hview)
      rw [hperiod] at hp hsum
      exact ⟨t, q', r', ht, hc, hp, by omega⟩
    · rename_i hend
      have hfull : r + 1 = s.tickPeriod.toNat := by have := h.within; simp only [hs₀] at hend; omega
      obtain ⟨t, q', r', ht, hc, hp, hsum⟩ := ih hrest (clocked_congr hedge hview)
      rw [hperiod] at hp hsum
      exact ⟨t, q', r', ht, hc, hp, by rw [hsum, Nat.mul_add]; omega⟩

/-- Settles O49: one edge by the branches of the timer, an edge with other transitions by what those leave of the timer, and edges
alone by induction, counting whole periods. -/
theorem timerExpiresEveryPeriod : Obligations.TimerExpiresEveryPeriod := by
  unfold Obligations.TimerExpiresEveryPeriod
  refine ⟨fun s rest hr hs => ⟨_, step_edgeAlone hr hs, ?alone⟩, fun s t host command tick rest hq hr hs hstep => ?shared,
    fun s n hr ho hc hn hp hk hpend hs => ?many⟩
  case alone =>
    have hview := edgeAlone_clockView { s with sched := rest }
    simp only [State.clockView, Prod.mk.injEq] at hview
    obtain ⟨⟨-, -, hcnt, -⟩, ⟨hstage, hcmd, hpend⟩, -, -⟩ := hview
    rw [hcnt, hstage, hcmd, hpend]
    exact timerEdge_alone (s := { s with sched := rest }) rfl
  case shared =>
    rw [step_scheduled hs] at hstep
    obtain ⟨u, v, w, hu, hv, hw, rfl⟩ := (clkEdgeTurn_eq_next (s := { s with sched := rest }) hr).mp hstep
    have hmove : TimerMove s (crossOverload w) :=
      clkEdge_timerMove (s := { s with sched := rest }) (sequencer_congr hq rfl) hr hu hv hw
    have hafter := timerEdge_after hmove rfl
    exact hafter
  case many =>
    have hpos : 0 < s.tickPeriod.toNat := by
      have := mt (BitVec.eq_of_toNat_eq (y := 0#32)) hp
      simpa [Nat.pos_iff_ne_zero] using this
    have hstart : Clocked 0 0 s := ⟨hr, ho, hc, by rw [hn]; rfl, hpos, hk, hpend⟩
    obtain ⟨t, q, r, ht, hclocked, hperiod, hsum⟩ := stepTimes_clocked n hs hstart
    have hlt : r < s.tickPeriod.toNat := hperiod ▸ hclocked.within
    have hsplit : n = s.tickPeriod.toNat * q + r := by omega
    have hq : n / s.tickPeriod.toNat = q := by rw [hsplit, Nat.mul_add_div hpos, Nat.div_eq_of_lt hlt, Nat.add_zero]
    refine ⟨t, ht, ?_, ?_, ?_⟩
    · rw [hclocked.count, hsplit, Nat.mul_add_mod, Nat.mod_eq_of_lt hlt]
    · rw [hclocked.stage, ← Nat.one_mul s.tickPeriod.toNat, ← Nat.le_div_iff_mul_le hpos, hq]
      split_ifs with h0 <;> simp <;> omega
    · rw [hclocked.pending, ← Nat.le_div_iff_mul_le hpos, hq, decide_eq_true_iff]

end Sys2Proof.Machine
end

section
/-! PROOFS. The magnitude converter (43 R278, R279): squares have no sign, sums of such have none either, and neither the logarithm
of such a sum nor five times it is a NaN. -/

namespace Sys2Proof.Machine

variable {a b x y : F32} {z : Sample}

/-- A product is a NaN only with a NaN or as an infinity times a zero (41 R222). -/
theorem isNaN_fmul_eq_false (ha : F32.isNaN a = false) (hb : F32.isNaN b = false)
    (h : F32.isInf a = true → F32.isZero b = false) (h' : F32.isInf b = true → F32.isZero a = false) :
    F32.isNaN (fmul a b) = false := by
  unfold fmul
  split_ifs with hnan hinf hzero
  · simp [ha, hb] at hnan
  · have hza : F32.isInf a = true → F32.isZero a = false := fun hi => (F32.not_nan_of_inf hi).2
    have hzb : F32.isInf b = true → F32.isZero b = false := fun hi => (F32.not_nan_of_inf hi).2
    simp only [Bool.or_eq_true] at hinf hzero
    obtain hi | hi := hinf
    · simp [h hi, hza hi] at hzero
    · simp [h' hi, hzb hi] at hzero
  · exact isNaN_withSign (Nat.le_refl _)
  · exact isNaN_withSign (roundMag_le _ _)

/-- A pattern that is neither a NaN nor negative. -/
structure F32.Unsigned (x : F32) : Prop where
  notNaN : F32.isNaN x = false
  sign : F32.sign x = false

theorem F32.fix_nonneg (h : F32.Unsigned x) : 0 ≤ F32.fix x := by simp [F32.fix, h.sign]

theorem unsigned_square (h : F32.isNaN x = false) : F32.Unsigned (fmul x x) := by
  have hzero : F32.isInf x = true → F32.isZero x = false := fun hi => (F32.not_nan_of_inf hi).2
  have hnan := isNaN_fmul_eq_false h h hzero hzero
  exact ⟨hnan, by rw [sign_fmul hnan, bne_self_eq_false]⟩

theorem unsigned_fadd (ha : F32.Unsigned a) (hb : F32.Unsigned b) : F32.Unsigned (fadd a b) := by
  have hsame : F32.sign a = F32.sign b := ha.sign.trans hb.sign.symm
  by_cases hia : F32.isInf a = true
  · rw [(fadd_inf hia hb.notNaN (.inr hsame)).1]; exact ha
  by_cases hib : F32.isInf b = true
  · rw [(fadd_inf hib ha.notNaN (.inr hsame.symm)).2]; exact hb
  rw [fadd_finite ha.notNaN (by simpa using hia) hb.notNaN (by simpa using hib)]
  have hfa := F32.fix_nonneg ha
  have hfb := F32.fix_nonneg hb
  split_ifs
  · exact ⟨isNaN_withSign (Nat.zero_le _), by rw [sign_withSign (by decide), ha.sign, Bool.false_and]⟩
  · exact ⟨isNaN_roundInt _ _, by rw [sign_roundInt]; exact decide_eq_false (by omega)⟩

/-- The logarithm of a pattern that is neither a NaN nor negative is no NaN (43 R279). -/
theorem isNaN_ln_eq_false (h : F32.Unsigned x) : F32.isNaN (ln x) = false := by
  unfold ln
  split_ifs with hnan _ hneg
  · simp [h.notNaN] at hnan
  · decide
  · simp [h.sign] at hneg
  · decide
  · decide
  · unfold roundEnclosed
    split_ifs <;> exact isNaN_roundInt _ _

/-! ### The sum of squares -/

/-- The sum that `MAGLOG` takes the logarithm of (43 R278). -/
def sumOfSquares (z : Sample) : F32 := fadd (fmul z.re z.re) (fmul z.im z.im)

theorem magLog_eq (z : Sample) : magLog z = fmul 0x40A00000 (ln (sumOfSquares z)) := rfl

theorem unsigned_sumOfSquares (hre : F32.isNaN z.re = false) (him : F32.isNaN z.im = false) :
    F32.Unsigned (sumOfSquares z) := unsigned_fadd (unsigned_square hre) (unsigned_square him)

theorem isNaN_sumOfSquares (z : Sample) :
    F32.isNaN (sumOfSquares z) = true ↔ F32.isNaN z.re = true ∨ F32.isNaN z.im = true := by
  have hqnan : F32.isNaN qnan = true := by decide
  refine ⟨fun h => ?_, fun h => ?_⟩
  · by_contra hnone
    simp only [not_or, Bool.not_eq_true] at hnone
    simp [(unsigned_sumOfSquares hnone.1 hnone.2).notNaN] at h
  · have hsquare : ∀ x, F32.isNaN x = true → F32.isNaN (fmul x x) = true := fun x hx => by
      rw [fmul_nan (.inl hx)]; exact hqnan
    rw [sumOfSquares, fadd_nan (h.imp (hsquare _) (hsquare _))]
    exact hqnan

theorem F32.eq_of_isZero (h : F32.isZero x = true) : x = withSign (F32.sign x) 0 := by
  simp only [F32.isZero, Bool.and_eq_true, beq_iff_eq] at h
  have hx := F32.eq_withSign x
  rw [h.1, h.2] at hx
  exact hx

theorem square_of_zero (h : F32.isZero x = true) : fmul x x = 0x00000000 := by
  have hzeros : ∀ neg : Bool, fmul (withSign neg 0) (withSign neg 0) = 0x00000000 := by decide
  rw [F32.eq_of_isZero h]
  exact hzeros _

theorem magLog_of_zero (h : sumOfSquares z = 0x00000000) : magLog z = 0xFF800000 := by
  rw [magLog_eq, h]; decide +kernel

/-- Settles O41: the operations' cases on squares, on sums of such, and on the logarithm of such a sum. -/
theorem magnitudeLogIsTotal : Obligations.MagnitudeLogIsTotal := by
  unfold Obligations.MagnitudeLogIsTotal
  intro z
  have hunsigned : F32.isNaN (sumOfSquares z) = false → F32.Unsigned (sumOfSquares z) := fun h => by
    have hnone := mt (isNaN_sumOfSquares z).mpr (Bool.not_eq_true _ ▸ h)
    simp only [not_or, Bool.not_eq_true] at hnone
    exact unsigned_sumOfSquares hnone.1 hnone.2
  refine ⟨magLog_eq z, ?_, (isNaN_sumOfSquares z).symm, fun (h : F32.isNaN (sumOfSquares z) = true) => ?_,
    magLog_of_zero, fun hre him => ?_, fun (h : sumOfSquares z = 0x7F800000) => ?_, fun h => ?_⟩
  · by_cases h : F32.isNaN (sumOfSquares z) = true
    · exact .inl h
    · exact .inr (hunsigned (by simpa using h)).sign
  · rw [magLog_eq, ln_nan h]; decide
  · have hsum : sumOfSquares z = 0x00000000 := by
      rw [sumOfSquares, square_of_zero hre, square_of_zero him]; decide
    exact ⟨hsum, magLog_of_zero hsum⟩
  · rw [magLog_eq, h]; decide +kernel
  · rw [magLog_eq]
    exact isNaN_fmul_eq_false (by decide) (isNaN_ln_eq_false (hunsigned h)) (fun hi => absurd hi (by decide))
      (fun _ => by decide)

end Sys2Proof.Machine
end

section
/-! PROOFS. The logarithm (43 R279; log 9): the series of its enclosure, the exponent and the significand that it is taken of, and
that away from 1 both ends of the enclosure are on one side of 0. -/

namespace Sys2Proof.Machine

variable {a b k : Nat} {x : F32}

/-! ### The series -/

/-- A quotient rounded down lies less than a unit below the exact one. -/
theorem natDiv_bounds (a b : Nat) : ((a / b : Nat) : ℝ) ≤ (a : ℝ) / b ∧ (a : ℝ) / b ≤ (a / b : Nat) + 1 := by
  refine ⟨Nat.cast_div_le, ?_⟩
  rw [← Nat.floor_div_eq_div (K := ℝ)]
  exact (Nat.lt_floor_add_one _).le

/-- The first `k` terms of the series of `artanh y`. -/
noncomputable def artanhSeries (y : ℝ) (k : Nat) : ℝ := ∑ j ∈ Finset.range k, y ^ (2 * j + 1) / (2 * j + 1)

theorem artanhSeries_succ (y : ℝ) (k : Nat) :
    artanhSeries y (k + 1) = artanhSeries y k + y ^ (2 * k + 1) / (2 * k + 1) := Finset.sum_range_succ _ _

/-- A sum of terms rounded down errs by one unit for each. -/
theorem artanhSum_bounds (a b k : Nat) :
    (artanhSum a b k : ℝ) ≤ 2 ^ 160 * (2 * artanhSeries (a / b) k) ∧
      2 ^ 160 * (2 * artanhSeries (a / b) k) ≤ artanhSum a b k + k := by
  induction k with
  | zero => simp [artanhSum, artanhSeries]
  | succ k ih =>
    obtain ⟨hlow, hhigh⟩ := ih
    obtain ⟨htermLow, htermHigh⟩ := natDiv_bounds (2 * 2 ^ encBits * a ^ (2 * k + 1)) ((2 * k + 1) * b ^ (2 * k + 1))
    have hterm : ((2 * 2 ^ encBits * a ^ (2 * k + 1) : Nat) : ℝ) / ((2 * k + 1) * b ^ (2 * k + 1) : Nat) =
        2 ^ 160 * (2 * ((a / b) ^ (2 * k + 1) / (2 * k + 1))) := by
      rw [div_pow, encBits]
      push_cast
      rw [div_div, mul_comm ((2 : ℝ) * k + 1)]
      ring
    rw [hterm] at htermLow htermHigh
    rw [artanhSum, artanhSeries_succ, Nat.cast_add, Nat.cast_succ]
    constructor <;> linarith

/-- After 51 terms the rest of the series is below one unit. -/
theorem artanhSeries_rest {y : ℝ} (h0 : 0 ≤ y) (h : y ≤ 1 / 3) :
    2 ^ 160 * (2 * (y ^ (2 * artanhTerms + 1) / (1 - y ^ 2))) ≤ 1 := by
  have hpow : y ^ (2 * artanhTerms + 1) ≤ (1 / 3) ^ (2 * artanhTerms + 1) := pow_le_pow_left₀ h0 h _
  have hsq : y ^ 2 ≤ (1 / 3) ^ 2 := pow_le_pow_left₀ h0 h 2
  calc (2 : ℝ) ^ 160 * (2 * (y ^ (2 * artanhTerms + 1) / (1 - y ^ 2)))
      ≤ 2 ^ 160 * (2 * ((1 / 3) ^ (2 * artanhTerms + 1) / (1 - (1 / 3) ^ 2))) := by
        gcongr
    _ ≤ 1 := by norm_num [artanhTerms]

/-- The sum encloses the logarithm of `(b + a) / (b - a)`. -/
theorem artanhSum_encloses (hb : 0 < b) (h : 3 * a ≤ b) :
    (artanhSum a b artanhTerms : ℝ) ≤ 2 ^ 160 * Real.log ((b + a) / (b - a)) ∧
      2 ^ 160 * Real.log ((b + a) / (b - a)) ≤ artanhSum a b artanhTerms + artanhSlack := by
  have hb' : (0 : ℝ) < b := by exact_mod_cast hb
  have h' : 3 * (a : ℝ) ≤ b := by exact_mod_cast h
  have h0 : (0 : ℝ) ≤ a / b := by positivity
  have h3 : (a : ℝ) / b ≤ 1 / 3 := by rw [div_le_div_iff₀ hb' (by norm_num)]; linarith
  have hratio : (1 + (a : ℝ) / b) / (1 - a / b) = (b + a) / (b - a) := by
    rw [one_add_div hb'.ne', one_sub_div hb'.ne', div_div_div_cancel_right₀ hb'.ne']
  have hlow := Real.sum_range_le_log_div h0 (by linarith) artanhTerms
  have hhigh := Real.log_div_le_sum_range_add h0 (by linarith) artanhTerms
  have hrest := artanhSeries_rest h0 h3
  obtain ⟨hsumLow, hsumHigh⟩ := artanhSum_bounds a b artanhTerms
  rw [hratio] at hlow hhigh
  rw [← artanhSeries] at hlow hhigh
  have hslack : (artanhSlack : ℝ) = artanhTerms + 1 := by norm_num [artanhSlack]
  rw [hslack]
  constructor <;> linarith

theorem ln2Low_encloses : (ln2Low : ℝ) ≤ 2 ^ 160 * Real.log 2 ∧ 2 ^ 160 * Real.log 2 ≤ ln2Low + artanhSlack := by
  have h := artanhSum_encloses (a := 1) (b := 3) (by decide) (by decide)
  rw [show ((3 : Nat) + (1 : Nat) : ℝ) / ((3 : Nat) - (1 : Nat)) = 2 by norm_num] at h
  exact h

/-- A number away from 1 has a logarithm away from 0. -/
theorem le_abs_log {y : ℝ} (hy : 0 < y) (h : 2⁻¹ ^ 24 ≤ |y - 1|) : 2⁻¹ ^ 25 ≤ |Real.log y| := by
  have hhalf : (2⁻¹ : ℝ) ^ 25 ≤ 2⁻¹ ^ 24 := by norm_num
  rcases le_abs.mp h with h | h
  · have hinv : y⁻¹ ≤ 1 - 2⁻¹ ^ 25 := by
      rw [inv_le_comm₀ hy (by norm_num)]
      exact le_trans (by norm_num) (le_sub_iff_add_le.mp h)
    have hlog := Real.one_sub_inv_le_log_of_pos hy
    exact le_abs.mpr (.inl (by linarith))
  · have hlog := Real.log_le_sub_one_of_pos hy
    exact le_abs.mpr (.inr (by linarith))

/-! ### The exponent and the significand -/

/-- The exponent of the leading bit of a finite pattern. -/
def lnExponent (x : F32) : Int := ((F32.signif x).log2 : Int) + (max (F32.expo x) 1 : Nat) - 150

/-- The significand of a finite pattern as a real number from 1 to 2. -/
noncomputable def lnMantissa (x : F32) : ℝ := (F32.signif x : ℝ) / 2 ^ (F32.signif x).log2

/-- The term of the enclosure that belongs to the significand. -/
def lnMantissaLow (x : F32) : Nat :=
  artanhSum (F32.signif x - 2 ^ (F32.signif x).log2) (F32.signif x + 2 ^ (F32.signif x).log2) artanhTerms

theorem lnBounds_eq (x : F32) :
    lnBounds x =
      if 0 ≤ lnExponent x then
        (lnExponent x * ln2Low + lnMantissaLow x,
          lnExponent x * (ln2Low + artanhSlack) + (lnMantissaLow x + artanhSlack))
      else
        (lnExponent x * (ln2Low + artanhSlack) + lnMantissaLow x,
          lnExponent x * ln2Low + (lnMantissaLow x + artanhSlack)) := rfl

theorem F32.fix_of_pos (h : 0 < F32.fix x) :
    F32.sign x = false ∧ F32.fix x = F32.signif x * 2 ^ (max (F32.expo x) 1 - 1) ∧ F32.signif x ≠ 0 := by
  have hsign : F32.sign x = false := by
    by_contra hs
    rw [F32.fix, if_pos (by simpa using hs)] at h
    omega
  have hfix : F32.fix x = F32.signif x * 2 ^ (max (F32.expo x) 1 - 1) := by
    rw [F32.fix, hsign, F32.mag]; push_cast; rfl
  refine ⟨hsign, hfix, fun h0 => ?_⟩
  rw [hfix, h0] at h
  simp at h

section Positive

variable (hn : F32.isNaN x = false) (hi : F32.isInf x = false) (h : 0 < F32.fix x)

include h in
theorem signif_between_powers : 2 ^ (F32.signif x).log2 ≤ F32.signif x ∧ F32.signif x ≤ 2 * 2 ^ (F32.signif x).log2 := by
  have hs := (F32.fix_of_pos h).2.2
  exact ⟨Nat.log2_self_le hs, by have := Nat.lt_log2_self (n := F32.signif x); rw [Nat.pow_succ] at this; omega⟩

include h in
/-- A positive value is its significand times a power of two. -/
theorem value_eq : (F32.fix x : ℝ) / 2 ^ 149 = lnMantissa x * 2 ^ lnExponent x := by
  have hexp : lnExponent x = (F32.signif x).log2 + (max (F32.expo x) 1 - 1 : Nat) - (149 : Nat) := by
    unfold lnExponent; omega
  rw [(F32.fix_of_pos h).2.1, hexp, lnMantissa, zpow_sub₀ two_ne_zero, zpow_add₀ two_ne_zero, zpow_natCast, zpow_natCast,
    zpow_natCast]
  push_cast
  field_simp

include h in
theorem one_le_lnMantissa : 1 ≤ lnMantissa x ∧ lnMantissa x ≤ 2 := by
  obtain ⟨hlow, hhigh⟩ := signif_between_powers h
  have hpow : (0 : ℝ) < 2 ^ (F32.signif x).log2 := by positivity
  rw [lnMantissa, le_div_iff₀ hpow, div_le_iff₀ hpow, one_mul]
  exact ⟨by exact_mod_cast hlow, by exact_mod_cast hhigh⟩

include h in
theorem log_value : Real.log ((F32.fix x : ℝ) / 2 ^ 149) = lnExponent x * Real.log 2 + Real.log (lnMantissa x) := by
  have hpos : 0 < lnMantissa x := zero_lt_one.trans_le (one_le_lnMantissa h).1
  rw [value_eq h, Real.log_mul hpos.ne' (by positivity), Real.log_zpow, add_comm]

include h in
theorem lnMantissaLow_encloses :
    (lnMantissaLow x : ℝ) ≤ 2 ^ 160 * Real.log (lnMantissa x) ∧
      2 ^ 160 * Real.log (lnMantissa x) ≤ lnMantissaLow x + artanhSlack := by
  obtain ⟨hlow, hhigh⟩ := signif_between_powers h
  have hpow := Nat.two_pow_pos (F32.signif x).log2
  have hencloses := artanhSum_encloses (a := F32.signif x - 2 ^ (F32.signif x).log2)
    (b := F32.signif x + 2 ^ (F32.signif x).log2) (by omega) (by omega)
  have hratio : (((F32.signif x + 2 ^ (F32.signif x).log2 : Nat) : ℝ) + (F32.signif x - 2 ^ (F32.signif x).log2 : Nat)) /
      (((F32.signif x + 2 ^ (F32.signif x).log2 : Nat) : ℝ) - (F32.signif x - 2 ^ (F32.signif x).log2 : Nat)) =
        lnMantissa x := by
    rw [Nat.cast_sub hlow, lnMantissa]
    push_cast
    rw [add_add_sub_cancel, add_sub_sub_cancel, ← two_mul, ← two_mul, mul_div_mul_left _ _ two_ne_zero]
  rwa [hratio] at hencloses

include h in
/-- The enclosure holds the exact logarithm. -/
theorem lnBounds_encloses :
    ((lnBounds x).1 : ℝ) ≤ 2 ^ 160 * Real.log ((F32.fix x : ℝ) / 2 ^ 149) ∧
      2 ^ 160 * Real.log ((F32.fix x : ℝ) / 2 ^ 149) ≤ ((lnBounds x).2 : ℝ) := by
  obtain ⟨htwoLow, htwoHigh⟩ := ln2Low_encloses
  obtain ⟨hmLow, hmHigh⟩ := lnMantissaLow_encloses h
  rw [log_value h, mul_add, mul_left_comm, lnBounds_eq]
  split_ifs with he
  · have he' : (0 : ℝ) ≤ lnExponent x := by exact_mod_cast he
    have h1 := mul_le_mul_of_nonneg_left htwoLow he'
    have h2 := mul_le_mul_of_nonneg_left htwoHigh he'
    push_cast
    constructor <;> linarith
  · have he' : (lnExponent x : ℝ) ≤ 0 := by exact_mod_cast (not_le.mp he).le
    have h1 := mul_le_mul_of_nonpos_left htwoLow he'
    have h2 := mul_le_mul_of_nonpos_left htwoHigh he'
    push_cast
    constructor <;> linarith

/-! ### The ends of the enclosure -/

include hn hi h in
theorem lnExponent_bounds : -149 ≤ lnExponent x ∧ lnExponent x ≤ 127 := by
  have hexpo := F32.expo_lt_of_finite hn hi
  have hlog : (F32.signif x).log2 < 24 := (Nat.log2_lt (F32.fix_of_pos h).2.2).mpr (F32.signif_lt x)
  unfold lnExponent
  omega

include hn hi h in
/-- The enclosure is at most 7852 units wide. -/
theorem lnBounds_width : (lnBounds x).2 ≤ (lnBounds x).1 + 7852 := by
  have hbounds := lnExponent_bounds hn hi h
  have hslack : (artanhSlack : Int) = 52 := rfl
  rw [lnBounds_eq, hslack]
  split_ifs
  · simp only; linarith
  · simp only; linarith

include hn hi h in
theorem abs_log_value_le : |Real.log ((F32.fix x : ℝ) / 2 ^ 149)| ≤ 150 := by
  obtain ⟨h1, h2⟩ := one_le_lnMantissa h
  obtain ⟨he1, he2⟩ := lnExponent_bounds hn hi h
  have hlog0 := Real.log_nonneg h1
  have hlog2 := Real.log_le_log (zero_lt_one.trans_le h1) h2
  have htwo := Real.log_two_lt_d9
  have htwo0 := Real.log_two_gt_d9
  have he1' : (-149 : ℝ) ≤ lnExponent x := by exact_mod_cast he1
  have he2' : (lnExponent x : ℝ) ≤ 127 := by exact_mod_cast he2
  rw [log_value h, abs_le]
  constructor <;> nlinarith

include h in
/-- The values other than 1 lie away from it. -/
theorem eq_one_of_near (hnear : |F32.fix x - 2 ^ 149| < 2 ^ 125) : x = 0x3F800000 := by
  obtain ⟨hsign, hfix, -⟩ := F32.fix_of_pos h
  have hlt := F32.signif_lt x
  rw [abs_lt, hfix] at hnear
  obtain ⟨hlow, hhigh⟩ := hnear
  rcases Nat.lt_or_ge (max (F32.expo x) 1 - 1) 126 with hp | hp
  · -- below 1, at most the largest significand of the place below
    have hpow : 2 ^ (max (F32.expo x) 1 - 1) ≤ 2 ^ 125 := Nat.pow_le_pow_right (by decide) (by omega)
    have hle : F32.signif x * 2 ^ (max (F32.expo x) 1 - 1) ≤ (2 ^ 24 - 1) * 2 ^ 125 := Nat.mul_le_mul (by omega) hpow
    zify at hle
    norm_num at hle hlow
    omega
  · -- from 1 on, the significand has its hidden bit
    have hsignif : F32.signif x = F32.frac x + 2 ^ 23 := if_neg (by omega)
    have hplace : max (F32.expo x) 1 - 1 < 127 := by
      by_contra hge
      have hpow : 2 ^ 127 ≤ 2 ^ (max (F32.expo x) 1 - 1) := Nat.pow_le_pow_right (by decide) (by omega)
      have hle : 2 ^ 23 * 2 ^ 127 ≤ F32.signif x * 2 ^ (max (F32.expo x) 1 - 1) := Nat.mul_le_mul (by omega) hpow
      zify at hle
      norm_num at hle hhigh
      omega
    have hexpo : F32.expo x = 127 := by omega
    have hfrac : F32.frac x = 0 := by
      rw [hsignif, hexpo] at hhigh
      norm_num at hhigh
      omega
    rw [F32.eq_withSign x, hsign, hexpo, hfrac]
    rfl

include h in
/-- Away from 1 the logarithm is away from 0, by far more than the width of the enclosure. -/
theorem log_value_far (h1 : x ≠ 0x3F800000) : 2 ^ 135 ≤ |2 ^ 160 * Real.log ((F32.fix x : ℝ) / 2 ^ 149)| := by
  have hfar : (2 : ℝ) ^ 125 ≤ |(F32.fix x : ℝ) - 2 ^ 149| := by
    exact_mod_cast not_lt.mp (mt (eq_one_of_near h) h1)
  have hvalue : (F32.fix x : ℝ) / 2 ^ 149 - 1 = ((F32.fix x : ℝ) - 2 ^ 149) / 2 ^ 149 := by rw [sub_div, div_self]; positivity
  have hpos : (0 : ℝ) < F32.fix x := by exact_mod_cast h
  have hlog := le_abs_log (y := (F32.fix x : ℝ) / 2 ^ 149) (by positivity) (by
    rw [hvalue, abs_div, abs_of_pos (a := (2 : ℝ) ^ 149) (by positivity), le_div_iff₀ (by positivity)]
    exact le_trans (by norm_num) hfar)
  rw [abs_mul, abs_of_pos (by positivity)]
  exact le_trans (by norm_num) (mul_le_mul_of_nonneg_left hlog (by positivity))

include hn hi h in
/-- Both ends of the enclosure are on one side of 0, unless the value is 1. -/
theorem lnBounds_ne_zero (h1 : x ≠ 0x3F800000) : (lnBounds x).1 ≠ 0 ∧ (lnBounds x).2 ≠ 0 := by
  obtain ⟨hlow, hhigh⟩ := lnBounds_encloses h
  have hwidth : ((lnBounds x).2 : ℝ) ≤ (lnBounds x).1 + 7852 := by exact_mod_cast lnBounds_width hn hi h
  have hunits : (7852 : ℝ) < 2 ^ 135 := by norm_num
  rcases le_abs.mp (log_value_far h h1) with hside | hside
  · have hl : (0 : ℝ) < (lnBounds x).1 := by linarith
    have hh : (0 : ℝ) < (lnBounds x).2 := by linarith
    exact ⟨by exact_mod_cast hl.ne', by exact_mod_cast hh.ne'⟩
  · have hl : ((lnBounds x).1 : ℝ) < 0 := by linarith
    have hh : ((lnBounds x).2 : ℝ) < 0 := by linarith
    exact ⟨by exact_mod_cast hl.ne, by exact_mod_cast hh.ne⟩

include hn hi h in
theorem isInf_lnBounds_low (h0 : (lnBounds x).1 ≠ 0) : F32.isInf (roundInt encBits (lnBounds x).1) = false := by
  obtain ⟨hlow, hhigh⟩ := lnBounds_encloses h
  obtain ⟨hleast, hmost⟩ := abs_le.mp (abs_log_value_le hn hi h)
  have hwidth : ((lnBounds x).2 : ℝ) ≤ (lnBounds x).1 + 7852 := by exact_mod_cast lnBounds_width hn hi h
  have habove : ((lnBounds x).1 : ℝ) ≤ 2 ^ 168 := hlow.trans (by linarith)
  have hbelow : (-2 ^ 168 : ℝ) ≤ (lnBounds x).1 := by linarith
  have habove' : (lnBounds x).1 ≤ 2 ^ 168 := by exact_mod_cast habove
  have hbelow' : -2 ^ 168 ≤ (lnBounds x).1 := by exact_mod_cast hbelow
  rw [← Bool.not_eq_true, isInf_roundInt (by decide) h0]
  simp only [encBits]
  omega

include hn hi h in
theorem ln_eq_roundEnclosed (h1 : x ≠ 0x3F800000) :
    ln x = roundEnclosed (lnBounds x).1 (lnBounds x).2 (Config.lnUpper x) := by
  obtain ⟨hsign, -, hsignif⟩ := F32.fix_of_pos h
  have hzero : F32.isZero x = false := by
    simp only [F32.isZero, Bool.and_eq_false_iff, beq_eq_false_iff_ne]
    by_contra hboth
    simp only [not_or, not_not] at hboth
    exact hsignif (by rw [F32.signif, if_pos hboth.1, hboth.2])
  simp only [ln, hn, hi, hsign, hzero, Bool.false_eq_true, if_false, if_neg h1]

include hn hi h in
/-- Where both ends round to one pattern, no pattern is nearer to the exact logarithm than that. -/
theorem ln_nearest (hround : roundInt encBits (lnBounds x).1 = roundInt encBits (lnBounds x).2) (y : F32) :
    |(F32.fix (ln x) : ℝ) / 2 ^ 149 - Real.log ((F32.fix x : ℝ) / 2 ^ 149)| ≤
      |(F32.fix y : ℝ) / 2 ^ 149 - Real.log ((F32.fix x : ℝ) / 2 ^ 149)| := by
  by_cases h1 : x = 0x3F800000
  · have hone : F32.fix 0x3F800000 = 2 ^ 149 := by decide
    have hln : F32.fix (ln 0x3F800000) = 0 := by decide
    have hvalue : (F32.fix 0x3F800000 : ℝ) / 2 ^ 149 = 1 := by rw [hone]; norm_num
    rw [h1, hvalue, hln, Real.log_one]
    simp
  · obtain ⟨hlow, hhigh⟩ := lnBounds_encloses h
    obtain ⟨hl0, hh0⟩ := lnBounds_ne_zero hn hi h h1
    rw [ln_eq_roundEnclosed hn hi h h1, roundEnclosed_eq hround]
    exact nearest_of_enclosed (by decide) hl0 hh0 hlow hhigh rfl hround.symm (isInf_lnBounds_low hn hi h hl0) y

end Positive

/-! ### The table of 43 R279 -/

theorem ln_negative (hs : F32.sign x = true) (hz : F32.isZero x = false) : ln x = qnan := by
  simp [ln, hs, hz]

/-- Settles O42: the table by the cases of the definition, the enclosure by its series, and the nearest pattern by its ends. -/
theorem logarithmIsNearest : Obligations.LogarithmIsNearest := by
  unfold Obligations.LogarithmIsNearest
  refine ⟨by decide, by decide, by decide, by decide, fun x h => ?_, fun x hn hi h => ?_⟩
  · obtain hnan | ⟨hs, hz⟩ := h
    · exact ln_nan hnan
    · exact ln_negative hs hz
  · obtain ⟨hlow, hhigh⟩ := lnBounds_encloses h
    exact ⟨hlow, hhigh, fun hround y _ _ => ln_nearest hn hi h hround y⟩

end Sys2Proof.Machine
end

section
/-! PROOFS. The two interrupts and their events (43 R312, R321; 60 R350-R352). Every turn is a transition of the engine's paths that
is silent or publishes, and then at most one crossing of the overload channel. -/

namespace Sys2Proof.Machine

open Sys2Proof.Safety

variable {s t u v w : State} {i : Instr}

/-! ### What happens to the interrupts in a transition -/

/-- No interrupt is raised, and neither a tick nor an overload change is counted. A host access may clear an interrupt. -/
structure Silent (s t : State) : Prop where
  irq : ∀ k, t.irqStatus.getLsbD k = true → s.irqStatus.getLsbD k = true
  count : t.tickCount = s.tickCount
  changes : t.ovlCnt = s.ovlCnt

/-- A tick publishes (43 R312). -/
structure Publication (s t : State) : Prop where
  stage : s.tickStage = .publish
  count : t.tickCount = s.tickCount + 1
  valid : t.snapValid = true
  spec : t.irqStatus.getLsbD 0 = true
  overload : t.irqStatus.getLsbD 1 = true → s.irqStatus.getLsbD 1 = true
  changes : t.ovlCnt = s.ovlCnt

/-- What the engine's paths do to the interrupts. -/
def EngineEvent (s t : State) : Prop := Silent s t ∨ Publication s t

/-- What the overload channel does to the interrupts: it raises `OVL` only as it counts a change (43 R321). -/
structure OverloadEvent (s t : State) : Prop where
  count : t.tickCount = s.tickCount
  valid : t.snapValid = s.snapValid
  spec : t.irqStatus.getLsbD 0 = s.irqStatus.getLsbD 0
  overload : s.irqStatus.getLsbD 1 = false → t.irqStatus.getLsbD 1 = true → t.ovlCnt ≠ s.ovlCnt

/-- The elements that the events change, but for `SNAP_VALID`. -/
def State.eventView (s : State) : BitVec 2 × Word × Nat := (s.irqStatus, s.tickCount, s.ovlCnt)

theorem silent_of_view (h : t.eventView = s.eventView) : Silent s t := by
  simp only [State.eventView, Prod.mk.injEq] at h
  obtain ⟨hirq, hcount, hchanges⟩ := h
  exact ⟨fun k hk => hirq ▸ hk, hcount, hchanges⟩

theorem Silent.trans (h : Silent s u) (h' : Silent u t) : Silent s t where
  irq k hk := h.irq k (h'.irq k hk)
  count := h'.count.trans h.count
  changes := h'.changes.trans h.changes

theorem Publication.after_silent (h : Silent s u) (hstage : u.tickStage = s.tickStage) (h' : Publication u t) :
    Publication s t where
  stage := hstage ▸ h'.stage
  count := h'.count.trans (congrArg (· + 1) h.count)
  valid := h'.valid
  spec := h'.spec
  overload hk := h.irq 1 (h'.overload hk)
  changes := h'.changes.trans h.changes

theorem EngineEvent.after_silent (h : Silent s u) (hstage : u.tickStage = s.tickStage) (h' : EngineEvent u t) :
    EngineEvent s t :=
  h'.imp h.trans (Publication.after_silent h hstage)

theorem overloadEvent_refl (s : State) : OverloadEvent s s where
  count := rfl
  valid := rfl
  spec := rfl
  overload h h' := absurd (h.symm.trans h') Bool.false_ne_true

/-- The three clauses of the statement about a step. -/
structure EventsCaused (s t : State) : Prop where
  spec : s.irqStatus.getLsbD 0 = false → t.irqStatus.getLsbD 0 = true →
    s.tickStage = .publish ∧ t.tickCount = s.tickCount + 1 ∧ t.snapValid = true
  overload : s.irqStatus.getLsbD 1 = false → t.irqStatus.getLsbD 1 = true → t.ovlCnt ≠ s.ovlCnt
  count : t.tickCount ≠ s.tickCount → s.tickStage = .publish ∧ t.irqStatus.getLsbD 0 = true

theorem eventsCaused_of_silent (h : Silent s u) (h' : OverloadEvent u t) : EventsCaused s t where
  spec h0 h1 := absurd (h0.symm.trans (h.irq 0 (h'.spec ▸ h1))) Bool.false_ne_true
  overload h0 h1 := by
    have hu : u.irqStatus.getLsbD 1 = false := Bool.eq_false_iff.mpr fun hu => by
      rw [h.irq 1 hu] at h0; cases h0
    exact h.changes ▸ h'.overload hu h1
  count hne := absurd (h'.count.trans h.count) hne

theorem eventsCaused_of_publication (h : Publication s u) (h' : OverloadEvent u t) : EventsCaused s t where
  spec _ _ := ⟨h.stage, h'.count.trans h.count, h'.valid.trans h.valid⟩
  overload h0 h1 := by
    have hu : u.irqStatus.getLsbD 1 = false := Bool.eq_false_iff.mpr fun hu => by
      rw [h.overload hu] at h0; cases h0
    exact h.changes ▸ h'.overload hu h1
  count _ := ⟨h.stage, h'.spec.trans h.spec⟩

/-! ### The ports, the initialisation and the handshake are silent -/

/-- The host can clear an interrupt and raise none (60 R353). -/
theorem silent_writeReg (s : State) (v : Word) (r : Reg) : Silent s (s.writeReg v r) := by
  cases r with
  | irqStatus =>
    refine ⟨fun k hk => ?_, rfl, rfl⟩
    simp only [State.writeReg, clearOnes, BitVec.getLsbD_and, Bool.and_eq_true] at hk
    exact hk.1
  | cmd =>
    simp only [State.writeReg]
    unfold issueCommand
    split <;> exact silent_of_view rfl
  | snaplock =>
    simp only [State.writeReg]
    rw [lockWrite_eq]
    exact silent_of_view rfl
  | _ => exact silent_of_view rfl

theorem silent_hostTurn (h : hostTurn s = .next t) : Silent s t := by
  unfold hostTurn at h
  split at h
  · obtain rfl := Host.Outcome.next.inj h; exact silent_of_view rfl
  rename_i q _
  split at h
  · obtain rfl := Host.Outcome.next.inj h; exact silent_of_view rfl
  split at h
  · rename_i hi
    obtain ⟨a, rfl⟩ | ⟨a, v, b, rfl⟩ := decodeBus_eq_ok hi
    · obtain ⟨_, -, rfl⟩ | ⟨-, rfl⟩ := execBusRead_eq_next.mp h <;> exact silent_of_view rfl
    · obtain ⟨r, -, rfl⟩ | ⟨_, _, -, -, -, rfl⟩ | ⟨-, rfl⟩ := execBusWrite_eq_next.mp h
      · have hoffer : Silent s { s with busQ := q } := silent_of_view rfl
        exact hoffer.trans (silent_writeReg _ v r)
      · exact silent_of_view rfl
      · exact silent_of_view rfl
  · obtain rfl := Host.Outcome.next.inj h; exact silent_of_view rfl

/-- What the acceptance of a beat writes (40 R170). -/
theorem acceptBeat_frame {x : Sample} (h : acceptBeat x s = .next t) :
    ∃ c g m, t = { s with wptrW := c, wptrG := g, rbmem := m } := by
  obtain ⟨-, rfl⟩ | ⟨-, -, rfl⟩ := acceptBeat_eq_next.mp h <;> exact ⟨_, _, _, rfl⟩

theorem beatTurn_eventView (h : beatTurn s = .next t) : t.eventView = s.eventView := by
  unfold beatTurn at h
  split at h
  · obtain rfl := Host.Outcome.next.inj h; rfl
  split at h
  · obtain rfl := Host.Outcome.next.inj h; rfl
  split at h
  · rename_i hi
    obtain ⟨-, rfl⟩ := decodeSample_eq_ok hi
    split at h
    · obtain ⟨-, rfl⟩ | ⟨-, u, hu, rfl⟩ := exec_put_eq_next.mp h
      · rfl
      · obtain ⟨_, _, _, rfl⟩ := acceptBeat_frame hu
        obtain ⟨a, g, w, q, c, hsettle⟩ := settleBeats_frame _
        rw [hsettle]; rfl
    · obtain rfl := Host.Outcome.next.inj h; rfl
  · obtain rfl := Host.Outcome.next.inj h; rfl

theorem overloadEdge_eventView (h : overloadEdge s = .next t) : t.eventView = s.eventView := by
  unfold overloadEdge at h
  split at h
  · obtain rfl := Host.Outcome.next.inj h; rfl
  split at h
  · rename_i hi
    obtain ⟨-, rfl⟩ := decodeOverload_eq_ok hi
    obtain ⟨-, rfl⟩ | ⟨-, ⟨-, rfl⟩ | ⟨-, -, rfl⟩⟩ := exec_ovlset_eq_next.mp h <;> rfl
  · obtain rfl := Host.Outcome.next.inj h; rfl

/-- What the sample channel writes at an edge of `wr_clk` (30 R139, 40 R170). -/
theorem sampleEdge_writes (h : sampleEdge s = .next t) : ∃ q c g m, t = s.withSample q c g m := by
  unfold sampleEdge at h
  split at h
  · exact ⟨_, _, _, _, (Host.Outcome.next.inj h).symm⟩
  split at h
  · exact ⟨_, _, _, _, (Host.Outcome.next.inj h).symm⟩
  split at h
  · obtain ⟨_, _, _, rfl⟩ := acceptBeat_frame h
    exact ⟨_, _, _, _, rfl⟩
  · exact ⟨_, _, _, _, (Host.Outcome.next.inj h).symm⟩

theorem producerEdge_eventView (s : State) : (producerEdge s).eventView = s.eventView := by
  unfold producerEdge
  split
  · split <;> rfl
  · rw [producerHandshake_eq]; rfl

theorem wrEdgeTurn_eventView (h : wrEdgeTurn s = .next t) : t.eventView = s.eventView := by
  unfold wrEdgeTurn at h
  split at h
  · obtain rfl := Host.Outcome.next.inj h; rfl
  · obtain ⟨u, hu, h⟩ := andThen_eq_next.mp h
    obtain ⟨v, hv, hu⟩ := andThen_eq_next.mp hu
    obtain rfl := Host.Outcome.next.inj h
    obtain ⟨_, _, _, _, rfl⟩ := sampleEdge_writes hv
    have hoverload := overloadEdge_eventView hu
    exact (producerEdge_eventView u).trans hoverload

theorem freezeTurn_eventView (h : freezeTurn s = .next t) : t.eventView = s.eventView := by
  unfold freezeTurn at h
  split at h
  · obtain rfl := Host.Outcome.next.inj h; rfl
  split at h
  · obtain rfl := Host.Outcome.next.inj h
    unfold requestFreeze
    split
    · rfl
    · split <;> rfl
  · obtain rfl := Host.Outcome.next.inj h; rfl

/-- A port's turn, an edge of `wr_clk`, and what the initialisation and the platform do. -/
theorem silent_takeTurn {k : Turn} (hk : k.movesEngine = false) (hcross : k ≠ .overloadCross)
    (h : takeTurn k s = .next t) : Silent s t := by
  cases k with
  | host => exact silent_hostTurn h
  | beat => exact silent_of_view (beatTurn_eventView h)
  | overload =>
    simp only [takeTurn, overloadTurn] at h
    split at h
    · obtain rfl := Host.Outcome.next.inj h; exact silent_of_view rfl
    · exact silent_of_view (overloadEdge_eventView h)
  | init =>
    obtain ⟨_, _, _, _, rfl⟩ := initTurn_frame h
    exact silent_of_view rfl
  | freeze => exact silent_of_view (freezeTurn_eventView h)
  | wrEdge => exact silent_of_view (wrEdgeTurn_eventView h)
  | beatCross =>
    obtain rfl := Host.Outcome.next.inj h
    refine silent_of_view ?_
    split
    · rfl
    · rw [crossOneBeat_eq]; split <;> rfl
  | overloadCross => exact absurd rfl hcross
  | wrStop | wrStart | rstRelease => obtain rfl := Host.Outcome.next.inj h; exact silent_of_view rfl
  | command | tick | clkEdge | rstAssert => cases hk

/-! ### The overload channel -/

theorem counterNext_ne {cw c a : Nat} (h : counterDelta cw a c ≠ 0) : counterNext cw c ≠ c := fun heq => by
  have hlt : c < 2 ^ cw := heq ▸ counterNext_lt cw c
  obtain rfl | hpos := Nat.eq_zero_or_pos cw
  · exact h (Nat.mod_one _)
  · exact counterNext_ne_self hpos hlt heq

theorem overloadEvent_crossOneChange (s : State) : OverloadEvent s (crossOneChange s) := by
  rw [crossOneChange_eq]
  split
  · exact overloadEvent_refl s
  · rename_i hflight
    exact ⟨rfl, rfl, by simp, fun _ _ => counterNext_ne hflight⟩

/-- The end of an edge of `clk`: the overload channel crosses, and the timer and the handshake raise nothing. -/
theorem overloadEvent_edgeEnd (c : Bool) (s : State) :
    OverloadEvent s (coreHandshake (timerEdge c (crossOverload s))) := by
  obtain ⟨n, k, b, p, h⟩ := timerEdge_frame c (crossOverload s)
  rw [h, crossOverload_frame]
  refine ⟨rfl, rfl, ?_, fun h0 h1 heq => ?_⟩
  · simp only [coreHandshake]
    split <;> simp
  · simp only [coreHandshake] at h1 heq
    rw [if_neg (not_not.mpr heq), h0] at h1
    cases h1

/-! ### The engine's paths -/

/-- A stage of the tick path raises nothing and counts nothing, but for the publication (43 R305-R313). -/
theorem tickStep_publishes (h : tickStep s = .next t) :
    (t.eventView, t.busy) = (s.eventView, s.busy) ∨ (s.tickStage = .publish ∧ t = publish s) := by
  rcases tickStep_eq_next.mp h with ⟨-, rfl⟩ | ⟨-, -, -, hd⟩ | ⟨-, -, rfl⟩ | ⟨-, rfl⟩ | ⟨-, rfl⟩ | ⟨-, rfl⟩ |
    ⟨-, -, rfl⟩ | ⟨-, -, rfl⟩ | ⟨_, -, rfl⟩ | ⟨ht, rfl⟩
  · exact .inl rfl
  · obtain hf | ⟨-, rfl⟩ := freezeTo_or_wait hd
    · refine .inl (freezeTo_view (fun u => (u.eventView, u.busy)) hf ?_ (fun _ => rfl) fun u => ?_)
      · obtain ⟨a, g, w, q, c, hs⟩ := settleBeats_frame s
        rw [hs]; rfl
      · obtain ⟨k, p, ha⟩ := afterDrain_frame true (drain u)
        rw [ha]; rfl
    · exact .inl rfl
  · obtain ⟨k, p, ha⟩ := afterDrain_frame false s
    rw [ha]; exact .inl rfl
  · split <;> exact .inl rfl
  · split <;> exact .inl rfl
  · exact .inl rfl
  · exact .inl rfl
  · exact .inl rfl
  · exact .inl rfl
  · exact .inr ⟨ht, rfl⟩

theorem publication_publish (ht : s.tickStage = .publish) : Publication s (publish s) := by
  obtain ⟨k, p, h⟩ := publish_frame s
  rw [h]
  exact ⟨ht, rfl, rfl, by simp, fun hk => by simpa using hk, rfl⟩

theorem engineEvent_tickStep (h : tickStep s = .next t) : EngineEvent s t := by
  obtain hview | ⟨ht, rfl⟩ := tickStep_publishes h
  · exact .inl (silent_of_view (congrArg Prod.fst hview))
  · exact .inr (publication_publish ht)

/-- The tick path's own turn; none while `TICK_ONCE` runs its tick (43 R270). -/
theorem engineEvent_tickTurn (h : tickTurn s = .next t) :
    EngineEvent s t ∧ (s.tickByCmd = true → t = s) := by
  unfold tickTurn at h
  split at h
  · obtain rfl := Host.Outcome.next.inj h
    exact ⟨.inl (silent_of_view rfl), fun _ => rfl⟩
  · rename_i hn
    exact ⟨engineEvent_tickStep h, fun hby => absurd (by rw [hby, Bool.or_true]) hn⟩

/-- What the command path does to the interrupts, and to the stage from which the tick path goes on: nothing, unless it is
`TICK_ONCE`, whose tick has no stage on the tick path (43 R270). -/
def CommandEvent (s t : State) : Prop :=
  (Silent s t ∧ t.tickStage = s.tickStage) ∨ (EngineEvent s t ∧ t.tickByCmd = true)

theorem CommandEvent.engineEvent (h : CommandEvent s t) : EngineEvent s t :=
  h.elim (fun h => .inl h.1) (·.1)

theorem commandEvent_commandTo (hby : s.cmdPhase = .tickWait → s.tickByCmd = true) (h : CommandTo s i t) :
    CommandEvent s t := by
  by_cases hi : i = .tickOnce
  · subst hi
    cases h with
    | tickStart => exact .inr ⟨.inl (silent_of_view rfl), rfl⟩
    | tickRuns hp _ ht => exact .inr ⟨engineEvent_tickStep ht, (tickStep_tickByCmd ht).trans (hby hp)⟩
    | sizeError hi | sizeMismatch hi => cases hi
    | fillStart hi | fill hi => simp at hi
    | wrongState | freezeWait | tickDone => exact .inl ⟨silent_of_view rfl, rfl⟩
  · obtain ⟨hkept, hresult, -, -⟩ := command_leaves h
    have hresult := hresult hi
    have hchanges : t.ovlCnt = s.ovlCnt := congrArg (·.2.2.2.2.2.1) hkept
    simp only [State.tickResult, Prod.mk.injEq] at hresult
    obtain ⟨hirq, hcount, hstage, -⟩ := hresult
    exact .inl ⟨silent_of_view (by rw [State.eventView, hirq, hcount, hchanges]; rfl), hstage⟩

theorem commandEvent_commandTurn (hby : s.cmdPhase = .tickWait → s.tickByCmd = true) (h : commandTurn s = .next t) :
    CommandEvent s t := by
  unfold commandTurn at h
  split at h
  · obtain rfl := Host.Outcome.next.inj h; exact .inl ⟨silent_of_view rfl, rfl⟩
  split at h
  · rename_i hi
    exact commandEvent_commandTo hby (command_cases (decodeWord_isCommand hi) h)
  · obtain rfl := Host.Outcome.next.inj h; exact .inl ⟨silent_of_view rfl, rfl⟩

/-! ### An edge of `clk` and a step -/

theorem silent_edgeHost {host : Bool} (h : (if host then hostTurn (crossBeats s) else .next (crossBeats s)) = .next u) :
    Silent s u := by
  obtain ⟨_, _, _, _, _, hc⟩ := crossBeats_frame s
  have hcross : Silent s (crossBeats s) := silent_of_view (by rw [hc]; rfl)
  split at h
  · exact hcross.trans (silent_hostTurn h)
  · obtain rfl := Host.Outcome.next.inj h; exact hcross

theorem commandEvent_edgeCommand {command : Bool} (hby : u.cmdPhase = .tickWait → u.tickByCmd = true)
    (h : (if command then (if u.initBusy then initTurn u else commandTurn u) else .next u) = .next v) :
    CommandEvent u v := by
  split at h
  · split at h
    · obtain ⟨_, _, _, _, rfl⟩ := initTurn_frame h
      exact .inl ⟨silent_of_view rfl, rfl⟩
    · exact commandEvent_commandTurn hby h
  · obtain rfl := Host.Outcome.next.inj h; exact .inl ⟨silent_of_view rfl, rfl⟩

/-- The tick path goes on from the stage that the command path left, or does nothing. -/
theorem engineEvent_edgeTick {tick : Bool} (hc : CommandEvent u v)
    (h : (if tick then tickTurn v else .next v) = .next w) : EngineEvent u w := by
  split at h
  · obtain ⟨hevent, hown⟩ := engineEvent_tickTurn h
    obtain ⟨hsilent, hstage⟩ | ⟨hpath, hby⟩ := hc
    · exact hevent.after_silent hsilent hstage
    · exact hown hby ▸ hpath
  · obtain rfl := Host.Outcome.next.inj h; exact hc.engineEvent

/-- An edge of `clk` out of reset: one transition of the engine's paths at most publishes, and then the overload channel
crosses. -/
theorem clkEdgeTurn_events {host command tick : Bool} (hby : s.cmdPhase = .tickWait → s.tickByCmd = true)
    (hr : s.rstC = false) (h : clkEdgeTurn host command tick s = .next t) :
    ∃ w, EngineEvent s w ∧ OverloadEvent w t := by
  obtain ⟨u, v, w, hu, hv, hw, rfl⟩ := (clkEdgeTurn_eq_next hr).mp h
  obtain ⟨hview, hphase⟩ := edgeHost_frame hu
  have hby' : u.cmdPhase = .tickWait → u.tickByCmd = true := fun hp => by
    rw [tickByCmd_of_tickView hview]
    obtain hsame | hstart := hphase
    · exact hby (hsame ▸ hp)
    · rw [hstart] at hp; cases hp
  have hengine := engineEvent_edgeTick (commandEvent_edgeCommand hby' hv) hw
  exact ⟨w, hengine.after_silent (silent_edgeHost hu) (tickStage_of_tickView hview),
    overloadEvent_edgeEnd (s.opened && !s.closing) w⟩

/-- Every turn but the fall of `rst_n`. -/
theorem takeTurn_events {k : Turn} (hk : k ≠ .rstAssert) (hby : s.cmdPhase = .tickWait → s.tickByCmd = true)
    (h : takeTurn k s = .next t) : ∃ w, EngineEvent s w ∧ OverloadEvent w t := by
  cases k with
  | rstAssert => exact absurd rfl hk
  | command => exact ⟨t, (commandEvent_commandTurn hby h).engineEvent, overloadEvent_refl t⟩
  | tick => exact ⟨t, (engineEvent_tickTurn h).1, overloadEvent_refl t⟩
  | clkEdge host command tick =>
    by_cases hr : s.rstC = true
    · obtain rfl := Host.Outcome.next.inj ((if_pos hr).symm.trans h)
      refine ⟨_, .inl (silent_of_view ?_), overloadEvent_refl _⟩
      split <;> rfl
    · exact clkEdgeTurn_events hby (Bool.eq_false_iff.mpr hr) h
  | overloadCross =>
    obtain rfl := Host.Outcome.next.inj h
    refine ⟨s, .inl (silent_of_view rfl), ?_⟩
    split
    · exact overloadEvent_refl s
    · exact overloadEvent_crossOneChange s
  | _ => exact ⟨t, .inl (silent_takeTurn rfl (by simp) h), overloadEvent_refl t⟩

theorem eventsCaused_step (hq : Sequencer s) (hreset : ∀ rest, s.sched ≠ .rstAssert :: rest) (h : step s = .next t) :
    EventsCaused s t := by
  obtain rfl | ⟨k, q, hk, hrst⟩ := step_eq_takeTurn h
  · exact eventsCaused_of_silent (silent_of_view rfl) (overloadEvent_refl t)
  · have hnot : k ≠ .rstAssert := fun e => (hrst e).elim hreset
    have hby : s.cmdPhase = .tickWait → s.tickByCmd = true := fun hp => by rw [hq.byCommand, hp]; rfl
    obtain ⟨w, hevent, hoverload⟩ := takeTurn_events (s := { s with sched := q }) hnot hby hk
    have hcaused : EventsCaused { s with sched := q } t :=
      hevent.elim (eventsCaused_of_silent · hoverload) (eventsCaused_of_publication · hoverload)
    exact { hcaused with }

/-- The line is the level of the enabled status bits. -/
theorem irq_eq (h : s.inReset = false) :
    s.irq = ((s.irqStatus.getLsbD 0 && s.irqEnable.getLsbD 0) || (s.irqStatus.getLsbD 1 && s.irqEnable.getLsbD 1)) := by
  have hbits : ∀ q m : BitVec 2,
      (q &&& m != 0#2) = ((q.getLsbD 0 && m.getLsbD 0) || (q.getLsbD 1 && m.getLsbD 1)) := by decide
  rw [State.irq, h, Bool.not_false, Bool.true_and, hbits]

/-- Settles O52: a turn is an engine transition, silent but for a publication, and a crossing, which raises `OVL` as it counts. -/
theorem interruptsHaveTheirEvents : Obligations.InterruptsHaveTheirEvents := by
  unfold Obligations.InterruptsHaveTheirEvents
  refine ⟨fun s t hq hreset h => ?_, fun s => ⟨fun hr => ?_, irq_eq⟩⟩
  · obtain ⟨hspec, hoverload, hcount⟩ := eventsCaused_step hq hreset h
    exact ⟨hspec, hoverload, hcount⟩
  · rw [State.irq, hr]; rfl

end Sys2Proof.Machine
end

section
/-! PROOFS. The reason codes (60 R340, R341, R344). At its first transition a command fails for every cause it has, and fails for
nothing else in any transition; a later transition finds no cause, because a command makes its checks in its first. -/

namespace Sys2Proof.Machine

open Sys2Proof.Safety

variable {s t : State} {i : Instr} {r : Reason}

/-! ### The causes of 60 R341 -/

/-- Why the command `i` reports a reason other than `OK`. The order of 60 R344 is in them: an operand counts only while the gate
lets the command run, and the gate of the ring only for a matching length. -/
def FailureCause (s : State) (i : Instr) : Reason → Prop
  | .wrongState => closedOnly i = true ∧ s.opened = true
  | .configZero => isSizeCommand i = true ∧ s.opened = false ∧ s.curArg.toNat = 0
  | .configRange =>
    isSizeCommand i = true ∧ s.opened = false ∧ s.curArg.toNat ≠ 0 ∧ s.params.nmax < roundup s.curArg.toNat
  | .sizeMismatch => s.opened = false ∧ ∃ n, blockLength s i = some n ∧ s.curArg.toNat ≠ n
  | .notReady => i = .rbReadall ∧ s.opened = false ∧ s.curArg.toNat = s.rbCap ∧ s.rbGate = false
  | .ok | .illegalCmd => False

/-- Only a command that the gate stops while Open has a cause to fail. -/
theorem closedOnly_of_cause (h : FailureCause s i r) : closedOnly i = true := by
  cases r with
  | wrongState => exact h.1
  | configZero | configRange =>
    obtain ⟨hi, -⟩ := h
    cases i with
    | rbResize | fftSetsize | winSetsize | engSetsize => rfl
    | _ => cases hi
  | sizeMismatch =>
    obtain ⟨-, n, hi, -⟩ := h
    cases i with
    | rbReadall | fftProcess | winProcess | shift | logpow => rfl
    | _ => cases hi
  | notReady => obtain ⟨rfl, -⟩ := h; rfl
  | ok | illegalCmd => cases h

/-- `TICK_ONCE` has no operand, so only the gate stops it. -/
theorem opened_of_cause_tickOnce (h : FailureCause s .tickOnce r) : s.opened = true := by
  cases r with
  | wrongState => exact h.2
  | configZero | configRange => cases h.1
  | sizeMismatch => obtain ⟨-, n, hn, -⟩ := h; cases hn
  | notReady => cases h.1
  | ok | illegalCmd => cases h

/-! ### A cause makes a command fail at its first transition -/

theorem sizeFailures_start (hp : s.cmdPhase = .start) (hi : isSizeCommand i = true) : SizeFailures i s := by
  cases i with
  | rbResize => exact sizeFailures_of_withSize (exec_rbResize_eq s)
  | fftSetsize => exact sizeFailures_of_withSize (exec_fftSetsize_eq s)
  | winSetsize => exact sizeFailures_of_withSize (exec_winSetsize_start hp)
  | engSetsize => exact sizeFailures_of_withSize (exec_engSetsize_start hp)
  | _ => cases hi

theorem lengthFailures_start {n : Nat} (hp : s.cmdPhase = .start) (hi : blockLength s i = some n) :
    LengthFailures i n s := by
  cases i with
  | rbReadall => cases hi; exact lengthFailures_of_withLength (exec_rbReadall_eq s)
  | fftProcess fwd => cases hi; exact lengthFailures_of_withLength (exec_fftProcess_eq fwd s)
  | winProcess => cases hi; exact lengthFailures_of_withLength (exec_winProcess_eq s)
  | shift => cases hi; exact lengthFailures_of_withLength (exec_shift_eq s)
  | logpow => cases hi; exact lengthFailures_of_withLength (exec_logpow_start hp)
  | _ => cases hi

theorem exec_of_cause (hp : s.cmdPhase = .start) (h : FailureCause s i r) : exec i s = .next (ended s r 0) := by
  cases r with
  | wrongState =>
    obtain ⟨hi, ho⟩ := h
    exact exec_closedOnly_opened hp hi ho
  | configZero =>
    obtain ⟨hi, ho, h0⟩ := h
    obtain ⟨-, hzero, -⟩ := sizeFailures_start hp hi
    exact hzero ho h0
  | configRange =>
    obtain ⟨hi, ho, h0, hmax⟩ := h
    obtain ⟨-, -, hrange⟩ := sizeFailures_start hp hi
    exact hrange ho h0 hmax
  | sizeMismatch =>
    obtain ⟨ho, n, hi, hn⟩ := h
    obtain ⟨-, hlength⟩ := lengthFailures_start hp hi
    exact hlength ho hn
  | notReady =>
    obtain ⟨rfl, ho, hn, hg⟩ := h
    rw [exec_rbReadall_eq, withLength_accepted ⟨ho, hn⟩]
    exact if_pos hg
  | ok | illegalCmd => cases h

/-! ### A command that ends reports `OK` or a cause -/

/-- `i` is not between transitions that follow its checks. -/
structure Begins (s : State) (i : Instr) : Prop where
  filling : i = .winSetsize ∨ i = .engSetsize → ∀ c k, s.cmdPhase ≠ .winFill c k
  logging : i = .logpow → ∀ k, s.cmdPhase ≠ .logFill k

theorem tickStep_busy (h : tickStep s = .next t) : t.busy = s.busy := by
  obtain hview | ⟨-, rfl⟩ := tickStep_publishes h
  · exact congrArg Prod.snd hview
  · obtain ⟨k, p, hp⟩ := publish_frame s
    rw [hp]

/-- A command that ends has done what it is for, or it fails for a cause with no other state change (60 R340). -/
theorem command_ends (hb : s.busy = true) (h : CommandTo s i t) (he : t.busy = false) :
    t.resReason = .ok ∨ ∃ r, t = ended s r 0 ∧ FailureCause s i r ∧ (s.opened = true ∨ Begins s i) := by
  have hends : t.busy ≠ s.busy := by rw [hb, he]; exact Bool.false_ne_true
  cases h with
  | wrongState hi ho => exact .inr ⟨.wrongState, rfl, ⟨hi, ho⟩, .inl ho⟩
  | sizeError hi ho hr hp =>
    have hbegins : Begins s i := ⟨hp, fun h => by rw [h] at hi; cases hi⟩
    obtain ⟨h0, rfl⟩ | ⟨h0, hmax, rfl⟩ := sizeRequest_error.mp hr
    · exact .inr ⟨.configZero, rfl, ⟨hi, ho, h0⟩, .inr hbegins⟩
    · exact .inr ⟨.configRange, rfl, ⟨hi, ho, h0, hmax⟩, .inr hbegins⟩
  | sizeMismatch hi ho hn hp =>
    have hbegins : Begins s i := ⟨fun h => (by obtain rfl | rfl := h <;> cases hi), hp⟩
    exact .inr ⟨.sizeMismatch, rfl, ⟨ho, _, hi, hn⟩, .inr hbegins⟩
  | notReady ho hn hg => exact .inr ⟨.notReady, rfl, ⟨rfl, ho, hn, hg⟩, .inr ⟨by simp, by simp⟩⟩
  | resize _ _ hf | readall _ _ _ hf | engDone _ _ hf => exact .inl (resReason_of_freezeTo hf)
  | tickRuns _ _ ht => exact absurd (tickStep_busy ht) hends
  | freezeWait | fillStart | fill | closeStart | closeWaits | tickStart | lockTaken | lockWait | logEntry =>
    exact absurd rfl hends
  | _ => exact .inl rfl

/-- At its first transition a command reports exactly its cause. -/
theorem resReason_iff_cause (hp : s.cmdPhase = .start) (hb : s.busy = true) (hi : isCommand i = true)
    (h : exec i s = .next t) (he : t.busy = false) (hr : r ≠ .ok) : t.resReason = r ↔ FailureCause s i r := by
  constructor
  · rintro rfl
    obtain hok | ⟨r, rfl, hcause, -⟩ := command_ends hb (command_cases hi h) he
    · exact absurd hok hr
    · exact hcause
  · intro hcause
    obtain rfl := Host.Outcome.next.inj (h.symm.trans (exec_of_cause hp hcause))
    rfl

/-- A command that has begun has no cause to fail: its later transitions belong to a command whose checks passed. -/
theorem no_cause_later (hq : Sequencer s) (hp : s.cmdPhase ≠ .start) (hd : decodeWord s.curWord = .ok i)
    (hc : FailureCause s i r) (hbegin : s.opened = true ∨ Begins s i) : False := by
  have hclose : s.cmdPhase ≠ .closeWait := fun hw => by
    obtain rfl := Except.ok.inj (hd.symm.trans (hq.leaving hw).1)
    cases closedOnly_of_cause hc
  obtain ho | hbegin := hbegin
  · exact (phase_of_opened hq ho).elim hp hclose
  · cases hw : s.cmdPhase with
    | start => exact hp hw
    | closeWait => exact hclose hw
    | winFill c k =>
      obtain ⟨hword, -⟩ := hq.filling c k hw
      rw [hd] at hword
      exact hbegin.filling (hword.imp Except.ok.inj Except.ok.inj) c k hw
    | logFill k =>
      obtain ⟨hword, -⟩ := hq.logging k hw
      exact hbegin.logging (Except.ok.inj (hd.symm.trans hword)) k hw
    | tickWait =>
      obtain ⟨hword, ho⟩ := hq.ticking hw
      obtain rfl := Except.ok.inj (hd.symm.trans hword)
      rw [opened_of_cause_tickOnce hc] at ho
      cases ho

/-- A word that is no command has begun nothing. -/
theorem phase_of_illegal {e : DecodeError} (hq : Sequencer s) (hd : decodeWord s.curWord = .error e) :
    s.cmdPhase = .start := by
  have hnone : ∀ i, decodeWord s.curWord ≠ .ok i := by simp [hd]
  cases hw : s.cmdPhase with
  | start => rfl
  | winFill c k => exact ((hq.filling c k hw).1.elim (hnone _) (hnone _)).elim
  | logFill k => exact (hnone _ (hq.logging k hw).1).elim
  | tickWait => exact (hnone _ (hq.ticking hw).1).elim
  | closeWait => exact (hnone _ (hq.leaving hw).1).elim

/-- A turn that ends a command is a transition of the command that the word names, or the failure of a word that names none. -/
theorem commandTurn_ends (hb : s.busy = true) (h : commandTurn s = .next t) (he : t.busy = false) :
    (∃ i, decodeWord s.curWord = .ok i ∧ exec i s = .next t) ∨
      ((∃ e, decodeWord s.curWord = .error e) ∧ t = ended s .illegalCmd 0) := by
  unfold commandTurn at h
  split at h
  · obtain rfl := Host.Outcome.next.inj h
    exact absurd (hb.symm.trans he) Bool.noConfusion
  split at h
  · exact .inl ⟨_, ‹_›, h⟩
  · exact .inr ⟨⟨_, ‹_›⟩, (Host.Outcome.next.inj h).symm⟩

/-- Settles O9: a cause makes the first transition fail, only a cause makes any transition fail, and none is left later. -/
theorem reasonCodesHaveTheirCauses : Obligations.ReasonCodesHaveTheirCauses := by
  unfold Obligations.ReasonCodesHaveTheirCauses
  refine ⟨fun s t hp _ _ hb h he => ?first, fun i s t hi hb h he hr => ?fails, fun s t hq hp h he => ?later⟩
  case first =>
    obtain ⟨i, hd, hexec⟩ | ⟨⟨e, hd⟩, rfl⟩ := commandTurn_ends hb h he
    · have hcause : ∀ {r : Reason}, r ≠ .ok → (t.resReason = r ↔ FailureCause s i r) :=
        resReason_iff_cause hp hb (decodeWord_isCommand hd) hexec he
      have hlegal : ¬ ∃ e, decodeWord s.curWord = .error e := by rw [hd]; rintro ⟨e, he⟩; cases he
      refine ⟨iff_of_false (fun hr => (hcause (by simp)).mp hr) hlegal, fun j hj => ?_⟩
      obtain rfl := Except.ok.inj (hd.symm.trans hj)
      exact ⟨hcause (by simp), hcause (by simp), hcause (by simp), hcause (by simp), hcause (by simp)⟩
    · exact ⟨iff_of_true rfl ⟨e, hd⟩, fun i hi => by rw [hd] at hi; cases hi⟩
  case fails =>
    obtain hok | ⟨r, rfl, -⟩ := command_ends hb (command_cases hi h) he
    · exact absurd hok hr
    · rfl
  case later =>
    have hb : s.busy = true := (hq.begun hp).1
    obtain ⟨i, hd, hexec⟩ | ⟨⟨e, hd⟩, -⟩ := commandTurn_ends hb h he
    · obtain hok | ⟨r, -, hcause, hbegin⟩ := command_ends hb (command_cases (decodeWord_isCommand hd) hexec) he
      · exact hok
      · exact (no_cause_later hq hp hd hcause hbegin).elim
    · exact absurd (phase_of_illegal hq hd) hp

end Sys2Proof.Machine
end

section
/-! PROOFS. The block never stops inside the clock-ratio bound (40 R173, 60 R340; log 7). Of all agents only the producer can stop it,
by a beat or an overload change beyond the bound; every other turn has a next state. -/

namespace Sys2Proof.Machine

open Sys2Proof.Safety

variable {s t : State} {i : Instr} {o : Host.Outcome State Fault Refusal} {room : Prop}

/-! ### The commands and the other agents always answer -/

theorem whileClosed_answers {body : State → Host.Outcome State Fault Refusal} (h : ∃ t, body s = .next t) :
    ∃ t, whileClosed s body = .next t := by
  unfold whileClosed
  split
  · exact ⟨_, rfl⟩
  · exact h

theorem withSize_answers {body : Nat → State → Host.Outcome State Fault Refusal} (h : ∀ c, ∃ t, body c s = .next t) :
    ∃ t, withSize s body = .next t := by
  refine whileClosed_answers ?_
  cases sizeRequest s.params s.argNat with
  | error r => exact ⟨_, rfl⟩
  | ok c => exact h c

theorem withLength_answers {n : Nat} {body : State → Host.Outcome State Fault Refusal} (h : ∃ t, body s = .next t) :
    ∃ t, withLength n s body = .next t := by
  refine whileClosed_answers ?_
  split
  · exact ⟨_, rfl⟩
  · exact h

theorem windowStep_answers {c k : Nat} {commit : State → Host.Outcome State Fault Refusal}
    (h : ∃ t, commit s = .next t) : ∃ t, windowStep c k s commit = .next t := by
  unfold windowStep
  split
  · exact ⟨_, rfl⟩
  · exact h

/-- Every transition of a command has a next state (60 R340). -/
theorem command_answers (hi : isCommand i = true) (s : State) : ∃ t, exec i s = .next t := by
  cases i with
  | rbResize =>
    rw [exec_rbResize_eq]
    exact withSize_answers fun _ => withFreeze_answers s _
  | rbReadall =>
    rw [exec_rbReadall_eq]
    refine withLength_answers ?_
    split
    · exact ⟨_, rfl⟩
    · exact withFreeze_answers s _
  | fftSetsize =>
    rw [exec_fftSetsize_eq]
    exact withSize_answers fun _ => ⟨_, rfl⟩
  | fftProcess fwd =>
    rw [exec_fftProcess_eq]
    exact withLength_answers ⟨_, rfl⟩
  | winProcess =>
    rw [exec_winProcess_eq]
    exact withLength_answers ⟨_, rfl⟩
  | shift =>
    rw [exec_shift_eq]
    exact withLength_answers ⟨_, rfl⟩
  | winSetsize =>
    simp only [exec, execWinSetsize]
    split
    · exact windowStep_answers ⟨_, rfl⟩
    all_goals exact withSize_answers fun _ => ⟨_, rfl⟩
  | engSetsize =>
    simp only [exec, execEngSetsize]
    split
    · exact windowStep_answers (withFreeze_answers s _)
    all_goals exact withSize_answers fun _ => ⟨_, rfl⟩
  | closeEng =>
    simp only [exec, execCloseEng]
    split <;> split <;> exact ⟨_, rfl⟩
  | tickOnce =>
    simp only [exec, execTickOnce]
    split
    · split
      · exact ⟨_, rfl⟩
      · exact tickStep_answers s
    all_goals exact whileClosed_answers ⟨_, rfl⟩
  | logpow =>
    simp only [exec, execLogpow]
    split
    · split <;> exact ⟨_, rfl⟩
    all_goals
      refine withLength_answers ?_
      split <;> exact ⟨_, rfl⟩
  | rbReady | openEng | isOpen => exact ⟨_, rfl⟩
  | busRead | busWrite | put | ovlset => cases hi

theorem commandTurn_answers (s : State) : ∃ t, commandTurn s = .next t := by
  unfold commandTurn
  split
  · exact ⟨_, rfl⟩
  split
  · exact command_answers (decodeWord_isCommand ‹_›) s
  · exact ⟨_, rfl⟩

theorem tickTurn_answers (s : State) : ∃ t, tickTurn s = .next t := by
  unfold tickTurn
  split
  · exact ⟨_, rfl⟩
  · exact tickStep_answers s

theorem initTurn_answers (s : State) : ∃ t, initTurn s = .next t := by
  unfold initTurn
  split
  · exact ⟨_, rfl⟩
  · split <;> exact ⟨_, rfl⟩

theorem freezeTurn_answers (s : State) : ∃ t, freezeTurn s = .next t := by
  unfold freezeTurn
  split
  · exact ⟨_, rfl⟩
  · split <;> exact ⟨_, rfl⟩

theorem hostTurn_answers (s : State) : ∃ t, hostTurn s = .next t := by
  unfold hostTurn
  split
  · exact ⟨_, rfl⟩
  split
  · exact ⟨_, rfl⟩
  split
  · rename_i hi
    obtain ⟨a, rfl⟩ | ⟨a, v, b, rfl⟩ := decodeBus_eq_ok hi
    · exact execBusRead_answers a _
    · exact execBusWrite_answers a v b _
  · exact ⟨_, rfl⟩

theorem clkEdgeTurn_answers (host command tick : Bool) (s : State) : ∃ t, clkEdgeTurn host command tick s = .next t := by
  by_cases hr : s.rstC = true
  · exact ⟨_, if_pos hr⟩
  · have hhost : ∃ u, (if host then hostTurn (crossBeats s) else .next (crossBeats s)) = .next u := by
      split
      · exact hostTurn_answers _
      · exact ⟨_, rfl⟩
    obtain ⟨u, hu⟩ := hhost
    have hcommand : ∃ v, (if command then (if u.initBusy then initTurn u else commandTurn u) else .next u) = .next v := by
      split
      · split
        · exact initTurn_answers u
        · exact commandTurn_answers u
      · exact ⟨_, rfl⟩
    obtain ⟨v, hv⟩ := hcommand
    have htick : ∃ w, (if tick then tickTurn v else .next v) = .next w := by
      split
      · exact tickTurn_answers v
      · exact ⟨_, rfl⟩
    obtain ⟨w, hw⟩ := htick
    exact ⟨_, (clkEdgeTurn_eq_next (Bool.eq_false_iff.mpr hr)).mpr ⟨u, v, w, hu, hv, hw, rfl⟩⟩

/-! ### The producer answers within the bound -/

/-- The outcome is no refusal, and given `room` it is a next state. -/
structure Answers (room : Prop) (o : Host.Outcome State Fault Refusal) : Prop where
  notRefused : ∀ r, o ≠ .refused r
  next : room → ∃ t, o = .next t

theorem answers_of_next (h : ∃ t, o = .next t) : Answers room o where
  notRefused r hr := by obtain ⟨t, ht⟩ := h; rw [ht] at hr; cases hr
  next _ := h

theorem answers_fault {f : Fault} (h : ¬ room) : Answers room (.fault f) where
  notRefused _ hr := by cases hr
  next hroom := absurd hroom h

theorem answers_andThen {f : State → Host.Outcome State Fault Refusal} (h : Answers room o)
    (hf : ∀ t, o = .next t → Answers room (f t)) : Answers room (andThen o f) := by
  cases o with
  | next t => exact hf t rfl
  | fault r => exact answers_fault fun hroom => (h.next hroom).elim fun _ ht => nomatch ht
  | refused r => exact absurd rfl (h.notRefused r)

/-- Fewer than `2^(CW-1)` beats and overload changes are under way, one more counted; the beats count only while no resize has
suspended the crossing (40 R173, R176; 43 R321). -/
structure WithinBound (s : State) : Prop where
  beats : s.clrReq = true ∨ s.beatsInFlight + 1 < 2 ^ (s.params.cw - 1)
  changes : s.changesInFlight + 1 < 2 ^ (s.params.cw - 1)

theorem acceptBeat_within {x : Sample}
    (h : room → s.clrReq = true ∨ s.beatsInFlight + 1 < 2 ^ (s.params.cw - 1)) : Answers room (acceptBeat x s) := by
  unfold acceptBeat
  split
  · exact answers_of_next ⟨_, rfl⟩
  split
  · rename_i hover
    obtain ⟨hclr, hover⟩ := hover
    exact answers_fault fun hroom => (h hroom).elim (by simp [hclr]) (Nat.not_lt.mpr hover)
  · exact answers_of_next ⟨_, rfl⟩

theorem overloadUpdate_within {b : Bool} (h : room → s.changesInFlight + 1 < 2 ^ (s.params.cw - 1)) :
    Answers room (overloadUpdate b s) := by
  unfold overloadUpdate
  split
  · exact answers_of_next ⟨_, rfl⟩
  split
  · rename_i hover
    exact answers_fault fun hroom => Nat.not_lt.mpr hover (h hroom)
  · exact answers_of_next ⟨_, rfl⟩

theorem beatTurn_within (h : room → WithinBound s) : Answers room (beatTurn s) := by
  unfold beatTurn
  split
  · exact answers_of_next ⟨_, rfl⟩
  split
  · exact answers_of_next ⟨_, rfl⟩
  split
  · rename_i hi
    obtain ⟨-, rfl⟩ := decodeSample_eq_ok hi
    split
    · simp only [exec, execPut]
      split
      · exact answers_of_next ⟨_, rfl⟩
      · exact answers_andThen (acceptBeat_within fun hroom => (h hroom).beats) fun _ _ => answers_of_next ⟨_, rfl⟩
    · exact answers_of_next ⟨_, rfl⟩
  · exact answers_of_next ⟨_, rfl⟩

theorem overloadEdge_within (h : room → s.changesInFlight + 1 < 2 ^ (s.params.cw - 1)) :
    Answers room (overloadEdge s) := by
  unfold overloadEdge
  split
  · exact answers_of_next ⟨_, rfl⟩
  split
  · rename_i hi
    obtain ⟨-, rfl⟩ := decodeOverload_eq_ok hi
    simp only [exec, execOvlset]
    split
    · exact answers_of_next ⟨_, rfl⟩
    · exact overloadUpdate_within h
  · exact answers_of_next ⟨_, rfl⟩

theorem sampleEdge_within (h : room → s.clrReq = true ∨ s.beatsInFlight + 1 < 2 ^ (s.params.cw - 1)) :
    Answers room (sampleEdge s) := by
  unfold sampleEdge
  split
  · exact answers_of_next ⟨_, rfl⟩
  split
  · exact answers_of_next ⟨_, rfl⟩
  split
  · exact acceptBeat_within h
  · exact answers_of_next ⟨_, rfl⟩

/-- The sample channel leaves the overload channel its room. -/
theorem wrEdgeTurn_within (h : room → WithinBound s) : Answers room (wrEdgeTurn s) := by
  unfold wrEdgeTurn
  split
  · exact answers_of_next ⟨_, rfl⟩
  · refine answers_andThen (answers_andThen (sampleEdge_within fun hroom => (h hroom).beats) fun u hu => ?_)
      fun _ _ => answers_of_next ⟨_, rfl⟩
    obtain ⟨_, _, _, _, rfl⟩ := sampleEdge_writes hu
    exact overloadEdge_within fun hroom => (h hroom).changes

/-! ### A step -/

theorem takeTurn_within (k : Turn) (h : room → WithinBound s) : Answers room (takeTurn k s) := by
  cases k with
  | host => exact answers_of_next (hostTurn_answers s)
  | beat => exact beatTurn_within h
  | overload =>
    simp only [takeTurn, overloadTurn]
    split
    · exact answers_of_next ⟨_, rfl⟩
    · exact overloadEdge_within fun hroom => (h hroom).changes
  | command => exact answers_of_next (commandTurn_answers s)
  | tick => exact answers_of_next (tickTurn_answers s)
  | init => exact answers_of_next (initTurn_answers s)
  | freeze => exact answers_of_next (freezeTurn_answers s)
  | wrEdge => exact wrEdgeTurn_within h
  | clkEdge host command tick => exact answers_of_next (clkEdgeTurn_answers host command tick s)
  | beatCross | overloadCross | wrStop | wrStart | rstAssert | rstRelease => exact answers_of_next ⟨_, rfl⟩

theorem step_within (s : State) : Answers (WithinBound s) (step s) := by
  unfold step
  split
  · exact takeTurn_within _ fun hroom => ⟨hroom.beats, hroom.changes⟩
  split
  · exact takeTurn_within _ id
  · exact answers_of_next ⟨_, rfl⟩

/-- Settles O7: only a beat and an overload change beyond the bound have no next state, and these are faults. -/
theorem neverStopsWithinClockRatio : Obligations.NeverStopsWithinClockRatio := by
  unfold Obligations.NeverStopsWithinClockRatio
  exact ⟨fun s => (step_within s).notRefused, fun s hbeats hchanges => (step_within s).next ⟨hbeats, hchanges⟩⟩

end Sys2Proof.Machine
end

section
/-! PROOFS. Events that fall on one edge of `clk` (60 R345, R353; logs 10, 11): the edge as its substeps in their order, each
by the rule of its transition, and what the end of the edge leaves of them. -/

namespace Sys2Proof.Machine

open Sys2Proof.Safety

variable {s t u v w : State} {rest : List Turn}

/-! ### The parts of an edge -/

/-- The state with other values of what a crossing of beats writes. -/
def State.withRing (a : Nat) (g : Bool) (c q : Nat) (d : List Nat) (s : State) : State :=
  { s with rbAcc := a, rbGate := g, rbWcur := c, wsyncQ := q, wsync := d }

theorem crossBeats_withRing (s : State) : ∃ a g c q d, crossBeats s = s.withRing a g c q d := crossBeats_frame s

/-- The beats that cross at an edge fill the ring: they count for a gate check at the same edge. -/
theorem crossBeats_fills (hclr : s.clrReq = false)
    (h : s.rbCap ≤ s.rbAcc + counterDelta s.params.cw (gray2bin s.params.cw (syncOut 0 s.wsync)) s.wsyncQ) :
    ∃ a c q d, crossBeats s = s.withRing a true c q d := by
  unfold crossBeats
  rw [takeCursor_eq, if_neg (by simp [hclr]), Nat.min_eq_left h, decide_eq_true rfl]
  exact ⟨_, _, _, _, rfl⟩

/-- An edge of `clk` out of reset, from the crossing of the beats and the three transitions. -/
theorem step_clkEdge {host command tick : Bool} {r : State} (hs : s.sched = .clkEdge host command tick :: rest)
    (hr : s.rstC = false) (hcross : crossBeats (s.withSched rest) = r)
    (hu : (if host then hostTurn r else .next r) = .next u)
    (hv : (if command then (if u.initBusy then initTurn u else commandTurn u) else .next u) = .next v)
    (hw : (if tick then tickTurn v else .next v) = .next w) :
    step s = .next (coreHandshake (timerEdge (s.opened && !s.closing) (crossOverload w))) := by
  subst hcross
  exact (step_scheduled hs).trans ((clkEdgeTurn_eq_next (s := s.withSched rest) hr).mpr ⟨u, v, w, hu, hv, hw, rfl⟩)

/-- The command's transition on an edge, once the initialisation is over. -/
theorem edgeCommand_of_ok {i : Instr} (hr : u.rstC = false) (hi : u.initBusy = false) (hb : u.busy = true)
    (hd : decodeWord u.curWord = .ok i) : (if u.initBusy then initTurn u else commandTurn u) = exec i u :=
  (if_neg (Bool.eq_false_iff.mp hi)).trans (commandTurn_of_ok hr hi hb hd)

/-- The host writes a register. -/
theorem hostTurn_writes {a : BitVec 21} {x : Word} {q : List BusSignals} {r : Reg}
    (hq : s.busQ = ⟨true, true, a, x, 0b1111⟩ :: q) (hr : s.inReset = false) (ha : regAt a.toNat = some r)
    (hw : r.writable = true) : hostTurn s = .next ({ s with busQ := q }.writeReg x r) := by
  rw [hostTurn_of_offer hq rfl, if_neg (by simp [hr])]
  exact exec_busWrite_reg x ha hw

/-- A write of `CMD` while a command is in progress (60 R342). -/
theorem hostTurn_overruns {x : Word} {q : List BusSignals} (hq : s.busQ = ⟨true, true, 0x00C, x, 0b1111⟩ :: q)
    (hr : s.inReset = false) (hb : s.busy = true) :
    hostTurn s = .next { s with busQ := q, err := s.err ||| 1#2 } :=
  (hostTurn_writes (r := .cmd) hq hr rfl rfl).trans
    (congrArg Host.Outcome.next (issueCommand_busy (s := { s with busQ := q }) hb x))

/-- What the end of an edge writes. -/
theorem edgeEnd_frame (c : Bool) (s : State) :
    ∃ oc os q n k b p m a, coreHandshake (timerEdge c (crossOverload s)) = { s with
      ovlCnt := oc, ovlSync := os, irqStatus := q, timerCnt := n, tickStage := k, tickByCmd := b, tickPending := p
      settleCnt := m, ackSync := a } := by
  obtain ⟨n, k, b, p, h⟩ := timerEdge_frame c (crossOverload s)
  rw [h, crossOverload_frame]
  exact ⟨_, _, _, _, _, _, _, _, _, rfl⟩

/-- A change that the core domain sees at the end of an edge raises `OVL`, whatever the edge did to it before (60 R353). -/
theorem edgeEnd_raises (c : Bool) (h : gray2bin s.params.cw (syncOut 0 s.ovlSync) ≠ s.ovlCnt) :
    (coreHandshake (timerEdge c (crossOverload s))).irqStatus.getLsbD 1 = true := by
  obtain ⟨n, k, b, p, ht⟩ := timerEdge_frame c (crossOverload s)
  rw [ht, crossOverload_frame]
  simp only [coreHandshake]
  rw [if_pos h]
  simp

/-- The overload channel and the handshake leave the timer's work at the end of an edge. -/
theorem edgeEnd_clockView (c : Bool) (s : State) :
    (coreHandshake (timerEdge c (crossOverload s))).clockView = (timerEdge c s).clockView :=
  timerEdge_congr (t := crossOverload s) c (by rw [crossOverload_frame]; rfl)

/-- A tick that still runs keeps its stage to the end of the edge. -/
theorem edgeEnd_tickStage (c : Bool) (h : s.tickStage ≠ .idle) :
    (coreHandshake (timerEdge c (crossOverload s))).tickStage = s.tickStage :=
  (congrArg (·.2.1.1) (edgeEnd_clockView c s)).trans (timerEdge_sameEngine h c).stage

/-- A publication with no tick pending ends the tick. -/
theorem publish_unpending (hp : s.tickPending = false) :
    publish s = { s with
      lockOwner := .none, snapValid := true, tickCount := s.tickCount + 1, irqStatus := s.irqStatus ||| 1#2
      tickStage := .idle } := by
  rw [publish, tickEnd_eq, if_neg (by simp [hp])]
  rfl

/-- A tick that publishes before the timer expires has ended, so the expiry starts the next tick (60 R345). -/
theorem edgeEnd_after_publish (ho : s.opened = true) (hc : s.closing = false) (hp : s.tickPending = false)
    (hle : s.tickPeriod.toNat ≤ s.timerCnt.toNat + 1) (ht : t = coreHandshake (timerEdge true (crossOverload (publish s)))) :
    t.tickCount = s.tickCount + 1 ∧ t.tickStage = .drain ∧ t.tickPending = false ∧ t.timerCnt = 0 := by
  have hpublish := publish_unpending hp
  have hview := edgeEnd_clockView true (publish s)
  rw [← ht, timerEdge_starts (by rw [hpublish]; exact ho) (by rw [hpublish]; exact hc) (by rw [hpublish]; exact hle)
    (by rw [hpublish]), hpublish] at hview
  simp only [State.clockView, Prod.mk.injEq] at hview
  obtain ⟨⟨-, -, hcnt, -⟩, ⟨hstage, -, hpend⟩, -⟩ := hview
  obtain ⟨_, _, _, _, _, _, _, _, _, hend⟩ := edgeEnd_frame true (publish s)
  refine ⟨?_, hstage, hpend.trans hp, hcnt⟩
  rw [ht, hend, hpublish]

/-! ### The four orders of 60 R345 -/

/-- A write of `CMD` at the edge at which `IS_OPEN` ends. -/
theorem step_overrun {x : Word} {q : List BusSignals} (hr : s.inReset = false) (hi : s.initBusy = false)
    (hb : s.busy = true) (hd : decodeWord s.curWord = .ok .isOpen) (hs : s.sched = .clkEdge true true false :: rest)
    (hq : s.busQ = ⟨true, true, 0x00C, x, 0b1111⟩ :: q) :
    ∃ t, step s = .next t ∧ t.busy = false ∧ t.curWord = s.curWord ∧ t.rval = bitWord s.opened ∧
      t.err = s.err ||| 1#2 := by
  have hrst : s.rstC = false := (Bool.or_eq_false_iff.mp hr).2
  obtain ⟨a, g, c, p, d, hcross⟩ := crossBeats_withRing (s.withSched rest)
  have hhost := hostTurn_overruns (s := (s.withSched rest).withRing a g c p d) hq hr hb
  have hcommand := edgeCommand_of_ok (u := { (s.withSched rest).withRing a g c p d with busQ := q, err := s.err ||| 1#2 })
    hrst hi hb hd
  have hstep := step_clkEdge hs hrst hcross hhost hcommand rfl
  obtain ⟨_, _, _, _, _, _, _, _, _, hend⟩ := edgeEnd_frame _ _
  exact ⟨_, hstep.trans (congrArg _ hend), rfl, rfl, rfl, rfl⟩

/-- A clearing write of `IRQ_STATUS` at the edge at which an overload change crosses. -/
theorem step_overload_wins {x : Word} {q : List BusSignals} (hr : s.inReset = false)
    (hne : gray2bin s.params.cw (syncOut 0 s.ovlSync) ≠ s.ovlCnt) (hs : s.sched = .clkEdge true false false :: rest)
    (hq : s.busQ = ⟨true, true, 0x020, x, 0b1111⟩ :: q) :
    ∃ t, step s = .next t ∧ t.irqStatus.getLsbD 1 = true := by
  obtain ⟨a, g, c, p, d, hcross⟩ := crossBeats_withRing (s.withSched rest)
  have hhost := hostTurn_writes (s := (s.withSched rest).withRing a g c p d) (r := .irqStatus) hq hr rfl rfl
  exact ⟨_, step_clkEdge hs (Bool.or_eq_false_iff.mp hr).2 hcross hhost rfl rfl, edgeEnd_raises _ hne⟩

/-- A tick that publishes at the edge at which the timer expires: the next tick starts directly. -/
theorem step_expiry_after_publish (hr : s.rstC = false) (ho : s.opened = true) (hc : s.closing = false)
    (hby : s.tickByCmd = false) (hp : s.tickPending = false) (ht : s.tickStage = .publish)
    (hle : s.tickPeriod.toNat ≤ s.timerCnt.toNat + 1) (hs : s.sched = .clkEdge false false true :: rest) :
    ∃ t, step s = .next t ∧ t.tickCount = s.tickCount + 1 ∧ t.tickStage = .drain ∧ t.tickPending = false ∧
      t.timerCnt = 0 := by
  obtain ⟨a, g, c, p, d, hcross⟩ := crossBeats_withRing (s.withSched rest)
  have htick := (tickTurn_of_timer (s := (s.withSched rest).withRing a g c p d) hr hby).trans (tickStep_publish ht)
  have hstep := step_clkEdge hs hr hcross rfl rfl htick
  rw [ho, hc] at hstep
  exact ⟨_, hstep, edgeEnd_after_publish (s := (s.withSched rest).withRing a g c p d) ho hc hp hle rfl⟩

/-- A timer's drain at the edge at which the beats that fill the ring cross. -/
theorem step_drain_after_cross (hr : s.rstC = false) (hf : s.freeze = .idle)
    (hfull : s.rbCap ≤ s.rbAcc + counterDelta s.params.cw (gray2bin s.params.cw (syncOut 0 s.wsync)) s.wsyncQ)
    (hby : s.tickByCmd = false) (ht : s.tickStage = .drain) (hn : s.rbCap = s.engN)
    (hs : s.sched = .clkEdge false false true :: rest) :
    ∃ t, step s = .next t ∧ t.drainOk = true ∧ t.rbGate = false ∧ t.tickStage = .window := by
  obtain ⟨a, c, p, d, hcross⟩ := crossBeats_fills (s := s.withSched rest) (freeze_idle_requests hf).2 hfull
  have htick := (tickTurn_of_timer (s := (s.withSched rest).withRing a true c p d) hr hby).trans
    (tickStep_drain_idle ht hn rfl hf)
  have hstep := step_clkEdge hs hr hcross rfl rfl htick
  obtain ⟨_, _, _, _, _, _, _, _, _, hend⟩ := edgeEnd_frame _ _
  exact ⟨_, hstep, by rw [hend], by rw [hend]; rfl, edgeEnd_tickStage _ TickStage.noConfusion⟩

/-- `RB_READALL` at the edge at which the beats that fill the ring cross. -/
theorem step_readall_after_cross (hr : s.rstC = false) (hf : s.freeze = .idle)
    (hfull : s.rbCap ≤ s.rbAcc + counterDelta s.params.cw (gray2bin s.params.cw (syncOut 0 s.wsync)) s.wsyncQ)
    (hi : s.initBusy = false) (hb : s.busy = true) (hd : decodeWord s.curWord = .ok .rbReadall)
    (hlen : LengthAccepted s s.rbCap) (hs : s.sched = .clkEdge false true false :: rest) :
    ∃ t, step s = .next t ∧ t.busy = false ∧ t.resReason = .ok ∧ t.rval = 1 ∧ t.rbGate = false := by
  obtain ⟨a, c, p, d, hcross⟩ := crossBeats_fills (s := s.withSched rest) (freeze_idle_requests hf).2 hfull
  have hcommand := (edgeCommand_of_ok (u := (s.withSched rest).withRing a true c p d) hr hi hb hd).trans
    (exec_rbReadall_idle hlen rfl hf)
  have hstep := step_clkEdge hs hr hcross rfl hcommand rfl
  obtain ⟨_, _, _, _, _, _, _, _, _, hend⟩ := edgeEnd_frame _ _
  exact ⟨_, hstep.trans (congrArg _ hend), rfl, rfl, rfl, rfl⟩

/-- Settles O6: the edge's substeps in their order, of which the host's comes before the engine's, the crossings of the overload
channel and the timer after both, and the crossing of the beats first. -/
theorem sameEdgeOrder : Obligations.SameEdgeOrder := by
  unfold Obligations.SameEdgeOrder
  refine ⟨fun s x q rest hr hi hb hd hs hq => step_overrun hr hi hb hd hs hq,
    fun s x q rest hr hne hs hq => step_overload_wins hr hne hs hq,
    fun s rest hr ho hc hby hp ht hle hs => step_expiry_after_publish hr ho hc hby hp ht hle hs,
    fun s rest hr hf hfull => ⟨fun hby ht hn hs => step_drain_after_cross hr hf hfull hby ht hn hs,
      fun hi hb hd hlen hs => step_readall_after_cross hr hf hfull hi hb hd hlen hs⟩⟩

end Sys2Proof.Machine
end

section
/-! PROOFS. Reset (70 R380, R385): what each agent's turn comes to while a domain is in reset, and how the domains leave it. -/

namespace Sys2Proof.Machine

variable {s : State}

/-! ### A domain in reset takes nothing -/

theorem sReady_in_reset (h : s.inReset = true) : s.sReady = false := by rw [State.sReady, h, Bool.not_true, Bool.and_false]

theorem irq_in_reset (h : s.inReset = true) : s.irq = false := by rw [State.irq, h]; rfl

theorem hostTurn_in_reset (h : s.inReset = true) : hostTurn s = .next s := by
  cases hq : s.busQ with
  | nil => simp only [hostTurn, hq]
  | cons b q => simp only [hostTurn, hq, h, if_true]

theorem exec_put_in_reset (h : s.inReset = true) (re im : F32) : exec (.put re im) s = .next s :=
  exec_put_eq_next.mpr (.inl ⟨.inl (sReady_in_reset h), rfl⟩)

theorem exec_ovlset_in_reset (h : s.inReset = true) (b : Bool) : exec (.ovlset b) s = .next s :=
  exec_ovlset_eq_next.mpr (.inl ⟨h, rfl⟩)

/-! ### The core domain in reset -/

theorem commandTurn_in_reset (hr : s.rstC = true) : commandTurn s = .next s := if_pos (by simp [hr])

theorem tickTurn_in_reset (hr : s.rstC = true) : tickTurn s = .next s := if_pos (by simp [hr])

theorem initTurn_in_reset (hr : s.rstC = true) : initTurn s = .next s := if_pos (by simp [hr])

theorem freezeTurn_in_reset (hr : s.rstC = true) : freezeTurn s = .next s := if_pos hr

/-- The flag of a domain in reset after an edge of its clock: cleared when the pin is high, else still what it was. -/
theorem not_rstN_eq {b : Bool} (hb : b = true) : (!s.rstN) = if s.rstN then false else b := by
  rw [hb]; cases s.rstN <;> rfl

/-- An edge of `clk` in reset ends it exactly when the pin is high. -/
theorem clkEdgeTurn_in_reset (hr : s.rstC = true) (host command tick : Bool) :
    clkEdgeTurn host command tick s = .next { s with rstC := !s.rstN } := by
  rw [clkEdgeTurn, if_pos hr, not_rstN_eq hr]
  split <;> rfl

/-! ### The producer domain in reset -/

/-- What the sample channel still offers after an edge that takes no beat: a record without one is gone, a beat is held. -/
def heldBeats : List SampleSignals → List SampleSignals
  | [] => []
  | p :: q => if p.valid then p :: q else q

theorem sampleEdge_in_reset (h : s.inReset = true) : sampleEdge s = .next { s with beatQ := heldBeats s.beatQ } := by
  cases hq : s.beatQ with
  | nil => rw [sampleEdge_idle (by simp [hq]), hq]; rfl
  | cons p q =>
    cases hv : p.valid with
    | false => rw [sampleEdge_idle (by simp [hq, hv]), hq, heldBeats, hv]; rfl
    | true =>
      rw [sampleEdge_holds hq hv (.inl (sReady_in_reset h)), sReady_in_reset h, heldBeats, hv]; rfl

/-- An overload update offered at an edge in reset is gone and has no effect (log 6). -/
theorem overloadEdge_in_reset (h : s.inReset = true) : overloadEdge s = .next { s with ovlQ := s.ovlQ.tail } := by
  cases hq : s.ovlQ with
  | nil =>
    have hnone : ({ s with ovlQ := [] } : State) = s := by rw [← hq]
    rw [List.tail_nil, hnone, overloadEdge, hq]
  | cons o q =>
    cases hv : o.valid with
    | false => simp [overloadEdge, hq, decodeOverload, hv]
    | true =>
      simp only [overloadEdge, hq, decodeOverload, hv, if_true, List.tail_cons]
      exact exec_ovlset_in_reset (s := { s with ovlQ := q }) h o.value

/-- An edge of `wr_clk` in reset ends it exactly when the pin is high. -/
theorem producerEdge_in_reset (hr : s.rstW = true) : producerEdge s = { s with rstW := !s.rstN } := by
  rw [producerEdge, if_pos hr, not_rstN_eq hr]
  split <;> rfl

theorem wrEdgeTurn_in_reset (hr : s.rstW = true) (hw : s.wrRuns = true) :
    wrEdgeTurn s = .next { s with rstW := !s.rstN, ovlQ := s.ovlQ.tail, beatQ := heldBeats s.beatQ } := by
  have h : s.inReset = true := by rw [State.inReset, hr, Bool.true_or]
  have hover := overloadEdge_in_reset (s := { s with beatQ := heldBeats s.beatQ }) h
  have hedge := producerEdge_in_reset (s := { s with beatQ := heldBeats s.beatQ, ovlQ := s.ovlQ.tail }) hr
  rw [wrEdgeTurn, if_neg (by simp [hw]), sampleEdge_in_reset h, andThen_next, hover, andThen_next, hedge]

/-- Settles O55: the pin's two turns are the model's own; in reset an agent's turn leaves the state, and an edge of a clock is
followed channel by channel. -/
theorem resetAbandonsEverything : Obligations.ResetAbandonsEverything := by
  unfold Obligations.ResetAbandonsEverything
  refine ⟨fun s rest hs => ?asserted,
    fun s h => ⟨sReady_in_reset h, irq_in_reset h, hostTurn_in_reset h, exec_put_in_reset h, exec_ovlset_in_reset h⟩,
    fun s hr => ⟨commandTurn_in_reset hr, tickTurn_in_reset hr, initTurn_in_reset hr, freezeTurn_in_reset hr⟩,
    fun s rest hs => ?released, fun s host command tick rest hr hs => ?clkEdge, fun s rest hr hw hs => ?wrEdge⟩
  case asserted => exact step_scheduled hs
  case released => exact step_scheduled hs
  case clkEdge => exact (step_scheduled hs).trans (clkEdgeTurn_in_reset (s := { s with sched := rest }) hr host command tick)
  case wrEdge => exact (step_scheduled hs).trans (wrEdgeTurn_in_reset (s := { s with sched := rest }) hr hw)

end Sys2Proof.Machine
end

section
/-! PROOFS. The initialisation after reset (70 R381, R382). As in the window commands, the coefficients written so far are a
function of their number (`filled`), and each transition adds one. -/

namespace Sys2Proof.Machine

open Sys2Proof.Safety

variable {s : State} {k : Nat}

/-! ### One transition -/

theorem ownTurn_init (hr : s.rstC = false) (hi : s.initBusy = true) : ownTurn s = some .init := by
  simp [ownTurn, hr, hi]

theorem step_own_init (hr : s.rstC = false) (hi : s.initBusy = true) (hs : s.sched = []) : step s = initTurn s :=
  step_own hs (ownTurn_init hr hi)

theorem initTurn_fill (hr : s.rstC = false) (hi : s.initBusy = true) (hk : s.initPos < s.params.nReset) :
    initTurn s = .next { fillWindow s.params.nReset s.initPos s with initPos := s.initPos + 1 } := by
  rw [initTurn, if_neg (by simp [hr, hi]), if_pos hk]

theorem initTurn_last (hr : s.rstC = false) (hi : s.initBusy = true) (hk : s.params.nReset ≤ s.initPos) :
    initTurn s = .next { s with initBusy := false, busy := false } := by
  rw [initTurn, if_neg (by simp [hr, hi]), if_neg (Nat.not_lt.mpr hk)]

/-! ### The whole run -/

/-- The state once the initialisation has written its first `k` coefficients. -/
def initialised (k : Nat) (s : State) : State := { s with win := (filled s.params.nReset k s).win, initPos := k }

theorem winAt_initialised {i : Nat} (hi : i < k) : (initialised k s).winAt i = wcoef s.params.nReset i := by
  have hfilled : (initialised k s).winAt i = (filled s.params.nReset k s).winAt i := by rw [filled_eq]; rfl
  rw [hfilled, winAt_filled _ _ hi]

theorem step_initialised (hr : s.rstC = false) (hi : s.initBusy = true) (hs : s.sched = []) (hk : k < s.params.nReset) :
    step (initialised k s) = .next (initialised (k + 1) s) :=
  (step_own_init (s := initialised k s) hr hi hs).trans (initTurn_fill hr hi hk)

theorem stepTimes_initialised (hr : s.rstC = false) (hi : s.initBusy = true) (hs : s.sched = []) (hp : s.initPos = 0)
    (hk : k ≤ s.params.nReset) : stepTimes k s = .next (initialised k s) := by
  induction k with
  | zero => rw [stepTimes, initialised, filled, ← hp]
  | succ k ih => exact stepTimes_trans (ih (Nat.le_of_succ_le hk)) (stepTimes_one (step_initialised hr hi hs hk))

/-- From reset, one step for each coefficient and one that ends it. -/
theorem stepTimes_initialisation (P : Params) (e : Nat) :
    stepTimes (P.nReset + 1) (State.resetWith P e) =
      .next { initialised P.nReset (State.resetWith P e) with initBusy := false, busy := false } := by
  have hfill := stepTimes_initialised (s := State.resetWith P e) rfl rfl rfl rfl (Nat.le_refl P.nReset)
  have hlast := (step_own_init (s := initialised P.nReset (State.resetWith P e)) rfl rfl rfl).trans
    (initTurn_last rfl rfl (Nat.le_refl P.nReset))
  exact stepTimes_trans hfill (stepTimes_one hlast)

/-- Settles O56: the transitions one by one, and their run, by induction on the coefficients written. -/
theorem initialisationBuildsWindow : Obligations.InitialisationBuildsWindow := by
  unfold Obligations.InitialisationBuildsWindow
  refine ⟨fun s hr hi => ⟨fun rest hs => step_scheduled hs, step_own_init hr hi, fun hk => ?fill, initTurn_last hr hi⟩,
    fun P e => ?run⟩
  case fill =>
    exact ⟨_, initTurn_fill hr hi hk, winAt_fillWindow_same _ _ s, fun a ha => byteAt_fillWindow_outside ha, rfl⟩
  case run =>
    refine ⟨_, stepTimes_initialisation P e, fun i hi => ?_, rfl⟩
    exact winAt_initialised (s := State.resetWith P e) hi

end Sys2Proof.Machine
end
